-- ==== Sys2Proof/Word.lean ====
section
/-! DEFINITION. The word types of the DT3240 (spec/00_scope.md, Numbers and Units: an octet is 8 bits, a word is 16 bits). -/

namespace Sys2Proof

/-- An octet (00_scope.md, Numbers and Units). -/
abbrev Byte := BitVec 8

/-- A word (00_scope.md, Numbers and Units). -/
abbrev Word := BitVec 16

/-- A scan number: a 32-bit count (R112). -/
abbrev ScanNumber := BitVec 32

/-- A line address 0-31 (R1). -/
abbrev Addr := Fin 32

end Sys2Proof
end

