-- ==== Sys2Proof/Syntax.lean ====
section
/-! DEFINITION. The commands: one constructor per row of spec/opcode_table.json. The rows of the 36 requests and
UNKNOWN_REQUEST are the port's EXECUTION of the record at the head of the request queue (R184); their operands stand in
that record, which firmware built with WINDOW_WRITE and queued with SUBMIT (R183). -/

namespace Sys2Proof

/-- The two field lines (00_scope.md, Names). -/
inductive LineId where
  | a
  | b
deriving DecidableEq, Repr

/-- The direction of a circuit (Table 1-5, Table 5-1). -/
inductive Direction where
  | input
  | output
deriving DecidableEq, Repr

/-- One item of a circuit fault list (Table 1-5). -/
structure FaultItem where
  direction : Direction
  circuit : Fin 32
  code : Byte
  detail : Byte
deriving DecidableEq, Repr

/-- The steps of the part (spec/opcode_table.json, spec/95_what_each_step_holds.md). A row that names a frame kind is
a whole frame of that kind, with a correct length and check and the own address as its destination, received on a line;
`source` is its source octet. -/
inductive Instr where
  -- resets and the RESTART line
  | powerOnReset
  | restartLine
  -- window accesses
  | submit
  | outputCommit
  | responseTaken
  /-- One window access that writes the octets `data` from `offset` on: one octet, or one word. -/
  | windowWrite (offset : Nat) (data : List Byte)
  -- executions of the head request (R184)
  | start
  | stop
  | resume
  | restart
  | stageBegin
  | stageStation
  | stageRemove
  | stageCommit
  | stageAbort
  | readStaged
  | setLineSetup
  | readLineSetup
  | setProfile
  | readProfile
  | setAction
  | readAction
  | setOutputRefresh
  | setServicePermit
  | readEntry
  | readLineState
  | readCondition
  | readConditionRef
  | ackCondition
  | ackAll
  | readTableState
  | clearOverflow
  | setOverride
  | removeOverride
  | removeStationOverrides
  | removeAllOverrides
  | readOverride
  | stationRead
  | stationWrite
  | cancelTransaction
  | readSession
  | endSession
  | unknownRequest
  -- frames received
  /-- Any frame: `abandoned`, or received whole with the octets given (Table 12-7, check included). -/
  | frameReceived (line : LineId) (abandoned : Bool) (octets : List Byte)
  | reply (line : LineId) (source : Byte) (tag : Word) (inputs : List Byte) (faultCode : Byte) (more : Bool)
      (items : List FaultItem)
  | identity (line : LineId) (source inputCount inputWidth outputCount outputWidth revision : Byte) (tag : Word)
  | paramAnswer (line : LineId) (source toggle : Byte) (data : List Byte)
  | paramRefuse (line : LineId) (source reason : Byte)
  | openRequest (line : LineId) (source : Byte) (toolTag : Word)
  | keepalive (line : LineId) (source : Byte)
  | close (line : LineId) (source : Byte)
  | serviceReadEntry (line : LineId) (source number address : Byte)
  | serviceReadCondition (line : LineId) (source number position : Byte)
  | serviceSetOverride (line : LineId) (source number station direction circuit : Byte) (value : Word)
  | serviceRemoveOverride (line : LineId) (source number station direction circuit : Byte)
  -- the part's own traffic and clockwork
  | frameSent
  | replyWindowExpiry
  | cycleEnd
  | cyclePeriodExpiry
  | outputRefreshTimerExpiry
  | errorWindowExpiry (line : LineId)
  | withdrawalTimerExpiry (line : LineId)
  | stagingGapTimerExpiry
  | sessionTimerExpiry
  | restartLineRelease
  | frameFirstOctet (line : LineId)
deriving DecidableEq, Repr

end Sys2Proof
end

