-- ==== Sys2Proof/WellFormed.lean ====
section
/-! DEFINITION. When a command is one that the outside can send: a window access is one octet or one word of the
window, and a frame named by its kind fits the frame fields of R128. The meanings are total and do not rely on it. -/

namespace Sys2Proof

/-- A source octet names a line address (R128: source, 0-31). -/
def WellFormed.sourceOk (source : Byte) : Bool := decide (source.toNat < 32)

/-- An access writes one octet or one word (R181); that a word stands at an even offset is the model's choice
(notes/assumptions/36.md). -/
def WellFormed.accessOk (offset : Nat) (data : List Byte) : Bool :=
  data.length == 1 || (data.length == 2 && offset % 2 == 0)

/-- R128: the payload of a frame has at most 80 octets. A REPLY has 4 octets beside its slice and its items (Table 7-3). -/
def WellFormed.replyOk (inputs : List Byte) (items : List FaultItem) : Bool :=
  decide (4 + inputs.length + 3 * items.length ≤ 80)

/-- The check of one command. -/
def Instr.wellFormed : Instr → Bool
  | .windowWrite offset data => WellFormed.accessOk offset data
  | .reply _ source _ inputs _ _ items => WellFormed.sourceOk source && WellFormed.replyOk inputs items
  | .identity _ source _ _ _ _ _ _ => WellFormed.sourceOk source
  | .paramAnswer _ source toggle data =>
    WellFormed.sourceOk source && decide (toggle.toNat < 2) && decide (data.length ≤ 80)
  | .paramRefuse _ source _ => WellFormed.sourceOk source
  | .openRequest _ source _ => WellFormed.sourceOk source
  | .keepalive _ source => WellFormed.sourceOk source
  | .close _ source => WellFormed.sourceOk source
  | .serviceReadEntry _ source _ _ => WellFormed.sourceOk source
  | .serviceReadCondition _ source _ _ => WellFormed.sourceOk source
  | .serviceSetOverride _ source _ _ _ _ _ => WellFormed.sourceOk source
  | .serviceRemoveOverride _ source _ _ _ _ => WellFormed.sourceOk source
  | .powerOnReset | .restartLine | .submit | .outputCommit | .responseTaken
  | .start | .stop | .resume | .restart | .stageBegin | .stageStation | .stageRemove | .stageCommit | .stageAbort
  | .readStaged | .setLineSetup | .readLineSetup | .setProfile | .readProfile | .setAction | .readAction
  | .setOutputRefresh | .setServicePermit | .readEntry | .readLineState | .readCondition | .readConditionRef
  | .ackCondition | .ackAll | .readTableState | .clearOverflow | .setOverride | .removeOverride
  | .removeStationOverrides | .removeAllOverrides | .readOverride | .stationRead | .stationWrite
  | .cancelTransaction | .readSession | .endSession | .unknownRequest
  | .frameReceived _ _ _ | .frameSent | .replyWindowExpiry | .cycleEnd | .cyclePeriodExpiry
  | .outputRefreshTimerExpiry | .errorWindowExpiry _ | .withdrawalTimerExpiry _ | .stagingGapTimerExpiry
  | .sessionTimerExpiry | .restartLineRelease | .frameFirstOctet _ => true

end Sys2Proof
end

