-- ==== Sys2Proof/Config.lean ====
section
/-! DEFINITION. The free values: what the manual leaves open and the machine nevertheless goes on with.
They have no body, so nothing can be proved about which value they take. -/

namespace Sys2Proof

/-- The time, in microseconds, that the part finds at its `n`-th look at the time (notes/assumptions/4.md).
The manual gives the part no clock in its steps, so the reading is free. -/
opaque Config.timeAt : Nat → Nat

/-- A time left on a running timer, in milliseconds, at the `n`-th look, before it is bounded by the time the
timer was started with (notes/assumptions/4.md). -/
opaque Config.timeLeft : Nat → Nat

end Sys2Proof
end

