-- ==== Sys2Proof/Machine/State.lean ====
section
/-! DEFINITION. The state of the DT3240, block by block as Table 0-1 gives it, as plain data, and its value at power-on
reset. What the manual states to be a function of other state at every moment is computed, not stored
(notes/assumptions/15.md). -/

namespace Sys2Proof.Machine

/-! ## Named values (Table 12-4) -/

/-- Operating mode (R152). -/
inductive Mode where
  | offline
  | standby
  | scanning
  | held
deriving DecidableEq, Repr

/-- Width of a direction's circuits (Table 1-3). -/
inductive Width where
  | bit
  | word
deriving DecidableEq, Repr

/-- The line or lines a station is wired to (Table 1-3). -/
inductive Attachment where
  | lineA
  | lineB
  | dual
deriving DecidableEq, Repr

/-- What the published input slice shows while the station is lost (Table 1-3, R13). -/
inductive LossPolicy where
  | holdLast
  | zero
deriving DecidableEq, Repr

/-- Presence state (R1, R6). -/
inductive Presence where
  | absent
  | expected
  | joining
  | present
  | silent
  | lost
  | mismatch
  | conflict
  | extra
  | service
  | own
deriving DecidableEq, Repr

/-- Join origin (R6). -/
inductive JoinOrigin where
  | expected
  | lost
deriving DecidableEq, Repr

/-- The classes of a frame that is an error (R131, R132). -/
inductive ErrorClass where
  | badCheck
  | aborted
  | malformed
  | unsolicited
deriving DecidableEq, Repr

/-- Line state (R126). -/
inductive LineState where
  | disabled
  | quiet
  | active
  | withdrawn
deriving DecidableEq, Repr

/-- Cycle state (R106). -/
inductive CycleState where
  | stopped
  | visiting
  | sessionSlot
  | discoverySlot
  | closing
  | waiting
deriving DecidableEq, Repr

/-- The twelve condition categories (Table 3-2). -/
inductive Category where
  | stationLost
  | stationMismatch
  | addressConflict
  | stationExtra
  | alternateLine
  | stationFault
  | circuitFault
  | forced
  | lineWithdrawn
  | outputsSafe
  | configIncomplete
  | ownAddressConflict
deriving DecidableEq, Repr

/-- Action class (R74). -/
inductive ActionClass where
  | informational
  | diagnostic
  | fatal
deriving DecidableEq, Repr

/-- State of a condition record (section 3.1). -/
inductive RecordState where
  | standing
  | standingAcked
  | ended
deriving DecidableEq, Repr

/-- The place a condition record belongs to (Table 3-1). -/
inductive Origin where
  | part
  | line (l : LineId)
  | station (a : Addr)
deriving DecidableEq, Repr

/-- Owner of an override record, and setter of an override (R91). -/
inductive Owner where
  | controller
  | session
deriving DecidableEq, Repr

/-- Why the most recent session ended (Table 10-4). -/
inductive EndReason where
  | none
  | closed
  | timedOut
  | endedByController
  | locked
  | reconfigured
  | stopped
  | restarted
deriving DecidableEq, Repr

/-- Line rate (Table 7-1). -/
inductive Rate where
  | kbit250
  | kbit500
  | kbit1000
deriving DecidableEq, Repr

/-- Kind of a station transaction (Table 8-1). -/
inductive TransactionKind where
  | read
  | write
deriving DecidableEq, Repr

/-- State of an outstanding transaction (section 8.1). -/
inductive TransactionState where
  | waiting
  | sent
deriving DecidableEq, Repr

/-- Comparison of a staged place with the committed configuration (R162). -/
inductive Comparison where
  | none
  | added
  | removed
  | changed
  | unchanged
deriving DecidableEq, Repr

/-- Frame kinds (Table 7-3). -/
inductive FrameKind where
  | poll
  | reply
  | identify
  | identity
  | paramRead
  | paramWrite
  | paramAnswer
  | paramRefuse
  | openRequest
  | sessionAccept
  | sessionRefuse
  | servicePoll
  | serviceAnswer
deriving DecidableEq, Repr

/-- The request kinds (Table 11-3). -/
inductive RequestKind where
  | start
  | stop
  | resume
  | restart
  | stageBegin
  | stageStation
  | stageRemove
  | stageCommit
  | stageAbort
  | readStaged
  | setLineSetup
  | readLineSetup
  | setProfile
  | readProfile
  | setAction
  | readAction
  | setOutputRefresh
  | setServicePermit
  | readEntry
  | readLineState
  | readCondition
  | readConditionRef
  | ackCondition
  | ackAll
  | readTableState
  | clearOverflow
  | setOverride
  | removeOverride
  | removeStationOverrides
  | removeAllOverrides
  | readOverride
  | stationRead
  | stationWrite
  | cancelTransaction
  | readSession
  | endSession
deriving DecidableEq, Repr

/-- Response statuses (Table 11-4) and completion statuses (Table 8-2). -/
inductive Status where
  | ok
  | wrongMode
  | badOperand
  | notConfigured
  | notFound
  | tableFull
  | ownedElsewhere
  | locked
  | stale
  | stationBusy
  | noSlot
  | stagingOpen
  | noStaging
  | imageOverflow
  | emptyConfiguration
  | fatalStanding
  | configIncomplete
  | addressInUse
  | busy
  | tooLate
  | unknownRequest
  | done
  | timedOut
  | stationLost
  | stationRefused
  | cancelled
  | reconfigured
  | stopped
deriving DecidableEq, Repr

/-! ## Octet areas and timers -/

/-- An octet area: (offset, octet) pairs in one canonical form (`Memory.wf`). An unlisted offset reads 0, the reset
contents of every area of the window (R114, R118, R119, R183). -/
abbrev Memory := List Host.Cell

/-- The canonical form: offsets strictly rising, and no octet listed that an unlisted offset would read. -/
abbrev Memory.wf (m : Memory) : Prop :=
  m.Pairwise (fun c d => c.1 < d.1) ∧ ∀ c ∈ m, c.2 ≠ 0

/-- A timer: stopped, or running with the time it was started with, in milliseconds (notes/assumptions/4.md). -/
abbrev Timer := Option Nat

/-! ## The station roster (chapter 1) -/

/-- A descriptor (Table 1-3). -/
structure Descriptor where
  inputCount : Fin 33
  inputWidth : Width
  outputCount : Fin 33
  outputWidth : Width
  attachment : Attachment
  preferred : LineId
  profile : Fin 4
  lossPolicy : LossPolicy
deriving DecidableEq, Repr

/-- An identity (Table 1-4). -/
structure Identity where
  inputCount : Fin 33
  inputWidth : Width
  outputCount : Fin 33
  outputWidth : Width
  revision : Byte
  tag : Word
deriving DecidableEq, Repr

/-- A reported status (Table 1-5). -/
structure ReportedStatus where
  faultCode : Byte
  items : List FaultItem
  more : Bool
deriving DecidableEq, Repr

/-- Image placement (R18). -/
structure Placement where
  inputOffset : Nat
  inputSize : Nat
  outputOffset : Nat
  outputSize : Nat
deriving DecidableEq, Repr

/-- A roster entry (Table 1-1). Configured is the descriptor's presence; data valid (R13), the override and condition
counts (R14) and the transaction (R15) are computed. -/
structure Entry where
  descriptor : Option Descriptor := none
  presence : Presence := .absent
  joinOrigin : Option JoinOrigin := none
  joinCount : Nat := 0
  missCount : Nat := 0
  activeLine : Option LineId := none
  countdown : Nat := 0
  identity : Option Identity := none
  recordedTag : Option Word := none
  status : Option ReportedStatus := none
  placement : Option Placement := none
deriving DecidableEq, Repr

/-- What the presence supervisor holds for a station beside its entry: the standing fault causes (R51) and the conflict
tags (R32). The circuit faults are kept in the order of R66, each with the detail octet last handed (R37). -/
structure Supervision where
  stationFaults : List Byte := []
  circuitFaults : List FaultItem := []
  conflictTags : Option (Word × Word) := none
deriving DecidableEq, Repr

/-- A supervision profile (Table 2-1). -/
structure Profile where
  joinThreshold : Nat := 2
  lossThreshold : Nat := 3
  replyWindow : Nat := 200
  retries : Nat := 1
  lostProbeInterval : Nat := 4
deriving DecidableEq, Repr

/-! ## The condition table (chapter 3) -/

/-- The key of a cause and of its record (R48). -/
structure Key where
  origin : Origin
  circuit : Option (Direction × Fin 32)
  category : Category
  code : Byte
deriving DecidableEq, Repr

/-- A cause as its source hands it: key and extra data (R51). -/
structure Cause where
  key : Key
  extra : List Byte
deriving DecidableEq, Repr

/-- A condition record (Table 3-1). -/
structure ConditionRecord where
  slot : Fin 64
  generation : Byte
  key : Key
  cls : ActionClass
  latching : Bool
  state : RecordState
  occurrences : Nat
  raisedAt : ScanNumber
  changedAt : ScanNumber
  extra : List Byte
deriving DecidableEq, Repr

/-- An entry of the action map (R74). -/
structure Action where
  cls : ActionClass
  latching : Bool
deriving DecidableEq, Repr

/-- The condition unit. `sweepOwed` is the model's own marker: a record has left the table in the group now being taken,
so the sweep follows it (R65; notes/assumptions/27.md). -/
structure ConditionUnit where
  records : List ConditionRecord
  generations : Vector Byte 64
  actionMap : Vector Action 12
  overflowCount : Nat
  overflowFlag : Bool
  sweepOwed : Bool
deriving DecidableEq, Repr

/-! ## The override table (chapter 5) -/

/-- An override record (Table 5-1). -/
structure OverrideRecord where
  station : Addr
  direction : Direction
  circuit : Fin 32
  value : Word
  owner : Owner
  enteredAt : ScanNumber
deriving DecidableEq, Repr

/-! ## Frames, line engines and the scan engine (chapters 6 and 7) -/

/-- A frame without its length field and check (R128). -/
structure Frame where
  dest : Byte
  source : Byte
  kind : Byte
  toggle : Byte
  payload : List Byte
deriving DecidableEq, Repr

/-- A visit in progress (R24): its address, the attempts it has left after the present one, and the line of its last
normal attempt (none before the first, so also during a return probe). -/
structure Visit where
  address : Addr
  left : Nat
  last : Option LineId
deriving DecidableEq, Repr

/-- A discovery slot in progress (R39, R109): its address, the lines still to be probed, the identity brought, and
whether an OPEN REQUEST was brought and refused. -/
structure Discovery where
  address : Addr
  rest : List LineId
  found : Option Identity
  refused : Bool
deriving DecidableEq, Repr

/-- What the frame in flight was sent for (Table 7-4). In `sessionFrame` the flag says that the slot has nothing left
to do once the frame is sent: a session was opened, or the slot is judged. -/
inductive Job where
  | attempt (v : Visit)
  | exchange (slot : Fin 4) (address : Addr)
  | servicePoll
  | probe (d : Discovery)
  | sessionFrame (d : Discovery) (finished : Bool)
deriving DecidableEq, Repr

/-- How far the frame in flight is: being sent; its reply window running; its window held open by a frame that has begun
(R130). -/
inductive Phase where
  | sending
  | waiting
  | heldOpen
deriving DecidableEq, Repr

/-- The frame given to a line engine, with the length of its reply window in microseconds, none where it opens none
(R129, R130). -/
structure Flight where
  job : Job
  line : LineId
  frame : Frame
  window : Option Nat
  phase : Phase
deriving DecidableEq, Repr

/-- The scan engine (section 6.1). -/
structure ScanEngine where
  cycle : CycleState := .stopped
  number : ScanNumber := 0
  began : Nat := 0
  pointer : Option Addr := none
  buffer : Vector (List Byte) 32 := Vector.replicate 32 []
  published : Memory := []
  live : Memory := []
  layout : Word := 0
  sequence : Word := 65535
  nextAddress : Nat := 0
  flight : Option Flight := none
deriving DecidableEq, Repr

/-- Error totals of a line (R137). -/
structure ErrorTotals where
  badCheck : Nat := 0
  aborted : Nat := 0
  malformed : Nat := 0
  unsolicited : Nat := 0
  withdrawals : Nat := 0
deriving DecidableEq, Repr

/-- A line engine (R126 to R138). `receiving`: the first octet of a frame has arrived that is not yet received whole or
abandoned (R130). -/
structure LineEngine where
  state : LineState := .quiet
  errorCount : Nat := 0
  errorWindow : Timer := none
  withdrawal : Timer := none
  figures : Option (Nat × ErrorClass) := none
  lastError : Option ErrorClass := none
  totals : ErrorTotals := {}
  receiving : Bool := false
deriving DecidableEq, Repr

/-- Line setup (Table 7-1). -/
structure LineSetup where
  rate : Rate := .kbit500
  ownAddress : Addr := 31
  enableA : Bool := true
  enableB : Bool := true
  errorWindow : Nat := 10
  errorLimit : Nat := 12
  withdrawalTime : Nat := 2000
  returnInterval : Nat := 32
  discovery : Bool := true
  cyclePeriod : Nat := 0
deriving DecidableEq, Repr

/-- Own-address detection (R87, R88): the cause stands while `standing` holds the line of the frame that began it. -/
structure OwnDetection where
  seen : Bool := false
  standing : Option LineId := none
deriving DecidableEq, Repr

/-- Output safety (section 4.3). -/
structure OutputSafety where
  limit : Nat := 250
  timer : Timer := none
  standing : Bool := false
deriving DecidableEq, Repr

/-! ## Transactions, configuration, session and port (chapters 8 to 11) -/

/-- An outstanding transaction (Table 8-1). `accepted` is the model's stamp of the order of acceptance
(R149; notes/assumptions/20.md). -/
structure Transaction where
  tag : Byte
  station : Addr
  kind : TransactionKind
  index : Byte
  length : Nat
  data : List Byte
  attempts : Nat
  toggle : Bool
  state : TransactionState
  cancel : Option Byte
  accepted : Nat
deriving DecidableEq, Repr

/-- The transaction unit (R139, R140). -/
structure TransactionUnit where
  slots : Vector (Option Transaction) 4 := Vector.replicate 4 none
  toggles : Vector Bool 32 := Vector.replicate 32 false
  nextStamp : Nat := 0
deriving DecidableEq, Repr

/-- A staging copy: a place for each line address (section 9.3). -/
abbrev StagingCopy := Vector (Option Descriptor) 32

/-- Staging state (Table 9-3), with the copy while it exists and the tag of the request whose commit is pending. -/
inductive Staging where
  | closed
  | opened (copy : StagingCopy)
  | commitPending (tag : Byte) (copy : StagingCopy)
deriving DecidableEq, Repr

/-- The configuration unit beside the committed descriptors, which the roster entries hold (R158, R123). -/
structure ConfigUnit where
  staging : Staging := .closed
  gapTimer : Timer := none
  gapSetting : Nat := 5000
  incomplete : Bool := false
  setup : LineSetup := {}
deriving DecidableEq, Repr

/-- The result of the last executed service request (Table 10-2). -/
structure ServiceResult where
  delivered : Bool
  number : Byte
  kind : RequestKind
  status : Status
  fields : List Byte
deriving DecidableEq, Repr

/-- The fields a session has while it is OPEN (R171). The session timer runs exactly while it is OPEN (R176). -/
structure OpenSession where
  tool : Addr
  line : LineId
  toolTag : Word
  openedAt : ScanNumber
  lastNumber : Option Byte
  result : Option ServiceResult
  timer : Nat
deriving DecidableEq, Repr

/-- The session unit: the session, NONE or OPEN, its last end reason, and the service settings (Tables 10-1, 10-2). -/
structure SessionUnit where
  current : Option OpenSession := none
  lastEnd : EndReason := .none
  permitSessions : Bool := true
  permitOverrides : Bool := false
  sessionTime : Nat := 2000
deriving DecidableEq, Repr

/-- A response record (R189). -/
structure Response where
  tag : Byte
  kind : Byte
  status : Status
  mode : Mode
  result : List Byte
deriving DecidableEq, Repr

/-- The controller port. A queued request record is a copy of the request entry area (R183). -/
structure Port where
  entryArea : Memory := []
  outputArea : Memory := []
  requests : List Memory := []
  responses : List Response := []
  deferred : Nat := 0
  submitRefused : Bool := false
  restartCount : Word := 0
  restartAsserted : Bool := false
deriving DecidableEq, Repr

/-! ## The machine -/

/-- The state of the part. `pending` holds the commands not yet taken, oldest first; `freeReads` counts the free values
drawn so far (notes/assumptions/4.md). -/
structure State where
  pending : List Instr
  mode : Mode
  stopPending : Option Byte
  roster : Vector Entry 32
  supervised : Vector Supervision 32
  profiles : Vector Profile 4
  cond : ConditionUnit
  overrides : List OverrideRecord
  scan : ScanEngine
  lineA : LineEngine
  lineB : LineEngine
  own : OwnDetection
  safety : OutputSafety
  trans : TransactionUnit
  config : ConfigUnit
  session : SessionUnit
  port : Port
  freeReads : Nat
deriving DecidableEq, Repr

/-- The part has no fault: every request is answered with a status (R189) and every frame is classified (R131), so
nothing raises one. -/
inductive Fault where
deriving DecidableEq, Repr

/-- Why a command has no outcome. -/
inductive Refusal where
  /-- Raised by `exec` alone, for a row that has no meaning yet. Safe: nothing is claimed of such a row. -/
  | notModelled (mnemonic : String)
deriving DecidableEq, Repr

/-- The default action map (Table 3-2), in the order of the categories 1 to 12. -/
def defaultActions : Vector Action 12 :=
  #v[⟨.diagnostic, true⟩, ⟨.diagnostic, true⟩, ⟨.diagnostic, true⟩, ⟨.informational, false⟩,
     ⟨.informational, false⟩, ⟨.diagnostic, false⟩, ⟨.diagnostic, false⟩, ⟨.informational, false⟩,
     ⟨.diagnostic, true⟩, ⟨.diagnostic, true⟩, ⟨.diagnostic, true⟩, ⟨.fatal, true⟩]

/-- The condition unit at power-on reset (R73). -/
def ConditionUnit.reset : ConditionUnit :=
  { records := [], generations := Vector.replicate 64 0, actionMap := defaultActions, overflowCount := 0,
    overflowFlag := false, sweepOwed := false }

/-- The machine after power-on reset (R17, R21, R73, R81, R88, R105, R106, R112 to R122, R123, R127, R139, R140, R152,
R158, R169, R171, R182, R183, R186). -/
def State.reset : State :=
  { pending := []
    mode := .offline
    stopPending := none
    roster := (Vector.replicate 32 ({} : Entry)).set 31 { presence := .own }
    supervised := Vector.replicate 32 {}
    profiles := Vector.replicate 4 {}
    cond := ConditionUnit.reset
    overrides := []
    scan := {}
    lineA := {}
    lineB := {}
    own := {}
    safety := {}
    trans := {}
    config := {}
    session := {}
    port := {}
    freeReads := 0 }

end Sys2Proof.Machine
end

