-- ==== Sys2Proof/Machine/Ops.lean ====
section
/-! DEFINITION. The named operations over the octet areas and the pieces of state: every meaning reads and writes State
through these. -/

namespace Sys2Proof.Machine

/-! ## Octet areas -/

/-- The octet at an offset; an unlisted offset reads 0 (R114, R118, R119, R183). -/
def Memory.read : Memory → Nat → Byte
  | [], _ => 0
  | (k, b) :: m, a => if k = a then b else Memory.read m a

/-- Write one octet, keeping the canonical form. -/
def Memory.write : Memory → Nat → Byte → Memory
  | [], a, b => if b = 0 then [] else [(a, b)]
  | (k, c) :: m, a, b =>
    if a < k then (if b = 0 then (k, c) :: m else (a, b) :: (k, c) :: m)
    else if a = k then (if b = 0 then m else (a, b) :: m)
    else (k, c) :: Memory.write m a b

/-- Write consecutive octets from an offset on. -/
def Memory.writeList : Memory → Nat → List Byte → Memory
  | m, _, [] => m
  | m, a, b :: bs => Memory.writeList (Memory.write m a b) (a + 1) bs

/-- The `n` octets from an offset on. -/
def Memory.readList (m : Memory) (a n : Nat) : List Byte :=
  (List.range n).map (fun i => m.read (a + i))

/-! ## Circuits in a slice (R18, R192) -/

/-- The octet whose bit `i` is `f i`, bit 0 the least significant (R192). -/
def octetOfBits (f : Nat → Bool) : Byte :=
  BitVec.ofNat 8 ((List.range 8).foldl (fun acc i => acc + (if f i then 2 ^ i else 0)) 0)

/-- A word from its low and high octet (R192). -/
def wordOf (low high : Byte) : Word := high ++ low

/-- The low octet of a word (R192). -/
def lowOctet (w : Word) : Byte := w.setWidth 8

/-- The high octet of a word (R192). -/
def highOctet (w : Word) : Byte := (w >>> 8).setWidth 8

/-- The value at circuit `n` of the slice that starts at offset `off` (R18, R192): a BIT value is 0 or 1. -/
def Memory.readCircuit (m : Memory) (off : Nat) (w : Width) (n : Nat) : Word :=
  match w with
  | .bit => if (m.read (off + n / 8)).getLsbD (n % 8) then 1 else 0
  | .word => wordOf (m.read (off + 2 * n)) (m.read (off + 2 * n + 1))

/-- Put a value at circuit `n` of the slice that starts at offset `off` (R18, R192). -/
def Memory.writeCircuit (m : Memory) (off : Nat) (w : Width) (n : Nat) (v : Word) : Memory :=
  match w with
  | .bit =>
    let o := m.read (off + n / 8)
    m.write (off + n / 8) (octetOfBits (fun i => if i = n % 8 then v.getLsbD 0 else o.getLsbD i))
  | .word => (m.write (off + 2 * n) (lowOctet v)).write (off + 2 * n + 1) (highOctet v)

/-- A slice of `n` circuits with the values `f`, every bit beyond them 0 (R18, R192, R193). -/
def packCircuits (w : Width) (n : Nat) (f : Nat → Word) : List Byte :=
  match w with
  | .bit => (List.range ((n + 7) / 8)).map (fun j =>
      octetOfBits (fun i => decide (8 * j + i < n) && (f (8 * j + i)).getLsbD 0))
  | .word => (List.range n).flatMap (fun i => [lowOctet (f i), highOctet (f i)])

/-- Size in octets of a slice of `n` circuits (R18). -/
def sliceSize (w : Width) (n : Nat) : Nat :=
  match w with
  | .bit => (n + 7) / 8
  | .word => 2 * n

/-! ## Addresses, lines and descriptors -/

/-- The line addresses in ascending order (R1). -/
def allAddrs : List Addr := List.finRange 32

/-- The transaction slots in ascending order (R139). -/
def allSlots : List (Fin 4) := List.finRange 4

/-- The other line. -/
def otherLine : LineId → LineId
  | .a => .b
  | .b => .a

/-- Number of circuits of a direction (Table 1-3). -/
def Descriptor.count (d : Descriptor) : Direction → Nat
  | .input => d.inputCount.val
  | .output => d.outputCount.val

/-- Width of a direction (Table 1-3). -/
def Descriptor.width (d : Descriptor) : Direction → Width
  | .input => d.inputWidth
  | .output => d.outputWidth

/-- Input size of a station (R18). -/
def Descriptor.inputSize (d : Descriptor) : Nat := sliceSize d.inputWidth d.inputCount.val

/-- Output size of a station (R18). -/
def Descriptor.outputSize (d : Descriptor) : Nat := sliceSize d.outputWidth d.outputCount.val

/-- The descriptor in normalised form: the width of a direction whose count is 0 is BIT (R2). -/
def Descriptor.normalise (d : Descriptor) : Descriptor :=
  { d with
    inputWidth := if d.inputCount.val = 0 then .bit else d.inputWidth
    outputWidth := if d.outputCount.val = 0 then .bit else d.outputWidth }

/-- The line of a single attachment (Table 1-3). -/
def Attachment.single : Attachment → Option LineId
  | .lineA => some .a
  | .lineB => some .b
  | .dual => none

/-- Whether a line is enabled in line setup (Table 7-1). -/
def LineSetup.enabled (c : LineSetup) : LineId → Bool
  | .a => c.enableA
  | .b => c.enableB

/-- Whether an attachment is served by the enabled lines (R124 check 4, R165 check 2). -/
def LineSetup.serves (c : LineSetup) : Attachment → Bool
  | .lineA => c.enableA
  | .lineB => c.enableB
  | .dual => c.enableA || c.enableB

/-- Default reply window for a line rate, in microseconds (Table 2-1). -/
def Rate.defaultWindow : Rate → Nat
  | .kbit250 => 400
  | .kbit500 => 200
  | .kbit1000 => 120

/-! ## Accessors and updates of State -/

/-- The roster entry of an address. -/
def State.entry (s : State) (a : Addr) : Entry := s.roster[a.val]

/-- Replace the roster entry of an address: one update of the entry. -/
def State.setEntry (s : State) (a : Addr) (e : Entry) : State := { s with roster := s.roster.set a.val e }

/-- What the presence supervisor holds for a station. -/
def State.supervision (s : State) (a : Addr) : Supervision := s.supervised[a.val]

/-- Replace what the presence supervisor holds for a station. -/
def State.setSupervision (s : State) (a : Addr) (v : Supervision) : State :=
  { s with supervised := s.supervised.set a.val v }

/-- A supervision profile. -/
def State.profile (s : State) (p : Fin 4) : Profile := s.profiles[p.val]

/-- A line engine. -/
def State.line (s : State) : LineId → LineEngine
  | .a => s.lineA
  | .b => s.lineB

/-- Replace a line engine. -/
def State.setLine (s : State) (l : LineId) (e : LineEngine) : State :=
  match l with
  | .a => { s with lineA := e }
  | .b => { s with lineB := e }

/-- Whether a line is ACTIVE. -/
def State.lineActive (s : State) (l : LineId) : Bool := decide ((s.line l).state = .active)

/-- The staging input buffer slice of a station (R113). -/
def State.slice (s : State) (a : Addr) : List Byte := s.scan.buffer[a.val]

/-- Replace the staging input buffer slice of a station (R113). -/
def State.setSlice (s : State) (a : Addr) (b : List Byte) : State :=
  { s with scan := { s.scan with buffer := s.scan.buffer.set a.val b } }

/-- The own address (R16). -/
def State.ownAddress (s : State) : Addr := s.config.setup.ownAddress

/-- Put a frame in flight, or none. -/
def State.setFlight (s : State) (f : Option Flight) : State := { s with scan := { s.scan with flight := f } }

/-- Change the cycle state (R106). -/
def State.setCycle (s : State) (c : CycleState) : State := { s with scan := { s.scan with cycle := c } }

/-- A transaction slot (R139). -/
def State.slot (s : State) (i : Fin 4) : Option Transaction := s.trans.slots[i.val]

/-- Replace a transaction slot. -/
def State.setSlot (s : State) (i : Fin 4) (t : Option Transaction) : State :=
  { s with trans := { s.trans with slots := s.trans.slots.set i.val t } }

/-- The next write toggle of an address (R140). -/
def State.toggle (s : State) (a : Addr) : Bool := s.trans.toggles[a.val]

/-- Set the next write toggle of an address (R140). -/
def State.setToggle (s : State) (a : Addr) (b : Bool) : State :=
  { s with trans := { s.trans with toggles := s.trans.toggles.set a.val b } }

/-- Whether cycles run: the mode is SCANNING or HELD (R152, Table 9-1). -/
def Mode.scans : Mode → Bool
  | .offline => false
  | .standby => false
  | .scanning => true
  | .held => true

/-- Whether an entry is configured (R1). -/
def Entry.configured (e : Entry) : Bool := e.descriptor.isSome

/-- Data valid (R13). -/
def Entry.dataValid (e : Entry) : Bool :=
  match e.presence with
  | .present => true
  | .silent => true
  | _ => false

/-- The number of override records naming a station (R14). -/
def State.overrideCount (s : State) (a : Addr) : Nat := s.overrides.countP (fun r => decide (r.station = a))

/-- The number of SESSION-owned override records (R91). -/
def State.sessionShare (s : State) : Nat := s.overrides.countP (fun r => decide (r.owner = .session))

/-- The number of condition records whose origin is a station (R14). -/
def State.conditionCount (s : State) (a : Addr) : Nat :=
  s.cond.records.countP (fun r => decide (r.key.origin = .station a))

/-- The number of FATAL records held (R68). -/
def State.fatalCount (s : State) : Nat := s.cond.records.countP (fun r => decide (r.cls = .fatal))

/-- The slot of the transaction outstanding for a station (R15). -/
def State.transactionOf (s : State) (a : Addr) : Option (Fin 4) :=
  allSlots.find? (fun i => match s.slot i with
    | some t => decide (t.station = a)
    | none => false)

/-- Whether the committed configuration holds a station (R152). -/
def State.anyConfigured (s : State) : Bool := allAddrs.any (fun a => (s.entry a).configured)

/-- The committed configuration as a copy (R159). -/
def State.committed (s : State) : StagingCopy := ⟨⟨s.roster.toList.map Entry.descriptor⟩, by simp⟩

/-- The entry of an unconfigured address (R5, Table 1-6). -/
def Entry.unconfigured : Entry := {}

/-! ## Free readings -/

/-- Look at the time, in microseconds (notes/assumptions/4.md). -/
def State.now (s : State) : Nat := Config.timeAt s.freeReads

/-- Count one free reading as drawn. -/
def State.drawn (s : State) : State := { s with freeReads := s.freeReads + 1 }

/-- The time left on a timer that was started with `length` ms: free within that bound (notes/assumptions/4.md). -/
def State.timeLeft (s : State) (length : Nat) : Nat := Config.timeLeft s.freeReads % (length + 1)

/-! ## Posting responses (R186, R189, R185) -/

/-- Whether the response reservation admits one more execution (R184). -/
def State.hasRoom (s : State) : Bool := decide (s.port.responses.length + s.port.deferred + 1 ≤ 12)

/-- Post a response at the tail of the response queue, carrying the mode as it stands (R186, R189). -/
def State.post (s : State) (tag kind : Byte) (status : Status) (result : List Byte) : State :=
  { s with port := { s.port with
      responses := s.port.responses ++ [{ tag := tag, kind := kind, status := status, mode := s.mode, result := result }] } }

/-- Promise a response for later (R185). -/
def State.defer (s : State) : State := { s with port := { s.port with deferred := s.port.deferred + 1 } }

/-- Post a promised response: it moves from the deferred count into the queue (R185). -/
def State.postDeferred (s : State) (tag kind : Byte) (status : Status) (result : List Byte) : State :=
  let t := s.post tag kind status result
  { t with port := { t.port with deferred := t.port.deferred - 1 } }

end Sys2Proof.Machine
end

