-- ==== Sys2Proof/Machine/Codes.lean ====
section
/-! DEFINITION. The numeric encodings of the named values (Tables 12-4 to 12-6) and the layout of result fields in octets
(section 12.2, R192, R193). -/

namespace Sys2Proof.Machine

def Mode.code : Mode → Byte
  | .offline => 0
  | .standby => 1
  | .scanning => 2
  | .held => 3

def Staging.code : Staging → Byte
  | .closed => 0
  | .opened _ => 1
  | .commitPending _ _ => 2

def LineState.code : LineState → Byte
  | .disabled => 0
  | .quiet => 1
  | .active => 2
  | .withdrawn => 3

/-- Line: none 0, A 1, B 2 (Table 12-4). -/
def lineCode : Option LineId → Byte
  | none => 0
  | some .a => 1
  | some .b => 2

def Attachment.code : Attachment → Byte
  | .lineA => 1
  | .lineB => 2
  | .dual => 3

def Width.code : Width → Byte
  | .bit => 0
  | .word => 1

def LossPolicy.code : LossPolicy → Byte
  | .holdLast => 0
  | .zero => 1

def directionCode : Direction → Byte
  | .input => 0
  | .output => 1

def Presence.code : Presence → Byte
  | .absent => 0
  | .expected => 1
  | .joining => 2
  | .present => 3
  | .silent => 4
  | .lost => 5
  | .mismatch => 6
  | .conflict => 7
  | .extra => 8
  | .service => 9
  | .own => 10

def JoinOrigin.code : JoinOrigin → Byte
  | .expected => 1
  | .lost => 2

def Origin.code : Origin → Byte
  | .station a => BitVec.ofNat 8 a.val
  | .line .a => 32
  | .line .b => 33
  | .part => 34

/-- Category number 1-12, less one (Table 3-2). -/
def Category.index : Category → Fin 12
  | .stationLost => 0
  | .stationMismatch => 1
  | .addressConflict => 2
  | .stationExtra => 3
  | .alternateLine => 4
  | .stationFault => 5
  | .circuitFault => 6
  | .forced => 7
  | .lineWithdrawn => 8
  | .outputsSafe => 9
  | .configIncomplete => 10
  | .ownAddressConflict => 11

def Category.code (c : Category) : Byte := BitVec.ofNat 8 (c.index.val + 1)

def ActionClass.code : ActionClass → Byte
  | .informational => 0
  | .diagnostic => 1
  | .fatal => 2

def RecordState.code : RecordState → Byte
  | .standing => 0
  | .standingAcked => 1
  | .ended => 2

def Owner.code : Owner → Byte
  | .controller => 0
  | .session => 1

/-- Receive class (Table 12-4; GOOD 0 is never an error). -/
def ErrorClass.code : ErrorClass → Byte
  | .badCheck => 1
  | .aborted => 2
  | .malformed => 3
  | .unsolicited => 4

def Comparison.code : Comparison → Byte
  | .none => 0
  | .added => 1
  | .removed => 2
  | .changed => 3
  | .unchanged => 4

def EndReason.code : EndReason → Byte
  | .none => 0
  | .closed => 1
  | .timedOut => 2
  | .endedByController => 3
  | .locked => 4
  | .reconfigured => 5
  | .stopped => 6
  | .restarted => 7

def Rate.code : Rate → Byte
  | .kbit250 => 0
  | .kbit500 => 1
  | .kbit1000 => 2

/-- yes, set, on: 1; no, clear, off: 0 (Table 12-4). -/
def flagCode (b : Bool) : Byte := if b then 1 else 0

def RequestKind.code : RequestKind → Byte
  | .start => 1
  | .stop => 2
  | .resume => 3
  | .restart => 4
  | .stageBegin => 10
  | .stageStation => 11
  | .stageRemove => 12
  | .stageCommit => 13
  | .stageAbort => 14
  | .readStaged => 15
  | .setLineSetup => 20
  | .readLineSetup => 21
  | .setProfile => 22
  | .readProfile => 23
  | .setAction => 24
  | .readAction => 25
  | .setOutputRefresh => 26
  | .setServicePermit => 27
  | .readEntry => 30
  | .readLineState => 31
  | .readCondition => 40
  | .readConditionRef => 41
  | .ackCondition => 42
  | .ackAll => 43
  | .readTableState => 44
  | .clearOverflow => 45
  | .setOverride => 50
  | .removeOverride => 51
  | .removeStationOverrides => 52
  | .removeAllOverrides => 53
  | .readOverride => 54
  | .stationRead => 60
  | .stationWrite => 61
  | .cancelTransaction => 62
  | .readSession => 70
  | .endSession => 71

def Status.code : Status → Byte
  | .ok => 0
  | .wrongMode => 1
  | .badOperand => 2
  | .notConfigured => 3
  | .notFound => 4
  | .tableFull => 5
  | .ownedElsewhere => 6
  | .locked => 7
  | .stale => 8
  | .stationBusy => 9
  | .noSlot => 10
  | .stagingOpen => 11
  | .noStaging => 12
  | .imageOverflow => 13
  | .emptyConfiguration => 14
  | .fatalStanding => 15
  | .configIncomplete => 16
  | .addressInUse => 17
  | .busy => 18
  | .tooLate => 19
  | .unknownRequest => 20
  | .done => 32
  | .timedOut => 33
  | .stationLost => 34
  | .stationRefused => 35
  | .cancelled => 36
  | .reconfigured => 37
  | .stopped => 38

/-- Frame kinds (Table 12-7). -/
def FrameKind.code : FrameKind → Byte
  | .poll => 1
  | .reply => 2
  | .identify => 3
  | .identity => 4
  | .paramRead => 5
  | .paramWrite => 6
  | .paramAnswer => 7
  | .paramRefuse => 8
  | .openRequest => 9
  | .sessionAccept => 10
  | .sessionRefuse => 11
  | .servicePoll => 12
  | .serviceAnswer => 13

/-! ## Fields in octets (section 12.2, R192) -/

/-- A value within 0-255 in one octet. -/
def octet (n : Nat) : Byte := BitVec.ofNat 8 n

/-- A 16-bit value, least significant octet first. -/
def wordOctets (w : Word) : List Byte := [lowOctet w, highOctet w]

/-- A number whose range reaches above 255, in a word. -/
def numberOctets (n : Nat) : List Byte := wordOctets (BitVec.ofNat 16 n)

/-- A scan number in four octets, lowest first (R192). -/
def scanOctets (n : ScanNumber) : List Byte :=
  [n.setWidth 8, (n >>> 8).setWidth 8, (n >>> 16).setWidth 8, (n >>> 24).setWidth 8]

/-- A field that may be absent: its presence octet, then its value octets, `size` octets of 0 while absent (R193). -/
def optionalOctets (size : Nat) : Option (List Byte) → List Byte
  | some v => 1 :: v
  | none => 0 :: List.replicate size 0

/-- A descriptor in eight octets, in the order of Table 1-3. -/
def descriptorOctets (d : Descriptor) : List Byte :=
  [octet d.inputCount.val, d.inputWidth.code, octet d.outputCount.val, d.outputWidth.code, d.attachment.code,
   lineCode (some d.preferred), octet d.profile.val, d.lossPolicy.code]

/-- An identity in seven octets, in the order of the IDENTITY payload (Table 12-8). -/
def identityOctets (i : Identity) : List Byte :=
  [octet i.inputCount.val, i.inputWidth.code, octet i.outputCount.val, i.outputWidth.code, i.revision] ++
    wordOctets i.tag

/-- A fault item in three octets (Table 12-8, REPLY): bit 7 direction, bits 4-0 circuit, then code, then detail. -/
def faultItemOctets (i : FaultItem) : List Byte :=
  [octet ((match i.direction with | .input => 0 | .output => 128) + i.circuit.val), i.code, i.detail]

/-- A reported status: station fault code, item count, the items, the more flag (section 12.2). -/
def reportedStatusOctets (r : ReportedStatus) : List Byte :=
  [r.faultCode, octet r.items.length] ++ r.items.flatMap faultItemOctets ++ [flagCode r.more]

/-- An image placement: input offset and size, output offset and size (R18), a word each. -/
def placementOctets (p : Placement) : List Byte :=
  numberOctets p.inputOffset ++ numberOctets p.inputSize ++ numberOctets p.outputOffset ++ numberOctets p.outputSize

/-- Extra data takes six octets, those beyond its length reading 0 (section 12.2). -/
def extraOctets (e : List Byte) : List Byte := (e ++ List.replicate 6 0).take 6

/-- The fields of Table 3-1 in octets (section 12.2). -/
def conditionRecordOctets (r : ConditionRecord) : List Byte :=
  [octet r.slot.val, r.generation, r.key.origin.code] ++
    optionalOctets 2 (r.key.circuit.map (fun c => [directionCode c.1, octet c.2.val])) ++
    [r.key.category.code, r.key.code, r.cls.code, flagCode r.latching, r.state.code, octet r.occurrences] ++
    scanOctets r.raisedAt ++ scanOctets r.changedAt ++ extraOctets r.extra

/-- The fields of Table 5-1 in octets (section 12.2). -/
def overrideRecordOctets (r : OverrideRecord) : List Byte :=
  [octet r.station.val, directionCode r.direction, octet r.circuit.val] ++ wordOctets r.value ++ [r.owner.code] ++
    scanOctets r.enteredAt

/-- The five fields of a profile, in the order of Table 2-1. -/
def profileOctets (p : Profile) : List Byte :=
  [octet p.joinThreshold, octet p.lossThreshold] ++ numberOctets p.replyWindow ++
    [octet p.retries, octet p.lostProbeInterval]

/-- The ten settings of line setup, in the order of Table 7-1 (section 12.2). -/
def lineSetupOctets (c : LineSetup) : List Byte :=
  [c.rate.code, octet c.ownAddress.val, flagCode c.enableA, flagCode c.enableB] ++ numberOctets c.errorWindow ++
    [octet c.errorLimit] ++ numberOctets c.withdrawalTime ++ [octet c.returnInterval, flagCode c.discovery] ++
    numberOctets c.cyclePeriod

end Sys2Proof.Machine
end

