-- ==== Sys2Proof/Machine/Operands.lean ====
section
/-! DEFINITION. Reading the operands of a request record (section 12.2): an operand whose code names no value is not
read, and its request is refused with BAD OPERAND by the check of its rule (R189, R193). -/

namespace Sys2Proof.Machine

/-- The tag of a request record (section 12.2). -/
def requestTag (r : Memory) : Byte := r.read 0

/-- The kind octet of a request record (section 12.2). -/
def requestKindOctet (r : Memory) : Byte := r.read 1

/-- The `i`-th operand octet of a request record (section 12.2). -/
def operand (r : Memory) (i : Nat) : Byte := r.read (2 + i)

/-- An operand word that starts at operand octet `i`, least significant octet first (R192). -/
def operandWord (r : Memory) (i : Nat) : Word := wordOf (operand r i) (operand r (i + 1))

/-- The request kinds (Table 11-3). -/
def allRequestKinds : List RequestKind :=
  [.start, .stop, .resume, .restart, .stageBegin, .stageStation, .stageRemove, .stageCommit, .stageAbort, .readStaged,
   .setLineSetup, .readLineSetup, .setProfile, .readProfile, .setAction, .readAction, .setOutputRefresh,
   .setServicePermit, .readEntry, .readLineState, .readCondition, .readConditionRef, .ackCondition, .ackAll,
   .readTableState, .clearOverflow, .setOverride, .removeOverride, .removeStationOverrides, .removeAllOverrides,
   .readOverride, .stationRead, .stationWrite, .cancelTransaction, .readSession, .endSession]

/-- The request a kind octet names, if any (Table 12-5, R189). -/
def requestKindOf (b : Byte) : Option RequestKind := allRequestKinds.find? (fun k => decide (k.code = b))

/-- An octet below `n`. -/
def below (n : Nat) (b : Byte) : Option (Fin n) := if h : b.toNat < n then some ⟨b.toNat, h⟩ else none

/-- A line address. -/
def addrOf (b : Byte) : Option Addr := below 32 b

/-- yes 1, no 0 (Table 12-4). -/
def flagOf (b : Byte) : Option Bool := if b = 1 then some true else if b = 0 then some false else none

/-- INPUT 0, OUTPUT 1. -/
def directionOf (b : Byte) : Option Direction := if b = 0 then some .input else if b = 1 then some .output else none

/-- A line operand: A 1, B 2; 0 names neither line. -/
def lineOf (b : Byte) : Option LineId := if b = 1 then some .a else if b = 2 then some .b else none

/-- BIT 0, WORD 1. -/
def widthOf (b : Byte) : Option Width := if b = 0 then some .bit else if b = 1 then some .word else none

/-- LINE A 1, LINE B 2, DUAL 3. -/
def attachmentOf (b : Byte) : Option Attachment :=
  if b = 1 then some .lineA else if b = 2 then some .lineB else if b = 3 then some .dual else none

/-- HOLD LAST 0, ZERO 1. -/
def lossPolicyOf (b : Byte) : Option LossPolicy := if b = 0 then some .holdLast else if b = 1 then some .zero else none

/-- INFORMATIONAL 0, DIAGNOSTIC 1, FATAL 2. -/
def actionClassOf (b : Byte) : Option ActionClass :=
  if b = 0 then some .informational else if b = 1 then some .diagnostic else if b = 2 then some .fatal else none

/-- 250 kbit/s 0, 500 kbit/s 1, 1000 kbit/s 2. -/
def rateOf (b : Byte) : Option Rate :=
  if b = 0 then some .kbit250 else if b = 1 then some .kbit500 else if b = 2 then some .kbit1000 else none

/-- The categories in the order of their numbers (Table 3-2). -/
def allCategories : List Category :=
  [.stationLost, .stationMismatch, .addressConflict, .stationExtra, .alternateLine, .stationFault, .circuitFault,
   .forced, .lineWithdrawn, .outputsSafe, .configIncomplete, .ownAddressConflict]

/-- A category number 1-12 (Table 3-2). -/
def categoryOf (b : Byte) : Option Category := allCategories.find? (fun c => decide (c.code = b))

/-- Whether SET ACTION may change a category (Table 3-2). -/
def Category.configurable : Category → Bool
  | .stationExtra => false
  | .forced => false
  | .configIncomplete => false
  | .ownAddressConflict => false
  | _ => true

/-- The limits on a descriptor beyond its fields' own values (R2): not both counts 0, and the preferred line of a
single attachment is that line. -/
def Descriptor.legal (d : Descriptor) : Bool :=
  (decide (d.inputCount.val ≠ 0) || decide (d.outputCount.val ≠ 0)) &&
    (match d.attachment.single with
     | some l => decide (d.preferred = l)
     | none => true)

/-- A descriptor read from eight octets in the order of Table 1-3, checked by R2 and in normalised form. -/
def descriptorOf (f : Nat → Byte) : Option Descriptor := do
  let inputCount ← below 33 (f 0)
  let inputWidth ← widthOf (f 1)
  let outputCount ← below 33 (f 2)
  let outputWidth ← widthOf (f 3)
  let attachment ← attachmentOf (f 4)
  let preferred ← lineOf (f 5)
  let profile ← below 4 (f 6)
  let lossPolicy ← lossPolicyOf (f 7)
  let d : Descriptor := ⟨inputCount, inputWidth, outputCount, outputWidth, attachment, preferred, profile, lossPolicy⟩
  if d.legal then some d.normalise else none

/-- Whether a number lies in a range. -/
def within (lo hi n : Nat) : Bool := decide (lo ≤ n ∧ n ≤ hi)

/-- The five fields of a profile, each checked against its range in Table 2-1 (R22). -/
def profileOf (join loss : Nat) (window : Nat) (retries interval : Nat) : Option Profile :=
  if within 1 7 join && within 1 15 loss && within 40 2000 window && within 0 3 retries && within 1 255 interval then
    some ⟨join, loss, window, retries, interval⟩
  else none

/-- The ten settings of line setup, each checked against its range in Table 7-1 (R124 check 2). -/
def lineSetupOf (r : Memory) : Option LineSetup := do
  let rate ← rateOf (operand r 0)
  let own ← addrOf (operand r 1)
  let enableA ← flagOf (operand r 2)
  let enableB ← flagOf (operand r 3)
  let errorWindow := (operandWord r 4).toNat
  let errorLimit := (operand r 6).toNat
  let withdrawal := (operandWord r 7).toNat
  let interval := (operand r 9).toNat
  let discovery ← flagOf (operand r 10)
  let period := (operandWord r 11).toNat
  if within 1 60 errorWindow && within 1 255 errorLimit && within 500 8000 withdrawal && within 1 255 interval &&
      within 0 255 period then
    some ⟨rate, own, enableA, enableB, errorWindow, errorLimit, withdrawal, interval, discovery, period⟩
  else none

end Sys2Proof.Machine
end

