-- ==== Sys2Proof/Machine/Flags.lean ====
section
/-! DEFINITION. What the part computes from its state at every moment: the condition reason, ATTENTION, the port status
words, the station status table, the response area, and with them the whole readable window (R20, R67, R181, R182, R186,
R188, section 12.1). -/

namespace Sys2Proof.Machine

/-- A record that keeps the condition reason asserted: class DIAGNOSTIC or FATAL, state STANDING or ENDED (R67). -/
def ConditionRecord.urgent (r : ConditionRecord) : Bool :=
  decide (r.cls ≠ .informational) && decide (r.state ≠ .standingAcked)

/-- The condition reason (R67). -/
def State.conditionReason (s : State) : Bool := s.cond.records.any ConditionRecord.urgent || s.cond.overflowFlag

/-- The response reason (R188). -/
def State.responseReason (s : State) : Bool := !s.port.responses.isEmpty

/-- ATTENTION (R188). -/
def State.attention (s : State) : Bool := s.responseReason || s.conditionReason

/-- The flags octet of the port status words (Table 12-2). -/
def State.flagsOctet (s : State) : Byte :=
  octetOfBits (fun i => match i with
    | 0 => s.responseReason
    | 1 => s.conditionReason
    | 2 => s.cond.overflowFlag
    | 3 => s.port.submitRefused
    | 4 => s.stopPending.isSome
    | 5 => s.session.current.isSome
    | _ => false)

/-- The fourteen octets of the port status words from 0x0810 on (Table 12-2). -/
def State.portStatus (s : State) : List Byte :=
  [s.mode.code, s.config.staging.code, s.lineA.state.code, s.lineB.state.code, s.flagsOctet, 0,
   octet s.port.requests.length, octet s.port.responses.length, octet s.port.deferred, 0] ++
    wordOctets s.scan.layout ++ wordOctets s.port.restartCount

/-- The summary of an address in the station status table (R20, Table 12-3). -/
def State.summary (s : State) (a : Addr) : List Byte :=
  let e := s.entry a
  let line := match e.activeLine with
    | none => 0
    | some .a => 1
    | some .b => 2
  [octet ((if e.configured then 128 else 0) + (if e.dataValid then 64 else 0) +
      (if (s.transactionOf a).isSome then 32 else 0) + line),
   e.presence.code, octet (s.overrideCount a), octet (s.conditionCount a)]

/-- The octets of a response record (section 12.2). -/
def Response.octets (r : Response) : List Byte :=
  [r.tag, r.kind, r.status.code, r.mode.code] ++ numberOctets r.result.length ++ r.result

/-- The octets of the response area: the head response, or the empty indication (R186, section 12.2). -/
def State.responseArea (s : State) : List Byte :=
  match s.port.responses with
  | [] => [0, 0, 255, 0]
  | r :: _ => r.octets

/-- The octet that the controller reads at an offset of the window (Table 12-1; R193: 0 outside the areas). -/
def State.windowOctet (s : State) (o : Nat) : Byte :=
  if o < 0x400 then s.scan.published.read o
  else if o < 0x800 then s.port.outputArea.read (o - 0x400)
  else if o < 0x802 then (wordOctets s.scan.sequence).getD (o - 0x800) 0
  else if o < 0x810 then 0
  else if o < 0x81E then s.portStatus.getD (o - 0x810) 0
  else if o < 0x840 then 0
  else if h : o < 0x8C0 then (s.summary ⟨(o - 0x840) / 4 % 32, by omega⟩).getD ((o - 0x840) % 4) 0
  else if o < 0x900 then 0
  else if o < 0xA00 then s.port.entryArea.read (o - 0x900)
  else if o < 0xB00 then s.responseArea.getD (o - 0xA00) 0
  else 0

end Sys2Proof.Machine
end

