-- ==== Sys2Proof/Machine/Conditions.lean ====
section
/-! DEFINITION. The condition unit: what it does with a beginning, an end and a refresh, the standing causes of Table 3-4
and the sweep (chapter 3). -/

namespace Sys2Proof.Machine

/-! ## Records -/

/-- The record with a key, if the table holds one (R45). -/
def State.findRecord (s : State) (k : Key) : Option ConditionRecord :=
  s.cond.records.find? (fun r => decide (r.key = k))

/-- The record a reference names: the slot is occupied and its generation is the reference's (R47). -/
def State.recordOfReference (s : State) (slot : Fin 64) (generation : Byte) : Option ConditionRecord :=
  s.cond.records.find? (fun r => decide (r.slot = slot) && decide (r.generation = generation))

/-- The position of a record in raise order (R46). -/
def State.positionOfRecord (s : State) (r : ConditionRecord) : Nat :=
  s.cond.records.findIdx (fun q => decide (q.slot = r.slot))

/-- Replace the list of records. -/
def State.setRecords (s : State) (rs : List ConditionRecord) : State := { s with cond := { s.cond with records := rs } }

/-- Change the record in a slot, leaving its place in the order (R46). -/
def State.changeRecord (s : State) (slot : Fin 64) (f : ConditionRecord → ConditionRecord) : State :=
  s.setRecords (s.cond.records.map (fun q => if q.slot = slot then f q else q))

/-- The action map entry of a category (R74). -/
def State.action (s : State) (c : Category) : Action := s.cond.actionMap[c.index.val]

/-- The lowest free slot (R46). -/
def freeSlot (rs : List ConditionRecord) : Option (Fin 64) :=
  (List.finRange 64).find? (fun i => rs.all (fun r => decide (r.slot ≠ i)))

/-- The FATAL notice: SCANNING becomes HELD, any other mode stays (R68, R77). -/
def State.fatalNotice (s : State) : State := if s.mode = .scanning then { s with mode := .held } else s

/-- The FATAL notice for a record of a class: only FATAL gives one (R68). -/
def State.noticeOf (s : State) (c : ActionClass) : State := if c = .fatal then s.fatalNotice else s

/-- Create a record at the tail of the raise order in the lowest free slot (R49, R53). -/
def State.createRecord (s : State) (c : Cause) : State :=
  match freeSlot s.cond.records with
  | none => s
  | some slot =>
    let a := s.action c.key.category
    (s.setRecords (s.cond.records ++
      [{ slot := slot, generation := s.cond.generations[slot.val], key := c.key, cls := a.cls, latching := a.latching,
         state := .standing, occurrences := 1, raisedAt := s.scan.number, changedAt := s.scan.number,
         extra := c.extra }])).noticeOf a.cls

/-- A record leaves the table: its slot becomes free, the slot's generation advances, and the group's sweep is owed
(R47, R58, R65). -/
def State.removeRecord (s : State) (r : ConditionRecord) : State :=
  { s with cond := { s.cond with
      records := s.cond.records.eraseP (fun q => decide (q.slot = r.slot))
      generations := s.cond.generations.set r.slot.val (s.cond.generations[r.slot.val] + 1)
      sweepOwed := true } }

/-- Count a cause that the table could not hold (R63). -/
def State.countOverflow (s : State) : State :=
  { s with cond := { s.cond with overflowCount := min 65535 (s.cond.overflowCount + 1), overflowFlag := true } }

/-- The record evicted for a FATAL cause: the oldest INFORMATIONAL, else the oldest DIAGNOSTIC (R55). -/
def State.victim (s : State) : Option ConditionRecord :=
  (s.cond.records.find? (fun r => decide (r.cls = .informational))).or
    (s.cond.records.find? (fun r => decide (r.cls = .diagnostic)))

/-! ## Beginning, end and refresh -/

/-- A beginning that finds a record with its key (R52). -/
def State.restand (s : State) (r : ConditionRecord) (c : Cause) : State :=
  match r.state with
  | .ended =>
    (s.changeRecord r.slot (fun q => { q with
      state := .standing, occurrences := min 255 (q.occurrences + 1), changedAt := s.scan.number,
      extra := c.extra })).noticeOf r.cls
  | _ => s

/-- A beginning that finds no record and a full table (R54, R55). -/
def State.beginFull (s : State) (c : Cause) : State :=
  match (s.action c.key.category).cls with
  | .fatal =>
    match s.victim with
    | some v => ((s.removeRecord v).countOverflow).createRecord c
    | none => s.countOverflow
  | _ => s.countOverflow

/-- The raise operation (R52 to R55). -/
def State.beginCause (s : State) (c : Cause) : State :=
  match s.findRecord c.key with
  | some r => s.restand r c
  | none => if s.cond.records.length < 64 then s.createRecord c else s.beginFull c

/-- The end of a cause (R57). -/
def State.finishCause (s : State) (k : Key) : State :=
  match s.findRecord k with
  | none => s
  | some r =>
    match r.state with
    | .ended => s
    | .standingAcked => s.removeRecord r
    | .standing =>
      if r.latching then s.changeRecord r.slot (fun q => { q with state := .ended, changedAt := s.scan.number })
      else s.removeRecord r

/-- The refresh of a standing cause's extra data (R56). -/
def State.refreshCause (s : State) (c : Cause) : State :=
  match s.findRecord c.key with
  | none => s
  | some r => s.changeRecord r.slot (fun q => { q with extra := c.extra, changedAt := s.scan.number })

/-! ## The standing causes in sweep order (Table 3-4, R66) -/

/-- A key without a circuit and with code 0 (R48). -/
def plainKey (o : Origin) (c : Category) : Key := { origin := o, circuit := none, category := c, code := 0 }

/-- The cause of a category that carries no circuit and code 0, while a condition holds. -/
def causeIf (b : Bool) (o : Origin) (c : Category) (extra : List Byte) : List Cause :=
  if b then [{ key := plainKey o c, extra := extra }] else []

/-- The four reported counts and widths (R9, Table 3-3). -/
def reportedExtra : Option Identity → List Byte
  | none => []
  | some i => (identityOctets i).take 4

/-- The two tags of an address conflict (Table 3-3). -/
def conflictExtra : Option (Word × Word) → List Byte
  | none => []
  | some (first, offending) => wordOctets first ++ wordOctets offending

/-- Whether the STATION LOST cause stands (Table 2-3). -/
def Entry.lostCause (e : Entry) : Bool :=
  decide (e.presence = .lost) || (decide (e.presence = .joining) && decide (e.joinOrigin = some .lost))

/-- Whether the ALTERNATE LINE cause stands (R44). -/
def Entry.alternateLine (e : Entry) (c : LineSetup) : Bool :=
  match e.descriptor with
  | none => false
  | some d =>
    decide (d.attachment = .dual) && e.dataValid && decide (e.activeLine ≠ some d.preferred) && c.enabled d.preferred

/-- The standing causes of one station, in the order of R66; `forced` is its override count. -/
def stationCauses (c : LineSetup) (a : Addr) (e : Entry) (v : Supervision) (forced : Nat) : List Cause :=
  causeIf e.lostCause (.station a) .stationLost [] ++
  causeIf (decide (e.presence = .mismatch)) (.station a) .stationMismatch (reportedExtra e.identity) ++
  causeIf (decide (e.presence = .conflict)) (.station a) .addressConflict (conflictExtra v.conflictTags) ++
  causeIf (decide (e.presence = .extra)) (.station a) .stationExtra (reportedExtra e.identity) ++
  causeIf (e.alternateLine c) (.station a) .alternateLine [lineCode e.activeLine] ++
  v.stationFaults.map (fun f =>
    { key := { origin := .station a, circuit := none, category := .stationFault, code := f }, extra := [] }) ++
  v.circuitFaults.map (fun f =>
    { key := { origin := .station a, circuit := some (f.direction, f.circuit), category := .circuitFault,
               code := f.code },
      extra := [f.detail] }) ++
  causeIf (decide (1 ≤ forced)) (.station a) .forced [octet forced]

/-- The standing causes of a station as the state holds it. -/
def State.causesOfStation (s : State) (a : Addr) : List Cause :=
  stationCauses s.config.setup a (s.entry a) (s.supervision a) (s.overrideCount a)

/-- The standing LINE WITHDRAWN cause of a line. -/
def State.causesOfLine (s : State) (l : LineId) : List Cause :=
  causeIf (decide ((s.line l).state = .withdrawn)) (.line l) .lineWithdrawn
    (match (s.line l).figures with
     | none => []
     | some (n, c) => [octet n, c.code])

/-- The standing causes of origin PART. -/
def State.causesOfPart (s : State) : List Cause :=
  causeIf s.safety.standing .part .outputsSafe [] ++
  causeIf s.config.incomplete .part .configIncomplete [] ++
  causeIf s.own.standing.isSome .part .ownAddressConflict [lineCode s.own.standing]

/-- Every standing cause, in the order of R66. -/
def State.standingCauses (s : State) : List Cause :=
  s.causesOfPart ++ s.causesOfLine .a ++ s.causesOfLine .b ++ allAddrs.flatMap s.causesOfStation

/-! ## The sweep (R65, R66) -/

/-- The sweep enters one cause if it has no record and there is room (R66). -/
def State.sweepOne (s : State) (c : Cause) : State :=
  if s.cond.records.length < 64 ∧ (s.findRecord c.key).isNone then s.createRecord c else s

/-- The sweep (R66). -/
def State.sweep (s : State) : State :=
  let t := s.standingCauses.foldl State.sweepOne s
  { t with cond := { t.cond with sweepOwed := false } }

/-- The end of a group: the sweep runs if a record left the table in it (R51, R65). -/
def State.endGroup (s : State) : State := if s.cond.sweepOwed then s.sweep else s

/-! ## Handing the difference of two sets of standing causes (R25, R51) -/

/-- Whether a list of causes has a key. -/
def hasKey (cs : List Cause) (k : Key) : Bool := cs.any (fun c => decide (c.key = k))

/-- The categories whose extra data is refreshed while the cause goes on standing (R56). -/
def Category.refreshed : Category → Bool
  | .stationMismatch => true
  | .stationExtra => true
  | .circuitFault => true
  | _ => false

/-- The refreshes between two sets of standing causes: same key, other extra data (R51, R56). -/
def refreshesOf (before after : List Cause) : List Cause :=
  after.filter (fun c => c.key.category.refreshed && hasKey before c.key && decide (c ∉ before))

/-- Hand the ends, then the beginnings, then the refreshes that lead from one set of standing causes to another
(R25, R51; notes/assumptions/7.md). -/
def State.handChanges (s : State) (before after : List Cause) : State :=
  let ends := (before.filter (fun c => !hasKey after c.key)).map Cause.key
  let beginnings := after.filter (fun c => !hasKey before c.key)
  (refreshesOf before after).foldl State.refreshCause
    (beginnings.foldl State.beginCause (ends.foldl State.finishCause s))

/-- One update of a station's entry and supervision, with the causes it ends and begins (R25). -/
def State.updateStation (s : State) (a : Addr) (e : Entry) (v : Supervision) : State :=
  ((s.setEntry a e).setSupervision a v).handChanges (s.causesOfStation a)
    (stationCauses s.config.setup a e v (s.overrideCount a))

/-! ## Acknowledgement and retirement for deconfiguration (R59, R60) -/

/-- Acknowledge a record by its state (R60). -/
def State.ackRecord (s : State) (r : ConditionRecord) : State :=
  match r.state with
  | .standing => s.changeRecord r.slot (fun q => { q with state := .standingAcked, changedAt := s.scan.number })
  | .ended => s.removeRecord r
  | .standingAcked => s

/-- Retire every record of a station, in raise order (R59). -/
def State.retireStation (s : State) (a : Addr) : State :=
  (s.cond.records.filter (fun r => decide (r.key.origin = .station a))).foldl State.removeRecord s

end Sys2Proof.Machine
end

