-- ==== Sys2Proof/Machine/Overrides.lean ====
section
/-! DEFINITION. The override unit: setting, removing, and the FORCED cause (chapter 5). -/

namespace Sys2Proof.Machine

/-- What a request answers: a status and result fields (R189). -/
structure Answer where
  status : Status
  result : List Byte := []
deriving DecidableEq, Repr

/-- Whether a record has a key (R89). -/
def OverrideRecord.hasKey (r : OverrideRecord) (a : Addr) (d : Direction) (c : Fin 32) : Bool :=
  decide (r.station = a) && decide (r.direction = d) && decide (r.circuit = c)

/-- The override record with a key, if held (R89). -/
def State.findOverride (s : State) (a : Addr) (d : Direction) (c : Fin 32) : Option OverrideRecord :=
  s.overrides.find? (fun r => r.hasKey a d c)

/-- Its position in creation order (R90). -/
def State.overridePosition (s : State) (a : Addr) (d : Direction) (c : Fin 32) : Nat :=
  s.overrides.findIdx (fun r => r.hasKey a d c)

/-- Hand the beginning of a station's FORCED cause when its count has become 1 (R102). -/
def State.beginForced (s : State) (a : Addr) : State :=
  if s.overrideCount a = 1 then s.beginCause { key := plainKey (.station a) .forced, extra := [1] } else s

/-- Hand the end of a station's FORCED cause when its count has become 0 (R102). -/
def State.finishForced (s : State) (a : Addr) : State :=
  if s.overrideCount a = 0 then s.finishCause (plainKey (.station a) .forced) else s

/-- Create an override record at the tail (R94). -/
def State.createOverride (s : State) (r : OverrideRecord) : State :=
  ({ s with overrides := s.overrides ++ [r] }).beginForced r.station

/-- The owner after an accepted SET on an existing record: a controller takes it over (R93). -/
def ownerAfter (setter owner : Owner) : Owner :=
  match setter with
  | .controller => .controller
  | .session => owner

/-- Give an existing record a new value, and its owner after the SET (R93). -/
def State.changeOverride (s : State) (setter : Owner) (a : Addr) (d : Direction) (c : Fin 32) (v : Word) : State :=
  { s with overrides := s.overrides.map (fun r =>
      if r.hasKey a d c then
        { r with value := v, owner := ownerAfter setter r.owner, enteredAt := s.scan.number } else r) }

/-- Whether a value fits a width (R92). -/
def fits (w : Width) (v : Word) : Bool :=
  match w with
  | .bit => decide (v.toNat ≤ 1)
  | .word => true

/-- Table 5-2, checks 4 to 6, on an operand that has passed checks 1 to 3; none when they pass (R92). -/
def State.overrideRefusal (s : State) (setter : Owner) (found : Option OverrideRecord) : Option Status :=
  match setter, found with
  | .controller, some _ => none
  | .controller, none => if s.overrides.length < 48 then none else some .tableFull
  | .session, some r =>
    if r.owner = .controller then some .ownedElsewhere
    else if s.session.permitOverrides then none else some .locked
  | .session, none =>
    if !s.session.permitOverrides then some .locked
    else if s.overrides.length < 48 ∧ s.sessionShare < 16 then none else some .tableFull

/-- The effect and the result of a SET OVERRIDE that passes its checks (R93, R94; notes/assumptions/13.md). -/
def State.applyOverride (s : State) (setter : Owner) (a : Addr) (d : Direction) (c : Fin 32) (v : Word)
    (found : Option OverrideRecord) : Answer × State :=
  match found with
  | some r =>
    let t := s.changeOverride setter a d c v
    (⟨.ok, [octet (t.overridePosition a d c), 0, r.owner.code, (ownerAfter setter r.owner).code,
      octet (t.overrideCount a)]⟩, t)
  | none =>
    let t := s.createOverride ⟨a, d, c, v, setter, s.scan.number⟩
    (⟨.ok, [octet s.overrides.length, 1, setter.code, octet (t.overrideCount a)]⟩, t)

/-- SET OVERRIDE, from either setter: the checks of Table 5-2 in order, then the effect (R92 to R94). -/
def State.setOverride (s : State) (setter : Owner) (station direction circuit : Byte) (v : Word) : Answer × State :=
  match addrOf station, directionOf direction with
  | some a, some d =>
    match (s.entry a).descriptor with
    | none => (⟨.notConfigured, []⟩, s)
    | some desc =>
      match below 32 circuit with
      | none => (⟨.badOperand, []⟩, s)
      | some c =>
        if c.val < desc.count d ∧ fits (desc.width d) v then
          match s.overrideRefusal setter (s.findOverride a d c) with
          | some st => (⟨st, []⟩, s)
          | none => s.applyOverride setter a d c v (s.findOverride a d c)
        else (⟨.badOperand, []⟩, s)
  | _, _ => (⟨.badOperand, []⟩, s)

/-- Remove one record: the gap closes, and the FORCED cause ends when the station's count reaches 0 (R96). -/
def State.dropOverride (s : State) (r : OverrideRecord) : State :=
  ({ s with overrides := s.overrides.eraseP (fun q => q.hasKey r.station r.direction r.circuit) }).finishForced r.station

/-- Remove the records that a test picks, in creation order (R97, R98, R103, R104). -/
def State.dropOverrides (s : State) (p : OverrideRecord → Bool) : State :=
  (s.overrides.filter p).foldl State.dropOverride s

/-- How many records a bulk removal takes. -/
def State.countOverrides (s : State) (p : OverrideRecord → Bool) : Nat := s.overrides.countP p

/-- A record of the session. -/
def OverrideRecord.ofSession (r : OverrideRecord) : Bool := decide (r.owner = .session)

/-- A record that names a station. -/
def OverrideRecord.ofStation (a : Addr) (r : OverrideRecord) : Bool := decide (r.station = a)

/-- Remove every SESSION-owned record (R104). -/
def State.dropSessionOverrides (s : State) : State := s.dropOverrides OverrideRecord.ofSession

/-- REMOVE OVERRIDE, from either remover (R96). -/
def State.removeOverride (s : State) (remover : Owner) (station direction circuit : Byte) : Answer × State :=
  match addrOf station, directionOf direction, below 32 circuit with
  | some a, some d, some c =>
    match s.findOverride a d c with
    | none => (⟨.notFound, []⟩, s)
    | some r =>
      if remover = .session ∧ r.owner = .controller then (⟨.ownedElsewhere, []⟩, s)
      else
        let t := s.dropOverride r
        (⟨.ok, [octet (t.overrideCount a)]⟩, t)
  | _, _, _ => (⟨.badOperand, []⟩, s)

end Sys2Proof.Machine
end

