-- ==== Sys2Proof/Machine/Transactions.lean ====
section
/-! DEFINITION. The transaction unit: acceptance, completion, failed attempts and cancels (chapter 8). -/

namespace Sys2Proof.Machine

/-- The request kind of a transaction (R145). -/
def TransactionKind.request : TransactionKind → RequestKind
  | .read => .stationRead
  | .write => .stationWrite

/-- Complete the transaction of a slot: the slot is freed and the completion response posted (R145). -/
def State.complete (s : State) (i : Fin 4) (t : Transaction) (st : Status) (more : List Byte) : State :=
  (s.setSlot i none).postDeferred t.tag t.kind.request.code st
    ([octet i.val, octet t.station.val, t.index, octet t.attempts] ++ more)

/-- Answer the cancel that waits on a transaction, if one does (R150). -/
def State.answerCancel (s : State) (t : Transaction) (st : Status) : State :=
  match t.cancel with
  | none => s
  | some tag => s.postDeferred tag RequestKind.cancelTransaction.code st []

/-- The attempt in flight ends with an answer that completes the transaction (R143, R150). -/
def State.completeAnswered (s : State) (i : Fin 4) (t : Transaction) (st : Status) (more : List Byte) : State :=
  (s.complete i t st more).answerCancel t .tooLate

/-- The attempt of a slot has failed (R144, R150). -/
def State.failAttempt (s : State) (i : Fin 4) (t : Transaction) : State :=
  match t.cancel with
  | some _ => (s.complete i t .cancelled []).answerCancel t .ok
  | none =>
    if 3 ≤ t.attempts then s.complete i t .timedOut []
    else s.setSlot i (some { t with state := .waiting })

/-- Complete the transactions that a test picks with one status, in ascending slot order (R145). -/
def State.completeWhere (s : State) (p : Transaction → Bool) (st : Status) : State :=
  allSlots.foldl (fun u i =>
    match u.slot i with
    | none => u
    | some t => if p t then (u.complete i t st []).answerCancel t .ok else u) s

/-- Complete a station's transaction with a status, if it has one (R146). -/
def State.completeStation (s : State) (a : Addr) (st : Status) : State :=
  s.completeWhere (fun t => decide (t.station = a)) st

/-- The lowest-numbered free slot (R141). -/
def State.freeTransactionSlot (s : State) : Option (Fin 4) := allSlots.find? (fun i => (s.slot i).isNone)

/-- The toggle a new transaction takes (R140). -/
def State.newToggle (s : State) (k : TransactionKind) (a : Addr) : Bool :=
  match k with
  | .read => false
  | .write => s.toggle a

/-- The next write toggle of the station is inverted by an accepted write (R140). -/
def State.advanceToggle (s : State) (k : TransactionKind) (a : Addr) : State :=
  match k with
  | .read => s
  | .write => s.setToggle a (!s.toggle a)

/-- The place of an accepted transaction: its slot is taken and the deferred count rises (R141; the stamp of acceptance,
notes/assumptions/20.md). -/
def State.placeTransaction (s : State) (i : Fin 4) (tag : Byte) (k : TransactionKind) (a : Addr) (index : Byte)
    (length : Nat) (data : List Byte) : State :=
  let t := s.setSlot i (some
    { tag := tag, station := a, kind := k, index := index, length := length, data := data, attempts := 0,
      toggle := s.newToggle k a, state := .waiting, cancel := none, accepted := s.trans.nextStamp })
  (({ t with trans := { t.trans with nextStamp := t.trans.nextStamp + 1 } }).advanceToggle k a).defer

/-- STATION READ and STATION WRITE: the checks of R141 in order, then acceptance, which posts nothing. -/
def State.acceptTransaction (s : State) (tag : Byte) (k : TransactionKind) (station index length : Byte)
    (data : List Byte) : Option Answer × State :=
  match addrOf station with
  | none => (some ⟨.badOperand, []⟩, s)
  | some a =>
    if !within 1 32 length.toNat then (some ⟨.badOperand, []⟩, s)
    else if !(s.entry a).configured then (some ⟨.notConfigured, []⟩, s)
    else if (s.transactionOf a).isSome then (some ⟨.stationBusy, []⟩, s)
    else match s.freeTransactionSlot with
      | none => (some ⟨.noSlot, []⟩, s)
      | some i =>
        if s.mode.scans then (none, s.placeTransaction i tag k a index length.toNat data)
        else (some ⟨.wrongMode, []⟩, s)

/-- The earlier accepted of two slots that hold a tag (R149). -/
def State.earlier (s : State) (tag : Byte) (best : Option (Fin 4 × Transaction)) (i : Fin 4) :
    Option (Fin 4 × Transaction) :=
  match s.slot i with
  | none => best
  | some t =>
    if t.tag = tag then
      match best with
      | none => some (i, t)
      | some (j, u) => if t.accepted < u.accepted then some (i, t) else some (j, u)
    else best

/-- The outstanding transaction with a tag that was accepted earliest (R149). -/
def State.transactionTagged (s : State) (tag : Byte) : Option (Fin 4 × Transaction) :=
  allSlots.foldl (s.earlier tag) none

/-- CANCEL TRANSACTION (R149, R150): answered at once, or later when its transaction is SENT. -/
def State.cancelTransaction (s : State) (own tag : Byte) : Option Answer × State :=
  match s.transactionTagged tag with
  | none => (some ⟨.notFound, []⟩, s)
  | some (i, t) =>
    match t.state, t.cancel with
    | .sent, some _ => (some ⟨.busy, []⟩, s)
    | .sent, none => (none, (s.setSlot i (some { t with cancel := some own })).defer)
    | .waiting, _ => (some ⟨.ok, []⟩, s.complete i t .cancelled [])

end Sys2Proof.Machine
end

