-- ==== Sys2Proof/Machine/Reads.lean ====
section
/-! DEFINITION. The result fields of the requests that read state, in the order of the table or list that the kind's rule
names (section 12.2). -/

namespace Sys2Proof.Machine

/-- A reported status that may be absent; absent, its value octets are those of an empty list (R193;
notes/assumptions/12.md). -/
def statusOctets (r : Option ReportedStatus) : List Byte := optionalOctets 3 (r.map reportedStatusOctets)

/-- Every field of Table 1-1 of an entry (R19). -/
def State.entryOctets (s : State) (a : Addr) : List Byte :=
  let e := s.entry a
  [octet a.val, flagCode e.configured] ++ optionalOctets 8 (e.descriptor.map descriptorOctets) ++ [e.presence.code] ++
    optionalOctets 1 (e.joinOrigin.map (fun o => [o.code])) ++
    [octet e.joinCount, octet e.missCount, lineCode e.activeLine, octet e.countdown] ++
    optionalOctets 7 (e.identity.map identityOctets) ++ optionalOctets 2 (e.recordedTag.map wordOctets) ++
    statusOctets e.status ++ [flagCode e.dataValid, octet (s.overrideCount a), octet (s.conditionCount a)] ++
    optionalOctets 1 ((s.transactionOf a).map (fun i => [octet i.val])) ++
    optionalOctets 8 (e.placement.map placementOctets)

/-- READ ENTRY (R19). -/
def State.readEntry (s : State) (address : Byte) : Answer :=
  match addrOf address with
  | none => ⟨.badOperand, []⟩
  | some a => ⟨.ok, s.entryOctets a⟩

/-- READ CONDITION (R69). -/
def State.readCondition (s : State) (position : Byte) : Answer :=
  if 63 < position.toNat then ⟨.badOperand, []⟩
  else match s.cond.records[position.toNat]? with
    | none => ⟨.notFound, []⟩
    | some r => ⟨.ok, conditionRecordOctets r ++ [octet s.cond.records.length]⟩

/-- READ CONDITION REF (R70). -/
def State.readConditionRef (s : State) (slot generation : Byte) : Answer :=
  match below 64 slot with
  | none => ⟨.badOperand, []⟩
  | some i =>
    match s.recordOfReference i generation with
    | none => ⟨.stale, []⟩
    | some r => ⟨.ok, conditionRecordOctets r ++ [octet (s.positionOfRecord r)]⟩

/-- How many records are in a state (R71). -/
def State.recordsIn (s : State) (t : RecordState) : Nat := s.cond.records.countP (fun r => decide (r.state = t))

/-- How many records keep the condition reason asserted (R71). -/
def State.urgentCount (s : State) : Nat := s.cond.records.countP ConditionRecord.urgent

/-- READ TABLE STATE (R71). -/
def State.readTableState (s : State) : Answer :=
  ⟨.ok, [octet s.cond.records.length, octet (s.recordsIn .standing), octet (s.recordsIn .standingAcked),
      octet (s.recordsIn .ended), octet s.fatalCount, octet s.urgentCount] ++
    numberOctets s.cond.overflowCount ++ [flagCode s.cond.overflowFlag, flagCode s.conditionReason]⟩

/-- READ OVERRIDE (R99). -/
def State.readOverride (s : State) (position : Byte) : Answer :=
  if 47 < position.toNat then ⟨.badOperand, []⟩
  else match s.overrides[position.toNat]? with
    | none => ⟨.notFound, []⟩
    | some r => ⟨.ok, overrideRecordOctets r ++ [octet s.overrides.length, octet s.sessionShare]⟩

/-- The time left on a timer, absent while it is stopped; a running timer draws one free reading
(notes/assumptions/4.md). -/
def State.readTimer (s : State) (t : Timer) : List Byte × State :=
  match t with
  | none => (optionalOctets 2 none, s)
  | some n => (optionalOctets 2 (some (numberOctets (s.timeLeft n))), s.drawn)

/-- READ LINE STATE (R138). -/
def State.readLineState (s : State) (line : Byte) : Answer × State :=
  match lineOf line with
  | none => (⟨.badOperand, []⟩, s)
  | some l =>
    let e := s.line l
    let window := s.readTimer e.errorWindow
    let back := window.2.readTimer e.withdrawal
    (⟨.ok, [e.state.code, octet e.errorCount] ++ window.1 ++ back.1 ++
        optionalOctets 2 (e.figures.map (fun f => [octet f.1, f.2.code])) ++
        optionalOctets 1 (e.lastError.map (fun c => [c.code])) ++
        numberOctets e.totals.badCheck ++ numberOctets e.totals.aborted ++ numberOctets e.totals.malformed ++
        numberOctets e.totals.unsolicited ++ numberOctets e.totals.withdrawals⟩, back.2)

/-- The result state of a session: ABSENT 0, PENDING 1, DELIVERED 2 (Table 12-4). -/
def resultStateCode : Option ServiceResult → Byte
  | none => 0
  | some r => if r.delivered then 2 else 1

/-- READ SESSION (R179; the code of the session state, notes/assumptions/13.md). -/
def State.readSession (s : State) : Answer × State :=
  let o := s.session.current
  let left := s.readTimer (o.map OpenSession.timer)
  (⟨.ok, [flagCode o.isSome] ++ optionalOctets 1 (o.map (fun x => [octet x.tool.val])) ++
      optionalOctets 1 (o.map (fun x => [lineCode (some x.line)])) ++
      optionalOctets 2 (o.map (fun x => wordOctets x.toolTag)) ++
      optionalOctets 4 (o.map (fun x => scanOctets x.openedAt)) ++ left.1 ++
      optionalOctets 1 ((o.bind OpenSession.lastNumber).map (fun n => [n])) ++
      [resultStateCode (o.bind OpenSession.result), s.session.lastEnd.code, flagCode s.session.permitSessions,
        flagCode s.session.permitOverrides] ++ numberOctets s.session.sessionTime ++ [octet s.sessionShare]⟩, left.2)

/-- READ PROFILE (R22). -/
def State.readProfile (s : State) (number : Byte) : Answer :=
  match below 4 number with
  | none => ⟨.badOperand, []⟩
  | some p => ⟨.ok, profileOctets (s.profile p)⟩

/-- READ ACTION (R76). -/
def State.readAction (s : State) (category : Byte) : Answer :=
  match categoryOf category with
  | none => ⟨.badOperand, []⟩
  | some c => ⟨.ok, [(s.action c).cls.code, flagCode (s.action c).latching, flagCode c.configurable]⟩

end Sys2Proof.Machine
end

