-- ==== Sys2Proof/Machine/Session.lean ====
section
/-! DEFINITION. The session unit: opening, the service requests, the ends of a session and the permissions (chapter 10). -/

namespace Sys2Proof.Machine

/-- Replace the open session's fields. -/
def State.setSession (s : State) (o : Option OpenSession) : State := { s with session := { s.session with current := o } }

/-- Open a session at an address (R172 step 3): the entry becomes SERVICE, ending a STATION EXTRA cause (R40). -/
def State.openSession (s : State) (a : Addr) (l : LineId) (tag : Word) : State :=
  (s.updateStation a { s.entry a with presence := .service, identity := none } (s.supervision a)).setSession
    (some { tool := a, line := l, toolTag := tag, openedAt := s.scan.number, lastNumber := none, result := none,
            timer := s.session.sessionTime })

/-- End the open session, if there is one, with a reason: SESSION-owned overrides, the tool's entry, the record, the
reason (R177). -/
def State.endSession (s : State) (reason : EndReason) : State :=
  match s.session.current with
  | none => s
  | some o =>
    let t := s.dropSessionOverrides
    let u := t.updateStation o.tool { t.entry o.tool with presence := .absent, identity := none } (t.supervision o.tool)
    { u with session := { u.session with current := none, lastEnd := reason } }

/-- A GOOD SERVICE ANSWER restarts the timer and delivers the pending result (R173). -/
def State.deliver (s : State) : State :=
  s.setSession (s.session.current.map (fun o =>
    { o with timer := s.session.sessionTime, result := o.result.map (fun r => { r with delivered := true }) }))

/-- Store the result of an executed service request as PENDING (R174). -/
def State.storeResult (s : State) (number : Byte) (k : RequestKind) (a : Answer) : State :=
  s.setSession (s.session.current.map (fun o =>
    { o with
      lastNumber := some number
      result := some { delivered := false, number := number, kind := k, status := a.status, fields := a.result } }))

/-- Make the stored result PENDING again (R174). -/
def State.repeatResult (s : State) : State :=
  s.setSession (s.session.current.map (fun o =>
    { o with result := o.result.map (fun r => { r with delivered := false }) }))

/-- Take a service request: executed when its number is new, else its stored result is carried again (R174, R175). -/
def State.takeRequest (s : State) (number : Byte) (k : RequestKind) (run : State → Answer × State) : State :=
  match s.session.current with
  | none => s
  | some o =>
    if o.lastNumber = some number then s.repeatResult
    else
      let r := run s
      r.2.storeResult number k r.1

/-- The contents of a GOOD SERVICE ANSWER (R174, section 12.4). -/
def State.takeContents (s : State) (payload : List Byte) : State :=
  match payload with
  | [0] => s
  | [1] => s.endSession .closed
  | [2, n, a] => s.takeRequest n .readEntry (fun u => (u.readEntry a, u))
  | [3, n, p] => s.takeRequest n .readCondition (fun u => (u.readCondition p, u))
  | [4, n, st, d, c, lo, hi] => s.takeRequest n .setOverride (fun u => u.setOverride .session st d c (wordOf lo hi))
  | [5, n, st, d, c] => s.takeRequest n .removeOverride (fun u => u.removeOverride .session st d c)
  | _ => s

/-- Whether the payload of a SERVICE ANSWER is well formed (R174, section 12.4). -/
def serviceAnswerOk (payload : List Byte) : Bool :=
  match payload with
  | [] => false
  | c :: rest =>
    (decide (c = 0) && decide (rest.length = 0)) || (decide (c = 1) && decide (rest.length = 0)) ||
    (decide (c = 2) && decide (rest.length = 2)) || (decide (c = 3) && decide (rest.length = 2)) ||
    (decide (c = 4) && decide (rest.length = 6)) || (decide (c = 5) && decide (rest.length = 4))

/-- A GOOD SERVICE ANSWER; one that finds no session is not taken (R108, R173). -/
def State.takeServiceAnswer (s : State) (payload : List Byte) : State :=
  match s.session.current with
  | none => s
  | some _ => s.deliver.takeContents payload

/-- The payload of the SERVICE POLL: a PENDING result, or nothing (R173, Table 12-8). -/
def servicePollPayload (o : OpenSession) : List Byte :=
  match o.result with
  | none => []
  | some r => if r.delivered then [] else [r.number, r.kind.code, r.status.code] ++ r.fields

/-- SET SERVICE PERMIT with settings that pass the checks (R169, R170). -/
def State.permit (s : State) (sessions overrides : Bool) (time : Nat) : Answer × State :=
  let share := s.sessionShare
  let set : State → State := fun t =>
    { t with session := { t.session with
        permitSessions := sessions, permitOverrides := overrides, sessionTime := time } }
  if s.session.permitSessions && !sessions && s.session.current.isSome then
    (⟨.ok, [1, octet share]⟩, set (s.endSession .locked))
  else if s.session.permitOverrides && !overrides then
    (⟨.ok, [0, octet share]⟩, set s.dropSessionOverrides)
  else (⟨.ok, [0, 0]⟩, set s)

/-- SET SERVICE PERMIT (R169). -/
def State.setServicePermit (s : State) (sessions overrides : Byte) (time : Nat) : Answer × State :=
  match flagOf sessions, flagOf overrides with
  | some p, some q => if within 250 16000 time then s.permit p q time else (⟨.badOperand, []⟩, s)
  | _, _ => (⟨.badOperand, []⟩, s)

end Sys2Proof.Machine
end

