-- ==== Sys2Proof/Machine/Presence.lean ====
section
/-! DEFINITION. The presence supervisor: what a visit's outcome does to an entry and its causes (chapter 2). -/

namespace Sys2Proof.Machine

/-- A REPLY taken apart (Table 12-8). -/
structure ReplyContents where
  tag : Word
  inputs : List Byte
  status : ReportedStatus
deriving DecidableEq, Repr

/-- Whether an identity agrees with a descriptor (R9). -/
def Identity.agrees (i : Identity) (d : Descriptor) : Bool :=
  decide (i.inputCount = d.inputCount) && decide (i.outputCount = d.outputCount) &&
    (decide (d.inputCount.val = 0) || decide (i.inputWidth = d.inputWidth)) &&
    (decide (d.outputCount.val = 0) || decide (i.outputWidth = d.outputWidth))

/-- The active line after a GOOD outcome (R42): the line of the GOOD frame, for a DUAL station. -/
def Entry.heardOn (e : Entry) (l : LineId) : Entry :=
  match e.descriptor with
  | none => e
  | some d => if d.attachment = .dual then { e with activeLine := some l } else e

/-- Complete qualification (R34): the tag recorded is that of the identity held. -/
def Entry.qualify (e : Entry) : Entry :=
  { e with presence := .present, joinCount := 0, missCount := 0, joinOrigin := none, countdown := 0,
           recordedTag := e.identity.map Identity.tag }

/-- Enter MISMATCH with the identity received (R26, R27, R30, R31). -/
def Entry.mismatched (e : Entry) (i : Identity) : Entry :=
  { e with presence := .mismatch, missCount := 0, joinCount := 0, joinOrigin := none, countdown := 0,
           identity := some i }

/-- Enter CONFLICT (R32). -/
def Entry.conflicted (e : Entry) : Entry :=
  { e with presence := .conflict, missCount := 0, joinCount := 0, joinOrigin := none }

/-- Begin a join with the identity received, or complete it at once at a threshold of 1 (R26, R30, R31). -/
def Entry.beginJoin (e : Entry) (p : Profile) (i : Identity) (o : JoinOrigin) (misses : Nat) : Entry :=
  if p.joinThreshold ≤ 1 then { e with identity := some i }.qualify
  else { e with presence := .joining, joinOrigin := some o, joinCount := 1, missCount := misses, countdown := 0,
                identity := some i }

/-- An IDENTITY outcome in EXPECTED, LOST or MISMATCH (R26, R30, R31). -/
def Entry.identified (e : Entry) (d : Descriptor) (p : Profile) (i : Identity) (o : JoinOrigin) (misses : Nat) : Entry :=
  if i.agrees d then e.beginJoin p i o misses else e.mismatched i

/-- An IDENTITY outcome in JOINING (R25, R27), with the two tags where it makes a conflict. -/
def Entry.joined (e : Entry) (d : Descriptor) (p : Profile) (i : Identity) : Entry × Option (Word × Word) :=
  let held := (e.identity.getD i).tag
  if i.tag ≠ held then (e.conflicted, some (held, i.tag))
  else if i.agrees d then
    (if p.joinThreshold ≤ e.joinCount + 1 then e.qualify else { e with joinCount := e.joinCount + 1 }, none)
  else (e.mismatched i, none)

/-- What an IDENTITY outcome makes of an entry, with the tags of a conflict it enters. -/
def Entry.takeIdentity (e : Entry) (d : Descriptor) (p : Profile) (i : Identity) : Entry × Option (Word × Word) :=
  match e.presence with
  | .expected => (e.identified d p i .expected e.missCount, none)
  | .lost => (e.identified d p i .lost 0, none)
  | .mismatch => (e.identified d p i .expected 0, none)
  | .joining => e.joined d p i
  | _ => (e, none)

/-- The tags kept for a conflict: those it was entered with (R32). -/
def Supervision.withTags (v : Supervision) (t : Option (Word × Word)) : Supervision :=
  match t with
  | none => v
  | some x => { v with conflictTags := some x }

/-- A visit's GOOD outcome carrying an IDENTITY (R25 to R27, R30, R31, R34). -/
def State.takeIdentity (s : State) (a : Addr) (l : LineId) (i : Identity) : State :=
  let e := s.entry a
  match e.descriptor with
  | none => s
  | some d =>
    let r := (e.heardOn l).takeIdentity d (s.profile d.profile) i
    s.updateStation a r.1 ((s.supervision a).withTags r.2)

/-! ## Reported faults (R36, R37) -/

/-- The STATION FAULT codes that stand after an accepted REPLY (R36). -/
def standingCodes (code : Byte) (more : Bool) : List Byte :=
  (if code ≠ 0 ∧ code ≠ 255 then [code] else []) ++ (if code = 255 ∨ more then [255] else [])

/-- The place of a fault item in the order of R66: direction, circuit, code. -/
def faultRank (i : FaultItem) : Nat :=
  (match i.direction with | .input => 0 | .output => 8192) + 256 * i.circuit.val + i.code.toNat

/-- Put a fault item into the set, in order; an item with the same key takes its place (R37). -/
def insertFault (i : FaultItem) : List FaultItem → List FaultItem
  | [] => [i]
  | j :: js =>
    if faultRank i < faultRank j then i :: j :: js
    else if faultRank i = faultRank j then i :: js
    else j :: insertFault i js

/-- The CIRCUIT FAULT causes that stand after an accepted REPLY: the items listed, and with the more flag set those that
stood and are not listed (R37). -/
def standingFaults (old items : List FaultItem) (more : Bool) : List FaultItem :=
  items.foldl (fun m i => insertFault i m)
    (if more then old.filter (fun o => items.all (fun i => decide (faultRank i ≠ faultRank o))) else [])

/-- The supervision after an accepted REPLY (R36, R37, R51). -/
def Supervision.reported (v : Supervision) (r : ReportedStatus) : Supervision :=
  { v with stationFaults := standingCodes r.faultCode r.more
           circuitFaults := standingFaults v.circuitFaults r.items r.more }

/-- A visit's GOOD outcome carrying a REPLY, in PRESENT or SILENT (R10, R11, R25, R28, R29, R113). -/
def State.takeReply (s : State) (a : Addr) (l : LineId) (r : ReplyContents) : State :=
  let e := (s.entry a).heardOn l
  if !e.dataValid then s
  else
    let tag := e.recordedTag.getD r.tag
    if r.tag = tag then
      (s.setSlice a r.inputs).updateStation a { e with presence := .present, missCount := 0, status := some r.status }
        ((s.supervision a).reported r.status)
    else s.updateStation a e.conflicted ((s.supervision a).withTags (some (tag, r.tag)))

/-! ## Misses (R26 to R31, R33) -/

/-- The entry as it enters LOST (R33). -/
def Entry.lose (e : Entry) (p : Profile) : Entry :=
  { e with presence := .lost, missCount := 0, joinCount := 0, joinOrigin := none, countdown := p.lostProbeInterval,
           status := none }

/-- The slice of a station entering LOST (R13, R113). -/
def lostSlice (d : Descriptor) (b : List Byte) : List Byte :=
  match d.lossPolicy with
  | .holdLast => b
  | .zero => List.replicate b.length 0

/-- Enter LOST: the fault causes end, the transaction ends with STATION LOST, and STATION LOST begins (R33, R146). -/
def State.enterLost (s : State) (a : Addr) (d : Descriptor) : State :=
  let e := (s.entry a).lose (s.profile d.profile)
  let v := { s.supervision a with stationFaults := [], circuitFaults := [] }
  ((((s.setEntry a e).setSupervision a v).setSlice a (lostSlice d (s.slice a))).completeStation a .stationLost).handChanges
    (s.causesOfStation a) (stationCauses s.config.setup a e v (s.overrideCount a))

/-- The recorded tag of an entry that a miss leaves in a state: an EXPECTED entry has none (R26; notes/assumptions/37.md). -/
def tagKept (kept : Presence) (tag : Option Word) : Option Word :=
  match kept with
  | .expected => none
  | _ => tag

/-- The loss rule: the raised miss count against the loss threshold, and the state kept below it (R26 to R31). -/
def State.lossRule (s : State) (a : Addr) (d : Descriptor) (misses : Nat) (kept : Presence) : State :=
  if (s.profile d.profile).lossThreshold ≤ misses then s.enterLost a d
  else s.updateStation a
    { s.entry a with presence := kept, missCount := misses, joinCount := 0, joinOrigin := none,
                     recordedTag := tagKept kept (s.entry a).recordedTag } (s.supervision a)

/-- A visit's MISS (R26 to R31). -/
def State.takeMiss (s : State) (a : Addr) : State :=
  let e := s.entry a
  match e.descriptor with
  | none => s
  | some d =>
    let interval := (s.profile d.profile).lostProbeInterval
    match e.presence, e.joinOrigin with
    | .expected, _ => s.lossRule a d (e.missCount + 1) .expected
    | .joining, some .lost =>
      s.updateStation a { e with presence := .lost, joinOrigin := none, joinCount := 0, missCount := 0,
                                 countdown := interval } (s.supervision a)
    | .joining, _ => s.lossRule a d (e.missCount + 1) .expected
    | .present, _ => s.lossRule a d 1 .silent
    | .silent, _ => s.lossRule a d (e.missCount + 1) .silent
    | .mismatch, _ => s.lossRule a d (e.missCount + 1) .mismatch
    | .lost, _ => s.updateStation a { e with countdown := interval } (s.supervision a)
    | _, _ => s

/-! ## SET PROFILE and the countdowns (R22, R35) -/

/-- The counts of an entry brought within a profile's new values (R22). -/
def Entry.fit (e : Entry) (p : Profile) : Entry :=
  { e with joinCount := min e.joinCount (p.joinThreshold - 1), missCount := min e.missCount (p.lossThreshold - 1),
           countdown := min e.countdown p.lostProbeInterval }

/-- Replace a profile and fit the entries that use it (R22). -/
def State.setProfile (s : State) (n : Fin 4) (p : Profile) : State :=
  let fit : Entry → Entry := fun e =>
    match e.descriptor with
    | some d => if d.profile = n then e.fit p else e
    | none => e
  { s with profiles := s.profiles.set n.val p
           roster := ⟨⟨s.roster.toList.map fit⟩, by simp⟩ }

/-- Stage 4 of the cycle end: each countdown above 0 of a LOST entry falls by 1 (R35, R110). -/
def State.countDown (s : State) : State :=
  { s with roster := ⟨⟨s.roster.toList.map (fun e =>
      if e.presence = .lost then { e with countdown := e.countdown - 1 } else e)⟩, by simp⟩ }

end Sys2Proof.Machine
end

