-- ==== Sys2Proof/Machine/Frames.lean ====
section
/-! DEFINITION. Frames: the check, the octets of a frame, the payloads the part sends and receives, and the classes of
received frames (chapter 7, section 12.4). -/

namespace Sys2Proof.Machine

/-! ## The check (R128, R192; notes/assumptions/10.md) -/

/-- One bit through the generator x^16 + x^12 + x^5 + 1, least significant bit first. -/
def crcBit (crc : Word) (bit : Bool) : Word :=
  if crc.getLsbD 0 != bit then (crc >>> 1) ^^^ 0x8408 else crc >>> 1

/-- One octet, from its least significant bit. -/
def crcOctet (crc : Word) (o : Byte) : Word := (List.range 8).foldl (fun c i => crcBit c (o.getLsbD i)) crc

/-- The check of a run of octets: initial value all ones, result complemented. -/
def frameCheck (octets : List Byte) : Word := ~~~(octets.foldl crcOctet 0xFFFF)

/-- The octets of a frame from the destination through the payload (Table 12-7). -/
def Frame.body (f : Frame) : List Byte :=
  [f.dest, f.source, f.kind, f.toggle, octet f.payload.length] ++ f.payload

/-- The octets of a frame, check included (Table 12-7). -/
def Frame.octets (f : Frame) : List Byte := f.body ++ wordOctets (frameCheck f.body)

/-- The frame that a run of octets with five fields before the payload spells (Table 12-7). -/
def frameOf (octets : List Byte) : Frame :=
  { dest := octets.getD 0 0, source := octets.getD 1 0, kind := octets.getD 2 0, toggle := octets.getD 3 0,
    payload := (octets.drop 5).take (octets.getD 4 0).toNat }

/-- Tests 1 to 3 of R131: abandoned, frame length, check. -/
def receiveOctets (abandoned : Bool) (octets : List Byte) : Except ErrorClass Frame :=
  let len := (octets.getD 4 0).toNat
  if abandoned then .error .aborted
  else if octets.length < 5 ∨ 80 < len ∨ octets.length ≠ 5 + len + 2 then .error .malformed
  else if octets.drop (5 + len) ≠ wordOctets (frameCheck (octets.take (5 + len))) then .error .badCheck
  else .ok (frameOf octets)

/-! ## Payloads received (Table 12-8) -/

/-- The identity in an IDENTITY payload; none when a count is above 32 or a width names no width (R131 test 5). -/
def identityOf (payload : List Byte) : Option Identity :=
  match payload with
  | [ic, iw, oc, ow, rev, lo, hi] => do
    let inputCount ← below 33 ic
    let inputWidth ← widthOf iw
    let outputCount ← below 33 oc
    let outputWidth ← widthOf ow
    return ⟨inputCount, inputWidth, outputCount, outputWidth, rev, wordOf lo hi⟩
  | _ => none

/-- A fault item from its three octets; bits 6-5 of the first are ignored (R193). -/
def faultItemOf (c code detail : Byte) : FaultItem :=
  { direction := if c.getLsbD 7 then .output else .input
    circuit := ⟨c.toNat % 32, Nat.mod_lt _ (by decide)⟩
    code := code
    detail := detail }

/-- The fault items in a run of octets, three each. -/
def faultItemsOf : List Byte → List FaultItem
  | c :: code :: detail :: rest => faultItemOf c code detail :: faultItemsOf rest
  | _ => []

/-- Whether a fault list can be stored for a descriptor (R12). -/
def faultListOk (d : Descriptor) (items : List FaultItem) : Bool :=
  decide (items.length ≤ 4) &&
  items.all (fun i => decide (i.code ≠ 0) && decide (i.circuit.val < d.count i.direction)) &&
  decide ((items.map faultRank).Nodup)

/-- The contents of a REPLY payload for a station's descriptor; none when test 7 of R131 fails. -/
def replyOf (d : Descriptor) (payload : List Byte) : Option ReplyContents :=
  let n := d.inputSize
  let itemOctet := payload.getD (3 + n) 0
  let items := faultItemsOf (payload.drop (4 + n))
  if payload.length = 4 + n + 3 * (itemOctet.toNat % 128) ∧ faultListOk d items then
    some { tag := wordOf (payload.getD 0 0) (payload.getD 1 0)
           inputs := (payload.drop 2).take n
           status := { faultCode := payload.getD (2 + n) 0, items := items, more := itemOctet.getLsbD 7 } }
  else none

/-- The kinds that the part receives (Table 7-3). -/
def receivedKinds : List FrameKind :=
  [.reply, .identity, .paramAnswer, .paramRefuse, .openRequest, .serviceAnswer]

/-- The kind a kind octet names, if a station or a tool sends it (R131 test 5). -/
def receivedKindOf (b : Byte) : Option FrameKind := receivedKinds.find? (fun k => decide (k.code = b))

/-- Whether a payload passes test 5 of R131 for its kind. -/
def payloadOk (k : FrameKind) (payload : List Byte) : Bool :=
  match k with
  | .reply => decide (4 ≤ payload.length)
  | .identity => (identityOf payload).isSome
  | .paramAnswer => decide (payload.length ≤ 32)
  | .paramRefuse => decide (payload.length = 1) && decide (payload ≠ [0])
  | .openRequest => decide (payload.length = 2)
  | _ => true

/-- Test 5 of R131: the kind of a frame that passes it. A source above 31 and a toggle above 1 name no value of their
fields (R193; notes/assumptions/11.md). -/
def fieldsOf (own : Addr) (f : Frame) : Option FrameKind :=
  match receivedKindOf f.kind with
  | none => none
  | some k =>
    if f.dest = octet own.val ∧ f.source.toNat < 32 ∧ payloadOk k f.payload ∧
        (k = .paramAnswer → f.toggle.toNat ≤ 1) then some k
    else none

/-! ## What a frame in flight awaits (Table 7-4) -/

/-- The kinds of answer awaited (Table 7-4). -/
def Flight.awaited (f : Flight) : List FrameKind :=
  match f.job with
  | .attempt _ => if f.frame.kind = FrameKind.poll.code then [.reply] else [.identity]
  | .exchange _ _ => [.paramAnswer, .paramRefuse]
  | .servicePoll => [.serviceAnswer]
  | .probe _ => [.identity, .openRequest]
  | .sessionFrame _ _ => []

/-- Test 7 of R131: whether a frame's contents fit the awaited exchange. -/
def State.contentsOk (s : State) (f : Flight) (k : FrameKind) (payload : List Byte) : Bool :=
  match k, f.job with
  | .reply, .attempt v =>
    match (s.entry v.address).descriptor with
    | none => false
    | some d => (replyOf d payload).isSome
  | .paramAnswer, .exchange i _ =>
    match s.slot i with
    | none => false
    | some t =>
      match t.kind with
      | .read => decide (payload.length = t.length)
      | .write => decide (payload.length = 0)
  | .serviceAnswer, _ => serviceAnswerOk payload
  | _, _ => true

/-- The flight whose open window a frame completing on a line belongs to: sent on that line, its window held open by the
frame, or still running with the frame begun at its completion (R130; notes/assumptions/5.md, 6.md). -/
def State.openWindow (s : State) (l : LineId) : Option Flight :=
  match s.scan.flight with
  | none => none
  | some f =>
    if f.line = l then
      match f.phase with
      | .heldOpen => some f
      | .waiting => if (s.line l).receiving then none else some f
      | .sending => none
    else none

/-- The class of a received frame. -/
inductive Received where
  | error (c : ErrorClass)
  | ownAddress
  | good (k : FrameKind) (f : Frame)
deriving DecidableEq, Repr

/-- Tests 5 to 8 of R131 on a frame that bears another address. -/
def State.classifyFields (s : State) (l : LineId) (f : Frame) : Received :=
  match fieldsOf s.ownAddress f with
  | none => .error .malformed
  | some k =>
    match s.openWindow l with
    | none => .error .unsolicited
    | some w =>
      if f.source = w.frame.dest ∧ k ∈ w.awaited then
        if s.contentsOk w k f.payload then .good k f else .error .malformed
      else .error .unsolicited

/-- Tests 4 to 8 of R131 on a frame that has passed tests 1 to 3, or the class those gave. -/
def State.classify (s : State) (l : LineId) (r : Except ErrorClass Frame) : Received :=
  match r with
  | .error c => .error c
  | .ok f => if f.source = octet s.ownAddress.val then .ownAddress else s.classifyFields l f

/-! ## Errors, withdrawal and return (R133 to R137) -/

/-- A saturating count of one more (R137). -/
def saturate (n : Nat) : Nat := min 65535 (n + 1)

/-- The error totals after one more error of a class (R137). -/
def ErrorTotals.count (t : ErrorTotals) : ErrorClass → ErrorTotals
  | .badCheck => { t with badCheck := saturate t.badCheck }
  | .aborted => { t with aborted := saturate t.aborted }
  | .malformed => { t with malformed := saturate t.malformed }
  | .unsolicited => { t with unsolicited := saturate t.unsolicited }

/-- One error counted on a line (R133, R137). -/
def LineEngine.countError (e : LineEngine) (c : ErrorClass) : LineEngine :=
  { e with errorCount := e.errorCount + 1, lastError := some c, totals := e.totals.count c }

/-- The line withdrawn for a class of error (R134). -/
def LineEngine.withdraw (e : LineEngine) (time : Nat) (c : ErrorClass) : LineEngine :=
  { e with state := .withdrawn, errorWindow := none, withdrawal := some time, figures := some (e.errorCount, c),
           totals := { e.totals with withdrawals := saturate e.totals.withdrawals } }

/-- The line enters ACTIVE: a fresh error window with a count of 0 (R126, R133). -/
def LineEngine.activate (e : LineEngine) (window : Nat) : LineEngine :=
  { e with state := .active, errorCount := 0, errorWindow := some window, withdrawal := none, figures := none }

/-- The line becomes QUIET: no window, a count of 0, no withdrawal (R126, R127, R135). -/
def LineEngine.quieten (e : LineEngine) : LineEngine :=
  { e with state := .quiet, errorCount := 0, errorWindow := none, withdrawal := none, figures := none }

/-- The line becomes DISABLED (R127). -/
def LineEngine.disable (e : LineEngine) : LineEngine := { e.quieten with state := .disabled, receiving := false }

/-- A discovery slot in progress forgets a withdrawn line (R109; notes/assumptions/32.md). -/
def Discovery.forget (d : Discovery) (l : LineId) : Discovery := { d with rest := d.rest.filter (fun m => decide (m ≠ l)) }

/-- The flight's discovery slot forgets a withdrawn line. -/
def Flight.forget (f : Flight) (l : LineId) : Flight :=
  match f.job with
  | .probe d => { f with job := .probe (d.forget l) }
  | .sessionFrame d fin => { f with job := .sessionFrame (d.forget l) fin }
  | _ => f

/-- The error window of line setup in ms. -/
def State.errorWindowMs (s : State) : Nat := 1000 * s.config.setup.errorWindow

/-- Withdraw a line (R134): the figures, the timer, the totals, and the beginning of LINE WITHDRAWN. What is being sent on
the line, or a window open there that the error did not end, runs on (the model's choice, notes/assumptions/34.md). -/
def State.withdrawLine (s : State) (l : LineId) (c : ErrorClass) : State :=
  let t := s.setLine l ((s.line l).withdraw s.config.setup.withdrawalTime c)
  ((t.setFlight (t.scan.flight.map (fun f => f.forget l))).handChanges (s.causesOfLine l) (t.causesOfLine l)).endGroup

/-- An error on an ACTIVE line: counted, and the line withdrawn at the error limit (R132 to R134). -/
def State.lineError (s : State) (l : LineId) (c : ErrorClass) : State :=
  let t := s.setLine l ((s.line l).countError c)
  if s.config.setup.errorLimit ≤ (t.line l).errorCount then t.withdrawLine l c else t

/-- The withdrawal timer of a line expires (R135). -/
def State.returnLine (s : State) (l : LineId) : State :=
  let e := s.line l
  let t := s.setLine l (if s.mode.scans then e.activate s.errorWindowMs else e.quieten)
  (t.handChanges (s.causesOfLine l) (t.causesOfLine l)).endGroup

/-- A frame that bears the own address (R87). -/
def State.seeOwnAddress (s : State) (l : LineId) : State :=
  match s.own.standing with
  | some _ => { s with own := { s.own with seen := true } }
  | none =>
    (({ s with own := { seen := true, standing := some l } }).beginCause
      { key := plainKey .part .ownAddressConflict, extra := [lineCode (some l)] }).endGroup

/-- The OWN ADDRESS CONFLICT cause ends, if it stands (R88). -/
def State.finishOwnAddress (s : State) : State :=
  match s.own.standing with
  | none => s
  | some _ =>
    ({ s with own := { s.own with standing := none } }).finishCause (plainKey .part .ownAddressConflict)

/-! ## The line states on a change of mode (R126) -/

/-- A QUIET line becomes ACTIVE by START. -/
def State.startLine (s : State) (l : LineId) : State :=
  if (s.line l).state = .quiet then s.setLine l ((s.line l).activate s.errorWindowMs) else s

/-- An ACTIVE line becomes QUIET by a STOP that takes effect. -/
def State.stopLine (s : State) (l : LineId) : State :=
  if (s.line l).state = .active then s.setLine l (s.line l).quieten else s

end Sys2Proof.Machine
end

