-- ==== Sys2Proof/Machine/Scan.lean ====
section
/-! DEFINITION. The scan engine: the frames it builds, the parts of a cycle, and what the end of a reply window leads to
(chapter 6, sections 2.2, 2.5, 2.6, 8.3, 10.3, 10.4). -/

namespace Sys2Proof.Machine

/-! ## Building frames (R84, R85, R128, R129) -/

/-- A frame of the part: own address as source (R128). -/
def State.frameTo (s : State) (a : Addr) (k : FrameKind) (toggle : Bool) (payload : List Byte) : Frame :=
  { dest := octet a.val, source := octet s.ownAddress.val, kind := k.code, toggle := flagCode toggle,
    payload := payload }

/-- Whether a POLL built now is SAFE (R84). -/
def State.safeNow (s : State) : Bool := decide (s.mode = .held) || s.safety.standing

/-- The value of an output circuit in a LIVE POLL (R85). -/
def State.outputValue (s : State) (a : Addr) (d : Descriptor) (offset n : Nat) : Word :=
  match below 32 (octet n) with
  | none => 0
  | some c =>
    match s.findOverride a .output c with
    | some r => r.value
    | none => s.scan.live.readCircuit offset d.outputWidth n

/-- The payload of a POLL built now (R84, R85, Table 12-8). -/
def State.pollPayload (s : State) (a : Addr) (d : Descriptor) : List Byte :=
  if s.safeNow then [0]
  else
    let offset := ((s.entry a).placement.map Placement.outputOffset).getD 0
    1 :: packCircuits d.outputWidth d.outputCount.val (s.outputValue a d offset)

/-- The frame of a visit: POLL for PRESENT and SILENT, IDENTIFY otherwise (Table 2-2). -/
def State.visitFrame (s : State) (a : Addr) (d : Descriptor) : Frame :=
  if (s.entry a).dataValid then s.frameTo a .poll false (s.pollPayload a d) else s.frameTo a .identify false []

/-- Give a frame to a line engine (R129). -/
def State.send (s : State) (j : Job) (l : LineId) (f : Frame) (window : Option Nat) : State :=
  s.setFlight (some { job := j, line := l, frame := f, window := window, phase := .sending })

/-- The default reply window for the rate (R21). -/
def State.defaultWindow (s : State) : Nat := s.config.setup.rate.defaultWindow

/-! ## Visits (R23, R24, R41, R43) -/

/-- The line for an attempt, none when it fails unsent; `last` is the line of the attempt before it (R41). -/
def State.attemptLine (s : State) (e : Entry) (d : Descriptor) (last : Option LineId) : Option LineId :=
  match d.attachment.single with
  | some l => if s.lineActive l then some l else none
  | none =>
    let first := match last with
      | none => e.activeLine.getD d.preferred
      | some l => otherLine l
    if s.lineActive first then some first
    else if s.lineActive (otherLine first) then some (otherLine first)
    else none

/-- Make the next of the attempts left, if one can be sent; those that cannot fail unsent (R24, R41). -/
def State.makeAttempt (s : State) (a : Addr) (d : Descriptor) (last : Option LineId) : Nat → Option State
  | 0 => none
  | n + 1 =>
    match s.attemptLine (s.entry a) d last with
    | some l =>
      some (s.send (.attempt ⟨a, n, some l⟩) l (s.visitFrame a d) (some (s.profile d.profile).replyWindow))
    | none => s.makeAttempt a d last n

/-- Whether an address is visited when the scan engine reaches it (R23, Table 2-2). -/
def Entry.due (e : Entry) : Bool :=
  match e.presence with
  | .expected => true
  | .joining => true
  | .present => true
  | .silent => true
  | .mismatch => true
  | .lost => decide (e.countdown = 0)
  | _ => false

/-- Whether a visit begins with a return probe (R43). -/
def State.returnProbeDue (s : State) (e : Entry) (d : Descriptor) : Bool :=
  decide (d.attachment = .dual) && decide (e.activeLine ≠ some d.preferred) &&
    decide (s.scan.number.toNat % s.config.setup.returnInterval = 0) && s.lineActive d.preferred

/-! ## The parameter exchange (R142) -/

/-- The frame of a transaction (R142, Table 12-8). -/
def State.parameterFrame (s : State) (t : Transaction) : Frame :=
  match t.kind with
  | .read => s.frameTo t.station .paramRead t.toggle [t.index, octet t.length]
  | .write => s.frameTo t.station .paramWrite t.toggle ([t.index, octet t.length] ++ t.data)

/-- Issue a transaction after its station's visit; it fails at once when no line can carry it (R142, R144). -/
def State.issue (s : State) (i : Fin 4) (t : Transaction) (e : Entry) (d : Descriptor) : State :=
  let u := { t with attempts := t.attempts + 1, state := .sent }
  match s.attemptLine e d none with
  | none => s.failAttempt i u
  | some l =>
    (s.setSlot i (some u)).send (.exchange i t.station) l (s.parameterFrame u)
      (some (s.profile d.profile).replyWindow)

/-- What follows a visit: the group ends, and a WAITING transaction of a PRESENT or SILENT station is issued
(R107, R142). -/
def State.afterVisit (s : State) (a : Addr) : State :=
  let t := s.endGroup
  let e := t.entry a
  match e.descriptor, t.transactionOf a with
  | some d, some i =>
    match t.slot i with
    | some x => if e.dataValid && decide (x.state = .waiting) then t.issue i x e d else t
    | none => t
  | _, _ => t

/-- A visit whose attempts have all failed (R24, R25). -/
def State.visitMissed (s : State) (a : Addr) : State := (s.takeMiss a).afterVisit a

/-- Make the next attempt of a visit, or take its MISS (R24). -/
def State.nextAttempt (s : State) (a : Addr) (d : Descriptor) (last : Option LineId) (left : Nat) : State :=
  match s.makeAttempt a d last left with
  | some t => t
  | none => s.visitMissed a

/-- Begin the visit to an address that is due (R24, R43). -/
def State.startVisit (s : State) (a : Addr) : State :=
  let e := s.entry a
  match e.descriptor with
  | none => s
  | some d =>
    let p := s.profile d.profile
    if s.returnProbeDue e d then
      s.send (.attempt ⟨a, 1 + p.retries, none⟩) d.preferred (s.visitFrame a d) (some p.replyWindow)
    else s.nextAttempt a d none (1 + p.retries)

/-- The scan engine reaches an address (R107). -/
def State.visitAt (s : State) (a : Addr) : State :=
  if s.scan.flight.isSome then s
  else
    let t := { s with scan := { s.scan with nextAddress := a.val + 1 } }
    if (t.entry a).due then t.startVisit a else t

/-- The visits from the next address on, until a frame is in flight (R107). -/
def State.visitRest (s : State) : State := (allAddrs.drop s.scan.nextAddress).foldl State.visitAt s

/-! ## The session slot (R108, R173) -/

/-- Enter the session slot: one SERVICE POLL if a session is OPEN and its line ACTIVE. -/
def State.enterSessionSlot (s : State) : State :=
  let t := s.setCycle .sessionSlot
  match s.session.current with
  | none => t
  | some o =>
    if s.lineActive o.line then
      t.send .servicePoll o.line (s.frameTo o.tool .servicePoll false (servicePollPayload o)) (some s.defaultWindow)
    else t

/-! ## The discovery slot (R38, R39, R109) -/

/-- Whether discovery may choose an address (R38). -/
def Entry.probeable (e : Entry) : Bool :=
  match e.presence with
  | .absent => !e.configured
  | .extra => !e.configured
  | _ => false

/-- The addresses in the order discovery looks at them: after the pointer, wrapping (R38). -/
def rotation (pointer : Option Addr) : List Addr :=
  match pointer with
  | none => allAddrs
  | some p => allAddrs.drop (p.val + 1) ++ allAddrs.take (p.val + 1)

/-- The discovery address (R38). -/
def State.discoveryAddress (s : State) : Option Addr :=
  (rotation s.scan.pointer).find? (fun a => (s.entry a).probeable)

/-- Judge the entry on the answers of the slot's probes (R39). -/
def State.judge (s : State) (d : Discovery) : State :=
  let e := s.entry d.address
  if !e.probeable then s
  else match d.found with
    | some i =>
      (s.updateStation d.address { e with presence := .extra, identity := some i } (s.supervision d.address)).endGroup
    | none =>
      if d.refused then s
      else (s.updateStation d.address { e with presence := .absent, identity := none }
        (s.supervision d.address)).endGroup

/-- Send the probe of a slot on a line (R39). -/
def State.probe (s : State) (d : Discovery) (l : LineId) : State :=
  s.send (.probe d) l (s.frameTo d.address .identify false []) (some s.defaultWindow)

/-- Go on with a discovery slot: the next probe on a line still ACTIVE, or the judgement (R39, R109). -/
def State.probeNext (s : State) (d : Discovery) : State :=
  match d.rest with
  | [] => s.judge d
  | l :: ls =>
    if s.lineActive l then s.probe { d with rest := ls } l
    else match ls with
      | [] => s.judge { d with rest := [] }
      | m :: ms => if s.lineActive m then s.probe { d with rest := ms } m else s.judge { d with rest := [] }

/-- Enter the discovery slot (R38, R109). -/
def State.enterDiscovery (s : State) : State :=
  let t := s.setCycle .discoverySlot
  let lines := [LineId.a, LineId.b].filter s.lineActive
  match s.discoveryAddress, lines with
  | some a, _ :: _ =>
    if s.config.setup.discovery then
      ({ t with scan := { t.scan with pointer := some a } }).probeNext
        { address := a, rest := lines, found := none, refused := false }
    else t
  | _, _ => t

/-! ## The engine goes on until a frame is in flight or the cycle is CLOSING -/

/-- Do something while no frame is in flight and the cycle is in a part. -/
def State.inPart (s : State) (c : CycleState) (f : State → State) : State :=
  if s.scan.flight.isNone && decide (s.scan.cycle = c) then f s else s

/-- Go on with the cycle: the rest of the visits, the session slot, the discovery slot, CLOSING (R106 to R109;
notes/assumptions/21.md). -/
def State.scanOn (s : State) : State :=
  ((((s.inPart .visiting State.visitRest).inPart .visiting State.enterSessionSlot).inPart .sessionSlot
    State.enterDiscovery).inPart .discoverySlot (fun t => t.setCycle .closing))

/-- A cycle begins: VISITING, and the time of its beginning is taken (R106). -/
def State.beginCycle (s : State) : State :=
  { s.drawn with scan := { s.scan with cycle := .visiting, began := s.now, nextAddress := 0 } }

/-! ## The end of a reply window (R24, R39, R130, R143, R144, R173) -/

/-- Take the GOOD outcome of a visit (R25). -/
def State.takeGood (s : State) (a : Addr) (d : Descriptor) (l : LineId) (f : Frame) : State :=
  if f.kind = FrameKind.reply.code then
    match replyOf d f.payload with
    | some r => s.takeReply a l r
    | none => s
  else
    match identityOf f.payload with
    | some i => s.takeIdentity a l i
    | none => s

/-- An attempt of a visit has ended (R24). -/
def State.attemptEnded (s : State) (v : Visit) (l : LineId) (answer : Option Frame) : State :=
  match (s.entry v.address).descriptor with
  | none => s
  | some d =>
    match answer with
    | some f => (s.takeGood v.address d l f).afterVisit v.address
    | none => s.nextAttempt v.address d v.last v.left

/-- An attempt of a transaction has ended (R143, R144). -/
def State.exchangeEnded (s : State) (i : Fin 4) (answer : Option Frame) : State :=
  match s.slot i, answer with
  | none, _ => s
  | some t, none => s.failAttempt i t
  | some t, some f =>
    if f.kind = FrameKind.paramRefuse.code then s.completeAnswered i t .stationRefused (f.payload.take 1)
    else match t.kind with
      | .read => s.completeAnswered i t .done f.payload
      | .write =>
        if f.toggle = flagCode t.toggle then s.completeAnswered i t .done [] else s.failAttempt i t

/-- The exchange of the session slot has ended (R173). -/
def State.pollEnded (s : State) (answer : Option Frame) : State :=
  match answer with
  | none => s
  | some f => (s.takeServiceAnswer f.payload).endGroup

/-- Refuse a session (R172): the refusal is sent in the discovery slot; a slot with no line left to probe is judged
(notes/assumptions/19.md). -/
def State.refuseSession (s : State) (d : Discovery) (l : LineId) (reason : Byte) : State :=
  let x := { d with refused := true }
  let f := s.frameTo d.address .sessionRefuse false [reason]
  match d.rest with
  | [] => (s.judge x).send (.sessionFrame x true) l f none
  | _ :: _ => s.send (.sessionFrame x false) l f none

/-- A GOOD OPEN REQUEST (R172). -/
def State.openRequested (s : State) (d : Discovery) (l : LineId) (tag : Word) : State :=
  if !s.session.permitSessions then s.refuseSession d l 2
  else if s.session.current.isSome then s.refuseSession d l 1
  else ((s.openSession d.address l tag).endGroup).send (.sessionFrame d true) l
    (s.frameTo d.address .sessionAccept false []) none

/-- A discovery probe has ended (R39). -/
def State.probeEnded (s : State) (d : Discovery) (l : LineId) (answer : Option Frame) : State :=
  match answer with
  | none => s.probeNext d
  | some f =>
    if f.kind = FrameKind.openRequest.code then
      s.openRequested d l (wordOf (f.payload.getD 0 0) (f.payload.getD 1 0))
    else match identityOf f.payload with
      | some i => s.probeNext { d with found := some i }
      | none => s.probeNext d

/-- A reply window ends, with a GOOD frame or as a failure, and the scan engine goes on (R130). -/
def State.windowEnds (s : State) (f : Flight) (answer : Option Frame) : State :=
  let t := s.setFlight none
  (match f.job with
   | .attempt v => t.attemptEnded v f.line answer
   | .exchange i _ => t.exchangeEnded i answer
   | .servicePoll => t.pollEnded answer
   | .probe d => t.probeEnded d f.line answer
   | .sessionFrame _ _ => t).scanOn

/-- The last octet of the frame in flight has been sent (R129, R130). -/
def State.sent (s : State) (f : Flight) : State :=
  match f.window with
  | some _ => s.setFlight (some { f with phase := .waiting })
  | none =>
    let t := s.setFlight none
    (match f.job with
     | .sessionFrame d false => t.probeNext d
     | _ => t).scanOn

/-! ## A frame arrives (R130 to R133) -/

/-- A frame on an ACTIVE line has been classified (R132). An error that also ends a window is counted first, LINE WITHDRAWN
begun and its group swept where it reaches the limit, and only then is the window's failure taken (the model's choice,
notes/assumptions/35.md). A frame handed to own-address detection puts the window it held open back to waiting, and a
REPLY_WINDOW_EXPIRY after the frame ends it, also where its time ran out meanwhile: R130 and R87 do not say when it ends
then (the model's choice, notes/assumptions/40.md). -/
def State.takeClass (s : State) (l : LineId) (window : Option Flight) (r : Received) : State :=
  match r with
  | .ownAddress =>
    let t := s.seeOwnAddress l
    match window with
    | some w => t.setFlight (some { w with phase := .waiting })
    | none => t
  | .error c =>
    let t := s.lineError l c
    match window, t.scan.flight with
    | some _, some w => t.windowEnds w none
    | _, _ => t
  | .good _ f =>
    match window with
    | some w => s.windowEnds w (some f)
    | none => s

/-- The frame in reception on a line is complete. -/
def State.received (s : State) (l : LineId) : State := s.setLine l { s.line l with receiving := false }

/-- A frame arrives whole or abandoned on a line (R130 to R132). -/
def State.receive (s : State) (l : LineId) (r : Except ErrorClass Frame) : State :=
  match (s.line l).state with
  | .disabled => s
  | .quiet => s.received l
  | .active => (s.received l).takeClass l (s.openWindow l) (s.classify l r)
  | .withdrawn =>
    if s.mode.scans then
      match s.classify l r with
      | .ownAddress => (s.received l).seeOwnAddress l
      | _ => s.received l
    else s.received l

/-- The first octet of a frame arrives on a line: a reply window running there is held open (R130). -/
def State.firstOctet (s : State) (l : LineId) : State :=
  if (s.line l).state = .disabled then s
  else
    let t := s.setLine l { s.line l with receiving := true }
    match s.openWindow l with
    | some f => if s.lineActive l then t.setFlight (some { f with phase := .heldOpen }) else t
    | none => t

end Sys2Proof.Machine
end

