-- ==== Sys2Proof/Machine/Commit.lean ====
section
/-! DEFINITION. The configuration unit and the mode controller: placement, the application of a commit, a STOP taking
effect, the cycle end (sections 6.1 to 6.5, 9.1, 9.3 to 9.5). -/

namespace Sys2Proof.Machine

/-! ## Placement and images (R120 to R122) -/

/-- The place of an address in a copy. -/
def copyAt (c : StagingCopy) (a : Addr) : Option Descriptor := Vector.get c a

/-- Placement of addresses in ascending order with running offsets (R120). -/
def placeFrom : List (Option Descriptor) → Nat → Nat → List (Option Placement)
  | [], _, _ => []
  | none :: ds, i, o => none :: placeFrom ds i o
  | some d :: ds, i, o =>
    some ⟨i, d.inputSize, o, d.outputSize⟩ :: placeFrom ds (i + d.inputSize) (o + d.outputSize)

/-- The placement that a copy gives an address (R120). -/
def placementIn (c : StagingCopy) (a : Addr) : Option Placement := ((placeFrom c.toList 0 0)[a.val]?).join

/-- The input total of a copy (R120). -/
def inputTotal (c : StagingCopy) : Nat := (c.toList.map (fun d => (d.map Descriptor.inputSize).getD 0)).sum

/-- The output total of a copy (R120). -/
def outputTotal (c : StagingCopy) : Nat := (c.toList.map (fun d => (d.map Descriptor.outputSize).getD 0)).sum

/-- An area built from slices of another: (old offset, size, new offset); every other octet is 0 (R121). -/
def rebuildArea (m : Memory) (moves : List (Nat × Nat × Nat)) : Memory :=
  moves.foldl (fun n v => n.writeList v.2.2 (m.readList v.1 v.2.1)) []

/-! ## The comparison (R3, R162) -/

/-- The comparison of a staged place with the committed descriptor (R3, R162). -/
def comparisonOf (committed staged : Option Descriptor) : Comparison :=
  match committed, staged with
  | none, none => .none
  | none, some _ => .added
  | some _, none => .removed
  | some d, some e => if d = e then .unchanged else .changed

/-- The comparison at an address. -/
def State.compare (s : State) (c : StagingCopy) (a : Addr) : Comparison :=
  comparisonOf (s.entry a).descriptor (copyAt c a)

/-- Whether the old station is taken out (Table 9-4). -/
def Comparison.takesOut : Comparison → Bool
  | .removed => true
  | .changed => true
  | _ => false

/-- Whether a station is set up (Table 9-4). -/
def Comparison.setsUp : Comparison → Bool
  | .added => true
  | .changed => true
  | _ => false

/-- Whether the address is touched at all (R121). -/
def Comparison.moves (c : Comparison) : Bool := c.takesOut || c.setsUp

/-- How many addresses compare in a way (R168). -/
def State.comparisons (s : State) (c : StagingCopy) (k : Comparison) : Nat :=
  allAddrs.countP (fun a => decide (s.compare c a = k))

/-! ## Applying a commit (R167) -/

/-- Step 1: the session ends if the copy configures its tool's address. -/
def State.commitSession (s : State) (c : StagingCopy) : State :=
  match s.session.current with
  | none => s
  | some o => if (copyAt c o.tool).isSome then s.endSession .reconfigured else s

/-- Step 2 at one address: records retired, overrides removed, the entry unconfigured (R5). -/
def State.takeOut (s : State) (a : Addr) : State :=
  (((s.retireStation a).dropOverrides (OverrideRecord.ofStation a)).setEntry a .unconfigured).setSupervision a {}

/-- The entry as a commit sets it up (R4). -/
def Entry.setUp (d : Descriptor) : Entry :=
  { descriptor := some d, presence := .expected, activeLine := some d.preferred }

/-- Step 3 at one address: a STATION EXTRA cause ends, the entry is set up, its slice starts at 0, its next write toggle is
0; a removed address loses its slice (R4, R40, R113, R140). -/
def State.setUp (s : State) (c : StagingCopy) (a : Addr) : State :=
  match copyAt c a with
  | some d =>
    (((s.updateStation a .unconfigured (s.supervision a)).setEntry a (.setUp d)).setSlice a
      (List.replicate d.inputSize 0)).setToggle a false
  | none => (s.setSlice a []).setToggle a false

/-- Whether placement differs at some address (R122). -/
def State.placementMoves (s : State) (c : StagingCopy) : Bool :=
  allAddrs.any (fun a => decide ((s.entry a).placement ≠ placementIn c a))

/-- The slices that the rebuild moves: those of stations that stay unchanged (R121). -/
def State.keptSlices (s : State) (c : StagingCopy) : List (Placement × Placement) :=
  allAddrs.filterMap (fun a =>
    match s.compare c a, (s.entry a).placement, placementIn c a with
    | .unchanged, some p, some q => some (p, q)
    | _, _, _ => none)

/-- The rebuild of the three areas (R121). -/
def State.rebuild (s : State) (kept : List (Placement × Placement)) : State :=
  let ins := kept.map (fun k => (k.1.inputOffset, k.1.inputSize, k.2.inputOffset))
  let outs := kept.map (fun k => (k.1.outputOffset, k.1.outputSize, k.2.outputOffset))
  { s with
    scan := { s.scan with published := rebuildArea s.scan.published ins, live := rebuildArea s.scan.live outs }
    port := { s.port with outputArea := rebuildArea s.port.outputArea outs } }

/-- Every configured entry takes its new placement, every other has none (R18, R120). -/
def State.place (s : State) (c : StagingCopy) : State :=
  { s with roster := ⟨⟨(List.finRange 32).map (fun a => { s.entry a with placement := placementIn c a })⟩, by simp⟩ }

/-- Step 5: CONFIG INCOMPLETE ends (R164). -/
def State.clearIncomplete (s : State) : State :=
  if s.config.incomplete then
    ({ s with config := { s.config with incomplete := false } }).finishCause (plainKey .part .configIncomplete)
  else s

/-- Step 7: the mode after a commit (R167). -/
def modeAfterCommit (m : Mode) (holds : Bool) : Mode :=
  match m with
  | .offline => if holds then .standby else .offline
  | .standby => if holds then .standby else .offline
  | x => x

/-- Whether a copy holds a descriptor. -/
def copyHolds (c : StagingCopy) : Bool := c.toList.any Option.isSome

/-- Steps 1 to 7 of a commit's application (R167). -/
def State.applyCommit (s : State) (c : StagingCopy) : State :=
  let out := allAddrs.filter (fun a => (s.compare c a).takesOut)
  let touched := allAddrs.filter (fun a => (s.compare c a).moves)
  let kept := s.keptSlices c
  let moved := s.placementMoves c
  let s1 := s.commitSession c
  let s2 := (out.foldl State.takeOut s1).completeWhere (fun t => decide (t.station ∈ out)) .reconfigured
  let s3 := touched.foldl (fun u a => u.setUp c a) s2
  let s4 := if touched.isEmpty then s3 else s3.rebuild kept
  let s5 := (s4.place c).clearIncomplete
  let s6 := { s5 with
    scan := { s5.scan with layout := if moved then s5.scan.layout + 1 else s5.scan.layout }
    config := { s5.config with staging := .closed, gapTimer := none } }
  { s6 with mode := modeAfterCommit s6.mode (copyHolds c) }

/-- The result fields of an applied commit: `s` before it, `t` after it (R168). -/
def commitResult (s t : State) (c : StagingCopy) : List Byte :=
  [octet (s.comparisons c .added), octet (s.comparisons c .removed), octet (s.comparisons c .changed),
    octet (s.comparisons c .unchanged)] ++ wordOctets t.scan.layout ++ [flagCode (s.placementMoves c)] ++
    numberOctets (inputTotal c) ++ numberOctets (outputTotal c) ++ [t.mode.code]

/-! ## A STOP taking effect (R116) -/

/-- The first part: mode, lines, refresh timer, indicator. -/
def State.stopHalt (s : State) : State :=
  let t := { s with mode := .standby, stopPending := none, safety := { s.safety with timer := none } }
  (t.stopLine .a).stopLine .b

/-- The second part: transactions, session, own-address cause; no sweep runs between them (at a cycle end by R116, in WAITING
by the model's choice, notes/assumptions/39.md). -/
def State.stopEnds (s : State) : State :=
  ((s.completeWhere (fun _ => true) .stopped).endSession .stopped).finishOwnAddress

/-- The pending commit, with the tag of its request. -/
def State.pendingCommit (s : State) : Option (Byte × StagingCopy) :=
  match s.config.staging with
  | .commitPending tag c => some (tag, c)
  | _ => none

/-- The pending commit applied, with its response (R117, R167). -/
def State.commitPart (s : State) : State :=
  match s.pendingCommit with
  | none => s
  | some (tag, c) =>
    let t := s.applyCommit c
    t.postDeferred tag RequestKind.stageCommit.code .ok (commitResult s t c)

/-- Stage 3 of the cycle end: the pending STOP and the pending COMMIT (R116, R117; notes/assumptions/9.md). Where both are
applied, the completions with STOPPED are posted behind the COMMIT's response (the model's choice,
notes/assumptions/38.md). -/
def State.deferredWork (s : State) : State :=
  match s.stopPending with
  | none => s.commitPart
  | some tag => ((s.stopHalt.commitPart).stopEnds).postDeferred tag RequestKind.stop.code .ok []

/-! ## The cycle end (R110) -/

/-- The published value of one override over a station's slice (R100). -/
def State.publishOverride (s : State) (m : Memory) (r : OverrideRecord) : Memory :=
  match r.direction, (s.entry r.station).descriptor, (s.entry r.station).placement with
  | .input, some d, some p => m.writeCircuit p.inputOffset d.inputWidth r.circuit.val r.value
  | _, _, _ => m

/-- One station's slice in the published input area (R114). -/
def State.publishSlice (s : State) (m : Memory) (a : Addr) : Memory :=
  match (s.entry a).placement with
  | none => m
  | some p => m.writeList p.inputOffset ((s.slice a).take p.inputSize)

/-- The published input area of a publication: every slice, then the input overrides, 0 elsewhere (R100, R114). -/
def State.publication (s : State) : Memory :=
  s.overrides.foldl s.publishOverride (allAddrs.foldl s.publishSlice [])

/-- Stages 1 and 2: publication and the sequence word (R114, R115). -/
def State.publish (s : State) : State :=
  { s with scan := { s.scan with published := s.publication, sequence := s.scan.number.setWidth 16 } }

/-- Stage 5: the own-address check (R88). -/
def State.ownCheck (s : State) : State :=
  let t := if s.own.seen then s else s.finishOwnAddress
  { t with own := { t.own with seen := false } }

/-- Stages 1 to 7 of the cycle end (R110). -/
def State.closeCycle (s : State) : State :=
  let t := ((s.publish.deferredWork.countDown).ownCheck).sweep
  { t with scan := { t.scan with number := t.scan.number + 1 } }

/-- What follows the cycle end: the next cycle at once, or the wait (R111; notes/assumptions/4.md). -/
def State.afterClose (s : State) : State :=
  if s.config.setup.cyclePeriod = 0 then s.beginCycle.scanOn
  else if 1000 * s.config.setup.cyclePeriod ≤ s.now - s.scan.began then s.drawn.beginCycle.scanOn
  else s.drawn.setCycle .waiting

/-- The cycle end, in CLOSING with no frame in flight (R110, R111). -/
def State.cycleEnds (s : State) : State :=
  let t := s.closeCycle
  if s.stopPending.isSome then t.setCycle .stopped else t.afterClose

end Sys2Proof.Machine
end

