-- ==== Sys2Proof/Machine/Restart.lean ====
section
/-! DEFINITION. Restart, and power-on reset (R155 to R157; the reset values of every block). -/

namespace Sys2Proof.Machine

/-- An entry after restart (Table 1-6). -/
def restartEntry (own : Addr) (a : Addr) (e : Entry) : Entry :=
  match e.descriptor with
  | some d => { Entry.setUp d with placement := e.placement }
  | none => if a = own then { presence := .own } else .unconfigured

/-- A station's slice after restart (R113). -/
def restartSlice (e : Entry) : List Byte :=
  match e.descriptor with
  | some d => List.replicate d.inputSize 0
  | none => []

/-- The generation of a slot after restart: advanced where the slot holds a record (R47, R73). -/
def State.restartGeneration (s : State) (i : Fin 64) : Byte :=
  if s.cond.records.any (fun r => decide (r.slot = i)) then s.cond.generations[i.val] + 1 else s.cond.generations[i.val]

/-- The condition unit after restart, before the sweep (R73). -/
def State.restartConditions (s : State) : ConditionUnit :=
  { records := [], generations := ⟨⟨(List.finRange 64).map s.restartGeneration⟩, by simp⟩,
    actionMap := s.cond.actionMap, overflowCount := 0, overflowFlag := false, sweepOwed := false }

/-- A line engine after restart (R127): a frame whose octets are still arriving goes on arriving. -/
def LineEngine.restart (e : LineEngine) : LineEngine :=
  { state := if e.state = .disabled then .disabled else .quiet, receiving := e.receiving }

/-- The scan engine after restart (R38, R106, R112 to R115, R119, R122). -/
def State.restartScan (s : State) : ScanEngine :=
  { layout := s.scan.layout
    buffer := ⟨⟨(List.finRange 32).map (fun a => restartSlice (s.entry a))⟩, by simp⟩ }

/-- The session unit after restart: an open session ends with RESTARTED (R169, R171, R177). -/
def SessionUnit.restart (u : SessionUnit) : SessionUnit :=
  { u with current := none, lastEnd := if u.current.isSome then .restarted else u.lastEnd }

/-- The port after restart (R118, R183, R191). -/
def Port.restart (p : Port) : Port :=
  { entryArea := p.entryArea, restartCount := p.restartCount + 1, restartAsserted := p.restartAsserted }

/-- Restart, its closing sweep included (R156, R157). -/
def State.restart (s : State) : State :=
  State.sweep
    { s with
      mode := if s.anyConfigured then .standby else .offline
      stopPending := none
      roster := ⟨⟨(List.finRange 32).map (fun a => restartEntry s.ownAddress a (s.entry a))⟩, by simp⟩
      supervised := Vector.replicate 32 {}
      cond := s.restartConditions
      overrides := []
      scan := s.restartScan
      lineA := s.lineA.restart
      lineB := s.lineB.restart
      own := {}
      safety := { limit := s.safety.limit }
      trans := { nextStamp := s.trans.nextStamp }
      config := { s.config with staging := .closed, gapTimer := none }
      session := s.session.restart
      port := s.port.restart }

/-- Power-on reset: every field at its reset value, but for the model's own queue and count of free readings. -/
def State.powerOn (s : State) : State := { State.reset with pending := s.pending, freeReads := s.freeReads }

end Sys2Proof.Machine
end

