-- ==== Sys2Proof/Machine/Requests.lean ====
section
/-! DEFINITION. The execution of the head request by the port, and the work of the requests that no unit's file holds
(R184, R186, R189, chapters 4, 7, 9). -/

namespace Sys2Proof.Machine

/-! ## Execution (R184, R186, R189) -/

/-- What an executed request leaves: its answer, posted with the tag and the kind as written, or none where its response
is deferred. -/
def answered (r : Memory) (x : Option Answer × State) : State :=
  match x.1 with
  | none => x.2
  | some a => x.2.post (requestTag r) (requestKindOctet r) a.status a.result

/-- Whether the port can execute the head record as a request whose kind octet passes a test (R184). -/
def State.headReady (s : State) (p : Byte → Bool) : Bool :=
  match s.port.requests with
  | [] => false
  | r :: _ => p (requestKindOctet r) && s.hasRoom

/-- The head record removed from the queue (R184). -/
def State.popRequest (s : State) : State := { s with port := { s.port with requests := s.port.requests.tail } }

/-- The head record. -/
def State.headRequest (s : State) : Memory := s.port.requests.headD []

/-- Execute the head record (R184): the record is removed, the unit's work done, the response posted, the group ended
(notes/assumptions/8.md). -/
def State.runHead (s : State) (body : Memory → State → Option Answer × State) : State :=
  (answered s.headRequest (body s.headRequest s.popRequest)).endGroup

/-- Execute the head record if it is of a kind and its response has room (R184; notes/assumptions/1.md). -/
def State.runRequest (s : State) (k : RequestKind) (body : Memory → State → Option Answer × State) : State :=
  if s.headReady (fun b => decide (requestKindOf b = some k)) then s.runHead body else s

/-- A request answered at once by a unit that may change the state. -/
def atOnce (x : Answer × State) : Option Answer × State := (some x.1, x.2)

/-- A refusal or an answer that changes nothing. -/
def reply (s : State) (st : Status) (result : List Byte := []) : Option Answer × State := (some ⟨st, result⟩, s)

/-! ## Modes (R79, R153, R154) -/

/-- The output refresh timer started with the full limit, or left stopped while the limit is 0 (R82). -/
def State.startRefresh (s : State) : State :=
  { s with safety := { s.safety with timer := if s.safety.limit = 0 then none else some s.safety.limit } }

/-- The effects of a START that passes its checks, up to the first cycle's visits (R153). -/
def State.startScanning (s : State) : State :=
  ((({ s with mode := .scanning }.startLine .a).startLine .b).startRefresh).beginCycle

/-- START (R153). -/
def State.startRequest (s : State) : Option Answer × State :=
  if s.mode ≠ .standby then reply s .wrongMode
  else if s.config.incomplete then reply s .configIncomplete
  else if 0 < s.fatalCount then reply s .fatalStanding
  else (some ⟨.ok, []⟩, s.startScanning)

/-- STOP (R111, R154). One that takes effect in WAITING is one group: what it retires, as the session's end and as the
own-address cause ends, is swept once, after both (the model's choice, notes/assumptions/39.md). -/
def State.stopRequest (s : State) (tag : Byte) : Option Answer × State :=
  if !s.mode.scans then reply s .wrongMode
  else if s.stopPending.isSome then reply s .busy
  else if s.scan.cycle = .waiting then (some ⟨.ok, []⟩, (s.stopHalt.stopEnds).setCycle .stopped)
  else (none, ({ s with stopPending := some tag }).defer)

/-- RESUME (R79). -/
def State.resumeRequest (s : State) : Option Answer × State :=
  if s.mode ≠ .held then reply s .wrongMode
  else if 0 < s.fatalCount then reply s .fatalStanding
  else (some ⟨.ok, []⟩, ({ s with mode := .scanning }).startRefresh)

/-! ## Staging (R158 to R165) -/

/-- The gap timer restarted with the setting (R158). -/
def State.restartGap (s : State) : State :=
  { s with config := { s.config with gapTimer := some s.config.gapSetting } }

/-- The staging closed and the gap timer stopped. -/
def State.closeStaging (s : State) : State := { s with config := { s.config with staging := .closed, gapTimer := none } }

/-- The copy as edited. -/
def State.setCopy (s : State) (c : StagingCopy) : State := { s with config := { s.config with staging := .opened c } }

/-- The staging state test of R158, and the gap timer restarted in OPEN. -/
def State.whileOpen (s : State) (f : StagingCopy → State → Option Answer × State) : Option Answer × State :=
  match s.config.staging with
  | .closed => reply s .noStaging
  | .commitPending _ _ => reply s .busy
  | .opened c => f c s.restartGap

/-- Whether a gap operand may be taken (R159). -/
def gapOk (gap : Nat) : Bool := decide (gap = 0) || within 500 60000 gap

/-- STAGE BEGIN (R159). -/
def State.stageBegin (s : State) (gap : Nat) : Option Answer × State :=
  match s.config.staging with
  | .commitPending _ _ => reply s .busy
  | .opened _ => reply s.restartGap .stagingOpen
  | .closed =>
    if gapOk gap then
      let setting := if gap = 0 then s.config.gapSetting else gap
      reply ({ s with config := { s.config with gapSetting := setting } }.setCopy s.committed).restartGap .ok
        (numberOctets setting)
    else reply s .badOperand

/-- STAGE STATION in OPEN (R160). -/
def State.stageStation (s : State) (c : StagingCopy) (address : Byte) (d : Option Descriptor) : Option Answer × State :=
  match addrOf address with
  | none => reply s .badOperand
  | some a =>
    if a = s.ownAddress then reply s .addressInUse
    else match d with
      | none => reply s .badOperand
      | some x => reply (s.setCopy (c.set a.val (some x))) .ok [flagCode (copyAt c a).isSome]

/-- STAGE REMOVE in OPEN (R161). -/
def State.stageRemove (s : State) (c : StagingCopy) (address : Byte) : Option Answer × State :=
  match addrOf address with
  | none => reply s .badOperand
  | some a =>
    if (copyAt c a).isSome then reply (s.setCopy (c.set a.val none)) .ok else reply s .notFound

/-- READ STAGED in OPEN (R162; notes/assumptions/14.md). -/
def State.readStaged (s : State) (c : StagingCopy) (address : Byte) : Option Answer × State :=
  match addrOf address with
  | none => reply s .badOperand
  | some a =>
    reply s .ok (optionalOctets 8 ((copyAt c a).map descriptorOctets) ++ [(s.compare c a).code] ++
      numberOctets (inputTotal c) ++ numberOctets (outputTotal c))

/-- The checks of STAGE COMMIT in order (R165); none when they pass. -/
def State.commitRefusal (s : State) (c : StagingCopy) : Option Status :=
  if 1024 < inputTotal c ∨ 1024 < outputTotal c then some .imageOverflow
  else if c.toList.any (fun p => match p with
      | none => false
      | some d => !s.config.setup.serves d.attachment) then some .badOperand
  else if s.mode.scans ∧ ¬ copyHolds c then some .emptyConfiguration
  else none

/-- STAGE COMMIT in OPEN (R111, R165). -/
def State.stageCommit (s : State) (tag : Byte) (c : StagingCopy) : Option Answer × State :=
  match s.commitRefusal c with
  | some st => reply s st
  | none =>
    if s.mode.scans ∧ s.scan.cycle ≠ .waiting then
      (none, ({ s with config := { s.config with staging := .commitPending tag c, gapTimer := none } }).defer)
    else (some ⟨.ok, commitResult s (s.applyCommit c) c⟩, s.applyCommit c)

/-! ## Settings (R22, R75, R81, R124, R125) -/

/-- The reply windows after a change of rate (R21, R125). -/
def profilesAtRate (ps : Vector Profile 4) (old new : Rate) : Vector Profile 4 :=
  if old = new then ps else ⟨⟨ps.toList.map (fun p => { p with replyWindow := new.defaultWindow })⟩, by simp⟩

/-- An entry after SET LINE SETUP: the own address (R16) and discovery going off (R40). -/
def setupEntry (old new : LineSetup) (a : Addr) (e : Entry) : Entry :=
  if old.ownAddress ≠ new.ownAddress ∧ a = new.ownAddress then { presence := .own }
  else if old.ownAddress ≠ new.ownAddress ∧ a = old.ownAddress then .unconfigured
  else if old.discovery && !new.discovery && decide (e.presence = .extra) then
    { e with presence := .absent, identity := none }
  else e

/-- A line after its enable is replaced (R127). -/
def LineEngine.setEnable (e : LineEngine) (old new : Bool) : LineEngine :=
  if old = new then e else if new then e.quieten else e.disable

/-- All ten settings replaced, with the effects of each that has changed, as one group (R125). -/
def State.applySetup (s : State) (c : LineSetup) : State :=
  let o := s.config.setup
  let t := { s with
    config := { s.config with setup := c }
    profiles := profilesAtRate s.profiles o.rate c.rate
    roster := ⟨⟨(List.finRange 32).map (fun a => setupEntry o c a (s.entry a))⟩, by simp⟩
    lineA := s.lineA.setEnable o.enableA c.enableA
    lineB := s.lineB.setEnable o.enableB c.enableB }
  t.handChanges s.standingCauses t.standingCauses

/-- Whether an address is configured in an open staging copy (R124 check 3). -/
def Staging.holds (g : Staging) (a : Addr) : Bool :=
  match g with
  | .opened c => (copyAt c a).isSome
  | _ => false

/-- SET LINE SETUP (R124). -/
def State.setLineSetup (s : State) (c : Option LineSetup) : Option Answer × State :=
  if s.mode.scans then reply s .wrongMode
  else match c with
    | none => reply s .badOperand
    | some n =>
      if n.ownAddress ≠ s.ownAddress ∧
          ((s.entry n.ownAddress).configured || s.config.staging.holds n.ownAddress) then reply s .addressInUse
      else if allAddrs.any (fun a => match (s.entry a).descriptor with
          | none => false
          | some d => !n.serves d.attachment) then reply s .badOperand
      else (some ⟨.ok, []⟩, s.applySetup n)

/-- SET PROFILE (R22). -/
def State.setProfileRequest (s : State) (number : Byte) (p : Option Profile) : Option Answer × State :=
  match below 4 number, p with
  | some n, some x => reply (s.setProfile n x) .ok
  | _, _ => reply s .badOperand

/-- SET ACTION (R75). -/
def State.setAction (s : State) (category cls latching : Byte) : Option Answer × State :=
  match categoryOf category, actionClassOf cls, flagOf latching with
  | some c, some k, some l =>
    if c.configurable then
      reply { s with cond := { s.cond with actionMap := s.cond.actionMap.set c.index.val ⟨k, l⟩ } } .ok
    else reply s .badOperand
  | _, _, _ => reply s .badOperand

/-- The output refresh timer after the limit is replaced (R81; notes/assumptions/33.md). -/
def refreshTimerAfter (old : OutputSafety) (limit : Nat) (scans : Bool) : Timer :=
  if limit = 0 then none
  else if old.timer.isSome then some limit
  else if old.limit = 0 ∧ scans then some limit
  else none

/-- SET OUTPUT REFRESH (R81). -/
def State.setOutputRefresh (s : State) (limit : Nat) : Option Answer × State :=
  if limit = 0 ∨ within 10 5000 limit then
    reply { s with safety := { s.safety with
      limit := limit, timer := refreshTimerAfter s.safety limit s.mode.scans } } .ok
  else reply s .badOperand

/-! ## Conditions (R60, R61, R64) -/

/-- ACK CONDITION (R60): the state after is STANDING-ACKED 1, or retired 3 (Table 12-4). -/
def State.ackCondition (s : State) (slot generation : Byte) : Option Answer × State :=
  match below 64 slot with
  | none => reply s .badOperand
  | some i =>
    match s.recordOfReference i generation with
    | none => reply s .stale
    | some r => reply (s.ackRecord r) .ok [if r.state = .ended then 3 else 1]

/-- ACK ALL (R61). -/
def State.ackAll (s : State) : Option Answer × State :=
  let t := s.cond.records.foldl State.ackRecord s
  reply { t with cond := { t.cond with overflowFlag := false } } .ok
    [octet (s.recordsIn .standing), octet (s.recordsIn .ended)]

/-- CLEAR OVERFLOW (R64). -/
def State.clearOverflow (s : State) : Option Answer × State :=
  reply { s with cond := { s.cond with overflowCount := 0 } } .ok (numberOctets s.cond.overflowCount)

/-! ## Overrides and the session (R97, R98, R180) -/

/-- REMOVE STATION OVERRIDES (R97). -/
def State.removeStationOverrides (s : State) (station : Byte) : Option Answer × State :=
  match addrOf station with
  | none => reply s .badOperand
  | some a =>
    if (s.entry a).configured then
      reply (s.dropOverrides (OverrideRecord.ofStation a)) .ok [octet (s.overrideCount a)]
    else reply s .notConfigured

/-- REMOVE ALL OVERRIDES (R98). -/
def State.removeAllOverrides (s : State) : Option Answer × State :=
  reply (s.dropOverrides (fun _ => true)) .ok [octet s.overrides.length]

/-- END SESSION (R180). -/
def State.endSessionRequest (s : State) : Option Answer × State :=
  match s.session.current with
  | none => reply s .notFound
  | some o => reply (s.endSession .endedByController) .ok [octet o.tool.val, octet s.sessionShare]

end Sys2Proof.Machine
end

