-- ==== Sys2Proof/Machine/Clock.lean ====
section
/-! DEFINITION. The part's own traffic and clockwork: the frame sent, the reply window, the cycle and the timers. -/

namespace Sys2Proof.Machine

/-- The frame in flight, in a phase. -/
def State.inPhase (s : State) (p : Phase) : Option Flight := s.scan.flight.filter (fun f => decide (f.phase = p))

/-- The last octet of a frame has been sent (R129, R130). -/
def execFrameSent (s : State) : Host.Outcome State Fault Refusal :=
  match s.inPhase .sending with
  | some f => .next (s.sent f)
  | none => .next s

/-- A reply window ends in silence (R130). One that a frame holds open is not ended (R130), and the expiry is not
remembered: where the frame then goes to own-address detection that is the model's choice, notes/assumptions/40.md. -/
def execReplyWindowExpiry (s : State) : Host.Outcome State Fault Refusal :=
  match s.inPhase .waiting with
  | some f => .next (s.windowEnds f none)
  | none => .next s

/-- The cycle end (R110). -/
def execCycleEnd (s : State) : Host.Outcome State Fault Refusal :=
  .next (if s.scan.cycle = .closing ∧ s.scan.flight.isNone then s.cycleEnds else s)

/-- The cycle period passes in WAITING (R111). -/
def execCyclePeriodExpiry (s : State) : Host.Outcome State Fault Refusal :=
  .next (if s.scan.cycle = .waiting then s.beginCycle.scanOn else s)

/-- The output refresh timer expires (R83). -/
def State.refreshExpired (s : State) : State :=
  let t := { s with safety := { s.safety with timer := none, standing := true } }
  if s.safety.standing then t
  else (t.beginCause { key := plainKey .part .outputsSafe, extra := [] }).endGroup

/-- The output refresh timer expires, if it runs (R83). -/
def execOutputRefreshTimerExpiry (s : State) : Host.Outcome State Fault Refusal :=
  .next (if s.safety.timer.isSome then s.refreshExpired else s)

/-- The error window of a line expires, if it runs: the count becomes 0 and the window starts again (R133). -/
def execErrorWindowExpiry (line : LineId) (s : State) : Host.Outcome State Fault Refusal :=
  .next (if (s.line line).errorWindow.isSome then
    s.setLine line { s.line line with errorCount := 0, errorWindow := some s.errorWindowMs } else s)

/-- The withdrawal timer of a WITHDRAWN line expires (R135). -/
def execWithdrawalTimerExpiry (line : LineId) (s : State) : Host.Outcome State Fault Refusal :=
  .next (if (s.line line).state = .withdrawn then s.returnLine line else s)

/-- The staging gap timer expires while the staging is OPEN (R164). -/
def State.gapExpired (s : State) : State :=
  let t := s.closeStaging
  let u := { t with config := { t.config with incomplete := true } }
  if s.config.incomplete then u
  else (u.beginCause { key := plainKey .part .configIncomplete, extra := [] }).endGroup

/-- Whether a staging copy is OPEN. -/
def Staging.isOpen : Staging → Bool
  | .opened _ => true
  | _ => false

/-- The staging gap timer expires, if it runs while OPEN (R164). -/
def execStagingGapTimerExpiry (s : State) : Host.Outcome State Fault Refusal :=
  .next (if s.config.staging.isOpen && s.config.gapTimer.isSome then s.gapExpired else s)

/-- The session timer expires (R176). -/
def execSessionTimerExpiry (s : State) : Host.Outcome State Fault Refusal := .next (s.endSession .timedOut).endGroup

end Sys2Proof.Machine
end

