-- ==== Sys2Proof/Machine/ControlRequests.lean ====
section
/-! DEFINITION. The requests of the mode controller: START, STOP, RESUME, RESTART. -/

namespace Sys2Proof.Machine

/-- START (R153): once the response is posted, the first cycle's visits are made (R106). -/
def execStart (s : State) : Host.Outcome State Fault Refusal :=
  let t := s.runRequest .start (fun _ u => u.startRequest)
  .next (if s.scan.cycle = .stopped ∧ t.scan.cycle = .visiting then t.scanOn else t)

/-- STOP (R111, R154). -/
def execStop (s : State) : Host.Outcome State Fault Refusal :=
  .next (s.runRequest .stop (fun r t => t.stopRequest (requestTag r)))

/-- RESUME (R79). -/
def execResume (s : State) : Host.Outcome State Fault Refusal :=
  .next (s.runRequest .resume (fun _ t => t.resumeRequest))

/-- RESTART (R155 to R157): its response is the first entry of the emptied queue. -/
def execRestart (s : State) : Host.Outcome State Fault Refusal :=
  .next (s.runRequest .restart (fun _ t => (some ⟨.ok, []⟩, t.restart)))

end Sys2Proof.Machine
end

