-- ==== Sys2Proof/Machine/FramesReceived.lean ====
section
/-! DEFINITION. The frames received: any frame as octets, and a whole frame of each kind a station or a tool sends (R130 to R132). -/

namespace Sys2Proof.Machine

/-- A frame of a kind with a correct length and check, addressed to the part (notes/assumptions/28.md). -/
def State.frameFrom (s : State) (source : Byte) (k : FrameKind) (toggle : Byte) (payload : List Byte) : Frame :=
  { dest := octet s.ownAddress.val, source := source, kind := k.code, toggle := toggle, payload := payload }

/-- The item octet of a REPLY: the count, and the more flag in bit 7 (Table 12-8). -/
def itemOctet (n : Nat) (more : Bool) : Byte := octet (n % 128 + if more then 128 else 0)

/-- A frame arrives as octets, or abandoned (R131). -/
def execFrameReceived (line : LineId) (abandoned : Bool) (octets : List Byte) (s : State) :
    Host.Outcome State Fault Refusal :=
  .next (s.receive line (receiveOctets abandoned octets))

/-- A REPLY (R25). -/
def execReply (line : LineId) (source : Byte) (tag : Word) (inputs : List Byte) (faultCode : Byte) (more : Bool) (items : List FaultItem) (s : State) :
    Host.Outcome State Fault Refusal :=
  .next (s.receive line (.ok (s.frameFrom source .reply 0
    (wordOctets tag ++ inputs ++ [faultCode, itemOctet items.length more] ++ items.flatMap faultItemOctets))))

/-- An IDENTITY (R25, R39). -/
def execIdentity (line : LineId) (source inputCount inputWidth outputCount outputWidth revision : Byte) (tag : Word) (s : State) :
    Host.Outcome State Fault Refusal :=
  .next (s.receive line (.ok (s.frameFrom source .identity 0
    ([inputCount, inputWidth, outputCount, outputWidth, revision] ++ wordOctets tag))))

/-- A PARAM ANSWER (R143). -/
def execParamAnswer (line : LineId) (source toggle : Byte) (data : List Byte) (s : State) :
    Host.Outcome State Fault Refusal :=
  .next (s.receive line (.ok (s.frameFrom source .paramAnswer toggle
    data)))

/-- A PARAM REFUSE (R143). -/
def execParamRefuse (line : LineId) (source reason : Byte) (s : State) :
    Host.Outcome State Fault Refusal :=
  .next (s.receive line (.ok (s.frameFrom source .paramRefuse 0
    [reason])))

/-- An OPEN REQUEST (R172). -/
def execOpenRequest (line : LineId) (source : Byte) (toolTag : Word) (s : State) :
    Host.Outcome State Fault Refusal :=
  .next (s.receive line (.ok (s.frameFrom source .openRequest 0
    (wordOctets toolTag))))

/-- A SERVICE ANSWER carrying KEEPALIVE (R174). -/
def execKeepalive (line : LineId) (source : Byte) (s : State) :
    Host.Outcome State Fault Refusal :=
  .next (s.receive line (.ok (s.frameFrom source .serviceAnswer 0
    [0])))

/-- A SERVICE ANSWER carrying CLOSE (R174). -/
def execClose (line : LineId) (source : Byte) (s : State) :
    Host.Outcome State Fault Refusal :=
  .next (s.receive line (.ok (s.frameFrom source .serviceAnswer 0
    [1])))

/-- A SERVICE ANSWER carrying READ ENTRY (R175). -/
def execServiceReadEntry (line : LineId) (source number address : Byte) (s : State) :
    Host.Outcome State Fault Refusal :=
  .next (s.receive line (.ok (s.frameFrom source .serviceAnswer 0
    [2, number, address])))

/-- A SERVICE ANSWER carrying READ CONDITION (R72, R175). -/
def execServiceReadCondition (line : LineId) (source number position : Byte) (s : State) :
    Host.Outcome State Fault Refusal :=
  .next (s.receive line (.ok (s.frameFrom source .serviceAnswer 0
    [3, number, position])))

/-- A SERVICE ANSWER carrying SET OVERRIDE (R175). -/
def execServiceSetOverride (line : LineId) (source number station direction circuit : Byte) (value : Word) (s : State) :
    Host.Outcome State Fault Refusal :=
  .next (s.receive line (.ok (s.frameFrom source .serviceAnswer 0
    ([4, number, station, direction, circuit] ++ wordOctets value))))

/-- A SERVICE ANSWER carrying REMOVE OVERRIDE (R175). -/
def execServiceRemoveOverride (line : LineId) (source number station direction circuit : Byte) (s : State) :
    Host.Outcome State Fault Refusal :=
  .next (s.receive line (.ok (s.frameFrom source .serviceAnswer 0
    [5, number, station, direction, circuit])))

/-- The first octet of a frame arrives (R130). -/
def execFrameFirstOctet (line : LineId) (s : State) : Host.Outcome State Fault Refusal := .next (s.firstOctet line)

end Sys2Proof.Machine
end

