-- ==== Sys2Proof/Machine/ServiceRequests.lean ====
section
/-! DEFINITION. The requests of the transaction unit and the session unit, and the kind that names no request (chapters 8, 10, R189). -/

namespace Sys2Proof.Machine

/-- STATION READ (R141): station, index, length. -/
def execStationRead (s : State) : Host.Outcome State Fault Refusal :=
  .next (s.runRequest .stationRead (fun r t =>
    t.acceptTransaction (requestTag r) .read (operand r 0) (operand r 1) (operand r 2) []))

/-- STATION WRITE (R141): station, index, length, data of that length. -/
def execStationWrite (s : State) : Host.Outcome State Fault Refusal :=
  .next (s.runRequest .stationWrite (fun r t =>
    t.acceptTransaction (requestTag r) .write (operand r 0) (operand r 1) (operand r 2)
      ((List.range (operand r 2).toNat).map (fun i => operand r (3 + i)))))

/-- CANCEL TRANSACTION (R149, R150). -/
def execCancelTransaction (s : State) : Host.Outcome State Fault Refusal :=
  .next (s.runRequest .cancelTransaction (fun r t => t.cancelTransaction (requestTag r) (operand r 0)))

/-- READ SESSION (R179). -/
def execReadSession (s : State) : Host.Outcome State Fault Refusal :=
  .next (s.runRequest .readSession (fun _ t => atOnce t.readSession))

/-- END SESSION (R180). -/
def execEndSession (s : State) : Host.Outcome State Fault Refusal :=
  .next (s.runRequest .endSession (fun _ t => t.endSessionRequest))

/-- A head record whose kind names no request (R189). -/
def execUnknownRequest (s : State) : Host.Outcome State Fault Refusal :=
  .next (if s.headReady (fun b => (requestKindOf b).isNone) then s.runHead (fun _ t => reply t .unknownRequest) else s)

end Sys2Proof.Machine
end

