-- ==== Sys2Proof/Machine/SettingRequests.lean ====
section
/-! DEFINITION. The requests that set and read settings (R22, R75, R76, R81, R124, R125, R169). -/

namespace Sys2Proof.Machine

/-- SET LINE SETUP (R124, R125). -/
def execSetLineSetup (s : State) : Host.Outcome State Fault Refusal :=
  .next (s.runRequest .setLineSetup (fun r t => t.setLineSetup (lineSetupOf r)))

/-- READ LINE SETUP (R125). -/
def execReadLineSetup (s : State) : Host.Outcome State Fault Refusal :=
  .next (s.runRequest .readLineSetup (fun _ t => reply t .ok (lineSetupOctets t.config.setup)))

/-- SET PROFILE (R22): the profile, then its five fields, the reply window a word. -/
def execSetProfile (s : State) : Host.Outcome State Fault Refusal :=
  .next (s.runRequest .setProfile (fun r t =>
    t.setProfileRequest (operand r 0) (profileOf (operand r 1).toNat (operand r 2).toNat
      (operandWord r 3).toNat (operand r 5).toNat (operand r 6).toNat)))

/-- READ PROFILE (R22). -/
def execReadProfile (s : State) : Host.Outcome State Fault Refusal :=
  .next (s.runRequest .readProfile (fun r t => atOnce (t.readProfile (operand r 0), t)))

/-- SET ACTION (R75). -/
def execSetAction (s : State) : Host.Outcome State Fault Refusal :=
  .next (s.runRequest .setAction (fun r t => t.setAction (operand r 0) (operand r 1) (operand r 2)))

/-- READ ACTION (R76). -/
def execReadAction (s : State) : Host.Outcome State Fault Refusal :=
  .next (s.runRequest .readAction (fun r t => atOnce (t.readAction (operand r 0), t)))

/-- SET OUTPUT REFRESH (R81): the limit is a word. -/
def execSetOutputRefresh (s : State) : Host.Outcome State Fault Refusal :=
  .next (s.runRequest .setOutputRefresh (fun r t => t.setOutputRefresh (operandWord r 0).toNat))

/-- SET SERVICE PERMIT (R169, R170): two permissions, then the session time, a word. -/
def execSetServicePermit (s : State) : Host.Outcome State Fault Refusal :=
  .next (s.runRequest .setServicePermit (fun r t =>
    atOnce (t.setServicePermit (operand r 0) (operand r 1) (operandWord r 2).toNat)))

end Sys2Proof.Machine
end

