-- ==== Sys2Proof/Machine/StagingRequests.lean ====
section
/-! DEFINITION. The staging requests (sections 9.3, 9.4). -/

namespace Sys2Proof.Machine

/-- STAGE BEGIN (R159): the gap operand is a word. -/
def execStageBegin (s : State) : Host.Outcome State Fault Refusal :=
  .next (s.runRequest .stageBegin (fun r t => t.stageBegin (operandWord r 0).toNat))

/-- STAGE STATION (R160): an address, then a descriptor in eight octets. -/
def execStageStation (s : State) : Host.Outcome State Fault Refusal :=
  .next (s.runRequest .stageStation (fun r t =>
    t.whileOpen (fun c u => u.stageStation c (operand r 0) (descriptorOf (fun i => operand r (1 + i))))))

/-- STAGE REMOVE (R161). -/
def execStageRemove (s : State) : Host.Outcome State Fault Refusal :=
  .next (s.runRequest .stageRemove (fun r t => t.whileOpen (fun c u => u.stageRemove c (operand r 0))))

/-- STAGE COMMIT (R165). -/
def execStageCommit (s : State) : Host.Outcome State Fault Refusal :=
  .next (s.runRequest .stageCommit (fun r t => t.whileOpen (fun c u => u.stageCommit (requestTag r) c)))

/-- STAGE ABORT (R163). -/
def execStageAbort (s : State) : Host.Outcome State Fault Refusal :=
  .next (s.runRequest .stageAbort (fun _ t => t.whileOpen (fun _ u => reply u.closeStaging .ok)))

/-- READ STAGED (R162). -/
def execReadStaged (s : State) : Host.Outcome State Fault Refusal :=
  .next (s.runRequest .readStaged (fun r t => t.whileOpen (fun c u => u.readStaged c (operand r 0))))

end Sys2Proof.Machine
end

