-- ==== Sys2Proof/Machine/TableRequests.lean ====
section
/-! DEFINITION. The requests on the roster, the lines, the condition table and the override table (chapters 1, 3, 5, 7). -/

namespace Sys2Proof.Machine

/-- READ ENTRY (R19). -/
def execReadEntry (s : State) : Host.Outcome State Fault Refusal :=
  .next (s.runRequest .readEntry (fun r t => atOnce (t.readEntry (operand r 0), t)))

/-- READ LINE STATE (R138). -/
def execReadLineState (s : State) : Host.Outcome State Fault Refusal :=
  .next (s.runRequest .readLineState (fun r t => atOnce (t.readLineState (operand r 0))))

/-- READ CONDITION (R69). -/
def execReadCondition (s : State) : Host.Outcome State Fault Refusal :=
  .next (s.runRequest .readCondition (fun r t => atOnce (t.readCondition (operand r 0), t)))

/-- READ CONDITION REF (R70). -/
def execReadConditionRef (s : State) : Host.Outcome State Fault Refusal :=
  .next (s.runRequest .readConditionRef (fun r t => atOnce (t.readConditionRef (operand r 0) (operand r 1), t)))

/-- ACK CONDITION (R60). -/
def execAckCondition (s : State) : Host.Outcome State Fault Refusal :=
  .next (s.runRequest .ackCondition (fun r t => t.ackCondition (operand r 0) (operand r 1)))

/-- ACK ALL (R61). -/
def execAckAll (s : State) : Host.Outcome State Fault Refusal :=
  .next (s.runRequest .ackAll (fun _ t => t.ackAll))

/-- READ TABLE STATE (R71). -/
def execReadTableState (s : State) : Host.Outcome State Fault Refusal :=
  .next (s.runRequest .readTableState (fun _ t => atOnce (t.readTableState, t)))

/-- CLEAR OVERFLOW (R64). -/
def execClearOverflow (s : State) : Host.Outcome State Fault Refusal :=
  .next (s.runRequest .clearOverflow (fun _ t => t.clearOverflow))

/-- SET OVERRIDE by the controller (R92 to R94): the value is a word. -/
def execSetOverride (s : State) : Host.Outcome State Fault Refusal :=
  .next (s.runRequest .setOverride (fun r t =>
    atOnce (t.setOverride .controller (operand r 0) (operand r 1) (operand r 2) (operandWord r 3))))

/-- REMOVE OVERRIDE by the controller (R96). -/
def execRemoveOverride (s : State) : Host.Outcome State Fault Refusal :=
  .next (s.runRequest .removeOverride (fun r t =>
    atOnce (t.removeOverride .controller (operand r 0) (operand r 1) (operand r 2))))

/-- REMOVE STATION OVERRIDES (R97). -/
def execRemoveStationOverrides (s : State) : Host.Outcome State Fault Refusal :=
  .next (s.runRequest .removeStationOverrides (fun r t => t.removeStationOverrides (operand r 0)))

/-- REMOVE ALL OVERRIDES (R98). -/
def execRemoveAllOverrides (s : State) : Host.Outcome State Fault Refusal :=
  .next (s.runRequest .removeAllOverrides (fun _ t => t.removeAllOverrides))

/-- READ OVERRIDE (R99). -/
def execReadOverride (s : State) : Host.Outcome State Fault Refusal :=
  .next (s.runRequest .readOverride (fun r t => atOnce (t.readOverride (operand r 0), t)))

end Sys2Proof.Machine
end

