-- ==== Sys2Proof/Machine/Window.lean ====
section
/-! DEFINITION. The resets, the RESTART line and the window accesses (R155, R181, R183, R187). -/

namespace Sys2Proof.Machine

/-- Power-on reset. -/
def execPowerOnReset (s : State) : Host.Outcome State Fault Refusal := .next s.powerOn

/-- The RESTART line becomes asserted (R155): one restart, and none while it stays asserted. -/
def execRestartLine (s : State) : Host.Outcome State Fault Refusal :=
  .next (if s.port.restartAsserted then s
    else ({ s with port := { s.port with restartAsserted := true } }).restart)

/-- The RESTART line is released (R155). -/
def execRestartLineRelease (s : State) : Host.Outcome State Fault Refusal :=
  .next { s with port := { s.port with restartAsserted := false } }

/-- A submit (R183). -/
def State.submit (s : State) : State :=
  if s.port.requests.length < 8 then
    { s with port := { s.port with requests := s.port.requests ++ [s.port.entryArea], submitRefused := false } }
  else { s with port := { s.port with submitRefused := true } }

/-- The OUTPUTS SAFE cause ends, if it stands (R83). -/
def State.finishOutputsSafe (s : State) : State :=
  if s.safety.standing then
    ({ s with safety := { s.safety with standing := false } }).finishCause (plainKey .part .outputsSafe)
  else s

/-- An output commit (R82, R83, R118). -/
def State.outputCommit (s : State) : State :=
  let t := { s with scan := { s.scan with live := s.port.outputArea } }
  ((if s.mode.scans then t.startRefresh else t).finishOutputsSafe).endGroup

/-- A response-taken (R187). -/
def State.responseTaken (s : State) : State :=
  { s with port := { s.port with responses := s.port.responses.tail } }

/-- A write to the submit word. -/
def execSubmit (s : State) : Host.Outcome State Fault Refusal := .next s.submit

/-- A write to the commit word. -/
def execOutputCommit (s : State) : Host.Outcome State Fault Refusal := .next s.outputCommit

/-- A write to the response-taken word. -/
def execResponseTaken (s : State) : Host.Outcome State Fault Refusal := .next s.responseTaken

/-- One octet written into the window (R181, R193): the output area and the request entry area take it. -/
def State.storeOctet (s : State) (o : Nat) (b : Byte) : State :=
  if 0x400 ≤ o ∧ o < 0x800 then { s with port := { s.port with outputArea := s.port.outputArea.write (o - 0x400) b } }
  else if 0x900 ≤ o ∧ o < 0xA00 then { s with port := { s.port with entryArea := s.port.entryArea.write (o - 0x900) b } }
  else s

/-- Consecutive octets written into the window. -/
def State.storeOctets : State → Nat → List Byte → State
  | s, _, [] => s
  | s, o, b :: bs => (s.storeOctet o b).storeOctets (o + 1) bs

/-- Whether an access of `n` octets from an offset touches a word (R192). -/
def touches (offset n word : Nat) : Bool := decide (offset ≤ word + 1 ∧ word < offset + n)

/-- A window write (R181, R192): octets stored, and each trigger word touched acts once
(notes/assumptions/18.md). -/
def execWindowWrite (offset : Nat) (data : List Byte) (s : State) : Host.Outcome State Fault Refusal :=
  let n := data.length
  let t := s.storeOctets offset data
  let u := if touches offset n 0x802 then t.outputCommit else t
  let v := if touches offset n 0x804 then u.submit else u
  .next (if touches offset n 0x806 then v.responseTaken else v)

end Sys2Proof.Machine
end

