-- ==== Sys2Proof/Machine/Dispatch.lean ====
section
/-! DEFINITION. The effect of each command on everything but the queue of commands: one arm for each row of
spec/opcode_table.json. -/

namespace Sys2Proof.Machine

def exec (i : Instr) (s : State) : Host.Outcome State Fault Refusal :=
  match i with
  | .powerOnReset => Sys2Proof.Machine.execPowerOnReset s
  | .restartLine => Sys2Proof.Machine.execRestartLine s
  | .submit => Sys2Proof.Machine.execSubmit s
  | .outputCommit => Sys2Proof.Machine.execOutputCommit s
  | .responseTaken => Sys2Proof.Machine.execResponseTaken s
  | .windowWrite offset data => Sys2Proof.Machine.execWindowWrite offset data s
  | .start => Sys2Proof.Machine.execStart s
  | .stop => Sys2Proof.Machine.execStop s
  | .resume => Sys2Proof.Machine.execResume s
  | .restart => Sys2Proof.Machine.execRestart s
  | .stageBegin => Sys2Proof.Machine.execStageBegin s
  | .stageStation => Sys2Proof.Machine.execStageStation s
  | .stageRemove => Sys2Proof.Machine.execStageRemove s
  | .stageCommit => Sys2Proof.Machine.execStageCommit s
  | .stageAbort => Sys2Proof.Machine.execStageAbort s
  | .readStaged => Sys2Proof.Machine.execReadStaged s
  | .setLineSetup => Sys2Proof.Machine.execSetLineSetup s
  | .readLineSetup => Sys2Proof.Machine.execReadLineSetup s
  | .setProfile => Sys2Proof.Machine.execSetProfile s
  | .readProfile => Sys2Proof.Machine.execReadProfile s
  | .setAction => Sys2Proof.Machine.execSetAction s
  | .readAction => Sys2Proof.Machine.execReadAction s
  | .setOutputRefresh => Sys2Proof.Machine.execSetOutputRefresh s
  | .setServicePermit => Sys2Proof.Machine.execSetServicePermit s
  | .readEntry => Sys2Proof.Machine.execReadEntry s
  | .readLineState => Sys2Proof.Machine.execReadLineState s
  | .readCondition => Sys2Proof.Machine.execReadCondition s
  | .readConditionRef => Sys2Proof.Machine.execReadConditionRef s
  | .ackCondition => Sys2Proof.Machine.execAckCondition s
  | .ackAll => Sys2Proof.Machine.execAckAll s
  | .readTableState => Sys2Proof.Machine.execReadTableState s
  | .clearOverflow => Sys2Proof.Machine.execClearOverflow s
  | .setOverride => Sys2Proof.Machine.execSetOverride s
  | .removeOverride => Sys2Proof.Machine.execRemoveOverride s
  | .removeStationOverrides => Sys2Proof.Machine.execRemoveStationOverrides s
  | .removeAllOverrides => Sys2Proof.Machine.execRemoveAllOverrides s
  | .readOverride => Sys2Proof.Machine.execReadOverride s
  | .stationRead => Sys2Proof.Machine.execStationRead s
  | .stationWrite => Sys2Proof.Machine.execStationWrite s
  | .cancelTransaction => Sys2Proof.Machine.execCancelTransaction s
  | .readSession => Sys2Proof.Machine.execReadSession s
  | .endSession => Sys2Proof.Machine.execEndSession s
  | .unknownRequest => Sys2Proof.Machine.execUnknownRequest s
  | .frameReceived line abandoned octets => Sys2Proof.Machine.execFrameReceived line abandoned octets s
  | .reply line source tag inputs faultCode more items => Sys2Proof.Machine.execReply line source tag inputs faultCode more items s
  | .identity line source inputCount inputWidth outputCount outputWidth revision tag => Sys2Proof.Machine.execIdentity line source inputCount inputWidth outputCount outputWidth revision tag s
  | .paramAnswer line source toggle data => Sys2Proof.Machine.execParamAnswer line source toggle data s
  | .paramRefuse line source reason => Sys2Proof.Machine.execParamRefuse line source reason s
  | .openRequest line source toolTag => Sys2Proof.Machine.execOpenRequest line source toolTag s
  | .keepalive line source => Sys2Proof.Machine.execKeepalive line source s
  | .close line source => Sys2Proof.Machine.execClose line source s
  | .serviceReadEntry line source number address => Sys2Proof.Machine.execServiceReadEntry line source number address s
  | .serviceReadCondition line source number position => Sys2Proof.Machine.execServiceReadCondition line source number position s
  | .serviceSetOverride line source number station direction circuit value => Sys2Proof.Machine.execServiceSetOverride line source number station direction circuit value s
  | .serviceRemoveOverride line source number station direction circuit => Sys2Proof.Machine.execServiceRemoveOverride line source number station direction circuit s
  | .frameSent => Sys2Proof.Machine.execFrameSent s
  | .replyWindowExpiry => Sys2Proof.Machine.execReplyWindowExpiry s
  | .cycleEnd => Sys2Proof.Machine.execCycleEnd s
  | .cyclePeriodExpiry => Sys2Proof.Machine.execCyclePeriodExpiry s
  | .outputRefreshTimerExpiry => Sys2Proof.Machine.execOutputRefreshTimerExpiry s
  | .errorWindowExpiry line => Sys2Proof.Machine.execErrorWindowExpiry line s
  | .withdrawalTimerExpiry line => Sys2Proof.Machine.execWithdrawalTimerExpiry line s
  | .stagingGapTimerExpiry => Sys2Proof.Machine.execStagingGapTimerExpiry s
  | .sessionTimerExpiry => Sys2Proof.Machine.execSessionTimerExpiry s
  | .restartLineRelease => Sys2Proof.Machine.execRestartLineRelease s
  | .frameFirstOctet line => Sys2Proof.Machine.execFrameFirstOctet line s

end Sys2Proof.Machine
end

