-- ==== Sys2Proof/Safety.lean ====
section
/-! DEFINITION. The invariants of the part and the words that the statements use: a request at the head that can be
executed, its response posted, a frame that arrives in an open window. -/

namespace Sys2Proof.Safety

open Sys2Proof.Machine

/-! ## Invariants -/

/-- Every octet area the part holds is in its canonical form. -/
def MemoryCanonical (s : State) : Prop :=
  Memory.wf s.scan.published ∧ Memory.wf s.scan.live ∧ Memory.wf s.port.outputArea ∧ Memory.wf s.port.entryArea ∧
    ∀ r ∈ s.port.requests, Memory.wf r

/-- R77: while the condition table holds a FATAL record, the mode is not SCANNING. -/
def FatalNotScanning (s : State) : Prop := 0 < s.fatalCount → s.mode ≠ .scanning

/-- The tables stay tables: at most 64 condition records, one for a key and one in a slot (R45, R47, R48); at most 48
override records, one for a key, and 16 of the session (R89, R91); at most 8 request records (R183). -/
def TablesKept (s : State) : Prop :=
  s.cond.records.length ≤ 64 ∧ (s.cond.records.map ConditionRecord.key).Nodup ∧
    (s.cond.records.map ConditionRecord.slot).Nodup ∧ s.overrides.length ≤ 48 ∧
    (s.overrides.map (fun r => (r.station, r.direction, r.circuit))).Nodup ∧ s.sessionShare ≤ 16 ∧
    s.port.requests.length ≤ 8

/-- The categories that SET ACTION may not change (Table 3-2). -/
def fixedCategories : List Category := [.stationExtra, .forced, .configIncomplete, .ownAddressConflict]

/-- R75: the four fixed categories keep the class and latching of Table 3-2. -/
def FixedActionsKept (s : State) : Prop := ∀ c ∈ fixedCategories, s.action c = defaultActions[c.index.val]

/-- Between two commands no sweep is owed (R65; notes/assumptions/27.md). -/
def SweepNotOwed (s : State) : Prop := s.cond.sweepOwed = false

/-- The responses promised for one transaction slot: its completion, and the answer to the cancel waiting on it (R185). -/
def promisesOf : Option Transaction → Nat
  | none => 0
  | some t => 1 + if t.cancel.isSome then 1 else 0

/-- The responses promised and not yet posted, counted from what they wait for (R185). -/
def promises (s : State) : Nat :=
  (allSlots.map (fun i => promisesOf (s.slot i))).sum + (if s.stopPending.isSome then 1 else 0) +
    (match s.config.staging with
     | .commitPending _ _ => 1
     | _ => 0)

/-- R185: the deferred count is the number of responses promised, it and the queue together hold at most 12, and a cancel
waits on a SENT transaction alone (R150). -/
def PromisesKept (s : State) : Prop :=
  s.port.deferred = promises s ∧ s.port.responses.length + s.port.deferred ≤ 12 ∧
    ∀ i t, s.slot i = some t → t.state = .waiting → t.cancel = none

/-! ## Requests -/

/-- The row that executes a request of a kind. -/
def requestRow : RequestKind → Instr
  | .start => .start
  | .stop => .stop
  | .resume => .resume
  | .restart => .restart
  | .stageBegin => .stageBegin
  | .stageStation => .stageStation
  | .stageRemove => .stageRemove
  | .stageCommit => .stageCommit
  | .stageAbort => .stageAbort
  | .readStaged => .readStaged
  | .setLineSetup => .setLineSetup
  | .readLineSetup => .readLineSetup
  | .setProfile => .setProfile
  | .readProfile => .readProfile
  | .setAction => .setAction
  | .readAction => .readAction
  | .setOutputRefresh => .setOutputRefresh
  | .setServicePermit => .setServicePermit
  | .readEntry => .readEntry
  | .readLineState => .readLineState
  | .readCondition => .readCondition
  | .readConditionRef => .readConditionRef
  | .ackCondition => .ackCondition
  | .ackAll => .ackAll
  | .readTableState => .readTableState
  | .clearOverflow => .clearOverflow
  | .setOverride => .setOverride
  | .removeOverride => .removeOverride
  | .removeStationOverrides => .removeStationOverrides
  | .removeAllOverrides => .removeAllOverrides
  | .readOverride => .readOverride
  | .stationRead => .stationRead
  | .stationWrite => .stationWrite
  | .cancelTransaction => .cancelTransaction
  | .readSession => .readSession
  | .endSession => .endSession

/-- The record `r`, of kind `k`, stands at the head of the request queue with `rest` behind it, and its response has room
(R184); no sweep is owed, as between any two commands (`SweepNotOwed`). -/
def Ready (s : State) (k : RequestKind) (r : Memory) (rest : List Memory) : Prop :=
  s.port.requests = r :: rest ∧ requestKindOctet r = k.code ∧
    s.port.responses.length + s.port.deferred + 1 ≤ 12 ∧ s.cond.sweepOwed = false

/-- The request queue without its head. -/
def taken (s : State) (rest : List Memory) : State := { s with port := { s.port with requests := rest } }

/-- The response to the record `r`, at the tail of the response queue, with the tag and the kind as written and the mode as
it stands (R186, R189). -/
def posted (t : State) (r : Memory) (st : Status) (result : List Byte) : State :=
  { t with port := { t.port with
      responses := t.port.responses ++ [{ tag := r.read 0, kind := r.read 1, status := st, mode := t.mode,
                                          result := result }] } }

/-- The outcome of a request that leaves the state `s`, its record taken, and is answered at once. -/
def answers (s : State) (r : Memory) (rest : List Memory) (st : Status) (result : List Byte) :
    Host.Outcome State Fault Refusal :=
  .next (posted (taken s rest) r st result)

/-- `t` holds what `s` holds but for the condition unit, and the mode may have gone from SCANNING to HELD (R77). -/
def OnlyConditions (s t : State) : Prop :=
  t = { s with cond := t.cond, mode := t.mode } ∧ (t.mode = s.mode ∨ (s.mode = .scanning ∧ t.mode = .held))

/-- `t` is `u` with the response to the record `r` posted, but for the condition unit; a FATAL notice may have moved the
mode from SCANNING to HELD, before or after the response took the mode as it stood (R68, R189). -/
def HandsAndAnswers (u t : State) (r : Memory) (st : Status) (result : List Byte) : Prop :=
  ∃ m : Mode, (m = u.mode ∨ (u.mode = .scanning ∧ m = .held)) ∧
    OnlyConditions
      { u with port := { u.port with
          responses := u.port.responses ++ [{ tag := r.read 0, kind := r.read 1, status := st, mode := m,
                                              result := result }] } } t

/-! ## Causes handed to the condition unit -/

/-- The key of a station's STATION FAULT cause (R36). -/
def stationFaultKey (a : Addr) (code : Byte) : Key :=
  { origin := .station a, circuit := none, category := .stationFault, code := code }

/-- The key of a station's CIRCUIT FAULT cause (R37). -/
def circuitFaultKey (a : Addr) (x : FaultItem) : Key :=
  { origin := .station a, circuit := some (x.direction, x.circuit), category := .circuitFault, code := x.code }

/-- The four reported counts and widths of an identity (R9, Table 3-3). -/
def reported (i : Identity) : List Byte :=
  [octet i.inputCount.val, i.inputWidth.code, octet i.outputCount.val, i.outputWidth.code]

/-- What R44 asks of the lines for ALTERNATE LINE to stand: a DUAL station, on a line other than its preferred one, which
is enabled. -/
def alternateOn (s : State) (d : Descriptor) (line : Option LineId) : Bool :=
  decide (d.attachment = .dual) && decide (line ≠ some d.preferred) && s.config.setup.enabled d.preferred

/-- The condition unit takes ends, then beginnings, then refreshes (R25, R51; the order among those of one kind is the
model's choice, notes/assumptions/7.md). -/
def handed (s : State) (ends : List Key) (begins refreshes : List Cause) : State :=
  refreshes.foldl State.refreshCause (begins.foldl State.beginCause (ends.foldl State.finishCause s))

/-- The condition unit and the mode of `t` are those of `s` once it has taken these ends, beginnings and refreshes. -/
def Hands (s t : State) (ends : List Key) (begins refreshes : List Cause) : Prop :=
  t.cond = (handed s ends begins refreshes).cond ∧ t.mode = (handed s ends begins refreshes).mode

/-- `s` without the override records that a test picks, the end of FORCED handed for each station left without a record, in
the order in which their last records go (R97, R98, R102 to R104). -/
def withoutOverrides (s : State) (p : OverrideRecord → Bool) : State :=
  let left := s.overrides.filter (fun q => !p q)
  let freed := ((s.overrides.filter p).map OverrideRecord.station).dedup.filter
    (fun a => left.all (fun q => decide (q.station ≠ a)))
  freed.foldl (fun u a => u.finishCause (plainKey (.station a) .forced)) { s with overrides := left }

/-- `s` without the condition records that a test picks: the generation of each slot freed advances, and a sweep is owed where
a record went (R47, R58, R65). -/
def withoutRecords (s : State) (p : ConditionRecord → Bool) : State :=
  { s with cond := { s.cond with
      records := s.cond.records.filter (fun q => !p q)
      generations := Vector.ofFn (fun i : Fin 64 =>
        if s.cond.records.any (fun q => p q && decide (q.slot = i)) then s.cond.generations[i.val] + 1
        else s.cond.generations[i.val])
      sweepOwed := s.cond.sweepOwed || s.cond.records.any p } }

/-- Between `s` and `t` the condition unit has taken ends and retirements alone: no record is created, none is changed but a
STANDING latching one that becomes ENDED, those that stay keep their order, each slot freed advances its generation, a sweep
is owed where a record went, and the action map and the overflow are kept (R46, R47, R57, R58). -/
def OnlyEnds (s t : State) : Prop :=
  t.cond.actionMap = s.cond.actionMap ∧ t.cond.overflowCount = s.cond.overflowCount ∧
  t.cond.overflowFlag = s.cond.overflowFlag ∧
  (t.cond.records.map ConditionRecord.slot).Sublist (s.cond.records.map ConditionRecord.slot) ∧
  (∀ p ∈ t.cond.records, ∃ q ∈ s.cond.records, p = q ∨
    (q.state = .standing ∧ q.latching = true ∧ p = { q with state := .ended, changedAt := s.scan.number })) ∧
  (∀ i : Fin 64, t.cond.generations[i.val] =
    if (∃ q ∈ s.cond.records, q.slot = i) ∧ ∀ p ∈ t.cond.records, p.slot ≠ i then s.cond.generations[i.val] + 1
    else s.cond.generations[i.val]) ∧
  t.cond.sweepOwed = (s.cond.sweepOwed || decide (t.cond.records.length < s.cond.records.length))

/-- `s` after the end of its open session, whose tool's entry is SERVICE (R177): no SESSION record, the entry ABSENT, the
session gone. -/
def sessionEnded (s : State) (o : OpenSession) (reason : EndReason) : State :=
  let t := withoutOverrides s (fun q => decide (q.owner = .session))
  { t with
    roster := t.roster.set o.tool.val { s.entry o.tool with presence := .absent, identity := none }
    session := { t.session with current := none, lastEnd := reason } }

/-- What a running timer that was started with `n` reads as: some time left, at most `n`; a stopped one is absent
(notes/assumptions/4.md). -/
def TimerField : Timer → List Byte → Prop
  | none, field => field = [0, 0, 0]
  | some n, field => ∃ left ≤ n, field = 1 :: numberOctets left

/-- How many of some timers are running. -/
def running (ts : List Timer) : Nat := ts.countP Option.isSome

/-! ## Record fields, the order of the sweep, places in the images -/

/-- The fields of a condition record as READ CONDITION returns them (Table 3-1, section 12.2): slot, generation, origin
(stations 0-31, LINE A 32, LINE B 33, PART 34), circuit (a presence octet, direction INPUT 0 or OUTPUT 1, circuit), category,
code, class, latching, state, occurrences, the two scan numbers, and six octets of extra data. -/
def recordFields (q : ConditionRecord) : List Byte :=
  [octet q.slot.val, q.generation,
    (match q.key.origin with
     | .station a => octet a.val
     | .line .a => 32
     | .line .b => 33
     | .part => 34)] ++
  ((match q.key.circuit with
    | none => [0, 0, 0]
    | some (.input, n) => [1, 0, octet n.val]
    | some (.output, n) => [1, 1, octet n.val]) : List Byte) ++
  [octet (q.key.category.index.val + 1), q.key.code,
    (match q.cls with
     | .informational => 0
     | .diagnostic => 1
     | .fatal => 2),
    flagCode q.latching,
    (match q.state with
     | .standing => 0
     | .standingAcked => 1
     | .ended => 2),
    octet q.occurrences] ++
  scanOctets q.raisedAt ++ scanOctets q.changedAt ++ (List.range 6).map (fun i => q.extra.getD i 0)

/-- The order of the origins in R66: PART, LINE A, LINE B, then the stations in ascending address order. -/
def originRank : Origin → Nat
  | .part => 0
  | .line .a => 1
  | .line .b => 2
  | .station a => 3 + a.val

/-- The order of the circuits in R66: INPUT circuits before OUTPUT circuits, each in ascending order. -/
def circuitRank : Option (Direction × Fin 32) → Nat
  | none => 0
  | some (.input, n) => 1 + n.val
  | some (.output, n) => 33 + n.val

/-- The place of a cause in the order of R66: by origin, then by category number, then by circuit, then by code. -/
def sweepRank (k : Key) : Nat :=
  ((12 * originRank k.origin + k.category.index.val) * 65 + circuitRank k.circuit) * 256 + k.code.toNat

/-- The octets that `n` circuits of a width take in an image (R18). -/
def circuitOctets (w : Width) (n : Nat) : Nat :=
  match w with
  | .bit => (n + 7) / 8
  | .word => 2 * n

/-- The octets of an address in the input area under a configuration (R18). -/
def inputOctets (c : Addr → Option Descriptor) (a : Addr) : Nat :=
  match c a with
  | some d => circuitOctets d.inputWidth d.inputCount.val
  | none => 0

/-- The octets of an address in the output area under a configuration (R18). -/
def outputOctets (c : Addr → Option Descriptor) (a : Addr) : Nat :=
  match c a with
  | some d => circuitOctets d.outputWidth d.outputCount.val
  | none => 0

/-- The octets that the addresses below `n` take together: the running offset at `n` (R120). -/
def octetsBelow (size : Addr → Nat) (n : Nat) : Nat := (((List.finRange 32).take n).map size).sum

/-- The placement that R120 gives an address under a configuration: running offsets in ascending address order, input and
output apart; none where the address is not configured. -/
def placed (c : Addr → Option Descriptor) (a : Addr) : Option Placement :=
  (c a).map (fun _ =>
    { inputOffset := octetsBelow (inputOctets c) a.val, inputSize := inputOctets c a
      outputOffset := octetsBelow (outputOctets c) a.val, outputSize := outputOctets c a })

/-- The roster and what hangs on it agree: every placement is that of R120, the own address is configured neither in the
roster nor in a staging copy (R16, R160), a commit is pending only inside a running cycle (R111), every override names a
circuit of a configured station (R92, R103), and a station's standing faults are kept in the order of R66. -/
def RosterKept (s : State) : Prop :=
  (∀ a, (s.entry a).placement = placed (fun b => (s.entry b).descriptor) a) ∧
    (s.entry s.ownAddress).descriptor = none ∧
    (match s.config.staging with
     | .closed => True
     | .opened c => copyAt c s.ownAddress = none
     | .commitPending _ c => copyAt c s.ownAddress = none ∧ s.mode.scans = true ∧ s.scan.cycle ≠ .waiting) ∧
    (∀ q ∈ s.overrides, ∃ d, (s.entry q.station).descriptor = some d ∧ q.circuit.val < d.count q.direction) ∧
    ∀ a, (s.supervision a).stationFaults.Pairwise (fun b c => b.toNat < c.toNat) ∧
      (s.supervision a).circuitFaults.Pairwise (fun x y =>
        sweepRank (circuitFaultKey a x) < sweepRank (circuitFaultKey a y))

/-! ## Frames -/

/-- The frame in flight awaits its answer on a line: the line is ACTIVE, the frame was sent on it, and the frame that now
completes there holds the reply window open or completes while it runs (R130; notes/assumptions/5.md, 6.md). -/
def Awaits (s : State) (l : LineId) (f : Flight) : Prop :=
  (s.line l).state = .active ∧ s.scan.flight = some f ∧ f.line = l ∧
    (f.phase = .heldOpen ∨ (f.phase = .waiting ∧ (s.line l).receiving = false))

/-- A source octet is that of the station the frame in flight was sent to, and not the own address (R131 tests 4 and 6). -/
def FromTarget (s : State) (f : Flight) (source : Byte) : Prop :=
  source = f.frame.dest ∧ source.toNat < 32 ∧ source ≠ octet s.ownAddress.val

/-- The frame on a line is received whole and the reply window it belonged to has ended. -/
def heard (s : State) (l : LineId) : State := (s.received l).setFlight none

/-- The first three tests of a frame in octets: its length, and its check (R131). -/
def frameLength (octets : List Byte) : Nat := 7 + (octets.getD 4 0).toNat

/-- A frame passes test 5 of R131 as a frame of kind `k`. A source above 31 and a toggle above 1 name no value of their
fields (notes/assumptions/11.md). -/
def FieldsGood (s : State) (f : Frame) (k : FrameKind) : Prop :=
  f.kind = k.code ∧ f.dest = octet s.ownAddress.val ∧ f.source.toNat < 32 ∧
    match k with
    | .reply => 4 ≤ f.payload.length
    | .identity => ∃ i : Identity, f.payload = reported i ++ [i.revision] ++ wordOctets i.tag
    | .paramAnswer => f.payload.length ≤ 32 ∧ f.toggle.toNat ≤ 1
    | .paramRefuse => ∃ reason : Byte, reason ≠ 0 ∧ f.payload = [reason]
    | .openRequest => f.payload.length = 2
    | .serviceAnswer => True
    | _ => False

/-- The kinds that answer a frame in flight (Table 7-4). -/
def Answers (w : Flight) (k : FrameKind) : Prop :=
  match w.job with
  | .attempt _ => k = if w.frame.kind = FrameKind.poll.code then .reply else .identity
  | .exchange _ _ => k = .paramAnswer ∨ k = .paramRefuse
  | .servicePoll => k = .serviceAnswer
  | .probe _ => k = .identity ∨ k = .openRequest
  | .sessionFrame _ _ => False

/-- The key of the `j`-th fault item of a REPLY for a station with slices of `n` input octets: direction bit, circuit and
code (Table 12-8). -/
def itemKey (payload : List Byte) (n j : Nat) : Bool × Nat × Byte :=
  let o := payload.getD (4 + n + 3 * j) 0
  (o.getLsbD 7, o.toNat % 32, payload.getD (5 + n + 3 * j) 0)

/-- Test 7 of R131 on a REPLY for a station: its size, and a fault list that can be stored (R12). -/
def ReplyGood (d : Descriptor) (payload : List Byte) : Prop :=
  let n := d.inputSize
  let count := (payload.getD (3 + n) 0).toNat % 128
  payload.length = 4 + n + 3 * count ∧ count ≤ 4 ∧
    (∀ j < count, (itemKey payload n j).2.2 ≠ 0 ∧
      (itemKey payload n j).2.1 < d.count (if (itemKey payload n j).1 then .output else .input)) ∧
    ∀ i < count, ∀ j < i, itemKey payload n i ≠ itemKey payload n j

/-- A SERVICE ANSWER is well formed: one of the six contents, with its size (R174, section 12.4). -/
def ServiceGood (payload : List Byte) : Prop :=
  (payload.head? = some 0 ∧ payload.length = 1) ∨ (payload.head? = some 1 ∧ payload.length = 1) ∨
    (payload.head? = some 2 ∧ payload.length = 3) ∨ (payload.head? = some 3 ∧ payload.length = 3) ∨
    (payload.head? = some 4 ∧ payload.length = 7) ∨ (payload.head? = some 5 ∧ payload.length = 5)

/-- Test 7 of R131: the contents of a frame of kind `k` fit the exchange that awaits it. -/
def ContentsGood (s : State) (w : Flight) (k : FrameKind) (payload : List Byte) : Prop :=
  match k, w.job with
  | .reply, .attempt v => ∃ d, (s.entry v.address).descriptor = some d ∧ ReplyGood d payload
  | .paramAnswer, .exchange i _ => ∃ t, s.slot i = some t ∧ payload.length = (match t.kind with
      | .read => t.length
      | .write => 0)
  | .serviceAnswer, _ => ServiceGood payload
  | _, _ => True

/-- A frame that completes on a line is an error of a class: by tests 1 to 3, or, with a source other than the own address,
by test 5, 6 or 7 of R131. -/
def ErrorOn (s : State) (l : LineId) (abandoned : Bool) (octets : List Byte) (c : ErrorClass) : Prop :=
  receiveOctets abandoned octets = .error c ∨
    ∃ f, receiveOctets abandoned octets = .ok f ∧ f.source ≠ octet s.ownAddress.val ∧
      ((c = .malformed ∧ ∀ k, ¬ FieldsGood s f k) ∨
       (c = .unsolicited ∧ ∃ k, FieldsGood s f k ∧
         ∀ w, s.openWindow l = some w → f.source ≠ w.frame.dest ∨ ¬ Answers w k) ∨
       (c = .malformed ∧ ∃ k w, FieldsGood s f k ∧ s.openWindow l = some w ∧ f.source = w.frame.dest ∧ Answers w k ∧
         ¬ ContentsGood s w k f.payload))

/-- The octets of a frame from the destination through the payload, the check behind them (Table 12-7, R128). -/
def checked (dest source kind toggle : Byte) (payload : List Byte) : List Byte :=
  let o := [dest, source, kind, toggle, octet payload.length] ++ payload
  o ++ wordOctets (frameCheck o)

/-- A fault item in three octets (Table 12-8); `pad` holds what the unassigned bits 6-5 of the first carry (R193). -/
def replyItem (x : FaultItem) (pad : Byte) : List Byte :=
  [octet ((match x.direction with
    | .input => 0
    | .output => 128) + x.circuit.val) ||| (pad &&& 0x60), x.code, x.detail]

/-- The payload of a REPLY (Table 12-8): tag, inputs, station fault code, item octet, and the items with their padding. -/
def replyPayload (tag : Word) (inputs : List Byte) (code : Byte) (more : Bool) (items : List FaultItem) (pads : List Byte) :
    List Byte :=
  wordOctets tag ++ inputs ++ [code, octet (items.length + if more then 128 else 0)] ++
    (items.zip pads).flatMap (fun x => replyItem x.1 x.2)

/-- The frame that a row of a frame kind spells, on its line: addressed to the own address, with the kind and the payload of
Tables 12-7 and 12-8, and toggle 0 but in a PARAM ANSWER (notes/assumptions/28.md). -/
def rowFrame (own : Byte) : Instr → Option (LineId × Frame)
  | .reply l source tag inputs code more items =>
    some (l, ⟨own, source, 2, 0, replyPayload tag inputs code more items (List.replicate items.length 0)⟩)
  | .identity l source ic iw oc ow revision tag => some (l, ⟨own, source, 4, 0, [ic, iw, oc, ow, revision] ++ wordOctets tag⟩)
  | .paramAnswer l source toggle data => some (l, ⟨own, source, 7, toggle, data⟩)
  | .paramRefuse l source reason => some (l, ⟨own, source, 8, 0, [reason]⟩)
  | .openRequest l source toolTag => some (l, ⟨own, source, 9, 0, wordOctets toolTag⟩)
  | .keepalive l source => some (l, ⟨own, source, 13, 0, [0]⟩)
  | .close l source => some (l, ⟨own, source, 13, 0, [1]⟩)
  | .serviceReadEntry l source n a => some (l, ⟨own, source, 13, 0, [2, n, a]⟩)
  | .serviceReadCondition l source n p => some (l, ⟨own, source, 13, 0, [3, n, p]⟩)
  | .serviceSetOverride l source n st d c v => some (l, ⟨own, source, 13, 0, [4, n, st, d, c] ++ wordOctets v⟩)
  | .serviceRemoveOverride l source n st d c => some (l, ⟨own, source, 13, 0, [5, n, st, d, c]⟩)
  | _ => none

/-! ## Completions, STOP and commit -/

/-- The responses that end the transactions a test picks, in ascending slot order, each with the answer to the cancel that
waits on it behind it (R145, R150). -/
def completions (s : State) (p : Transaction → Bool) (st : Status) : List Response :=
  allSlots.flatMap (fun i =>
    match s.slot i with
    | none => []
    | some u =>
      if p u then
        { tag := u.tag
          kind := (match u.kind with
            | .read => 60
            | .write => 61)
          status := st, mode := s.mode, result := [octet i.val, octet u.station.val, u.index, octet u.attempts] } ::
        (match u.cancel with
         | some tag => [{ tag := tag, kind := 62, status := .ok, mode := s.mode, result := [] }]
         | none => [])
      else [])

/-- The first part of a STOP that takes effect: STANDBY, each ACTIVE line QUIET, the refresh timer stopped (R116). -/
def halted (s : State) : State :=
  let quiet : LineEngine → LineEngine := fun e =>
    if e.state = .active then
      { e with state := .quiet, errorCount := 0, errorWindow := none, withdrawal := none, figures := none }
    else e
  { s with
    mode := .standby
    stopPending := none
    safety := { s.safety with timer := none }
    lineA := quiet s.lineA
    lineB := quiet s.lineB }

/-- What a STOP ends in the condition unit: FORCED of each station left without an override as an open session goes (R104,
R177), and OWN ADDRESS CONFLICT where it stands (R88). -/
def stopCauses (s : State) : State :=
  let t := match s.session.current with
    | none => s
    | some o => sessionEnded s o .stopped
  if s.own.standing.isSome then t.finishCause (plainKey .part .ownAddressConflict) else t

/-- `t` is `s` after the rest of a STOP's effects, before its own response (R116, R147): every transaction completed STOPPED,
an open session ended STOPPED, no OWN ADDRESS CONFLICT cause, and nothing else touched; where the session's tool is SERVICE
(R177) the records that stay, and those that end, are exactly those that `stopCauses` leaves. -/
def StopEnds (s t : State) : Prop :=
  t = { s with
    roster := t.roster
    cond := t.cond
    overrides := t.overrides
    session := { s.session with
      current := none, lastEnd := if s.session.current.isSome then .stopped else s.session.lastEnd }
    own := { s.own with standing := none }
    trans := { s.trans with slots := t.trans.slots }
    port := { s.port with
      responses := s.port.responses ++ completions s (fun _ => true) .stopped
      deferred := s.port.deferred - (completions s (fun _ => true) .stopped).length } } ∧
  (∀ i, t.slot i = none) ∧ (∀ a, t.toggle a = s.toggle a) ∧
  t.overrides = s.overrides.filter (fun q => decide (s.session.current = none ∨ q.owner ≠ .session)) ∧
  (∀ a, t.entry a =
    if s.session.current.map OpenSession.tool = some a then { s.entry a with presence := .absent, identity := none }
    else s.entry a) ∧
  OnlyEnds s t ∧
  (s.own.standing.isSome = true → ∀ p ∈ t.cond.records, p.key = plainKey .part .ownAddressConflict → p.state = .ended) ∧
  ((∀ o, s.session.current = some o → (s.entry o.tool).presence = .service) → t.cond = (stopCauses s).cond)

/-- What a commit does to an address: its station is taken out, as removed or changed (Table 9-4). -/
def leaves (s : State) (c : StagingCopy) (a : Addr) : Bool :=
  (s.entry a).descriptor.isSome && decide ((s.entry a).descriptor ≠ copyAt c a)

/-- The address is added, removed or changed by a commit (R121). -/
def touched (s : State) (c : StagingCopy) (a : Addr) : Bool := decide ((s.entry a).descriptor ≠ copyAt c a)

/-- An area rebuilt: from all octets 0, the slice of each station that stays unchanged copied from its old place to its new
one; `part` picks an area's offset and size in a placement (R121). -/
def movedArea (s : State) (c : StagingCopy) (part : Placement → Nat × Nat) (m : Memory) : Memory :=
  allAddrs.foldl (fun n a =>
    if (s.entry a).descriptor.isSome && !touched s c a then
      match (s.entry a).placement, placementIn c a with
      | some p, some q => n.writeList (part q).1 (m.readList (part p).1 (part p).2)
      | _, _ => n
    else n) []

/-- The open session, if a commit configures its tool's address (R167 step 1). -/
def evicts (s : State) (c : StagingCopy) : Bool :=
  match s.session.current with
  | some o => (copyAt c o.tool).isSome
  | none => false

/-- What a commit ends in the condition unit: FORCED of each station left without an override as the session that it evicts
goes (R104, R177), every record of a station removed or changed (R59), STATION EXTRA at each address added that was EXTRA
(R40), and CONFIG INCOMPLETE where it stands (R164). -/
def commitCauses (s : State) (c : StagingCopy) : State :=
  let t := match s.session.current with
    | none => s
    | some o => if (copyAt c o.tool).isSome then sessionEnded s o .reconfigured else s
  let u := withoutRecords t (fun q => allAddrs.any (fun a => decide (q.key.origin = .station a) && leaves s c a))
  let v := (allAddrs.filter (fun a => touched s c a && (s.entry a).descriptor.isNone &&
      decide ((s.entry a).presence = .extra))).foldl
    (fun w a => w.finishCause (plainKey (.station a) .stationExtra)) u
  if s.config.incomplete then v.finishCause (plainKey .part .configIncomplete) else v

/-- `t` is `s` after the application of a commit, before its response and its sweep (R167). Where an address added is in a
state of an unconfigured one, and the tool of an evicted session SERVICE (R1, R177), the condition unit is exactly as
`commitCauses` leaves it. -/
def CommitTaken (s t : State) (c : StagingCopy) : Prop :=
  let rebuilt := ∃ a, touched s c a = true
  t = { s with
    mode := if s.mode.scans then s.mode else if ∃ a, (copyAt c a).isSome = true then .standby else .offline
    roster := t.roster
    supervised := t.supervised
    cond := t.cond
    overrides := s.overrides.filter (fun q =>
      decide (leaves s c q.station = false ∧ (evicts s c = false ∨ q.owner ≠ .session)))
    session := if evicts s c then { s.session with current := none, lastEnd := .reconfigured } else s.session
    trans := t.trans
    scan := { s.scan with
      buffer := t.scan.buffer
      published := if rebuilt then movedArea s c (fun p => (p.inputOffset, p.inputSize)) s.scan.published
        else s.scan.published
      live := if rebuilt then movedArea s c (fun p => (p.outputOffset, p.outputSize)) s.scan.live else s.scan.live
      layout := if ∃ a, (s.entry a).placement ≠ placementIn c a then s.scan.layout + 1 else s.scan.layout }
    config := { s.config with staging := .closed, gapTimer := none, incomplete := false }
    port := { s.port with
      outputArea := if rebuilt then movedArea s c (fun p => (p.outputOffset, p.outputSize)) s.port.outputArea
        else s.port.outputArea
      responses := s.port.responses ++ completions s (fun u => leaves s c u.station) .reconfigured
      deferred := s.port.deferred - (completions s (fun u => leaves s c u.station) .reconfigured).length } } ∧
  (∀ a, t.entry a =
    if touched s c a then
      match copyAt c a with
      | some d => { descriptor := some d, presence := .expected, activeLine := some d.preferred,
                    placement := placementIn c a }
      | none => {}
    else { s.entry a with placement := placementIn c a }) ∧
  (∀ a, t.supervision a = if leaves s c a then {} else s.supervision a) ∧
  (∀ a, t.slice a =
    if touched s c a then
      match copyAt c a with
      | some d => List.replicate d.inputSize 0
      | none => []
    else s.slice a) ∧
  (∀ a, t.toggle a = (!touched s c a && s.toggle a)) ∧
  (∀ i, t.slot i = (s.slot i).filter (fun u => !leaves s c u.station)) ∧
  (∀ q ∈ t.cond.records, ∀ a, q.key.origin = .station a → leaves s c a = false) ∧
  (∀ q ∈ s.cond.records, (∀ a, q.key.origin = .station a → touched s c a = false) →
    (q.key.category = .forced → evicts s c = false) → q.key ≠ plainKey .part .configIncomplete → q ∈ t.cond.records) ∧
  (s.config.incomplete = true →
    ∀ q ∈ t.cond.records, q.key = plainKey .part .configIncomplete → q.state = .ended) ∧
  OnlyEnds s t ∧
  ((∀ a, touched s c a = true → (s.entry a).descriptor = none →
      (s.entry a).presence ∈ [Presence.absent, .extra, .own, .service]) →
    (evicts s c = true → ∀ o, s.session.current = some o → (s.entry o.tool).presence = .service) →
    t.cond = (commitCauses s c).cond)

/-- The result fields of an applied commit: `s` before it, `t` after it (R168). -/
def commitFields (s t : State) (c : StagingCopy) : List Byte :=
  let count : (Option Descriptor → Option Descriptor → Bool) → Byte := fun p =>
    octet (allAddrs.countP (fun a => p (s.entry a).descriptor (copyAt c a)))
  [count (fun d e => d.isNone && e.isSome), count (fun d e => d.isSome && e.isNone),
    count (fun d e => d.isSome && e.isSome && decide (d ≠ e)), count (fun d e => d.isSome && decide (d = e))] ++
  wordOctets t.scan.layout ++ [flagCode (decide (∃ a, (s.entry a).placement ≠ placementIn c a))] ++
  numberOctets (inputTotal c) ++ numberOctets (outputTotal c) ++ [t.mode.code]

/-- A promised response posted: it moves from the deferred count into the queue (R185). -/
def postedLater (t : State) (tag kind : Byte) (st : Status) (result : List Byte) : State :=
  { t with port := { t.port with
      deferred := t.port.deferred - 1
      responses := t.port.responses ++ [{ tag := tag, kind := kind, status := st, mode := t.mode, result := result }] } }

/-! ## Restart -/

/-- `t` is as a restart leaves the part when taken in `s` (Table 1-6, R47, R73, R81, R88, R105, R106, R112 to R122, R127,
R139, R140, R156 to R158, R169, R171, R183, R185, R191). Its conditions are those that the closing sweep enters, and only
CONFIG INCOMPLETE can stand then. -/
def Restarted (s t : State) : Prop :=
  t.mode = (if s.anyConfigured then .standby else .offline) ∧
  (∀ a, t.entry a =
    match (s.entry a).descriptor with
    | some d => { descriptor := some d, presence := .expected, activeLine := some d.preferred,
                  placement := (s.entry a).placement }
    | none => { presence := if a = s.ownAddress then .own else .absent }) ∧
  (∀ a, t.supervision a = {}) ∧
  (∀ a, t.slice a =
    match (s.entry a).descriptor with
    | some d => List.replicate d.inputSize 0
    | none => []) ∧
  t.profiles = s.profiles ∧ t.overrides = [] ∧ t.stopPending = none ∧ t.own = { seen := false, standing := none } ∧
  t.safety = { limit := s.safety.limit, timer := none, standing := false } ∧
  t.cond.records =
    (if s.config.incomplete then
      [{ slot := 0, generation := t.cond.generations[0], key := plainKey .part .configIncomplete
         cls := (s.action .configIncomplete).cls, latching := (s.action .configIncomplete).latching
         state := .standing, occurrences := 1, raisedAt := 0, changedAt := 0, extra := [] }]
     else []) ∧
  (∀ i : Fin 64, t.cond.generations[i.val] =
    if ∃ q ∈ s.cond.records, q.slot = i then s.cond.generations[i.val] + 1 else s.cond.generations[i.val]) ∧
  t.cond.actionMap = s.cond.actionMap ∧ t.cond.overflowCount = 0 ∧ t.cond.overflowFlag = false ∧
  t.scan.cycle = .stopped ∧ t.scan.number = 0 ∧ t.scan.pointer = none ∧ t.scan.flight = none ∧
  t.scan.published = [] ∧ t.scan.live = [] ∧ t.scan.layout = s.scan.layout ∧ t.scan.sequence = 65535 ∧
  (∀ l, (t.line l).state = (if (s.line l).state = .disabled then .disabled else .quiet) ∧ (t.line l).errorCount = 0 ∧
    (t.line l).errorWindow = none ∧ (t.line l).withdrawal = none ∧ (t.line l).figures = none ∧
    (t.line l).lastError = none ∧ (t.line l).totals = {}) ∧
  (∀ i, t.slot i = none) ∧ (∀ a, t.toggle a = false) ∧
  t.config = { s.config with staging := .closed, gapTimer := none } ∧
  t.session = { s.session with
    current := none, lastEnd := if s.session.current.isSome then .restarted else s.session.lastEnd } ∧
  t.port.requests = [] ∧ t.port.deferred = 0 ∧ t.port.submitRefused = false ∧ t.port.outputArea = [] ∧
  t.port.entryArea = s.port.entryArea ∧ t.port.restartCount = s.port.restartCount + 1

end Sys2Proof.Safety
end

