-- ==== Sys2Proof/Certificates/Slice0/Obligations.lean ====
section
/-! DEFINITION. The statements for the provers. A statement on an executed request speaks of the record `r` that stands at
the head of the request queue (`Ready`), with `rest` behind it. -/

open Sys2Proof Sys2Proof.Machine Sys2Proof.Safety

/-! ## The step and the queue of commands -/

/-- A step takes the command at the front of the queue and carries it out with the queue's rest; on an empty queue the block
idles (the model's choice, notes/assumptions/2.md). -/
def Obligations.StepTakesFrontCommand : Prop :=
  (∀ (c : Instr) (rest : List Instr) (s : State), s.pending = c :: rest → step s = exec c { s with pending := rest }) ∧
    ∀ s : State, s.pending = [] → step s = .next s

/-! ## Reset and restart -/

/-- Power-on reset brings every state to the reset state, whose values are those the spec gives; the model's own queue and
count of readings stay. -/
def Obligations.PowerOnReset : Prop :=
  let s := State.reset
  (∀ u : State, exec .powerOnReset u = .next { s with pending := u.pending, freeReads := u.freeReads }) ∧
  s.mode = .offline ∧ s.stopPending = none ∧
  (∀ a : Addr, s.entry a = { presence := if a.val = 31 then .own else .absent }) ∧
  (∀ p : Fin 4, s.profile p = { joinThreshold := 2, lossThreshold := 3, replyWindow := 200, retries := 1,
                                lostProbeInterval := 4 }) ∧
  s.cond.records = [] ∧ (∀ i : Fin 64, s.cond.generations[i.val] = 0) ∧ s.cond.actionMap = defaultActions ∧
  s.cond.overflowCount = 0 ∧ s.cond.overflowFlag = false ∧ s.overrides = [] ∧
  s.scan.cycle = .stopped ∧ s.scan.number = 0 ∧ s.scan.pointer = none ∧ s.scan.layout = 0 ∧ s.scan.sequence = 65535 ∧
  (∀ x, s.scan.published.read x = 0 ∧ s.scan.live.read x = 0 ∧ s.port.outputArea.read x = 0 ∧
    s.port.entryArea.read x = 0) ∧
  (∀ l, (s.line l).state = .quiet ∧ (s.line l).errorCount = 0 ∧ (s.line l).errorWindow = none ∧
    (s.line l).withdrawal = none ∧ (s.line l).figures = none ∧ (s.line l).lastError = none ∧ (s.line l).totals = {}) ∧
  s.own = { seen := false, standing := none } ∧ s.safety = { limit := 250, timer := none, standing := false } ∧
  (∀ i, s.slot i = none) ∧ (∀ a, s.toggle a = false) ∧
  s.config.staging = .closed ∧ s.config.gapTimer = none ∧ s.config.gapSetting = 5000 ∧ s.config.incomplete = false ∧
  s.config.setup = { rate := .kbit500, ownAddress := 31, enableA := true, enableB := true, errorWindow := 10,
                     errorLimit := 12, withdrawalTime := 2000, returnInterval := 32, discovery := true,
                     cyclePeriod := 0 } ∧
  s.session = { current := none, lastEnd := .none, permitSessions := true, permitOverrides := false,
                sessionTime := 2000 } ∧
  s.port.requests = [] ∧ s.port.responses = [] ∧ s.port.deferred = 0 ∧ s.port.submitRefused = false ∧
  s.port.restartCount = 0

/-- The RESTART line restarts the part when it becomes asserted, posting nothing; held asserted it does nothing more; its
release changes nothing else. A RESTART request restarts the part, and its OK is the first entry of the emptied queue. -/
def Obligations.RestartTaken : Prop :=
  ∀ s : State,
    (s.port.restartAsserted = false → ∃ t, exec .restartLine s = .next t ∧ Restarted s t ∧ t.port.responses = [] ∧
      t.port.restartAsserted = true) ∧
    (s.port.restartAsserted = true → exec .restartLine s = .next s) ∧
    exec .restartLineRelease s = .next { s with port := { s.port with restartAsserted := false } } ∧
    ∀ r rest, Ready s .restart r rest →
      ∃ t, exec .restart s = .next t ∧ Restarted s t ∧
        t.port.responses = [{ tag := r.read 0, kind := r.read 1, status := .ok, mode := t.mode, result := [] }] ∧
        t.port.restartAsserted = s.port.restartAsserted

/-! ## Invariants -/

/-- Every invariant below holds at reset. -/
def Obligations.InvariantsAtReset : Prop :=
  MemoryCanonical State.reset ∧ FatalNotScanning State.reset ∧ (TablesKept State.reset ∧ RosterKept State.reset) ∧
    FixedActionsKept State.reset ∧ SweepNotOwed State.reset ∧ PromisesKept State.reset

/-- Every step keeps the octet areas in their canonical form. -/
def Obligations.MemoryCanonicalKept : Prop :=
  ∀ s t : State, MemoryCanonical s → step s = .next t → MemoryCanonical t

/-- Every step keeps R77: no FATAL record is held while the mode is SCANNING. -/
def Obligations.FatalNotScanningKept : Prop :=
  ∀ s t : State, FatalNotScanning s → step s = .next t → FatalNotScanning t

/-- Every step keeps the bounds and the keys of the tables, and with them what `RosterKept` says of the roster: placements
as R120 gives them, the own address never configured, every override on a circuit of a configured station, the standing
faults of each station in the order of R66. -/
def Obligations.TablesStayTables : Prop :=
  ∀ s t : State, TablesKept s → step s = .next t → TablesKept t ∧ (RosterKept s → RosterKept t)

/-- Every step keeps the four fixed entries of the action map. -/
def Obligations.FixedActionsStay : Prop :=
  ∀ s t : State, FixedActionsKept s → step s = .next t → FixedActionsKept t

/-- Every step ends its groups: none leaves a sweep owed (the model's marker, notes/assumptions/27.md). -/
def Obligations.NoSweepStaysOwed : Prop :=
  ∀ s t : State, SweepNotOwed s → step s = .next t → SweepNotOwed t

/-- Every step keeps the law of R185: the deferred count counts the promises, and with the queue holds at most 12. -/
def Obligations.PromisesStayKept : Prop :=
  ∀ s t : State, PromisesKept s → step s = .next t → PromisesKept t

/-! ## The controller port -/

/-- A row that names a request has no effect unless a record of its kind is at the head and its response has room
(notes/assumptions/1.md). Every request that is ready executes and takes its record off the queue; RESTART empties the
queue. A record whose kind names no request is answered UNKNOWN REQUEST and changes nothing. -/
def Obligations.RequestTakesHead : Prop :=
  (∀ (k : RequestKind) (s : State),
    (∀ r rest, s.port.requests = r :: rest →
      requestKindOctet r ≠ k.code ∨ 12 < s.port.responses.length + s.port.deferred + 1) →
    exec (requestRow k) s = .next s) ∧
  (∀ k s r rest, Ready s k r rest →
    ∃ t, exec (requestRow k) s = .next t ∧ t.pending = s.pending ∧
      t.port.requests = (if k = .restart then [] else rest) ∧ t.port.entryArea = s.port.entryArea) ∧
  ∀ (s : State) (r : Memory) (rest : List Memory), s.port.requests = r :: rest →
    (∀ k : RequestKind, requestKindOctet r ≠ k.code) → s.port.responses.length + s.port.deferred + 1 ≤ 12 →
    SweepNotOwed s → exec .unknownRequest s = answers s r rest .unknownRequest []

/-- A submit queues a copy of the request entry area, or is refused while 8 records are held. A response-taken removes the
head response, and the head request that waited for its place can then execute; on an empty queue it has no effect. -/
def Obligations.QueueTriggers : Prop :=
  ∀ s : State,
    (s.port.requests.length < 8 → exec .submit s = .next { s with port := { s.port with
      requests := s.port.requests ++ [s.port.entryArea], submitRefused := false } }) ∧
    (8 ≤ s.port.requests.length → exec .submit s = .next { s with port := { s.port with submitRefused := true } }) ∧
    (∀ p ps, s.port.responses = p :: ps →
      exec .responseTaken s = .next { s with port := { s.port with responses := ps } } ∧
      ∀ k r rest, s.port.requests = r :: rest → requestKindOctet r = k.code → SweepNotOwed s →
        s.port.responses.length + s.port.deferred = 12 →
        ¬ Ready s k r rest ∧ Ready { s with port := { s.port with responses := ps } } k r rest) ∧
    (s.port.responses = [] → exec .responseTaken s = .next s)

/-- An output commit copies the output area, restarts the output refresh timer while cycles run, clears the OUTPUTS SAFE
indicator and, where it was set, hands the end of the cause. -/
def Obligations.OutputCommitTaken : Prop :=
  ∀ s : State, SweepNotOwed s →
    let u : State := { s with
      scan := { s.scan with live := s.port.outputArea }
      safety := { s.safety with
        standing := false
        timer := if s.mode = .scanning ∨ s.mode = .held then
            (if s.safety.limit = 0 then none else some s.safety.limit) else s.safety.timer } }
    (s.safety.standing = false → exec .outputCommit s = .next u) ∧
    (s.safety.standing = true → exec .outputCommit s = .next (u.finishCause (plainKey .part .outputsSafe)).endGroup)

/-- A window write of one octet, or of a word at an even offset, stores its octets in the output area or the request entry
area, acts as the trigger whose word it touches, whatever it writes, and is ignored everywhere else. -/
def Obligations.WindowWriteTaken : Prop :=
  ∀ (s : State) (o : Nat) (data : List Byte), (data.length = 1 ∨ (data.length = 2 ∧ o % 2 = 0)) →
    ((o < 0x802 ∨ 0x808 ≤ o) →
      exec (.windowWrite o data) s = .next (
        if 0x400 ≤ o ∧ o < 0x800 then
          { s with port := { s.port with outputArea := s.port.outputArea.writeList (o - 0x400) data } }
        else if 0x900 ≤ o ∧ o < 0xA00 then
          { s with port := { s.port with entryArea := s.port.entryArea.writeList (o - 0x900) data } }
        else s)) ∧
    ((o = 0x802 ∨ o = 0x803) → exec (.windowWrite o data) s = exec .outputCommit s) ∧
    ((o = 0x804 ∨ o = 0x805) → exec (.windowWrite o data) s = exec .submit s) ∧
    ((o = 0x806 ∨ o = 0x807) → exec (.windowWrite o data) s = exec .responseTaken s)

/-- Through the window: a write to the output area or the request entry area reads back, and every other octet of the window
reads as before. Each area shows its part of the state, an offset outside the areas and a trigger word 0, and ATTENTION is
asserted while a response is queued or the condition reason holds. -/
def Obligations.WindowReadsBack : Prop :=
  (∀ (s t : State) (o : Nat) (data : List Byte), MemoryCanonical s →
    (data.length = 1 ∨ (data.length = 2 ∧ o % 2 = 0)) →
    ((0x400 ≤ o ∧ o < 0x800) ∨ (0x900 ≤ o ∧ o < 0xA00)) →
    exec (.windowWrite o data) s = .next t →
    ∀ x, t.windowOctet x = if o ≤ x ∧ x < o + data.length then data.getD (x - o) 0 else s.windowOctet x) ∧
  ∀ s : State,
    let reason : Prop := (∃ q ∈ s.cond.records, (q.cls = .diagnostic ∨ q.cls = .fatal) ∧
      (q.state = .standing ∨ q.state = .ended)) ∨ s.cond.overflowFlag = true
    (∀ x < 0x400, s.windowOctet x = s.scan.published.read x) ∧
    (∀ x, 0x400 ≤ x → x < 0x800 → s.windowOctet x = s.port.outputArea.read (x - 0x400)) ∧
    (s.windowOctet 0x800 = lowOctet s.scan.sequence ∧ s.windowOctet 0x801 = highOctet s.scan.sequence) ∧
    (∀ x, 0x802 ≤ x → x < 0x810 → s.windowOctet x = 0) ∧
    s.windowOctet 0x810 = s.mode.code ∧
    s.windowOctet 0x811 = (match s.config.staging with
      | .closed => 0
      | .opened _ => 1
      | .commitPending _ _ => 2) ∧
    (s.windowOctet 0x812 = s.lineA.state.code ∧ s.windowOctet 0x813 = s.lineB.state.code) ∧
    (((s.windowOctet 0x814).getLsbD 0 = true ↔ s.port.responses ≠ []) ∧
      ((s.windowOctet 0x814).getLsbD 1 = true ↔ reason) ∧
      (s.windowOctet 0x814).getLsbD 2 = s.cond.overflowFlag ∧
      (s.windowOctet 0x814).getLsbD 3 = s.port.submitRefused ∧
      (s.windowOctet 0x814).getLsbD 4 = s.stopPending.isSome ∧
      (s.windowOctet 0x814).getLsbD 5 = s.session.current.isSome ∧
      (s.windowOctet 0x814).getLsbD 6 = false ∧ (s.windowOctet 0x814).getLsbD 7 = false) ∧
    (s.windowOctet 0x815 = 0 ∧ s.windowOctet 0x819 = 0) ∧
    (s.windowOctet 0x816 = octet s.port.requests.length ∧ s.windowOctet 0x817 = octet s.port.responses.length ∧
      s.windowOctet 0x818 = octet s.port.deferred) ∧
    (s.windowOctet 0x81A = lowOctet s.scan.layout ∧ s.windowOctet 0x81B = highOctet s.scan.layout ∧
      s.windowOctet 0x81C = lowOctet s.port.restartCount ∧ s.windowOctet 0x81D = highOctet s.port.restartCount) ∧
    (∀ x, 0x81E ≤ x → x < 0x840 → s.windowOctet x = 0) ∧
    (∀ a : Addr,
      let first := s.windowOctet (0x840 + 4 * a.val)
      let e := s.entry a
      (first.getLsbD 7 = true ↔ e.descriptor.isSome = true) ∧
      (first.getLsbD 6 = true ↔ (e.presence = .present ∨ e.presence = .silent)) ∧
      (first.getLsbD 5 = true ↔ ∃ i u, s.slot i = some u ∧ u.station = a) ∧
      (first.getLsbD 4 = false ∧ first.getLsbD 3 = false ∧ first.getLsbD 2 = false) ∧
      first.toNat % 4 = (match e.activeLine with
        | none => 0
        | some .a => 1
        | some .b => 2) ∧
      s.windowOctet (0x841 + 4 * a.val) = e.presence.code ∧
      s.windowOctet (0x842 + 4 * a.val) = octet (s.overrides.countP (fun q => decide (q.station = a))) ∧
      s.windowOctet (0x843 + 4 * a.val) =
        octet (s.cond.records.countP (fun q => decide (q.key.origin = .station a)))) ∧
    (∀ x, 0x8C0 ≤ x → x < 0x900 → s.windowOctet x = 0) ∧
    (∀ x, 0x900 ≤ x → x < 0xA00 → s.windowOctet x = s.port.entryArea.read (x - 0x900)) ∧
    (s.port.responses = [] → ∀ i < 256, s.windowOctet (0xA00 + i) = if i = 2 then 255 else 0) ∧
    (∀ p ps, s.port.responses = p :: ps → ∀ i < 256, s.windowOctet (0xA00 + i) =
      ([p.tag, p.kind, p.status.code, p.mode.code] ++ numberOctets p.result.length ++ p.result).getD i 0) ∧
    (∀ x, 0xB00 ≤ x → s.windowOctet x = 0) ∧
    (s.attention = true ↔ s.port.responses ≠ [] ∨ reason)

/-! ## Operating modes -/

/-- START: its refusals in order, and its effects, after which the first cycle goes on. -/
def Obligations.StartRequest : Prop :=
  ∀ s r rest, Ready s .start r rest →
    let go : LineEngine → LineEngine := fun e =>
      if e.state = .quiet then
        { e with state := .active, errorCount := 0, errorWindow := some (1000 * s.config.setup.errorWindow),
                 withdrawal := none, figures := none }
      else e
    (s.mode ≠ .standby → exec .start s = answers s r rest .wrongMode []) ∧
    (s.mode = .standby → s.config.incomplete = true → exec .start s = answers s r rest .configIncomplete []) ∧
    (s.mode = .standby → s.config.incomplete = false → 0 < s.fatalCount →
      exec .start s = answers s r rest .fatalStanding []) ∧
    (s.mode = .standby → s.config.incomplete = false → s.fatalCount = 0 → s.scan.cycle = .stopped →
      exec .start s = .next (posted (taken { s with
        mode := .scanning
        lineA := go s.lineA
        lineB := go s.lineB
        safety := { s.safety with timer := if s.safety.limit = 0 then none else some s.safety.limit }
        scan := { s.scan with cycle := .visiting, began := s.now, nextAddress := 0 }
        freeReads := s.freeReads + 1 } rest) r .ok []).scanOn)

/-- STOP: its refusals, the STOP that waits for the cycle end, and the STOP that takes effect in WAITING, its OK posted
behind the completions of the transactions it ends, with FORCED and OWN ADDRESS CONFLICT ended by `stopCauses` (the response
is posted before the group's sweep: notes/assumptions/8.md, 25.md for the own-address mark; that both ends are one group,
swept once, is the model's choice, notes/assumptions/39.md). -/
def Obligations.StopRequest : Prop :=
  ∀ s r rest, Ready s .stop r rest →
    ((s.mode = .offline ∨ s.mode = .standby) → exec .stop s = answers s r rest .wrongMode []) ∧
    ((s.mode = .scanning ∨ s.mode = .held) → s.stopPending.isSome = true →
      exec .stop s = answers s r rest .busy []) ∧
    ((s.mode = .scanning ∨ s.mode = .held) → s.stopPending = none → s.scan.cycle ≠ .waiting →
      exec .stop s = .next { taken s rest with
        stopPending := some (r.read 0)
        port := { s.port with requests := rest, deferred := s.port.deferred + 1 } }) ∧
    ((s.mode = .scanning ∨ s.mode = .held) → s.stopPending = none → s.scan.cycle = .waiting →
      ∃ t, exec .stop s = .next t ∧ t.mode = .standby ∧ t.stopPending = none ∧ t.scan.cycle = .stopped ∧
        t.safety = { s.safety with timer := none } ∧
        (∀ l, (t.line l).state = if (s.line l).state = .active then .quiet else (s.line l).state) ∧
        (∀ i, t.slot i = none) ∧ t.session.current = none ∧ t.own.standing = none ∧
        t.config = s.config ∧ t.scan.number = s.scan.number ∧ t.port.requests = rest ∧
        t.port.responses.getLast? =
          some { tag := r.read 0, kind := r.read 1, status := .ok, mode := .standby, result := [] }) ∧
    ((s.mode = .scanning ∨ s.mode = .held) → s.stopPending = none → s.scan.cycle = .waiting → TablesKept s →
      ∃ x, StopEnds (halted (taken s rest)) x ∧
        exec .stop s = .next (posted { x with scan := { x.scan with cycle := .stopped } } r .ok []).endGroup)

/-- RESUME: its refusals, and the entry to SCANNING with the output refresh timer restarted. -/
def Obligations.ResumeRequest : Prop :=
  ∀ s r rest, Ready s .resume r rest →
    (s.mode ≠ .held → exec .resume s = answers s r rest .wrongMode []) ∧
    (s.mode = .held → 0 < s.fatalCount → exec .resume s = answers s r rest .fatalStanding []) ∧
    (s.mode = .held → s.fatalCount = 0 →
      exec .resume s = answers { s with
        mode := .scanning
        safety := { s.safety with timer := if s.safety.limit = 0 then none else some s.safety.limit } } r rest .ok [])

/-! ## Staging and commit -/

/-- The staging state test: the requests that need an open copy are refused NO STAGING in CLOSED and BUSY in COMMIT PENDING.
STAGE BEGIN: its refusals, and the copy of the committed configuration opened with the gap timer started. -/
def Obligations.StageBegin : Prop :=
  (∀ k ∈ [RequestKind.stageStation, .stageRemove, .stageCommit, .stageAbort, .readStaged],
    ∀ s r rest, Ready s k r rest →
      (s.config.staging = .closed → exec (requestRow k) s = answers s r rest .noStaging []) ∧
      (∀ tag c, s.config.staging = .commitPending tag c → exec (requestRow k) s = answers s r rest .busy [])) ∧
  ∀ s r rest, Ready s .stageBegin r rest →
    let gap := (operandWord r 0).toNat
    let setting := if gap = 0 then s.config.gapSetting else gap
    (∀ tag c, s.config.staging = .commitPending tag c → exec .stageBegin s = answers s r rest .busy []) ∧
    (∀ c, s.config.staging = .opened c →
      exec .stageBegin s = answers { s with config := { s.config with gapTimer := some s.config.gapSetting } } r rest
        .stagingOpen []) ∧
    (s.config.staging = .closed → ((1 ≤ gap ∧ gap < 500) ∨ 60000 < gap) →
      exec .stageBegin s = answers s r rest .badOperand []) ∧
    (s.config.staging = .closed → (gap = 0 ∨ (500 ≤ gap ∧ gap ≤ 60000)) →
      ∃ c : StagingCopy, (∀ a, copyAt c a = (s.entry a).descriptor) ∧
        exec .stageBegin s = answers { s with config := { s.config with
          staging := .opened c, gapSetting := setting, gapTimer := some setting } } r rest .ok (numberOctets setting))

/-- STAGE STATION in OPEN: its refusals in order, and the descriptor stored in normalised form. -/
def Obligations.StageStation : Prop :=
  ∀ s r rest c, Ready s .stageStation r rest → s.config.staging = .opened c →
    let u : State := { s with config := { s.config with gapTimer := some s.config.gapSetting } }
    (31 < (operand r 0).toNat → exec .stageStation s = answers u r rest .badOperand []) ∧
    (operand r 0 = octet s.ownAddress.val → exec .stageStation s = answers u r rest .addressInUse []) ∧
    ∀ a : Addr, operand r 0 = octet a.val → a ≠ s.ownAddress →
      ((32 < (operand r 1).toNat ∨ 1 < (operand r 2).toNat ∨ 32 < (operand r 3).toNat ∨ 1 < (operand r 4).toNat ∨
          operand r 5 = 0 ∨ 3 < (operand r 5).toNat ∨ operand r 6 = 0 ∨ 2 < (operand r 6).toNat ∨
          3 < (operand r 7).toNat ∨ 1 < (operand r 8).toNat ∨ (operand r 1 = 0 ∧ operand r 3 = 0) ∨
          (operand r 5 = 1 ∧ operand r 6 ≠ 1) ∨ (operand r 5 = 2 ∧ operand r 6 ≠ 2)) →
        exec .stageStation s = answers u r rest .badOperand []) ∧
      ∀ d : Descriptor, (∀ i < 8, operand r (1 + i) = (descriptorOctets d).getD i 0) →
        (d.inputCount.val ≠ 0 ∨ d.outputCount.val ≠ 0) → (∀ l, d.attachment.single = some l → d.preferred = l) →
        exec .stageStation s = answers { u with config := { u.config with
          staging := .opened (c.set a.val (some { d with
            inputWidth := if d.inputCount.val = 0 then .bit else d.inputWidth
            outputWidth := if d.outputCount.val = 0 then .bit else d.outputWidth })) } } r rest .ok
          [flagCode (copyAt c a).isSome]

/-- STAGE REMOVE in OPEN: its refusals, and the place emptied; staged again with its committed descriptor the address is
unchanged at the commit. -/
def Obligations.StageRemove : Prop :=
  ∀ s r rest c, Ready s .stageRemove r rest → s.config.staging = .opened c →
    let u : State := { s with config := { s.config with gapTimer := some s.config.gapSetting } }
    (31 < (operand r 0).toNat → exec .stageRemove s = answers u r rest .badOperand []) ∧
    ∀ a : Addr, operand r 0 = octet a.val →
      (copyAt c a = none → exec .stageRemove s = answers u r rest .notFound []) ∧
      ((copyAt c a).isSome = true →
        exec .stageRemove s = answers { u with config := { u.config with staging := .opened (c.set a.val none) } }
          r rest .ok []) ∧
      ∀ d, (s.entry a).descriptor = some d →
        comparisonOf (s.entry a).descriptor (copyAt ((c.set a.val none).set a.val (some d)) a) = .unchanged

/-- STAGE ABORT in OPEN: the copy is discarded, the staging CLOSED and the gap timer stopped; the committed configuration
and CONFIG INCOMPLETE stay, and no cause begins or ends. -/
def Obligations.StageAbort : Prop :=
  ∀ s r rest c, Ready s .stageAbort r rest → s.config.staging = .opened c →
    exec .stageAbort s = answers { s with config := { s.config with staging := .closed, gapTimer := none } } r rest .ok []

/-- READ STAGED in OPEN: the place, its comparison with the committed configuration, and the input and output totals of the
copy, each the sum of its stations' sizes in that area. -/
def Obligations.ReadStaged : Prop :=
  ∀ s r rest c, Ready s .readStaged r rest → s.config.staging = .opened c →
    let u : State := { s with config := { s.config with gapTimer := some s.config.gapSetting } }
    (31 < (operand r 0).toNat → exec .readStaged s = answers u r rest .badOperand []) ∧
    ∀ a : Addr, operand r 0 = octet a.val →
      exec .readStaged s = answers u r rest .ok (
        ((match copyAt c a with
          | some d => 1 :: descriptorOctets d
          | none => [0, 0, 0, 0, 0, 0, 0, 0, 0]) : List Byte) ++
        ([match (s.entry a).descriptor, copyAt c a with
          | none, none => 0
          | none, some _ => 1
          | some _, none => 2
          | some d, some e => if d = e then 4 else 3] : List Byte) ++
        numberOctets (octetsBelow (inputOctets (copyAt c)) 32) ++ numberOctets (octetsBelow (outputOctets (copyAt c)) 32))

/-- STAGE COMMIT in OPEN: its refusals in order, and the commit that waits for the cycle end. -/
def Obligations.StageCommitTaken : Prop :=
  ∀ s r rest c, Ready s .stageCommit r rest → s.config.staging = .opened c →
    let u : State := { s with config := { s.config with gapTimer := some s.config.gapSetting } }
    let fitsImages := octetsBelow (inputOctets (copyAt c)) 32 ≤ 1024 ∧ octetsBelow (outputOctets (copyAt c)) 32 ≤ 1024
    let served := ∀ a d, copyAt c a = some d → s.config.setup.serves d.attachment = true
    let empty := ∀ a, copyAt c a = none
    (¬ fitsImages → exec .stageCommit s = answers u r rest .imageOverflow []) ∧
    (fitsImages → ¬ served → exec .stageCommit s = answers u r rest .badOperand []) ∧
    (fitsImages → served → s.mode.scans = true → empty →
      exec .stageCommit s = answers u r rest .emptyConfiguration []) ∧
    (fitsImages → served → s.mode.scans = true → ¬ empty → s.scan.cycle ≠ .waiting →
      exec .stageCommit s = .next { s with
        config := { s.config with staging := .commitPending (r.read 0) c, gapTimer := none }
        port := { s.port with requests := rest, deferred := s.port.deferred + 1 } })

/-- Placement by running offsets in ascending address order, and the two totals (`placed`). STAGE COMMIT that passes its
checks in OFFLINE, in STANDBY or in WAITING is applied at once (`CommitTaken`): every address takes the copy's descriptor
and its placement, a station removed or changed loses its records, overrides and transaction, one added or changed starts
its qualification, one that stays unchanged keeps its entry and its slices of the images, a session whose tool the copy
configures ends, the condition unit takes ends and retirements alone, those of `commitCauses`, the staging closes, and OK is
posted behind the completions (the response is posted before the group's sweep: notes/assumptions/8.md). -/
def Obligations.CommitApplied : Prop :=
  (∀ (c : StagingCopy) (a : Addr), placementIn c a = placed (copyAt c) a ∧
    inputTotal c = octetsBelow (inputOctets (copyAt c)) 32 ∧ outputTotal c = octetsBelow (outputOctets (copyAt c)) 32) ∧
  ∀ s r rest c, Ready s .stageCommit r rest → TablesKept s → s.config.staging = .opened c →
    inputTotal c ≤ 1024 → outputTotal c ≤ 1024 →
    (∀ a d, copyAt c a = some d → s.config.setup.serves d.attachment = true) →
    (s.mode.scans = true → (∃ a, (copyAt c a).isSome = true) ∧ s.scan.cycle = .waiting) →
    (∀ o, s.session.current = some o → (s.entry o.tool).descriptor = none) →
    ∃ u, CommitTaken (taken s rest) u c ∧
      exec .stageCommit s = .next (posted u r .ok (commitFields s u c)).endGroup

/-! ## Settings -/

/-- SET PROFILE: its refusals, and the profile replaced with the counts of the entries that use it brought within it; READ
PROFILE returns the five fields. -/
def Obligations.ProfileRequests : Prop :=
  ∀ s r rest,
    (Ready s .setProfile r rest →
      let p : Profile := ⟨(operand r 1).toNat, (operand r 2).toNat, (operandWord r 3).toNat, (operand r 5).toNat,
        (operand r 6).toNat⟩
      let good := (1 ≤ p.joinThreshold ∧ p.joinThreshold ≤ 7) ∧ (1 ≤ p.lossThreshold ∧ p.lossThreshold ≤ 15) ∧
        (40 ≤ p.replyWindow ∧ p.replyWindow ≤ 2000) ∧ p.retries ≤ 3 ∧
        (1 ≤ p.lostProbeInterval ∧ p.lostProbeInterval ≤ 255)
      (3 < (operand r 0).toNat ∨ ¬ good → exec .setProfile s = answers s r rest .badOperand []) ∧
      ∀ n : Fin 4, operand r 0 = octet n.val → good →
        ∃ u, exec .setProfile s = answers u r rest .ok [] ∧ u = { s with profiles := u.profiles, roster := u.roster } ∧
          u.profile n = p ∧ (∀ m, m ≠ n → u.profile m = s.profile m) ∧
          (∀ a, (s.entry a).descriptor.map Descriptor.profile ≠ some n → u.entry a = s.entry a) ∧
          ∀ a, (s.entry a).descriptor.map Descriptor.profile = some n →
            u.entry a = { s.entry a with
              joinCount := if p.joinThreshold ≤ (s.entry a).joinCount then p.joinThreshold - 1
                else (s.entry a).joinCount
              missCount := if p.lossThreshold ≤ (s.entry a).missCount then p.lossThreshold - 1
                else (s.entry a).missCount
              countdown := if p.lostProbeInterval < (s.entry a).countdown then p.lostProbeInterval
                else (s.entry a).countdown }) ∧
    (Ready s .readProfile r rest →
      (3 < (operand r 0).toNat → exec .readProfile s = answers s r rest .badOperand []) ∧
      ∀ n : Fin 4, operand r 0 = octet n.val →
        exec .readProfile s = answers s r rest .ok
          ([octet (s.profile n).joinThreshold, octet (s.profile n).lossThreshold] ++
            numberOctets (s.profile n).replyWindow ++
            [octet (s.profile n).retries, octet (s.profile n).lostProbeInterval]))

/-- SET ACTION: its refusals, and the entry's class and latching replaced, with no record, notice or mode touched. -/
def Obligations.SetAction : Prop :=
  ∀ s r rest, Ready s .setAction r rest →
    ((operand r 0 = 0 ∨ 12 < (operand r 0).toNat ∨ 2 < (operand r 1).toNat ∨ 1 < (operand r 2).toNat) →
      exec .setAction s = answers s r rest .badOperand []) ∧
    (∀ c ∈ fixedCategories, operand r 0 = c.code → exec .setAction s = answers s r rest .badOperand []) ∧
    ∀ (c : Category) (k : ActionClass) (latching : Bool), c ∉ fixedCategories → operand r 0 = c.code →
      operand r 1 = k.code → operand r 2 = flagCode latching →
      exec .setAction s =
        answers { s with cond := { s.cond with actionMap := s.cond.actionMap.set c.index.val ⟨k, latching⟩ } } r rest
          .ok []

/-- READ ACTION: refused outside 1-12, else the entry's class, its latching and whether it is configurable. -/
def Obligations.ReadAction : Prop :=
  ∀ s r rest, Ready s .readAction r rest →
    ((operand r 0 = 0 ∨ 12 < (operand r 0).toNat) → exec .readAction s = answers s r rest .badOperand []) ∧
    ∀ c : Category, operand r 0 = c.code →
      exec .readAction s = answers s r rest .ok
        [(s.action c).cls.code, flagCode (s.action c).latching, flagCode (decide (c ∉ fixedCategories))]

/-- SET OUTPUT REFRESH: its refusal, and the limit replaced with the timer restarted, stopped, started or left stopped; the
OUTPUTS SAFE indicator stays (when the timer counts as stopped for a limit of 0: notes/assumptions/33.md). -/
def Obligations.SetOutputRefresh : Prop :=
  ∀ s r rest, Ready s .setOutputRefresh r rest →
    let limit := (operandWord r 0).toNat
    (((1 ≤ limit ∧ limit ≤ 9) ∨ 5000 < limit) → exec .setOutputRefresh s = answers s r rest .badOperand []) ∧
    ((limit = 0 ∨ (10 ≤ limit ∧ limit ≤ 5000)) →
      exec .setOutputRefresh s = answers { s with safety := { s.safety with
        limit := limit
        timer :=
          if limit = 0 then none
          else if s.safety.timer.isSome then some limit
          else if s.safety.limit = 0 ∧ (s.mode = .scanning ∨ s.mode = .held) then some limit
          else none } } r rest .ok [])

/-- SET LINE SETUP: its refusals in order, and the ten settings replaced together with their effects on the profiles, the
roster and the lines, the causes that cease handed as ends and the new ones as beginnings; READ LINE SETUP returns the ten
settings (the response is posted before the group's sweep: notes/assumptions/8.md; the order among causes of one kind is the
model's choice: notes/assumptions/7.md). -/
def Obligations.LineSetupRequests : Prop :=
  ∀ s r rest,
    (Ready s .setLineSetup r rest →
      (s.mode.scans = true → exec .setLineSetup s = answers s r rest .wrongMode []) ∧
      let ranges : Nat → Nat → Nat → Nat → Prop := fun errorWindow errorLimit withdrawal period =>
        (1 ≤ errorWindow ∧ errorWindow ≤ 60) ∧ 1 ≤ errorLimit ∧ (500 ≤ withdrawal ∧ withdrawal ≤ 8000) ∧ period ≤ 255
      (s.mode.scans = false →
        (2 < (operand r 0).toNat ∨ 31 < (operand r 1).toNat ∨ 1 < (operand r 2).toNat ∨ 1 < (operand r 3).toNat ∨
          ¬ ranges (operandWord r 4).toNat (operand r 6).toNat (operandWord r 7).toNat (operandWord r 11).toNat ∨
          operand r 9 = 0 ∨ 1 < (operand r 10).toNat) →
        exec .setLineSetup s = answers s r rest .badOperand []) ∧
      ∀ c : LineSetup, s.mode.scans = false →
        operand r 0 = c.rate.code → operand r 1 = octet c.ownAddress.val → operand r 2 = flagCode c.enableA →
        operand r 3 = flagCode c.enableB → (operandWord r 4).toNat = c.errorWindow →
        (operand r 6).toNat = c.errorLimit → (operandWord r 7).toNat = c.withdrawalTime →
        (operand r 9).toNat = c.returnInterval → operand r 10 = flagCode c.discovery →
        (operandWord r 11).toNat = c.cyclePeriod →
        ranges c.errorWindow c.errorLimit c.withdrawalTime c.cyclePeriod → 1 ≤ c.returnInterval →
        let inUse := c.ownAddress ≠ s.ownAddress ∧ ((s.entry c.ownAddress).descriptor.isSome = true ∨
          ∃ g, s.config.staging = .opened g ∧ (copyAt g c.ownAddress).isSome = true)
        let served := ∀ a d, (s.entry a).descriptor = some d → c.serves d.attachment = true
        (inUse → exec .setLineSetup s = answers s r rest .addressInUse []) ∧
        (¬ inUse → ¬ served → exec .setLineSetup s = answers s r rest .badOperand []) ∧
        (¬ inUse → served →
          ∃ u : State,
            let key : Cause → Key := fun x => x.key
            let ends := (s.standingCauses.map key).filter (fun k => decide (k ∉ u.standingCauses.map key))
            let begins := u.standingCauses.filter (fun x => decide (x.key ∉ s.standingCauses.map key))
            exec .setLineSetup s = .next (posted (handed (taken u rest) ends begins []) r .ok []).endGroup ∧
            u = { s with roster := u.roster, profiles := u.profiles, lineA := u.lineA, lineB := u.lineB,
                         config := { s.config with setup := c } } ∧
            (∀ p, u.profile p = if c.rate = s.config.setup.rate then s.profile p
              else { s.profile p with replyWindow := c.rate.defaultWindow }) ∧
            (∀ l, u.line l = if c.enabled l = s.config.setup.enabled l then s.line l
              else { s.line l with
                state := if c.enabled l then .quiet else .disabled
                errorCount := 0, errorWindow := none, withdrawal := none, figures := none
                receiving := c.enabled l && (s.line l).receiving }) ∧
            (c.ownAddress ≠ s.ownAddress → u.entry c.ownAddress = { presence := .own } ∧ u.entry s.ownAddress = {}) ∧
            ∀ a, (c.ownAddress = s.ownAddress ∨ (a ≠ c.ownAddress ∧ a ≠ s.ownAddress)) →
              u.entry a = if s.config.setup.discovery = true ∧ c.discovery = false ∧ (s.entry a).presence = .extra
                then { s.entry a with presence := .absent, identity := none } else s.entry a)) ∧
    (Ready s .readLineSetup r rest → exec .readLineSetup s = answers s r rest .ok (
      [s.config.setup.rate.code, octet s.config.setup.ownAddress.val, flagCode s.config.setup.enableA,
        flagCode s.config.setup.enableB] ++ numberOctets s.config.setup.errorWindow ++
      [octet s.config.setup.errorLimit] ++ numberOctets s.config.setup.withdrawalTime ++
      [octet s.config.setup.returnInterval, flagCode s.config.setup.discovery] ++
      numberOctets s.config.setup.cyclePeriod))

/-- SET SERVICE PERMIT: its refusals, the three settings replaced, the session that ends with LOCKED, and the overrides that
go with the session or with their permission (the response is posted before the group's sweep: notes/assumptions/8.md). -/
def Obligations.SetServicePermit : Prop :=
  ∀ s r rest, Ready s .setServicePermit r rest →
    let time := (operandWord r 2).toNat
    ((1 < (operand r 0).toNat ∨ 1 < (operand r 1).toNat ∨ time < 250 ∨ 16000 < time) →
      exec .setServicePermit s = answers s r rest .badOperand []) ∧
    ∀ sessions overrides : Bool, operand r 0 = flagCode sessions → operand r 1 = flagCode overrides → 250 ≤ time →
      time ≤ 16000 →
      let ends := s.session.permitSessions = true ∧ sessions = false ∧ s.session.current.isSome = true
      let drops := s.session.permitOverrides = true ∧ overrides = false
      (¬ ends → ¬ drops → exec .setServicePermit s =
        answers { s with session := { s.session with
          permitSessions := sessions, permitOverrides := overrides, sessionTime := time } } r rest .ok [0, 0]) ∧
      (¬ ends → drops → TablesKept s →
        exec .setServicePermit s = .next (posted
          { withoutOverrides (taken s rest) (fun q => decide (q.owner = .session)) with
            session := { s.session with
              permitSessions := sessions, permitOverrides := overrides, sessionTime := time } } r .ok
          [0, octet s.sessionShare]).endGroup) ∧
      (∀ o, s.session.current = some o → (s.entry o.tool).presence = .service → ends → TablesKept s →
        exec .setServicePermit s = .next (posted
          { sessionEnded (taken s rest) o .locked with
            session := { current := none, lastEnd := .locked, permitSessions := sessions, permitOverrides := overrides
                         sessionTime := time } } r .ok [1, octet s.sessionShare]).endGroup) ∧
      (ends → TablesKept s →
        ∃ t, exec .setServicePermit s = .next t ∧
          t.session = { current := none, lastEnd := .locked, permitSessions := sessions,
                        permitOverrides := overrides, sessionTime := time } ∧
          t.overrides = s.overrides.filter (fun q => decide (q.owner ≠ .session)) ∧
          (∀ o, s.session.current = some o → (t.entry o.tool).presence = .absent ∧ (t.entry o.tool).identity = none) ∧
          (t.port.responses.getLast?.map (fun p => (p.status, p.result))) = some (.ok, [1, octet s.sessionShare]))

/-! ## Reading the roster, the lines, the tables and the session -/

/-- READ ENTRY: refused outside 0-31, else every field of the entry (an absent reported status takes three octets:
notes/assumptions/12.md); READ LINE STATE: refused where the operand names no line, else the line's state, its timers and
its counts. -/
def Obligations.EntryAndLineReads : Prop :=
  ∀ s r rest,
    (Ready s .readEntry r rest →
      (31 < (operand r 0).toNat → exec .readEntry s = answers s r rest .badOperand []) ∧
      ∀ a : Addr, operand r 0 = octet a.val →
        let e := s.entry a
        let field : Nat → Option (List Byte) → List Byte := fun size x =>
          match x with
          | some v => 1 :: v
          | none => 0 :: List.replicate size 0
        exec .readEntry s = answers s r rest .ok (
          [octet a.val, flagCode e.descriptor.isSome] ++
          field 8 (e.descriptor.map (fun d =>
            [octet d.inputCount.val, d.inputWidth.code, octet d.outputCount.val, d.outputWidth.code, d.attachment.code,
              lineCode (some d.preferred), octet d.profile.val, d.lossPolicy.code])) ++
          [e.presence.code] ++
          field 1 (e.joinOrigin.map (fun o => [o.code])) ++
          [octet e.joinCount, octet e.missCount, lineCode e.activeLine, octet e.countdown] ++
          field 7 (e.identity.map (fun i => reported i ++ [i.revision] ++ wordOctets i.tag)) ++
          field 2 (e.recordedTag.map wordOctets) ++
          field 3 (e.status.map (fun x =>
            [x.faultCode, octet x.items.length] ++ x.items.flatMap (fun i =>
              [octet ((match i.direction with
                | .input => 0
                | .output => 128) + i.circuit.val), i.code, i.detail]) ++ [flagCode x.more])) ++
          [flagCode (decide (e.presence = .present ∨ e.presence = .silent)),
            octet (s.overrides.countP (fun q => decide (q.station = a))),
            octet (s.cond.records.countP (fun q => decide (q.key.origin = .station a)))] ++
          field 1 (((List.finRange 4).find? (fun i => (s.slot i).any (fun u => decide (u.station = a)))).map
            (fun i => [octet i.val])) ++
          field 8 (e.placement.map (fun p =>
            numberOctets p.inputOffset ++ numberOctets p.inputSize ++ numberOctets p.outputOffset ++
              numberOctets p.outputSize)))) ∧
    (Ready s .readLineState r rest →
      ((operand r 0 = 0 ∨ 2 < (operand r 0).toNat) → exec .readLineState s = answers s r rest .badOperand []) ∧
      ∀ l, operand r 0 = lineCode (some l) →
        let e := s.line l
        ∃ window back, TimerField e.errorWindow window ∧ TimerField e.withdrawal back ∧
          exec .readLineState s =
            answers { s with freeReads := s.freeReads + running [e.errorWindow, e.withdrawal] } r rest .ok (
              [e.state.code, octet e.errorCount] ++ window ++ back ++
              ((match e.figures with
                | some f => [1, octet f.1, f.2.code]
                | none => [0, 0, 0]) : List Byte) ++
              ((match e.lastError with
                | some c => [1, c.code]
                | none => [0, 0]) : List Byte) ++
              numberOctets e.totals.badCheck ++ numberOctets e.totals.aborted ++ numberOctets e.totals.malformed ++
              numberOctets e.totals.unsolicited ++ numberOctets e.totals.withdrawals))

/-- READ CONDITION and READ OVERRIDE: refused above 63 and above 47, NOT FOUND at or above the number held, else every field
of the record at the position in its octets (`recordFields` for a condition record) and what is held; nothing changes. -/
def Obligations.PositionReads : Prop :=
  ∀ s r rest,
    let n := (operand r 0).toNat
    (Ready s .readCondition r rest →
      (63 < n → exec .readCondition s = answers s r rest .badOperand []) ∧
      (n ≤ 63 → s.cond.records.length ≤ n → exec .readCondition s = answers s r rest .notFound []) ∧
      ∀ q, n ≤ 63 → s.cond.records[n]? = some q →
        exec .readCondition s =
          answers s r rest .ok (recordFields q ++ [octet s.cond.records.length])) ∧
    (Ready s .readOverride r rest →
      (47 < n → exec .readOverride s = answers s r rest .badOperand []) ∧
      (n ≤ 47 → s.overrides.length ≤ n → exec .readOverride s = answers s r rest .notFound []) ∧
      ∀ q, n ≤ 47 → s.overrides[n]? = some q →
        exec .readOverride s = answers s r rest .ok (
          [octet q.station.val, directionCode q.direction, octet q.circuit.val] ++ wordOctets q.value ++
          [q.owner.code] ++ scanOctets q.enteredAt ++
          [octet s.overrides.length, octet (s.overrides.countP (fun o => decide (o.owner = .session)))]))

/-- READ CONDITION REF: refused for a slot above 63, STALE where no record has the reference, else every field of the record
in its octets (`recordFields`) and its present position. -/
def Obligations.ReadConditionRef : Prop :=
  ∀ s r rest, Ready s .readConditionRef r rest → TablesKept s →
    (63 < (operand r 0).toNat → exec .readConditionRef s = answers s r rest .badOperand []) ∧
    ∀ i : Fin 64, operand r 0 = octet i.val →
      ((∀ q ∈ s.cond.records, q.slot = i → q.generation ≠ operand r 1) →
        exec .readConditionRef s = answers s r rest .stale []) ∧
      ∀ (n : Nat) (q : ConditionRecord), s.cond.records[n]? = some q → q.slot = i → q.generation = operand r 1 →
        exec .readConditionRef s = answers s r rest .ok (recordFields q ++ [octet n])

/-- READ TABLE STATE: the counts, the overflow count and flag, and whether the condition reason holds. -/
def Obligations.ReadTableState : Prop :=
  ∀ s r rest, Ready s .readTableState r rest →
    let held := s.cond.records
    let standing := held.countP (fun q => decide (q.state = .standing))
    let acked := held.countP (fun q => decide (q.state = .standingAcked))
    let ended := held.countP (fun q => decide (q.state = .ended))
    let fatal := held.countP (fun q => decide (q.cls = .fatal))
    let urgent := held.countP (fun q => decide ((q.cls = .diagnostic ∨ q.cls = .fatal) ∧
      (q.state = .standing ∨ q.state = .ended)))
    exec .readTableState s = answers s r rest .ok (
      [octet held.length, octet standing, octet acked, octet ended, octet fatal, octet urgent] ++
      numberOctets s.cond.overflowCount ++ [flagCode s.cond.overflowFlag, flagCode s.conditionReason]) ∧
    standing + acked + ended = held.length ∧
    (s.conditionReason = true ↔ 0 < urgent ∨ s.cond.overflowFlag = true)

/-- READ SESSION returns the session, its timer, its settings and the session share; END SESSION ends an open session with
ENDED BY CONTROLLER, and is refused NOT FOUND while there is none (the response is posted before the group's sweep:
notes/assumptions/8.md, session code and time left: 13.md, 4.md). -/
def Obligations.SessionRequests : Prop :=
  ∀ s r rest,
    (Ready s .readSession r rest →
      let tail := [s.session.lastEnd.code, flagCode s.session.permitSessions, flagCode s.session.permitOverrides] ++
        numberOctets s.session.sessionTime ++ [octet s.sessionShare]
      (s.session.current = none →
        exec .readSession s = answers s r rest .ok (List.replicate 19 0 ++ tail)) ∧
      ∀ o, s.session.current = some o →
        ∃ left, TimerField (some o.timer) left ∧
          exec .readSession s = answers { s with freeReads := s.freeReads + 1 } r rest .ok (
            ([1, 1, octet o.tool.val, 1, lineCode (some o.line), 1] : List Byte) ++ wordOctets o.toolTag ++
            ([1] : List Byte) ++
            scanOctets o.openedAt ++ left ++
            ((match o.lastNumber with
              | some n => [1, n]
              | none => [0, 0]) : List Byte) ++
            ([match o.result with
              | none => 0
              | some q => if q.delivered then 2 else 1] : List Byte) ++ tail)) ∧
    (Ready s .endSession r rest →
      (s.session.current = none → exec .endSession s = answers s r rest .notFound []) ∧
      (∀ o, s.session.current = some o → TablesKept s → (s.entry o.tool).presence = .service →
        exec .endSession s = .next (posted (sessionEnded (taken s rest) o .endedByController) r .ok
          [octet o.tool.val, octet s.sessionShare]).endGroup) ∧
      ∀ o, s.session.current = some o → TablesKept s →
        ∃ t, exec .endSession s = .next t ∧
          t.session = { s.session with current := none, lastEnd := .endedByController } ∧
          t.overrides = s.overrides.filter (fun q => decide (q.owner ≠ .session)) ∧
          (t.entry o.tool).presence = .absent ∧ (t.entry o.tool).identity = none ∧
          (∀ a, a ≠ o.tool → t.entry a = s.entry a) ∧ t.port.requests = rest ∧
          (t.port.responses.getLast?.map (fun p => (p.status, p.result))) =
            some (.ok, [octet o.tool.val, octet s.sessionShare]))

/-! ## Conditions -/

/-- ACK CONDITION: its refusals, and the record acknowledged by its state: STANDING-ACKED, left as it is, or retired with
its slot's generation advanced. ACK ALL: each STANDING record becomes STANDING-ACKED, each ENDED one is retired, its slot's
generation advanced, then the overflow flag is cleared and its count kept; it reports how many of each, and the sweep runs
once, after it, where a record was retired (the response is posted before the group's sweep: notes/assumptions/8.md). -/
def Obligations.Acknowledgement : Prop :=
  ∀ s r rest, TablesKept s →
    (Ready s .ackCondition r rest →
      (63 < (operand r 0).toNat → exec .ackCondition s = answers s r rest .badOperand []) ∧
      ∀ i : Fin 64, operand r 0 = octet i.val →
        ((∀ q ∈ s.cond.records, q.slot = i → q.generation ≠ operand r 1) →
          exec .ackCondition s = answers s r rest .stale []) ∧
        ∀ q ∈ s.cond.records, q.slot = i → q.generation = operand r 1 →
          (q.state = .standing →
            exec .ackCondition s = answers { s with cond := { s.cond with
              records := s.cond.records.map (fun p =>
                if p.slot = i then { p with state := .standingAcked, changedAt := s.scan.number } else p) } } r rest
              .ok [1]) ∧
          (q.state = .standingAcked → exec .ackCondition s = answers s r rest .ok [1]) ∧
          (q.state = .ended →
            exec .ackCondition s = .next (posted (taken { s with cond := { s.cond with
              records := s.cond.records.filter (fun p => decide (p.slot ≠ i))
              generations := s.cond.generations.set i.val (s.cond.generations[i.val] + 1)
              sweepOwed := true } } rest) r .ok [3]).endGroup)) ∧
    (Ready s .ackAll r rest →
      ∃ c : ConditionUnit,
        c.records = (s.cond.records.filter (fun q => decide (q.state ≠ .ended))).map (fun q =>
          if q.state = .standing then { q with state := .standingAcked, changedAt := s.scan.number } else q) ∧
        (∀ i : Fin 64, c.generations[i.val] =
          if ∃ q ∈ s.cond.records, q.slot = i ∧ q.state = .ended then s.cond.generations[i.val] + 1
          else s.cond.generations[i.val]) ∧
        c.actionMap = s.cond.actionMap ∧ c.overflowFlag = false ∧ c.overflowCount = s.cond.overflowCount ∧
        c.sweepOwed = decide (∃ q ∈ s.cond.records, q.state = .ended) ∧
        exec .ackAll s = .next (posted (taken { s with cond := c } rest) r .ok
          [octet (s.cond.records.countP (fun q => decide (q.state = .standing))),
           octet (s.cond.records.countP (fun q => decide (q.state = .ended)))]).endGroup)

/-- CLEAR OVERFLOW sets the count to 0 and returns it as it stood, leaving the flag and the records; a cause refused before
it is in the count returned, and one refused after it makes the count 1; either sets the flag. -/
def Obligations.ClearOverflow : Prop :=
  ∀ s r rest, Ready s .clearOverflow r rest →
    exec .clearOverflow s =
      answers { s with cond := { s.cond with overflowCount := 0 } } r rest .ok (numberOctets s.cond.overflowCount) ∧
    exec .clearOverflow s.countOverflow =
      answers { s.countOverflow with cond := { s.countOverflow.cond with overflowCount := 0 } } r rest .ok
        (numberOctets (if s.cond.overflowCount < 65535 then s.cond.overflowCount + 1 else 65535)) ∧
    (∀ t, exec .clearOverflow s = .next t → t.countOverflow.cond.overflowCount = 1 ∧
      t.countOverflow.cond.overflowFlag = true) ∧
    s.countOverflow.cond.overflowFlag = true

/-- A cause that begins finds its record and re-stands it, or is entered while fewer than 64 are held, or evicts the oldest
INFORMATIONAL, else the oldest DIAGNOSTIC record for class FATAL alone, or is counted as overflow; nothing outside the
condition unit changes, but the mode from SCANNING to HELD (that an eviction leaves the sweep of its group owed is the
model's marker, notes/assumptions/27.md). -/
def Obligations.CauseBegins : Prop :=
  ∀ (s : State) (c : Cause), TablesKept s →
    OnlyConditions s (s.beginCause c) ∧
    (∀ q ∈ s.cond.records, q.key = c.key → q.state ≠ .ended → s.beginCause c = s) ∧
    (∀ q ∈ s.cond.records, q.key = c.key → q.state = .ended →
      (s.beginCause c).cond = { s.cond with records := s.cond.records.map (fun p =>
        if p.slot = q.slot then
          { p with state := .standing, occurrences := min 255 (p.occurrences + 1), changedAt := s.scan.number,
                   extra := c.extra }
        else p) } ∧
      (s.beginCause c).mode = if q.cls = .fatal ∧ s.mode = .scanning then .held else s.mode) ∧
    ((∀ q ∈ s.cond.records, q.key ≠ c.key) →
      (s.cond.records.length < 64 → ∃ i : Fin 64,
        (∀ q ∈ s.cond.records, q.slot ≠ i) ∧ (∀ j < i, ∃ q ∈ s.cond.records, q.slot = j) ∧
        (s.beginCause c).cond = { s.cond with records := s.cond.records ++
          [{ slot := i, generation := s.cond.generations[i.val], key := c.key, cls := (s.action c.key.category).cls,
             latching := (s.action c.key.category).latching, state := .standing, occurrences := 1,
             raisedAt := s.scan.number, changedAt := s.scan.number, extra := c.extra }] } ∧
        (s.beginCause c).mode =
          if (s.action c.key.category).cls = .fatal ∧ s.mode = .scanning then .held else s.mode) ∧
      (s.cond.records.length = 64 → (s.action c.key.category).cls ≠ .fatal → s.beginCause c = s.countOverflow) ∧
      (s.cond.records.length = 64 → (s.action c.key.category).cls = .fatal →
        (∀ q ∈ s.cond.records, q.cls = .fatal) → s.beginCause c = s.countOverflow) ∧
      ∀ v, s.cond.records.length = 64 → (s.action c.key.category).cls = .fatal →
        ((s.cond.records.find? (fun q => decide (q.cls = .informational))).or
          (s.cond.records.find? (fun q => decide (q.cls = .diagnostic)))) = some v →
        (s.beginCause c).cond = { s.cond with
          records := s.cond.records.filter (fun q => decide (q.slot ≠ v.slot)) ++
            [{ slot := v.slot, generation := s.cond.generations[v.slot.val] + 1, key := c.key, cls := .fatal,
               latching := (s.action c.key.category).latching, state := .standing, occurrences := 1,
               raisedAt := s.scan.number, changedAt := s.scan.number, extra := c.extra }]
          generations := s.cond.generations.set v.slot.val (s.cond.generations[v.slot.val] + 1)
          overflowCount := min 65535 (s.cond.overflowCount + 1), overflowFlag := true, sweepOwed := true } ∧
        (s.beginCause c).mode = if s.mode = .scanning then .held else s.mode)

/-- A cause that ends has no effect without a record that stands; its record is kept ENDED where it latches and is not
acknowledged, and retired else. A refresh replaces the extra data of its record. The sweep runs where a group has retired or
evicted a record; it keeps every record in its place and enters the standing causes that have none behind them, in their
order, until the table is full or each has a record. The standing causes are those of Table 3-4, each ranked above those
before it by `sweepRank`, the order of R66 (the owed sweep is the model's marker, notes/assumptions/27.md). -/
def Obligations.CauseEndsAndSweep : Prop :=
  (∀ (s : State) (k : Key), (∀ q ∈ s.cond.records, q.key ≠ k) → s.finishCause k = s) ∧
  (∀ (s : State) (q : ConditionRecord), TablesKept s → q ∈ s.cond.records →
    (q.state = .ended → s.finishCause q.key = s) ∧
    (q.state = .standing → q.latching = true →
      s.finishCause q.key = { s with cond := { s.cond with records := s.cond.records.map (fun p =>
        if p.slot = q.slot then { p with state := .ended, changedAt := s.scan.number } else p) } }) ∧
    ((q.state = .standingAcked ∨ (q.state = .standing ∧ q.latching = false)) →
      s.finishCause q.key = { s with cond := { s.cond with
        records := s.cond.records.filter (fun p => decide (p.slot ≠ q.slot))
        generations := s.cond.generations.set q.slot.val (s.cond.generations[q.slot.val] + 1)
        sweepOwed := true } })) ∧
  (∀ (s : State) (c : Cause), TablesKept s →
    ((∀ q ∈ s.cond.records, q.key ≠ c.key) → s.refreshCause c = s) ∧
    ∀ q ∈ s.cond.records, q.key = c.key →
      s.refreshCause c = { s with cond := { s.cond with records := s.cond.records.map (fun p =>
        if p.slot = q.slot then { p with extra := c.extra, changedAt := s.scan.number } else p) } }) ∧
  (∀ s : State, s.endGroup = if s.cond.sweepOwed then s.sweep else s) ∧
  (∀ s : State, TablesKept s →
    ∃ entered : List ConditionRecord,
      s.sweep = { s with
        cond := { s.cond with records := s.cond.records ++ entered, sweepOwed := false }
        mode := if (∃ q ∈ entered, q.cls = .fatal) ∧ s.mode = .scanning then .held else s.mode } ∧
      (s.cond.records ++ entered).length ≤ 64 ∧
      (∀ q ∈ entered, q.state = .standing ∧ q.occurrences = 1 ∧ q.raisedAt = s.scan.number ∧
        q.changedAt = s.scan.number ∧ q.generation = s.cond.generations[q.slot.val] ∧
        q.cls = (s.action q.key.category).cls ∧ q.latching = (s.action q.key.category).latching ∧
        ∀ p ∈ s.cond.records, p.slot ≠ q.slot ∧ p.key ≠ q.key) ∧
      (entered.map (fun q => ({ key := q.key, extra := q.extra } : Cause))).Sublist s.standingCauses ∧
      ((s.cond.records ++ entered).length = 64 ∨
        ∀ c ∈ s.standingCauses, ∃ q ∈ s.cond.records ++ entered, q.key = c.key) ∧
      ∀ earlier c later, s.standingCauses = earlier ++ c :: later → (∀ b ∈ earlier, b.key ≠ c.key) →
        (∃ q ∈ entered, q.key = c.key) → ∀ b ∈ earlier, ∃ q ∈ s.cond.records ++ entered, q.key = b.key) ∧
  (∀ s : State, RosterKept s → s.standingCauses.Pairwise (fun b c => sweepRank b.key < sweepRank c.key)) ∧
  ∀ s : State,
    let cause : Bool → Origin → Category → List Byte → List Cause := fun b o k extra =>
      if b then [{ key := { origin := o, circuit := none, category := k, code := 0 }, extra := extra }] else []
    s.standingCauses =
      cause s.safety.standing .part .outputsSafe [] ++ cause s.config.incomplete .part .configIncomplete [] ++
      cause s.own.standing.isSome .part .ownAddressConflict [lineCode s.own.standing] ++
      [LineId.a, .b].flatMap (fun l => cause (decide ((s.line l).state = .withdrawn)) (.line l) .lineWithdrawn
        (match (s.line l).figures with
         | none => []
         | some (n, c) => [octet n, c.code])) ++
      (List.finRange 32).flatMap (fun a =>
        let e := s.entry a
        let v := s.supervision a
        let data := (e.identity.map reported).getD []
        let count := s.overrides.countP (fun q => decide (q.station = a))
        cause (decide (e.presence = .lost ∨ (e.presence = .joining ∧ e.joinOrigin = some .lost))) (.station a)
          .stationLost [] ++
        cause (decide (e.presence = .mismatch)) (.station a) .stationMismatch data ++
        cause (decide (e.presence = .conflict)) (.station a) .addressConflict
          (match v.conflictTags with
           | none => []
           | some (x, y) => wordOctets x ++ wordOctets y) ++
        cause (decide (e.presence = .extra)) (.station a) .stationExtra data ++
        cause (match e.descriptor with
            | none => false
            | some d => decide (e.presence = .present ∨ e.presence = .silent) && alternateOn s d e.activeLine)
          (.station a) .alternateLine [lineCode e.activeLine] ++
        v.stationFaults.map (fun c => { key := stationFaultKey a c, extra := [] }) ++
        v.circuitFaults.map (fun x => { key := circuitFaultKey a x, extra := [x.detail] }) ++
        cause (decide (1 ≤ count)) (.station a) .forced [octet count])

/-! ## Overrides -/

/-- SET OVERRIDE by the controller: its refusals in order, the record set and taken over, and the record created, with the
beginning of FORCED where it is the station's first (the response is posted before the group's sweep:
notes/assumptions/8.md; the result's octet for created, 1, and set, 0, and the one owner of a created record are the model's
choice: notes/assumptions/13.md). -/
def Obligations.SetOverride : Prop :=
  ∀ s r rest, Ready s .setOverride r rest →
    let v := operandWord r 3
    ((31 < (operand r 0).toNat ∨ 1 < (operand r 1).toNat) →
      exec .setOverride s = answers s r rest .badOperand []) ∧
    ∀ (a : Addr) (d : Direction), operand r 0 = octet a.val → operand r 1 = directionCode d →
      ((s.entry a).descriptor = none → exec .setOverride s = answers s r rest .notConfigured []) ∧
      ∀ desc, (s.entry a).descriptor = some desc →
        ((desc.count d ≤ (operand r 2).toNat ∨ (desc.width d = .bit ∧ 1 < v.toNat)) →
          exec .setOverride s = answers s r rest .badOperand []) ∧
        ∀ c : Fin 32, operand r 2 = octet c.val → c.val < desc.count d → (desc.width d = .bit → v.toNat ≤ 1) →
          (s.findOverride a d c = none → 48 ≤ s.overrides.length →
            exec .setOverride s = answers s r rest .tableFull []) ∧
          (s.findOverride a d c = none → s.overrides.length < 48 →
            let u : State := taken { s with overrides := s.overrides ++
                [{ station := a, direction := d, circuit := c, value := v, owner := .controller,
                   enteredAt := s.scan.number }] } rest
            exec .setOverride s = .next (posted
              (if s.overrideCount a = 0 then u.beginCause { key := plainKey (.station a) .forced, extra := [1] } else u)
              r .ok [octet s.overrides.length, 1, 0, octet (s.overrideCount a + 1)]).endGroup) ∧
          ∀ q, s.findOverride a d c = some q →
            exec .setOverride s = answers { s with overrides := s.overrides.map (fun p =>
                if p.station = a ∧ p.direction = d ∧ p.circuit = c then
                  { p with value := v, owner := .controller, enteredAt := s.scan.number } else p) } r rest .ok
              [octet (s.overridePosition a d c), 0, q.owner.code, 0, octet (s.overrideCount a)]

/-- A session's SET OVERRIDE: BAD OPERAND and NOT CONFIGURED as for the controller, OWNED ELSEWHERE on a CONTROLLER record,
LOCKED while service overrides are not permitted, TABLE FULL at 48 records or 16 of the session; else the record is set, or
created as the session's with the beginning of FORCED where it is the station's first (the result's octet for created, 1,
and set, 0, and the one owner of a created record are the model's choice: notes/assumptions/13.md). -/
def Obligations.SessionOverride : Prop :=
  (∀ (s : State) (st dir circuit : Byte) (v : Word),
    let x := s.setOverride .session st dir circuit v
    ((31 < st.toNat ∨ 1 < dir.toNat) → x = (⟨.badOperand, []⟩, s)) ∧
    ∀ (a : Addr) (d : Direction), st = octet a.val → dir = directionCode d →
      ((s.entry a).descriptor = none → x = (⟨.notConfigured, []⟩, s)) ∧
      ∀ desc, (s.entry a).descriptor = some desc →
        (desc.count d ≤ circuit.toNat ∨ (desc.width d = .bit ∧ 1 < v.toNat)) → x = (⟨.badOperand, []⟩, s)) ∧
  ∀ (s : State) (a : Addr) (d : Direction) (desc : Descriptor) (c : Fin 32) (v : Word),
    (s.entry a).descriptor = some desc → c.val < desc.count d → (desc.width d = .bit → v.toNat ≤ 1) →
    let x := s.setOverride .session (octet a.val) (directionCode d) (octet c.val) v
    let full := 48 ≤ s.overrides.length ∨ 16 ≤ s.sessionShare
    (∀ q, s.findOverride a d c = some q → q.owner = .controller → x = (⟨.ownedElsewhere, []⟩, s)) ∧
    (∀ q, s.findOverride a d c = some q → q.owner = .session → s.session.permitOverrides = false →
      x = (⟨.locked, []⟩, s)) ∧
    (∀ q, s.findOverride a d c = some q → q.owner = .session → s.session.permitOverrides = true →
      x.1 = ⟨.ok, [octet (s.overridePosition a d c), 0, 1, 1, octet (s.overrideCount a)]⟩ ∧
      x.2 = { s with overrides := s.overrides.map (fun p =>
        if p.station = a ∧ p.direction = d ∧ p.circuit = c then
          { p with value := v, enteredAt := s.scan.number } else p) }) ∧
    (s.findOverride a d c = none → s.session.permitOverrides = false → x = (⟨.locked, []⟩, s)) ∧
    (s.findOverride a d c = none → s.session.permitOverrides = true → full → x = (⟨.tableFull, []⟩, s)) ∧
    (s.findOverride a d c = none → s.session.permitOverrides = true → ¬ full →
      x.1 = ⟨.ok, [octet s.overrides.length, 1, 1, octet (s.overrideCount a + 1)]⟩ ∧
      let u : State := { s with overrides := s.overrides ++
        [{ station := a, direction := d, circuit := c, value := v, owner := .session,
           enteredAt := s.scan.number }] }
      x.2 = if s.overrideCount a = 0 then u.beginCause { key := plainKey (.station a) .forced, extra := [1] } else u)

/-- The removals. REMOVE OVERRIDE by the controller: its refusals, and the record of either owner removed, with the end of
FORCED where it was the station's last. By the session: BAD OPERAND and NOT FOUND alike, OWNED ELSEWHERE on a CONTROLLER
record, and its own SESSION record removed the same way, whether or not service overrides are permitted. REMOVE STATION
OVERRIDES and REMOVE ALL OVERRIDES: their refusals, and every record named removed, of either owner, with the end of FORCED
for each station that had one (the response is posted before the group's sweep: notes/assumptions/8.md). -/
def Obligations.OverrideRemovals : Prop :=
  (∀ (s : State) (st dir circuit : Byte),
    let x := s.removeOverride .session st dir circuit
    ((31 < st.toNat ∨ 1 < dir.toNat ∨ 31 < circuit.toNat) → x = (⟨.badOperand, []⟩, s)) ∧
    ∀ (a : Addr) (d : Direction) (c : Fin 32), st = octet a.val → dir = directionCode d → circuit = octet c.val →
      (s.findOverride a d c = none → x = (⟨.notFound, []⟩, s)) ∧
      ∀ q, s.findOverride a d c = some q →
        (q.owner = .controller → x = (⟨.ownedElsewhere, []⟩, s)) ∧
        (q.owner = .session →
          let u : State := { s with overrides := s.overrides.eraseP (fun p =>
            decide (p.station = a ∧ p.direction = d ∧ p.circuit = c)) }
          x = (⟨.ok, [octet (s.overrideCount a - 1)]⟩,
            if s.overrideCount a = 1 then u.finishCause (plainKey (.station a) .forced) else u))) ∧
  ∀ s r rest,
    (Ready s .removeOverride r rest →
      ((31 < (operand r 0).toNat ∨ 1 < (operand r 1).toNat ∨ 31 < (operand r 2).toNat) →
        exec .removeOverride s = answers s r rest .badOperand []) ∧
      ∀ (a : Addr) (d : Direction) (c : Fin 32), operand r 0 = octet a.val → operand r 1 = directionCode d →
        operand r 2 = octet c.val →
        (s.findOverride a d c = none → exec .removeOverride s = answers s r rest .notFound []) ∧
        ∀ q, s.findOverride a d c = some q →
          let u : State := taken { s with overrides := s.overrides.eraseP (fun p =>
            decide (p.station = a ∧ p.direction = d ∧ p.circuit = c)) } rest
          exec .removeOverride s = .next (posted
            (if s.overrideCount a = 1 then u.finishCause (plainKey (.station a) .forced) else u) r .ok
            [octet (s.overrideCount a - 1)]).endGroup) ∧
    (Ready s .removeStationOverrides r rest → TablesKept s →
      (31 < (operand r 0).toNat → exec .removeStationOverrides s = answers s r rest .badOperand []) ∧
      ∀ a : Addr, operand r 0 = octet a.val →
        ((s.entry a).descriptor = none → exec .removeStationOverrides s = answers s r rest .notConfigured []) ∧
        ((s.entry a).descriptor.isSome = true →
          let u : State := taken { s with overrides := s.overrides.filter (fun q => decide (q.station ≠ a)) } rest
          exec .removeStationOverrides s = .next (posted
            (if 1 ≤ s.overrideCount a then u.finishCause (plainKey (.station a) .forced) else u) r .ok
            [octet (s.overrideCount a)]).endGroup)) ∧
    (Ready s .removeAllOverrides r rest → TablesKept s →
      exec .removeAllOverrides s = .next (posted
        ((s.overrides.map OverrideRecord.station).dedup.foldl
          (fun u a => u.finishCause (plainKey (.station a) .forced)) (taken { s with overrides := [] } rest)) r .ok
        [octet s.overrides.length]).endGroup)

/-! ## Transactions -/

/-- STATION READ and STATION WRITE: their refusals in order, and the transaction placed in the lowest free slot with its
response promised and none posted; a write takes and inverts the station's next toggle. -/
def Obligations.TransactionRequests : Prop :=
  ∀ s r rest k, Ready s (match k with
      | TransactionKind.read => .stationRead
      | .write => .stationWrite) r rest →
    let row : Instr := match k with
      | .read => .stationRead
      | .write => .stationWrite
    let length := (operand r 2).toNat
    ((31 < (operand r 0).toNat ∨ length = 0 ∨ 32 < length) → exec row s = answers s r rest .badOperand []) ∧
    ∀ a : Addr, operand r 0 = octet a.val → 1 ≤ length → length ≤ 32 →
      let busy := ∃ i t, s.slot i = some t ∧ t.station = a
      ((s.entry a).descriptor = none → exec row s = answers s r rest .notConfigured []) ∧
      ((s.entry a).descriptor.isSome = true → busy → exec row s = answers s r rest .stationBusy []) ∧
      ((s.entry a).descriptor.isSome = true → ¬ busy → (∀ i, (s.slot i).isSome = true) →
        exec row s = answers s r rest .noSlot []) ∧
      ∀ i, (s.entry a).descriptor.isSome = true → ¬ busy → s.slot i = none → (∀ j < i, (s.slot j).isSome = true) →
        (s.mode.scans = false → exec row s = answers s r rest .wrongMode []) ∧
        (s.mode.scans = true →
          exec row s = .next { s with
            trans :=
              { slots := s.trans.slots.set i.val (some
                  { tag := r.read 0, station := a, kind := k, index := operand r 1, length := length
                    data := (match k with
                      | .read => []
                      | .write => (List.range length).map (fun n => operand r (3 + n)))
                    attempts := 0
                    toggle := (match k with
                      | .read => false
                      | .write => s.toggle a)
                    state := .waiting, cancel := none, accepted := s.trans.nextStamp })
                toggles := (match k with
                  | .read => s.trans.toggles
                  | .write => s.trans.toggles.set a.val (!s.toggle a))
                nextStamp := s.trans.nextStamp + 1 }
            port := { s.port with requests := rest, deferred := s.port.deferred + 1 } })

/-- CANCEL TRANSACTION on the transaction with the tag accepted earliest: NOT FOUND, BUSY, a WAITING one completed with
CANCELLED before the OK, a SENT one left with the cancel waiting and its answer promised. -/
def Obligations.CancelTransaction : Prop :=
  ∀ s r rest, Ready s .cancelTransaction r rest →
    ((∀ i t, s.slot i = some t → t.tag ≠ operand r 0) →
      exec .cancelTransaction s = answers s r rest .notFound []) ∧
    ∀ i t, s.slot i = some t → t.tag = operand r 0 →
      (∀ j u, s.slot j = some u → u.tag = operand r 0 → j ≠ i → t.accepted < u.accepted) →
      (t.state = .sent → t.cancel.isSome = true → exec .cancelTransaction s = answers s r rest .busy []) ∧
      (t.state = .waiting →
        exec .cancelTransaction s = .next { s with
          trans := { s.trans with slots := s.trans.slots.set i.val none }
          port := { s.port with
            requests := rest
            deferred := s.port.deferred - 1
            responses := s.port.responses ++
              [{ tag := t.tag
                 kind := (match t.kind with
                   | .read => 60
                   | .write => 61)
                 status := .cancelled, mode := s.mode
                 result := [octet i.val, octet t.station.val, t.index, octet t.attempts] },
               { tag := r.read 0, kind := r.read 1, status := .ok, mode := s.mode, result := [] }] } }) ∧
      (t.state = .sent → t.cancel = none →
        exec .cancelTransaction s = .next { s with
          trans := { s.trans with slots := s.trans.slots.set i.val (some { t with cancel := some (r.read 0) }) }
          port := { s.port with requests := rest, deferred := s.port.deferred + 1 } })

/-! ## Presence -/

/-- A REPLY of a PRESENT or SILENT station: with the recorded tag its inputs are staged, its status stored and turned into
the STATION FAULT and CIRCUIT FAULT causes that stand, kept in the order of R66, and the entry is PRESENT with no misses;
with another tag the entry is in CONFLICT, with both tags kept. The causes that cease are handed as ends, the new ones as
beginnings, a changed detail as a refresh (the order among causes of one kind is the model's choice:
notes/assumptions/7.md). -/
def Obligations.VisitReply : Prop :=
  ∀ (s : State) (a : Addr) (l : LineId) (r : ReplyContents) (d : Descriptor) (tag : Word),
    (s.entry a).descriptor = some d → ((s.entry a).presence = .present ∨ (s.entry a).presence = .silent) →
    (s.entry a).recordedTag = some tag → (r.status.items.map (circuitFaultKey a)).Nodup →
    let e : Entry := { s.entry a with
      activeLine := if d.attachment = .dual then some l else (s.entry a).activeLine }
    let t := s.takeReply a l r
    let v := s.supervision a
    let w := t.supervision a
    let alternate := plainKey (.station a) .alternateLine
    let stood := alternateOn s d (s.entry a).activeLine
    let stands := alternateOn s d e.activeLine
    (r.tag = tag →
      t.entry a = { e with presence := .present, missCount := 0, status := some r.status } ∧ t.slice a = r.inputs ∧
      w.stationFaults =
        (if r.status.faultCode ≠ 0 ∧ r.status.faultCode ≠ 255 then [r.status.faultCode] else []) ++
        (if r.status.faultCode = 255 ∨ r.status.more = true then [255] else []) ∧
      (∀ x, x ∈ w.circuitFaults ↔ x ∈ r.status.items ∨ (r.status.more = true ∧ x ∈ v.circuitFaults ∧
        ∀ y ∈ r.status.items, circuitFaultKey a y ≠ circuitFaultKey a x)) ∧
      (RosterKept s → w.circuitFaults.Pairwise (fun x y =>
        sweepRank (circuitFaultKey a x) < sweepRank (circuitFaultKey a y))) ∧
      w.conflictTags = v.conflictTags ∧
      Hands s t
        ((if stood && !stands then [alternate] else []) ++
          (v.stationFaults.filter (fun c => decide (c ∉ w.stationFaults))).map (stationFaultKey a) ++
          (v.circuitFaults.filter (fun x => decide (∀ y ∈ w.circuitFaults, circuitFaultKey a y ≠ circuitFaultKey a x))).map
            (circuitFaultKey a))
        ((if stands && !stood then [{ key := alternate, extra := [lineCode e.activeLine] }] else []) ++
          (w.stationFaults.filter (fun c => decide (c ∉ v.stationFaults))).map (fun c =>
            { key := stationFaultKey a c, extra := [] }) ++
          (w.circuitFaults.filter (fun x => decide (∀ y ∈ v.circuitFaults, circuitFaultKey a y ≠ circuitFaultKey a x))).map
            (fun x => { key := circuitFaultKey a x, extra := [x.detail] }))
        ((w.circuitFaults.filter (fun x => decide (x ∉ v.circuitFaults ∧
            ∃ y ∈ v.circuitFaults, circuitFaultKey a y = circuitFaultKey a x))).map
          (fun x => { key := circuitFaultKey a x, extra := [x.detail] }))) ∧
    (r.tag ≠ tag →
      t.entry a = { e with presence := .conflict, missCount := 0, joinCount := 0, joinOrigin := none } ∧
      t.slice a = s.slice a ∧ w = { v with conflictTags := some (tag, r.tag) } ∧
      Hands s t (if stood then [alternate] else [])
        [{ key := plainKey (.station a) .addressConflict, extra := wordOctets tag ++ wordOctets r.tag }] []) ∧
    (∀ b, b ≠ a → t.entry b = s.entry b ∧ t.slice b = s.slice b ∧ t.supervision b = s.supervision b) ∧
    t = { s with roster := t.roster, supervised := t.supervised, cond := t.cond, mode := t.mode
                 scan := { s.scan with buffer := t.scan.buffer } }

/-- An IDENTITY of a station not yet PRESENT: EXPECTED, LOST and MISMATCH begin a join or qualify at a threshold of 1;
JOINING counts on to the threshold; another identity makes MISMATCH, another tag during a join makes CONFLICT. STATION LOST,
STATION MISMATCH, ADDRESS CONFLICT and ALTERNATE LINE end and begin with the state, and MISMATCH is refreshed (the order
among causes of one kind is the model's choice: notes/assumptions/7.md). The supervision of the entry changes in a tag
conflict alone. -/
def Obligations.VisitIdentity : Prop :=
  ∀ (s : State) (a : Addr) (l : LineId) (i : Identity) (d : Descriptor), (s.entry a).descriptor = some d →
    let e : Entry := { s.entry a with
      activeLine := if d.attachment = .dual then some l else (s.entry a).activeLine }
    let p := s.profile d.profile
    let t := s.takeIdentity a l i
    let agree := i.inputCount = d.inputCount ∧ i.outputCount = d.outputCount ∧
      (d.inputCount.val ≠ 0 → i.inputWidth = d.inputWidth) ∧ (d.outputCount.val ≠ 0 → i.outputWidth = d.outputWidth)
    let joins : JoinOrigin → Nat → Entry := fun o misses =>
      if p.joinThreshold ≤ 1 then
        { e with presence := .present, joinCount := 0, missCount := 0, joinOrigin := none, countdown := 0,
                 identity := some i, recordedTag := some i.tag }
      else { e with presence := .joining, joinOrigin := some o, joinCount := 1, missCount := misses, countdown := 0,
                    identity := some i }
    let mismatch : Entry :=
      { e with presence := .mismatch, missCount := 0, joinCount := 0, joinOrigin := none, countdown := 0,
               identity := some i }
    let lost := plainKey (.station a) .stationLost
    let lostStands : List Key := if e.presence = .lost ∨ e.joinOrigin = some .lost then [lost] else []
    let alternate : List Cause :=
      if alternateOn s d e.activeLine then
        [{ key := plainKey (.station a) .alternateLine, extra := [lineCode e.activeLine] }] else []
    let qualified : List Cause := if p.joinThreshold ≤ 1 then alternate else []
    let other : Cause := { key := plainKey (.station a) .stationMismatch, extra := reported i }
    (e.presence = .expected → agree → t.entry a = joins .expected e.missCount ∧ Hands s t [] qualified []) ∧
    (e.presence = .lost → agree → t.entry a = joins .lost 0 ∧
      Hands s t (if p.joinThreshold ≤ 1 then [lost] else []) qualified []) ∧
    (e.presence = .mismatch → agree → t.entry a = joins .expected 0 ∧ Hands s t [other.key] qualified []) ∧
    (e.presence = .expected → ¬ agree → t.entry a = mismatch ∧ Hands s t [] [other] []) ∧
    (e.presence = .lost → ¬ agree → t.entry a = mismatch ∧ Hands s t [lost] [other] []) ∧
    (e.presence = .mismatch → ¬ agree → t.entry a = mismatch ∧
      Hands s t [] [] (if e.identity.map reported = some (reported i) then [] else [other])) ∧
    (∀ h, e.presence = .joining → e.identity = some h →
      (i.tag ≠ h.tag →
        t.entry a = { e with presence := .conflict, missCount := 0, joinCount := 0, joinOrigin := none } ∧
        t.supervision a = { s.supervision a with conflictTags := some (h.tag, i.tag) } ∧
        Hands s t lostStands
          [{ key := plainKey (.station a) .addressConflict, extra := wordOctets h.tag ++ wordOctets i.tag }] []) ∧
      (i.tag = h.tag → ¬ agree → t.entry a = mismatch ∧ Hands s t lostStands [other] []) ∧
      (i.tag = h.tag → agree → e.joinCount + 1 < p.joinThreshold →
        t.entry a = { e with joinCount := e.joinCount + 1 } ∧ Hands s t [] [] []) ∧
      (i.tag = h.tag → agree → p.joinThreshold ≤ e.joinCount + 1 →
        t.entry a = { e with presence := .present, joinCount := 0, missCount := 0, joinOrigin := none, countdown := 0,
                             recordedTag := some h.tag } ∧ Hands s t lostStands alternate [])) ∧
    ((∀ h, e.presence = .joining → e.identity = some h → i.tag = h.tag) → t.supervision a = s.supervision a) ∧
    (∀ b, b ≠ a → t.entry b = s.entry b ∧ t.supervision b = s.supervision b) ∧
    t = { s with roster := t.roster, supervised := t.supervised, cond := t.cond, mode := t.mode }

/-- A MISS, by presence state: the miss count rises to the loss threshold, where the entry enters LOST with its faults, its
reported status and its transaction ended, the responses promised for it posted, the causes that stood ended and STATION
LOST begun, and nothing else touched; a join returns to its origin, an EXPECTED entry with no recorded tag
(notes/assumptions/37.md); a LOST entry reloads its countdown (the order among causes of one kind is the model's choice:
notes/assumptions/7.md). -/
def Obligations.VisitMiss : Prop :=
  ∀ (s : State) (a : Addr) (d : Descriptor), (s.entry a).descriptor = some d →
    let e := s.entry a
    let v := s.supervision a
    let p := s.profile d.profile
    let t := s.takeMiss a
    let lost :=
      t.entry a = { e with presence := .lost, missCount := 0, joinCount := 0, joinOrigin := none,
                           countdown := p.lostProbeInterval, status := none } ∧
      t.supervision a = { v with stationFaults := [], circuitFaults := [] } ∧
      t.slice a = (if d.lossPolicy = .zero then List.replicate (s.slice a).length 0 else s.slice a) ∧
      (∀ i, t.slot i = (s.slot i).filter (fun u => decide (u.station ≠ a))) ∧
      (let ended := completions s (fun u => decide (u.station = a)) .stationLost
       t = { s with
         roster := t.roster, supervised := t.supervised, cond := t.cond, mode := t.mode
         scan := { s.scan with buffer := t.scan.buffer }
         trans := { s.trans with slots := t.trans.slots }
         port := { s.port with
           responses := s.port.responses ++ ended, deferred := s.port.deferred - ended.length } }) ∧
      Hands s t
        ((if e.presence = .mismatch then [plainKey (.station a) .stationMismatch] else []) ++
          (if (e.presence = .present ∨ e.presence = .silent) ∧ alternateOn s d e.activeLine = true then
            [plainKey (.station a) .alternateLine] else []) ++
          v.stationFaults.map (stationFaultKey a) ++ v.circuitFaults.map (circuitFaultKey a))
        [{ key := plainKey (.station a) .stationLost, extra := [] }] []
    let kept : Entry → Prop := fun x =>
      t.entry a = x ∧ t.supervision a = v ∧ Hands s t [] [] [] ∧
        t = { s with roster := t.roster, supervised := t.supervised }
    let missed : Presence → Option Word → Nat → Prop := fun q tag n =>
      (p.lossThreshold ≤ n → lost) ∧
      (n < p.lossThreshold →
        kept { e with presence := q, missCount := n, joinCount := 0, joinOrigin := none, recordedTag := tag })
    (e.presence = .expected → missed .expected none (e.missCount + 1)) ∧
    (e.presence = .joining → e.joinOrigin ≠ some .lost → missed .expected none (e.missCount + 1)) ∧
    (e.presence = .joining → e.joinOrigin = some .lost →
      kept { e with presence := .lost, joinOrigin := none, joinCount := 0, missCount := 0,
                    countdown := p.lostProbeInterval }) ∧
    (e.presence = .present → missed .silent e.recordedTag 1) ∧
    (e.presence = .silent → missed .silent e.recordedTag (e.missCount + 1)) ∧
    (e.presence = .mismatch → missed .mismatch e.recordedTag (e.missCount + 1)) ∧
    (e.presence = .lost → kept { e with countdown := p.lostProbeInterval }) ∧
    ∀ b, b ≠ a → t.entry b = s.entry b ∧ t.slice b = s.slice b ∧ t.supervision b = s.supervision b

/-! ## Frames -/

/-- A GOOD REPLY and a GOOD IDENTITY: each ends the visit it answers, as the outcome that the presence supervisor takes, and
the cycle goes on; an IDENTITY that answers a discovery probe is kept for the slot's judgement. -/
def Obligations.StationFrames : Prop :=
  ∀ (s : State) (l : LineId) (f : Flight) (source : Byte), Awaits s l f → FromTarget s f source →
    (∀ (v : Visit) (d : Descriptor) (tag : Word) (inputs : List Byte) (code : Byte) (more : Bool)
        (items : List FaultItem),
      f.job = .attempt v → f.frame.kind = 1 → (s.entry v.address).descriptor = some d →
      inputs.length = d.inputSize → items.length ≤ 4 →
      (∀ x ∈ items, x.code ≠ 0 ∧ x.circuit.val < d.count x.direction) →
      (items.map (fun x => (x.direction, x.circuit, x.code))).Nodup →
      exec (.reply l source tag inputs code more items) s =
        .next (((heard s l).takeReply v.address l
          { tag := tag, inputs := inputs, status := { faultCode := code, items := items, more := more } }).afterVisit
            v.address).scanOn) ∧
    (∀ (v : Visit) (i : Identity), f.job = .attempt v → f.frame.kind ≠ 1 →
      (s.entry v.address).descriptor.isSome = true →
      exec (.identity l source (octet i.inputCount.val) i.inputWidth.code (octet i.outputCount.val) i.outputWidth.code
          i.revision i.tag) s =
        .next (((heard s l).takeIdentity v.address l i).afterVisit v.address).scanOn) ∧
    (∀ (d : Discovery) (i : Identity), f.job = .probe d →
      exec (.identity l source (octet i.inputCount.val) i.inputWidth.code (octet i.outputCount.val) i.outputWidth.code
          i.revision i.tag) s =
        .next ((heard s l).probeNext { d with found := some i }).scanOn)

/-- A GOOD PARAM ANSWER or PARAM REFUSE completes its transaction, with the data read or the reason, and answers a cancel
waiting with TOO LATE; a write answered with the other toggle is a failed attempt. -/
def Obligations.ParameterFrames : Prop :=
  ∀ (s : State) (l : LineId) (f : Flight) (source : Byte) (i : Fin 4) (a : Addr) (t : Transaction),
    Awaits s l f → FromTarget s f source → f.job = .exchange i a → s.slot i = some t →
    let u := heard s l
    let kind : Byte := match t.kind with
      | .read => 60
      | .write => 61
    let posts : Status → List Byte → Option Status → State := fun st more cancel =>
      { u with
        trans := { u.trans with slots := u.trans.slots.set i.val none }
        port := { u.port with
          deferred := u.port.deferred - 1 - (if t.cancel.isSome then 1 else 0)
          responses := u.port.responses ++
            [{ tag := t.tag, kind := kind, status := st, mode := u.mode
               result := [octet i.val, octet t.station.val, t.index, octet t.attempts] ++ more }] ++
            (match t.cancel, cancel with
             | some c, some x => [{ tag := c, kind := 62, status := x, mode := u.mode, result := [] }]
             | _, _ => []) } }
    (∀ reason : Byte, reason ≠ 0 → exec (.paramRefuse l source reason) s =
      .next (posts .stationRefused [reason] (some .tooLate)).scanOn) ∧
    (∀ (toggle : Byte) (data : List Byte), t.kind = .read → toggle.toNat ≤ 1 → data.length = t.length → t.length ≤ 32 →
      exec (.paramAnswer l source toggle data) s = .next (posts .done data (some .tooLate)).scanOn) ∧
    (t.kind = .write → exec (.paramAnswer l source (flagCode t.toggle) []) s =
      .next (posts .done [] (some .tooLate)).scanOn) ∧
    (t.kind = .write → t.cancel = none → t.attempts < 3 →
      exec (.paramAnswer l source (flagCode (!t.toggle)) []) s =
        .next ({ u with trans := { u.trans with
          slots := u.trans.slots.set i.val (some { t with state := .waiting }) } }).scanOn) ∧
    (t.kind = .write → t.cancel = none → 3 ≤ t.attempts →
      exec (.paramAnswer l source (flagCode (!t.toggle)) []) s = .next (posts .timedOut [] none).scanOn) ∧
    (t.kind = .write → t.cancel.isSome = true →
      exec (.paramAnswer l source (flagCode (!t.toggle)) []) s = .next (posts .cancelled [] (some .ok)).scanOn)

/-- A GOOD OPEN REQUEST opens the session and is answered with SESSION ACCEPT, the entry SERVICE and STATION EXTRA ended
where the entry was EXTRA; it is refused with LOCKED where sessions are not permitted and with BUSY while one is open: a
slot with no line left to probe is then judged, and the slot goes on after the SESSION REFUSE else (that the judgement comes
before the refusal is sent is inferred, notes/assumptions/19.md). -/
def Obligations.OpenRequestTaken : Prop :=
  ∀ (s : State) (l : LineId) (f : Flight) (source : Byte) (d : Discovery) (toolTag : Word), Awaits s l f →
    FromTarget s f source → f.job = .probe d → SweepNotOwed s →
    let x := exec (.openRequest l source toolTag) s
    let own := octet s.ownAddress.val
    let sends : Job → Byte → List Byte → Flight := fun j k payload =>
      { job := j, line := l, window := none, phase := .sending
        frame := { dest := octet d.address.val, source := own, kind := k, toggle := 0, payload := payload } }
    let opened : OpenSession :=
      { tool := d.address, line := l, toolTag := toolTag, openedAt := s.scan.number, lastNumber := none, result := none,
        timer := s.session.sessionTime }
    let e := s.entry d.address
    let refusedWith : Byte → Prop := fun reason =>
      let q : Discovery := { d with refused := true }
      (d.rest = [] →
        x = .next (((heard s l).judge q).setFlight (some (sends (.sessionFrame q true) 11 [reason])))) ∧
      (d.rest ≠ [] → x = .next ((heard s l).setFlight (some (sends (.sessionFrame q false) 11 [reason]))))
    (s.session.permitSessions = true → s.session.current = none → e.descriptor = none →
      (e.presence = .absent ∨ e.presence = .extra) →
      let u : State := { heard s l with
        roster := s.roster.set d.address.val { e with presence := .service, identity := none }
        session := { s.session with current := some opened } }
      x = .next ((if e.presence = .extra then u.finishCause (plainKey (.station d.address) .stationExtra) else u).endGroup
        |>.setFlight (some (sends (.sessionFrame d true) 10 [])))) ∧
    (s.session.permitSessions = true → s.session.current = none →
      ∃ t, x = .next t ∧ t.session = { s.session with current := some opened } ∧
        t.entry d.address = { e with presence := .service, identity := none } ∧
        (∀ b, b ≠ d.address → t.entry b = s.entry b) ∧
        t.scan.flight = some (sends (.sessionFrame d true) 10 [])) ∧
    (s.session.permitSessions = false → refusedWith 2) ∧
    (s.session.permitSessions = true → s.session.current.isSome = true → refusedWith 1)

/-- A GOOD SERVICE ANSWER restarts the session timer and delivers the pending result; KEEPALIVE does no more, CLOSE ends the
session, and a service request is executed and its result stored where its number is new, or its stored result is made
pending again. -/
def Obligations.ServiceAnswers : Prop :=
  ∀ (s : State) (l : LineId) (f : Flight) (source : Byte) (o : OpenSession), Awaits s l f → FromTarget s f source →
    f.job = .servicePoll → s.session.current = some o → SweepNotOwed s →
    let kept : OpenSession :=
      { o with timer := s.session.sessionTime, result := o.result.map (fun q => { q with delivered := true }) }
    let u : State := { heard s l with session := { s.session with current := some kept } }
    let stores : State → Byte → RequestKind → Answer → State := fun v n k x =>
      let q : ServiceResult := { delivered := false, number := n, kind := k, status := x.status, fields := x.result }
      { v with session := { v.session with current := some { kept with lastNumber := some n, result := some q } } }
    let repeated : OpenSession :=
      { o with timer := s.session.sessionTime, result := o.result.map (fun q => { q with delivered := false }) }
    let again : State := { heard s l with session := { s.session with current := some repeated } }
    exec (.keepalive l source) s = .next u.scanOn ∧
    exec (.close l source) s = .next (u.endSession .closed).endGroup.scanOn ∧
    (∀ n address, o.lastNumber ≠ some n →
      exec (.serviceReadEntry l source n address) s = .next (stores u n .readEntry (u.readEntry address)).scanOn) ∧
    (∀ n position, o.lastNumber ≠ some n →
      exec (.serviceReadCondition l source n position) s =
        .next (stores u n .readCondition (u.readCondition position)).scanOn) ∧
    (∀ n st d c v, o.lastNumber ≠ some n →
      exec (.serviceSetOverride l source n st d c v) s =
        .next ((stores (u.setOverride .session st d c v).2 n .setOverride
          (u.setOverride .session st d c v).1).endGroup.scanOn)) ∧
    (∀ n st d c, o.lastNumber ≠ some n →
      exec (.serviceRemoveOverride l source n st d c) s =
        .next ((stores (u.removeOverride .session st d c).2 n .removeOverride
          (u.removeOverride .session st d c).1).endGroup.scanOn)) ∧
    ∀ n x st d c v, o.lastNumber = some n →
      exec (.serviceReadEntry l source n x) s = .next again.scanOn ∧
      exec (.serviceReadCondition l source n x) s = .next again.scanOn ∧
      exec (.serviceSetOverride l source n st d c v) s = .next again.scanOn ∧
      exec (.serviceRemoveOverride l source n st d c) s = .next again.scanOn

/-- A frame received: taken apart as it was built, MALFORMED by its length, BAD CHECK by its check; an error, by any test,
on an ACTIVE line is counted, withdraws the line at the error limit and then ends the window it belongs to as silence would
(the order is the model's choice, notes/assumptions/35.md; a discovery slot forgets the line, notes/assumptions/32.md; that
what is being sent or awaited on a line withdrawn by another frame runs on, and that no frame ends a window on a WITHDRAWN
line, is the model's choice, notes/assumptions/34.md); on a line that is not ACTIVE it is discarded. A frame that bears the
own address goes to own-address detection and ends no window: one it held open waits again (the model's choice where its time
ran out meanwhile, notes/assumptions/40.md). The first octet of a frame holds an open window open. A row of a frame kind, GOOD
or of any other class, is FRAME_RECEIVED of the octets of its frame (`rowFrame`), whatever the toggle of a kind other than
PARAM ANSWER and the unassigned bits of a REPLY's items (a source above 31 and a toggle above 1 are MALFORMED,
notes/assumptions/11.md). -/
def Obligations.FramesAndErrors : Prop :=
  (∀ (s : State) (c : Instr) (l : LineId) (f : Frame) (toggle : Byte),
    rowFrame (octet s.ownAddress.val) c = some (l, f) → f.payload.length ≤ 80 → (f.kind = 7 → toggle = f.toggle) →
    exec c s = exec (.frameReceived l false (checked f.dest f.source f.kind toggle f.payload)) s) ∧
  (∀ (s : State) (l : LineId) (source : Byte) (tag : Word) (inputs : List Byte) (code : Byte) (more : Bool)
      (items : List FaultItem) (pads : List Byte),
    pads.length = items.length → 4 + inputs.length + 3 * items.length ≤ 80 →
    (∀ w v d, s.scan.flight = some w → w.job = .attempt v → (s.entry v.address).descriptor = some d →
      inputs.length = d.inputSize) →
    exec (.reply l source tag inputs code more items) s =
      exec (.frameReceived l false (checked (octet s.ownAddress.val) source 2 0
        (replyPayload tag inputs code more items pads))) s) ∧
  (∀ f : Frame, f.payload.length ≤ 80 → receiveOctets false f.octets = .ok f) ∧
  (∀ octets, receiveOctets true octets = .error .aborted) ∧
  (∀ octets, (octets.length < 5 ∨ 80 < (octets.getD 4 0).toNat ∨ octets.length ≠ frameLength octets) →
    receiveOctets false octets = .error .malformed) ∧
  (∀ octets, (octets.getD 4 0).toNat ≤ 80 → octets.length = frameLength octets →
    octets.drop (frameLength octets - 2) ≠ wordOctets (frameCheck (octets.take (frameLength octets - 2))) →
    receiveOctets false octets = .error .badCheck) ∧
  ∀ (s : State) (l : LineId) (abandoned : Bool) (octets : List Byte),
    let e := s.line l
    let rest : LineEngine := { e with receiving := false }
    let x := exec (.frameReceived l abandoned octets) s
    (e.state = .disabled → x = .next s) ∧
    (e.state = .quiet → x = .next (s.setLine l rest)) ∧
    (∀ c, ErrorOn s l abandoned octets c →
      let counted := s.setLine l { rest with
        errorCount := e.errorCount + 1, lastError := some c, totals := e.totals.count c }
      let out := s.setLine l { rest with
        state := .withdrawn, errorCount := e.errorCount + 1, lastError := some c, errorWindow := none
        withdrawal := some s.config.setup.withdrawalTime, figures := some (e.errorCount + 1, c)
        totals := { e.totals.count c with withdrawals := min 65535 (e.totals.withdrawals + 1) } }
      let without : Discovery → Discovery := fun d => { d with rest := d.rest.filter (fun m => decide (m ≠ l)) }
      let forgets : Flight → Flight := fun f => { f with job := match f.job with
        | .probe d => .probe (without d)
        | .sessionFrame d done => .sessionFrame (without d) done
        | j => j }
      let withdrawn := ((out.setFlight (s.scan.flight.map forgets)).beginCause
        { key := plainKey (.line l) .lineWithdrawn, extra := [octet (e.errorCount + 1), c.code] }).endGroup
      let silent : State → Flight → State := fun t f => t.setFlight (some { f with phase := .waiting })
      (e.state = .withdrawn → x = .next (s.setLine l rest)) ∧
      (e.state = .active → s.openWindow l = none → e.errorCount + 1 < s.config.setup.errorLimit → x = .next counted) ∧
      (e.state = .active → s.openWindow l = none → s.config.setup.errorLimit ≤ e.errorCount + 1 → SweepNotOwed s →
        x = .next withdrawn) ∧
      (∀ f, e.state = .active → s.openWindow l = some f → e.errorCount + 1 < s.config.setup.errorLimit →
        x = exec .replyWindowExpiry (silent counted f)) ∧
      (∀ f, e.state = .active → s.openWindow l = some f → s.config.setup.errorLimit ≤ e.errorCount + 1 →
        SweepNotOwed s → x = exec .replyWindowExpiry (silent withdrawn (forgets f)))) ∧
    (∀ f, receiveOctets abandoned octets = .ok f → f.source = octet s.ownAddress.val →
      let seen : State → Host.Outcome State Fault Refusal → Prop := fun u y =>
        (∀ m, s.own.standing = some m → y = .next { u with own := { s.own with seen := true } }) ∧
        (s.own.standing = none → ∃ t,
          t = (State.beginCause { s.setLine l rest with own := { seen := true, standing := some l } }
            { key := plainKey .part .ownAddressConflict, extra := [lineCode (some l)] }).endGroup ∧
          y = .next { t with scan := u.scan })
      (e.state = .active → s.openWindow l = none → SweepNotOwed s → seen (s.setLine l rest) x) ∧
      (∀ w, e.state = .active → s.openWindow l = some w → SweepNotOwed s →
        seen ((s.setLine l rest).setFlight (some { w with phase := .waiting })) x) ∧
      (e.state = .withdrawn → (s.mode = .scanning ∨ s.mode = .held) → SweepNotOwed s → seen (s.setLine l rest) x) ∧
      (e.state = .withdrawn → (s.mode = .offline ∨ s.mode = .standby) → x = .next (s.setLine l rest))) ∧
    (∀ f, receiveOctets abandoned octets = .ok f → f.source ≠ octet s.ownAddress.val → e.state = .withdrawn →
      x = .next (s.setLine l rest)) ∧
    (e.state = .disabled → exec (.frameFirstOctet l) s = .next s) ∧
    (e.state ≠ .disabled → (s.openWindow l = none ∨ e.state ≠ .active) →
      exec (.frameFirstOctet l) s = .next (s.setLine l { e with receiving := true })) ∧
    (∀ f, e.state = .active → s.openWindow l = some f →
      exec (.frameFirstOctet l) s =
        .next ((s.setLine l { e with receiving := true }).setFlight (some { f with phase := .heldOpen })))

/-- The part's own traffic: a frame sent opens its reply window; a window that ends in silence goes on to the visit's next
attempt or, with none left or no line to send it on, its MISS; fails the attempt of a transaction; leaves the session as it
was; or goes on with the discovery slot. FRAME SENT with no frame being sent and REPLY WINDOW EXPIRY with no window running
change nothing (the model's choice, notes/assumptions/3.md; for an expiry under a frame of the own address,
notes/assumptions/40.md). -/
def Obligations.OwnTraffic : Prop :=
  ∀ s : State,
    ((∀ f, s.scan.flight = some f → f.phase ≠ .sending) → exec .frameSent s = .next s) ∧
    ((∀ f, s.scan.flight = some f → f.phase ≠ .waiting) → exec .replyWindowExpiry s = .next s) ∧
    ∀ f, s.scan.flight = some f →
      let u := s.setFlight none
      let posts : Fin 4 → Transaction → Status → List Response → State := fun i t st more =>
        { u with
          trans := { u.trans with slots := u.trans.slots.set i.val none }
          port := { u.port with
            deferred := u.port.deferred - (1 + more.length)
            responses := u.port.responses ++
              [{ tag := t.tag
                 kind := (match t.kind with
                   | .read => 60
                   | .write => 61)
                 status := st, mode := s.mode
                 result := [octet i.val, octet t.station.val, t.index, octet t.attempts] }] ++ more } }
      (f.phase = .sending → f.window.isSome = true →
        exec .frameSent s = .next (s.setFlight (some { f with phase := .waiting }))) ∧
      (∀ d, f.phase = .sending → f.window = none → f.job = .sessionFrame d true →
        exec .frameSent s = .next u.scanOn) ∧
      (∀ d, f.phase = .sending → f.window = none → f.job = .sessionFrame d false →
        exec .frameSent s = .next (u.probeNext d).scanOn) ∧
      (∀ v d, f.phase = .waiting → f.job = .attempt v → (s.entry v.address).descriptor = some d → 0 < v.left →
        ∀ m, s.attemptLine (s.entry v.address) d v.last = some m →
          exec .replyWindowExpiry s = .next (u.setFlight (some
            { job := .attempt { v with left := v.left - 1, last := some m }, line := m
              frame := s.visitFrame v.address d, window := some (s.profile d.profile).replyWindow
              phase := .sending }))) ∧
      (∀ v d, f.phase = .waiting → f.job = .attempt v → (s.entry v.address).descriptor = some d →
        (v.left = 0 ∨ s.attemptLine (s.entry v.address) d v.last = none) →
        exec .replyWindowExpiry s = .next ((u.takeMiss v.address).afterVisit v.address).scanOn) ∧
      (∀ i a t, f.phase = .waiting → f.job = .exchange i a → s.slot i = some t →
        (t.cancel = none → t.attempts < 3 →
          exec .replyWindowExpiry s = .next ({ u with trans := { u.trans with
            slots := u.trans.slots.set i.val (some { t with state := .waiting }) } }).scanOn) ∧
        (t.cancel = none → 3 ≤ t.attempts → exec .replyWindowExpiry s = .next (posts i t .timedOut []).scanOn) ∧
        ∀ tag, t.cancel = some tag → exec .replyWindowExpiry s = .next (posts i t .cancelled
          [{ tag := tag, kind := 62, status := .ok, mode := s.mode, result := [] }]).scanOn) ∧
      (f.phase = .waiting → f.job = .servicePoll → exec .replyWindowExpiry s = .next u.scanOn) ∧
      (∀ d, f.phase = .waiting → f.job = .probe d → exec .replyWindowExpiry s = .next (u.probeNext d).scanOn)

/-- The course of a cycle: while no frame is in flight the addresses are reached in ascending order, each visited where its
state calls for it and passed over else; then the session slot makes one SERVICE POLL to an open session on its line where
that is ACTIVE, carrying a pending result; then the discovery slot probes the first address after the pointer that
qualifies, on Line A first; then the cycle closes (that what needs no frame is done in the step before it is the model's
choice, notes/assumptions/21.md). -/
def Obligations.CycleGoesOn : Prop :=
  ∀ s : State,
    let own := octet s.ownAddress.val
    let window := some (match s.config.setup.rate with
      | .kbit250 => 400
      | .kbit500 => 200
      | .kbit1000 => 120)
    let probeable : Addr → Prop := fun a => (s.entry a).descriptor = none ∧
      ((s.entry a).presence = .absent ∨ (s.entry a).presence = .extra)
    let distance : Addr → Nat := fun a => (a.val + 63 - (s.scan.pointer.map Fin.val).getD 31) % 32
    (s.scan.flight.isSome = true → s.scanOn = s) ∧
    ((s.scan.cycle = .stopped ∨ s.scan.cycle = .closing ∨ s.scan.cycle = .waiting) → s.scanOn = s) ∧
    (s.scan.flight = none →
      (∀ a : Addr, s.scan.cycle = .visiting → s.scan.nextAddress = a.val →
        let u : State := { s with scan := { s.scan with nextAddress := a.val + 1 } }
        let due := (s.entry a).presence ∈ [Presence.expected, .joining, .present, .silent, .mismatch] ∨
          ((s.entry a).presence = .lost ∧ (s.entry a).countdown = 0)
        (due → s.scanOn = (u.startVisit a).scanOn) ∧ (¬ due → s.scanOn = u.scanOn)) ∧
      (s.scan.cycle = .visiting → 32 ≤ s.scan.nextAddress →
        let u : State := { s with scan := { s.scan with cycle := .sessionSlot } }
        (s.session.current = none → s.scanOn = u.scanOn) ∧
        ∀ o, s.session.current = some o →
          ((s.line o.line).state ≠ .active → s.scanOn = u.scanOn) ∧
          ((s.line o.line).state = .active → s.scanOn = u.setFlight (some
            { job := .servicePoll, line := o.line
              frame := { dest := octet o.tool.val, source := own, kind := 12, toggle := 0
                         payload := (match o.result with
                           | none => []
                           | some q => if q.delivered then [] else
                               [q.number, q.kind.code, q.status.code] ++ q.fields) }
              window := window, phase := .sending }))) ∧
      (s.scan.cycle = .sessionSlot →
        let u : State := { s with scan := { s.scan with cycle := .discoverySlot } }
        ((s.config.setup.discovery = false ∨ (∀ l, (s.line l).state ≠ .active) ∨ ∀ a, ¬ probeable a) →
          s.scanOn = u.scanOn) ∧
        ∀ (a : Addr) (l : LineId), s.config.setup.discovery = true → probeable a →
          (∀ b, probeable b → distance a ≤ distance b) → (s.line l).state = .active →
          (l = .b → s.lineA.state ≠ .active) →
          s.scanOn = { u with scan := { u.scan with
            pointer := some a
            flight := some
              { job := .probe { address := a
                                rest := if l = .a ∧ s.lineB.state = .active then [.b] else []
                                found := none, refused := false }
                line := l
                frame := { dest := octet a.val, source := own, kind := 3, toggle := 0, payload := [] }
                window := window, phase := .sending } } }) ∧
      (s.scan.cycle = .discoverySlot → s.scanOn = { s with scan := { s.scan with cycle := .closing } }))

/-- What a visit sends and what follows it. The line of an attempt: the attached line of a single attachment, else the
active line first and then the line not used before, the other where that is not ACTIVE. A visit begins with a return probe
where one is due, else with its first attempt, and is missed at once where no line can carry it. After a visit the station's
WAITING transaction is issued where the entry is PRESENT or SILENT; with no line to carry it the attempt fails, the third
time with TIMED OUT (an attempt that fails unsent is dealt with in the same step, notes/assumptions/21.md). The visit's group
ends first: where its outcome retired or evicted a record the sweep runs before the transaction is issued. -/
def Obligations.VisitsSent : Prop :=
  (∀ (s : State) (e : Entry) (d : Descriptor) (last : Option LineId),
    s.attemptLine e d last = (match d.attachment with
      | .lineA => if s.lineA.state = .active then some .a else none
      | .lineB => if s.lineB.state = .active then some .b else none
      | .dual =>
        let first := (last.map otherLine).getD (e.activeLine.getD d.preferred)
        if (s.line first).state = .active then some first
        else if (s.line (otherLine first)).state = .active then some (otherLine first)
        else none)) ∧
  (∀ (s : State) (a : Addr) (d : Descriptor), (s.entry a).descriptor = some d →
    let e := s.entry a
    let p := s.profile d.profile
    let polled := e.presence = .present ∨ e.presence = .silent
    let sends : Nat → Option LineId → LineId → State := fun left last l => s.setFlight (some
      { job := .attempt { address := a, left := left, last := last }, line := l
        frame := { dest := octet a.val, source := octet s.ownAddress.val
                   kind := if polled then 1 else 3
                   toggle := 0
                   payload := if polled then s.pollPayload a d else [] }
        window := some p.replyWindow, phase := .sending })
    let returns := d.attachment = .dual ∧ e.activeLine ≠ some d.preferred ∧
      s.scan.number.toNat % s.config.setup.returnInterval = 0 ∧ (s.line d.preferred).state = .active
    (returns → s.startVisit a = sends (1 + p.retries) none d.preferred) ∧
    (¬ returns → ∀ l, s.attemptLine e d none = some l → s.startVisit a = sends p.retries (some l) l) ∧
    (¬ returns → s.attemptLine e d none = none → s.startVisit a = (s.takeMiss a).afterVisit a)) ∧
  (∀ (s : State) (a : Addr), SweepNotOwed s.endGroup ∧ s.afterVisit a = s.endGroup.afterVisit a) ∧
  ∀ (s : State) (a : Addr), SweepNotOwed s →
    ((∀ i t, s.slot i = some t → t.station ≠ a) → s.afterVisit a = s) ∧
    ∀ (i : Fin 4) (t : Transaction), s.slot i = some t → t.station = a →
      (∀ j u, s.slot j = some u → u.station = a → i ≤ j) →
      ((t.state ≠ .waiting ∨ ((s.entry a).presence ≠ .present ∧ (s.entry a).presence ≠ .silent)) → s.afterVisit a = s) ∧
      ∀ d, (s.entry a).descriptor = some d → t.state = .waiting →
        ((s.entry a).presence = .present ∨ (s.entry a).presence = .silent) →
        let u : Transaction := { t with attempts := t.attempts + 1, state := .sent }
        (∀ l, s.attemptLine (s.entry a) d none = some l →
          s.afterVisit a = { s with
            trans := { s.trans with slots := s.trans.slots.set i.val (some u) }
            scan := { s.scan with
              flight := some
                { job := .exchange i a, line := l
                  frame := { dest := octet a.val, source := octet s.ownAddress.val
                             kind := (match t.kind with
                               | .read => 5
                               | .write => 6)
                             toggle := flagCode t.toggle
                             payload := [t.index, octet t.length] ++ (match t.kind with
                               | .read => []
                               | .write => t.data) }
                  window := some (s.profile d.profile).replyWindow, phase := .sending } } }) ∧
        (s.attemptLine (s.entry a) d none = none → t.cancel = none →
          (t.attempts + 1 < 3 → s.afterVisit a = { s with
            trans := { s.trans with slots := s.trans.slots.set i.val (some { u with state := .waiting }) } }) ∧
          (3 ≤ t.attempts + 1 → s.afterVisit a = { s with
            trans := { s.trans with slots := s.trans.slots.set i.val none }
            port := { s.port with
              deferred := s.port.deferred - 1
              responses := s.port.responses ++
                [{ tag := t.tag
                   kind := (match t.kind with
                     | .read => 60
                     | .write => 61)
                   status := .timedOut, mode := s.mode
                   result := [octet i.val, octet t.station.val, t.index, octet (t.attempts + 1)] }] } }))

/-- A discovery slot goes on with the next of its lines that is ACTIVE, and is judged when none is left: an entry that still
qualifies is EXTRA with the identity brought, keeps its state where an OPEN REQUEST was refused, and is ABSENT else, with
the beginning, the refresh or the end of STATION EXTRA. -/
def Obligations.DiscoveryJudged : Prop :=
  ∀ (s : State) (d : Discovery),
    let e := s.entry d.address
    let key := plainKey (.station d.address) .stationExtra
    let probeable := e.descriptor = none ∧ (e.presence = .absent ∨ e.presence = .extra)
    (∀ skipped l rest, d.rest = skipped ++ l :: rest → skipped.length ≤ 1 → (∀ m ∈ skipped, (s.line m).state ≠ .active) →
      (s.line l).state = .active →
      s.probeNext d = s.setFlight (some
        { job := .probe { d with rest := rest }, line := l
          frame := { dest := octet d.address.val, source := octet s.ownAddress.val, kind := 3, toggle := 0
                     payload := [] }
          window := some (match s.config.setup.rate with
            | .kbit250 => 400
            | .kbit500 => 200
            | .kbit1000 => 120)
          phase := .sending })) ∧
    ((∀ m ∈ d.rest, (s.line m).state ≠ .active) → d.rest.length ≤ 2 → s.probeNext d = s.judge d) ∧
    (¬ probeable → s.judge d = s) ∧
    (probeable → d.found = none → d.refused = true → s.judge d = s) ∧
    (∀ i, probeable → d.found = some i → ∃ u, s.judge d = u.endGroup ∧
      u = { s with roster := s.roster.set d.address.val { e with presence := .extra, identity := some i }
                   cond := u.cond, mode := u.mode } ∧
      Hands s u [] (if e.presence = .absent then [{ key := key, extra := reported i }] else [])
        (if e.presence = .extra ∧ e.identity.map reported ≠ some (reported i) then
          [{ key := key, extra := reported i }] else [])) ∧
    (probeable → d.found = none → d.refused = false → ∃ u, s.judge d = u.endGroup ∧
      u = { s with roster := s.roster.set d.address.val { e with presence := .absent, identity := none }
                   cond := u.cond, mode := u.mode } ∧
      Hands s u (if e.presence = .extra then [key] else []) [] [])

/-- A POLL built in HELD or while OUTPUTS SAFE stands is SAFE; any other is LIVE and carries at each circuit the value of
its output override, else of the live output area. -/
def Obligations.PollsBuilt : Prop :=
  ∀ (s : State) (a : Addr) (d : Descriptor),
    ((s.mode = .held ∨ s.safety.standing = true) → s.pollPayload a d = [0]) ∧
    (s.mode ≠ .held → s.safety.standing = false → ∀ p, (s.entry a).placement = some p →
      (s.pollPayload a d).length = 1 + d.outputSize ∧ (s.pollPayload a d).head? = some 1 ∧
      ∀ n : Fin 32, n.val < d.outputCount.val →
        let v := match s.findOverride a .output n with
          | some q => q.value
          | none => s.scan.live.readCircuit p.outputOffset d.outputWidth n.val
        (d.outputWidth = .word →
          (s.pollPayload a d).getD (1 + 2 * n.val) 0 = lowOctet v ∧
          (s.pollPayload a d).getD (2 + 2 * n.val) 0 = highOctet v) ∧
        (d.outputWidth = .bit →
          ((s.pollPayload a d).getD (1 + n.val / 8) 0).getLsbD (n.val % 8) = v.getLsbD 0))

/-! ## The cycle end and the timers -/

/-- The publication: each configured station's slice at its placement, its input overrides over it by width, every other
octet 0 (a slice's bits beyond its circuits are published as they came, notes/assumptions/16.md). The cycle end publishes
it, sets the sequence word, takes a pending STOP and a pending COMMIT (the COMMIT's response first, with the mode STANDBY
under a STOP, notes/assumptions/9.md; that the STOPPED completions stand behind it is the model's choice,
notes/assumptions/38.md), reduces the countdowns, checks the own address, sweeps and advances the scan number. Without a
STOP the next cycle begins at once where there is no cycle period or it has passed since the cycle began, and waits else,
for its expiry (a reading of the time is free, notes/assumptions/4.md). Elsewhere CYCLE END and CYCLE PERIOD EXPIRY change
nothing (the model's choice, notes/assumptions/3.md). -/
def Obligations.CyclesTaken : Prop :=
  (∀ s : State, TablesKept s → RosterKept s →
    let m := s.publication
    (∀ (a : Addr) (d : Descriptor) (p : Placement), (s.entry a).descriptor = some d → (s.entry a).placement = some p →
      (∀ n : Fin 32, n.val < d.inputCount.val →
        let slice := s.slice a
        (d.inputWidth = .word →
          m.read (p.inputOffset + 2 * n.val) = (match s.findOverride a .input n with
            | some q => lowOctet q.value
            | none => slice.getD (2 * n.val) 0) ∧
          m.read (p.inputOffset + 2 * n.val + 1) = (match s.findOverride a .input n with
            | some q => highOctet q.value
            | none => slice.getD (2 * n.val + 1) 0)) ∧
        (d.inputWidth = .bit →
          (m.read (p.inputOffset + n.val / 8)).getLsbD (n.val % 8) = (match s.findOverride a .input n with
            | some q => q.value.getLsbD 0
            | none => (slice.getD (n.val / 8) 0).getLsbD (n.val % 8)))) ∧
      ∀ n, d.inputWidth = .bit → d.inputCount.val ≤ n → n < 8 * p.inputSize →
        (m.read (p.inputOffset + n / 8)).getLsbD (n % 8) = ((s.slice a).getD (n / 8) 0).getLsbD (n % 8)) ∧
    ∀ x, (∀ a p, (s.entry a).placement = some p → x < p.inputOffset ∨ p.inputOffset + p.inputSize ≤ x) →
      m.read x = 0) ∧
  ∀ s : State,
    let begun : State → State := fun u => { u with
      scan := { u.scan with cycle := .visiting, began := u.now, nextAddress := 0 }
      freeReads := u.freeReads + 1 }
    (s.scan.cycle = .closing → s.scan.flight = none → TablesKept s →
      (∀ o, s.session.current = some o → (s.entry o.tool).descriptor = none) →
      let p : State := { s with scan := { s.scan with
        published := s.publication, sequence := s.scan.number.setWidth 16 } }
      let h : State := if s.stopPending.isSome then halted p else p
      ∃ k v w : State,
        ((∀ tag c, s.config.staging ≠ .commitPending tag c) → k = h) ∧
        (∀ tag c, s.config.staging = .commitPending tag c →
          ∃ x, CommitTaken h x c ∧ k = postedLater x tag 13 .ok (commitFields h x c)) ∧
        (s.stopPending = none → v = k) ∧
        (∀ tag, s.stopPending = some tag → ∃ x, StopEnds k x ∧ v = postedLater x tag 2 .ok []) ∧
        (∀ a, w.entry a = { v.entry a with
          countdown := if (v.entry a).presence = .lost then (v.entry a).countdown - 1 else (v.entry a).countdown }) ∧
        w = { v with
          roster := w.roster
          own := { seen := false, standing := if v.own.seen then v.own.standing else none }
          cond := w.cond
          mode := w.mode } ∧
        Hands v w (if v.own.seen = false ∧ v.own.standing.isSome = true then [plainKey .part .ownAddressConflict] else [])
          [] [] ∧
        let z : State := { w.sweep with scan := { w.sweep.scan with number := s.scan.number + 1 } }
        let y : State := { z with freeReads := z.freeReads + 1 }
        exec .cycleEnd s = .next (
          if s.stopPending.isSome then { z with scan := { z.scan with cycle := .stopped } }
          else if s.config.setup.cyclePeriod = 0 then (begun z).scanOn
          else if 1000 * s.config.setup.cyclePeriod ≤ z.now - s.scan.began then (begun y).scanOn
          else { y with scan := { y.scan with cycle := .waiting } })) ∧
    (¬ (s.scan.cycle = .closing ∧ s.scan.flight = none) → exec .cycleEnd s = .next s) ∧
    (s.scan.cycle = .waiting → exec .cyclePeriodExpiry s = .next (begun s).scanOn) ∧
    (s.scan.cycle ≠ .waiting → exec .cyclePeriodExpiry s = .next s)

/-- Each timer's expiry has its effect while the timer runs: OUTPUTS SAFE begins, an error window starts again, a withdrawn
line returns and LINE WITHDRAWN ends, the staging copy is discarded and CONFIG INCOMPLETE begins, the session ends with
TIMED OUT. The expiry of a timer that is stopped changes nothing (the model's choice, notes/assumptions/3.md; when a timer
expires is outside the model, notes/assumptions/4.md). -/
def Obligations.TimerExpiries : Prop :=
  ∀ s : State, SweepNotOwed s →
    (s.safety.timer = none → exec .outputRefreshTimerExpiry s = .next s) ∧
    (s.safety.timer.isSome = true →
      let u : State := { s with safety := { s.safety with timer := none, standing := true } }
      exec .outputRefreshTimerExpiry s = .next (if s.safety.standing then u
        else (u.beginCause { key := plainKey .part .outputsSafe, extra := [] }).endGroup)) ∧
    (∀ l, (s.line l).errorWindow = none → exec (.errorWindowExpiry l) s = .next s) ∧
    (∀ l, (s.line l).errorWindow.isSome = true → exec (.errorWindowExpiry l) s = .next (s.setLine l { s.line l with
      errorCount := 0, errorWindow := some (1000 * s.config.setup.errorWindow) })) ∧
    (∀ l, (s.line l).state ≠ .withdrawn → exec (.withdrawalTimerExpiry l) s = .next s) ∧
    (∀ l, (s.line l).state = .withdrawn →
      exec (.withdrawalTimerExpiry l) s = .next ((s.setLine l { s.line l with
        state := if s.mode = .scanning ∨ s.mode = .held then .active else .quiet
        errorCount := 0, withdrawal := none, figures := none
        errorWindow := if s.mode = .scanning ∨ s.mode = .held then some (1000 * s.config.setup.errorWindow)
          else none }).finishCause (plainKey (.line l) .lineWithdrawn)).endGroup) ∧
    ((s.config.gapTimer = none ∨ ∀ c, s.config.staging ≠ .opened c) → exec .stagingGapTimerExpiry s = .next s) ∧
    (∀ c, s.config.staging = .opened c → s.config.gapTimer.isSome = true →
      let u : State := { s with config := { s.config with staging := .closed, gapTimer := none, incomplete := true } }
      exec .stagingGapTimerExpiry s = .next (if s.config.incomplete then u
        else (u.beginCause { key := plainKey .part .configIncomplete, extra := [] }).endGroup)) ∧
    (s.session.current = none → exec .sessionTimerExpiry s = .next s) ∧
    (∀ o, s.session.current = some o → TablesKept s → (s.entry o.tool).presence = .service →
      exec .sessionTimerExpiry s = .next (sessionEnded s o .timedOut).endGroup) ∧
    (∀ o, s.session.current = some o → TablesKept s →
      ∃ t, exec .sessionTimerExpiry s = .next t ∧
        t.session = { s.session with current := none, lastEnd := .timedOut } ∧
        t.overrides = s.overrides.filter (fun q => decide (q.owner ≠ .session)) ∧
        (t.entry o.tool).presence = .absent ∧ (t.entry o.tool).identity = none ∧ t.port = s.port)
end

