-- ==== Sys2Proof/Laws/State.lean ====
section
/-! SUPPORT. One lemma per field per update of State, true by rfl, so that no proof unfolds a record update. -/

namespace Sys2Proof.Laws

open Sys2Proof.Machine

/-! ## `State.setEntry` -/

@[simp] theorem setEntry_pending (s : State) (a : Addr) (e : Entry) :
    (s.setEntry a e).pending = s.pending := rfl
@[simp] theorem setEntry_mode (s : State) (a : Addr) (e : Entry) :
    (s.setEntry a e).mode = s.mode := rfl
@[simp] theorem setEntry_stopPending (s : State) (a : Addr) (e : Entry) :
    (s.setEntry a e).stopPending = s.stopPending := rfl
@[simp] theorem setEntry_roster (s : State) (a : Addr) (e : Entry) :
    (s.setEntry a e).roster = s.roster.set a.val e := rfl
@[simp] theorem setEntry_supervised (s : State) (a : Addr) (e : Entry) :
    (s.setEntry a e).supervised = s.supervised := rfl
@[simp] theorem setEntry_profiles (s : State) (a : Addr) (e : Entry) :
    (s.setEntry a e).profiles = s.profiles := rfl
@[simp] theorem setEntry_cond (s : State) (a : Addr) (e : Entry) :
    (s.setEntry a e).cond = s.cond := rfl
@[simp] theorem setEntry_overrides (s : State) (a : Addr) (e : Entry) :
    (s.setEntry a e).overrides = s.overrides := rfl
@[simp] theorem setEntry_scan (s : State) (a : Addr) (e : Entry) :
    (s.setEntry a e).scan = s.scan := rfl
@[simp] theorem setEntry_lineA (s : State) (a : Addr) (e : Entry) :
    (s.setEntry a e).lineA = s.lineA := rfl
@[simp] theorem setEntry_lineB (s : State) (a : Addr) (e : Entry) :
    (s.setEntry a e).lineB = s.lineB := rfl
@[simp] theorem setEntry_own (s : State) (a : Addr) (e : Entry) :
    (s.setEntry a e).own = s.own := rfl
@[simp] theorem setEntry_safety (s : State) (a : Addr) (e : Entry) :
    (s.setEntry a e).safety = s.safety := rfl
@[simp] theorem setEntry_trans (s : State) (a : Addr) (e : Entry) :
    (s.setEntry a e).trans = s.trans := rfl
@[simp] theorem setEntry_config (s : State) (a : Addr) (e : Entry) :
    (s.setEntry a e).config = s.config := rfl
@[simp] theorem setEntry_session (s : State) (a : Addr) (e : Entry) :
    (s.setEntry a e).session = s.session := rfl
@[simp] theorem setEntry_port (s : State) (a : Addr) (e : Entry) :
    (s.setEntry a e).port = s.port := rfl
@[simp] theorem setEntry_freeReads (s : State) (a : Addr) (e : Entry) :
    (s.setEntry a e).freeReads = s.freeReads := rfl

/-! ## `State.setSupervision` -/

@[simp] theorem setSupervision_pending (s : State) (a : Addr) (v : Supervision) :
    (s.setSupervision a v).pending = s.pending := rfl
@[simp] theorem setSupervision_mode (s : State) (a : Addr) (v : Supervision) :
    (s.setSupervision a v).mode = s.mode := rfl
@[simp] theorem setSupervision_stopPending (s : State) (a : Addr) (v : Supervision) :
    (s.setSupervision a v).stopPending = s.stopPending := rfl
@[simp] theorem setSupervision_roster (s : State) (a : Addr) (v : Supervision) :
    (s.setSupervision a v).roster = s.roster := rfl
@[simp] theorem setSupervision_supervised (s : State) (a : Addr) (v : Supervision) :
    (s.setSupervision a v).supervised = s.supervised.set a.val v := rfl
@[simp] theorem setSupervision_profiles (s : State) (a : Addr) (v : Supervision) :
    (s.setSupervision a v).profiles = s.profiles := rfl
@[simp] theorem setSupervision_cond (s : State) (a : Addr) (v : Supervision) :
    (s.setSupervision a v).cond = s.cond := rfl
@[simp] theorem setSupervision_overrides (s : State) (a : Addr) (v : Supervision) :
    (s.setSupervision a v).overrides = s.overrides := rfl
@[simp] theorem setSupervision_scan (s : State) (a : Addr) (v : Supervision) :
    (s.setSupervision a v).scan = s.scan := rfl
@[simp] theorem setSupervision_lineA (s : State) (a : Addr) (v : Supervision) :
    (s.setSupervision a v).lineA = s.lineA := rfl
@[simp] theorem setSupervision_lineB (s : State) (a : Addr) (v : Supervision) :
    (s.setSupervision a v).lineB = s.lineB := rfl
@[simp] theorem setSupervision_own (s : State) (a : Addr) (v : Supervision) :
    (s.setSupervision a v).own = s.own := rfl
@[simp] theorem setSupervision_safety (s : State) (a : Addr) (v : Supervision) :
    (s.setSupervision a v).safety = s.safety := rfl
@[simp] theorem setSupervision_trans (s : State) (a : Addr) (v : Supervision) :
    (s.setSupervision a v).trans = s.trans := rfl
@[simp] theorem setSupervision_config (s : State) (a : Addr) (v : Supervision) :
    (s.setSupervision a v).config = s.config := rfl
@[simp] theorem setSupervision_session (s : State) (a : Addr) (v : Supervision) :
    (s.setSupervision a v).session = s.session := rfl
@[simp] theorem setSupervision_port (s : State) (a : Addr) (v : Supervision) :
    (s.setSupervision a v).port = s.port := rfl
@[simp] theorem setSupervision_freeReads (s : State) (a : Addr) (v : Supervision) :
    (s.setSupervision a v).freeReads = s.freeReads := rfl

/-! ## `State.setSlice` -/

@[simp] theorem setSlice_pending (s : State) (a : Addr) (b : List Byte) :
    (s.setSlice a b).pending = s.pending := rfl
@[simp] theorem setSlice_mode (s : State) (a : Addr) (b : List Byte) :
    (s.setSlice a b).mode = s.mode := rfl
@[simp] theorem setSlice_stopPending (s : State) (a : Addr) (b : List Byte) :
    (s.setSlice a b).stopPending = s.stopPending := rfl
@[simp] theorem setSlice_roster (s : State) (a : Addr) (b : List Byte) :
    (s.setSlice a b).roster = s.roster := rfl
@[simp] theorem setSlice_supervised (s : State) (a : Addr) (b : List Byte) :
    (s.setSlice a b).supervised = s.supervised := rfl
@[simp] theorem setSlice_profiles (s : State) (a : Addr) (b : List Byte) :
    (s.setSlice a b).profiles = s.profiles := rfl
@[simp] theorem setSlice_cond (s : State) (a : Addr) (b : List Byte) :
    (s.setSlice a b).cond = s.cond := rfl
@[simp] theorem setSlice_overrides (s : State) (a : Addr) (b : List Byte) :
    (s.setSlice a b).overrides = s.overrides := rfl
@[simp] theorem setSlice_scan (s : State) (a : Addr) (b : List Byte) :
    (s.setSlice a b).scan = { s.scan with buffer := s.scan.buffer.set a.val b } := rfl
@[simp] theorem setSlice_lineA (s : State) (a : Addr) (b : List Byte) :
    (s.setSlice a b).lineA = s.lineA := rfl
@[simp] theorem setSlice_lineB (s : State) (a : Addr) (b : List Byte) :
    (s.setSlice a b).lineB = s.lineB := rfl
@[simp] theorem setSlice_own (s : State) (a : Addr) (b : List Byte) :
    (s.setSlice a b).own = s.own := rfl
@[simp] theorem setSlice_safety (s : State) (a : Addr) (b : List Byte) :
    (s.setSlice a b).safety = s.safety := rfl
@[simp] theorem setSlice_trans (s : State) (a : Addr) (b : List Byte) :
    (s.setSlice a b).trans = s.trans := rfl
@[simp] theorem setSlice_config (s : State) (a : Addr) (b : List Byte) :
    (s.setSlice a b).config = s.config := rfl
@[simp] theorem setSlice_session (s : State) (a : Addr) (b : List Byte) :
    (s.setSlice a b).session = s.session := rfl
@[simp] theorem setSlice_port (s : State) (a : Addr) (b : List Byte) :
    (s.setSlice a b).port = s.port := rfl
@[simp] theorem setSlice_freeReads (s : State) (a : Addr) (b : List Byte) :
    (s.setSlice a b).freeReads = s.freeReads := rfl

/-! ## `State.setFlight` -/

@[simp] theorem setFlight_pending (s : State) (f : Option Flight) :
    (s.setFlight f).pending = s.pending := rfl
@[simp] theorem setFlight_mode (s : State) (f : Option Flight) :
    (s.setFlight f).mode = s.mode := rfl
@[simp] theorem setFlight_stopPending (s : State) (f : Option Flight) :
    (s.setFlight f).stopPending = s.stopPending := rfl
@[simp] theorem setFlight_roster (s : State) (f : Option Flight) :
    (s.setFlight f).roster = s.roster := rfl
@[simp] theorem setFlight_supervised (s : State) (f : Option Flight) :
    (s.setFlight f).supervised = s.supervised := rfl
@[simp] theorem setFlight_profiles (s : State) (f : Option Flight) :
    (s.setFlight f).profiles = s.profiles := rfl
@[simp] theorem setFlight_cond (s : State) (f : Option Flight) :
    (s.setFlight f).cond = s.cond := rfl
@[simp] theorem setFlight_overrides (s : State) (f : Option Flight) :
    (s.setFlight f).overrides = s.overrides := rfl
@[simp] theorem setFlight_scan (s : State) (f : Option Flight) :
    (s.setFlight f).scan = { s.scan with flight := f } := rfl
@[simp] theorem setFlight_lineA (s : State) (f : Option Flight) :
    (s.setFlight f).lineA = s.lineA := rfl
@[simp] theorem setFlight_lineB (s : State) (f : Option Flight) :
    (s.setFlight f).lineB = s.lineB := rfl
@[simp] theorem setFlight_own (s : State) (f : Option Flight) :
    (s.setFlight f).own = s.own := rfl
@[simp] theorem setFlight_safety (s : State) (f : Option Flight) :
    (s.setFlight f).safety = s.safety := rfl
@[simp] theorem setFlight_trans (s : State) (f : Option Flight) :
    (s.setFlight f).trans = s.trans := rfl
@[simp] theorem setFlight_config (s : State) (f : Option Flight) :
    (s.setFlight f).config = s.config := rfl
@[simp] theorem setFlight_session (s : State) (f : Option Flight) :
    (s.setFlight f).session = s.session := rfl
@[simp] theorem setFlight_port (s : State) (f : Option Flight) :
    (s.setFlight f).port = s.port := rfl
@[simp] theorem setFlight_freeReads (s : State) (f : Option Flight) :
    (s.setFlight f).freeReads = s.freeReads := rfl

/-! ## `State.setCycle` -/

@[simp] theorem setCycle_pending (s : State) (c : CycleState) :
    (s.setCycle c).pending = s.pending := rfl
@[simp] theorem setCycle_mode (s : State) (c : CycleState) :
    (s.setCycle c).mode = s.mode := rfl
@[simp] theorem setCycle_stopPending (s : State) (c : CycleState) :
    (s.setCycle c).stopPending = s.stopPending := rfl
@[simp] theorem setCycle_roster (s : State) (c : CycleState) :
    (s.setCycle c).roster = s.roster := rfl
@[simp] theorem setCycle_supervised (s : State) (c : CycleState) :
    (s.setCycle c).supervised = s.supervised := rfl
@[simp] theorem setCycle_profiles (s : State) (c : CycleState) :
    (s.setCycle c).profiles = s.profiles := rfl
@[simp] theorem setCycle_cond (s : State) (c : CycleState) :
    (s.setCycle c).cond = s.cond := rfl
@[simp] theorem setCycle_overrides (s : State) (c : CycleState) :
    (s.setCycle c).overrides = s.overrides := rfl
@[simp] theorem setCycle_scan (s : State) (c : CycleState) :
    (s.setCycle c).scan = { s.scan with cycle := c } := rfl
@[simp] theorem setCycle_lineA (s : State) (c : CycleState) :
    (s.setCycle c).lineA = s.lineA := rfl
@[simp] theorem setCycle_lineB (s : State) (c : CycleState) :
    (s.setCycle c).lineB = s.lineB := rfl
@[simp] theorem setCycle_own (s : State) (c : CycleState) :
    (s.setCycle c).own = s.own := rfl
@[simp] theorem setCycle_safety (s : State) (c : CycleState) :
    (s.setCycle c).safety = s.safety := rfl
@[simp] theorem setCycle_trans (s : State) (c : CycleState) :
    (s.setCycle c).trans = s.trans := rfl
@[simp] theorem setCycle_config (s : State) (c : CycleState) :
    (s.setCycle c).config = s.config := rfl
@[simp] theorem setCycle_session (s : State) (c : CycleState) :
    (s.setCycle c).session = s.session := rfl
@[simp] theorem setCycle_port (s : State) (c : CycleState) :
    (s.setCycle c).port = s.port := rfl
@[simp] theorem setCycle_freeReads (s : State) (c : CycleState) :
    (s.setCycle c).freeReads = s.freeReads := rfl

/-! ## `State.setSlot` -/

@[simp] theorem setSlot_pending (s : State) (i : Fin 4) (t : Option Transaction) :
    (s.setSlot i t).pending = s.pending := rfl
@[simp] theorem setSlot_mode (s : State) (i : Fin 4) (t : Option Transaction) :
    (s.setSlot i t).mode = s.mode := rfl
@[simp] theorem setSlot_stopPending (s : State) (i : Fin 4) (t : Option Transaction) :
    (s.setSlot i t).stopPending = s.stopPending := rfl
@[simp] theorem setSlot_roster (s : State) (i : Fin 4) (t : Option Transaction) :
    (s.setSlot i t).roster = s.roster := rfl
@[simp] theorem setSlot_supervised (s : State) (i : Fin 4) (t : Option Transaction) :
    (s.setSlot i t).supervised = s.supervised := rfl
@[simp] theorem setSlot_profiles (s : State) (i : Fin 4) (t : Option Transaction) :
    (s.setSlot i t).profiles = s.profiles := rfl
@[simp] theorem setSlot_cond (s : State) (i : Fin 4) (t : Option Transaction) :
    (s.setSlot i t).cond = s.cond := rfl
@[simp] theorem setSlot_overrides (s : State) (i : Fin 4) (t : Option Transaction) :
    (s.setSlot i t).overrides = s.overrides := rfl
@[simp] theorem setSlot_scan (s : State) (i : Fin 4) (t : Option Transaction) :
    (s.setSlot i t).scan = s.scan := rfl
@[simp] theorem setSlot_lineA (s : State) (i : Fin 4) (t : Option Transaction) :
    (s.setSlot i t).lineA = s.lineA := rfl
@[simp] theorem setSlot_lineB (s : State) (i : Fin 4) (t : Option Transaction) :
    (s.setSlot i t).lineB = s.lineB := rfl
@[simp] theorem setSlot_own (s : State) (i : Fin 4) (t : Option Transaction) :
    (s.setSlot i t).own = s.own := rfl
@[simp] theorem setSlot_safety (s : State) (i : Fin 4) (t : Option Transaction) :
    (s.setSlot i t).safety = s.safety := rfl
@[simp] theorem setSlot_trans (s : State) (i : Fin 4) (t : Option Transaction) :
    (s.setSlot i t).trans = { s.trans with slots := s.trans.slots.set i.val t } := rfl
@[simp] theorem setSlot_config (s : State) (i : Fin 4) (t : Option Transaction) :
    (s.setSlot i t).config = s.config := rfl
@[simp] theorem setSlot_session (s : State) (i : Fin 4) (t : Option Transaction) :
    (s.setSlot i t).session = s.session := rfl
@[simp] theorem setSlot_port (s : State) (i : Fin 4) (t : Option Transaction) :
    (s.setSlot i t).port = s.port := rfl
@[simp] theorem setSlot_freeReads (s : State) (i : Fin 4) (t : Option Transaction) :
    (s.setSlot i t).freeReads = s.freeReads := rfl

/-! ## `State.setToggle` -/

@[simp] theorem setToggle_pending (s : State) (a : Addr) (b : Bool) :
    (s.setToggle a b).pending = s.pending := rfl
@[simp] theorem setToggle_mode (s : State) (a : Addr) (b : Bool) :
    (s.setToggle a b).mode = s.mode := rfl
@[simp] theorem setToggle_stopPending (s : State) (a : Addr) (b : Bool) :
    (s.setToggle a b).stopPending = s.stopPending := rfl
@[simp] theorem setToggle_roster (s : State) (a : Addr) (b : Bool) :
    (s.setToggle a b).roster = s.roster := rfl
@[simp] theorem setToggle_supervised (s : State) (a : Addr) (b : Bool) :
    (s.setToggle a b).supervised = s.supervised := rfl
@[simp] theorem setToggle_profiles (s : State) (a : Addr) (b : Bool) :
    (s.setToggle a b).profiles = s.profiles := rfl
@[simp] theorem setToggle_cond (s : State) (a : Addr) (b : Bool) :
    (s.setToggle a b).cond = s.cond := rfl
@[simp] theorem setToggle_overrides (s : State) (a : Addr) (b : Bool) :
    (s.setToggle a b).overrides = s.overrides := rfl
@[simp] theorem setToggle_scan (s : State) (a : Addr) (b : Bool) :
    (s.setToggle a b).scan = s.scan := rfl
@[simp] theorem setToggle_lineA (s : State) (a : Addr) (b : Bool) :
    (s.setToggle a b).lineA = s.lineA := rfl
@[simp] theorem setToggle_lineB (s : State) (a : Addr) (b : Bool) :
    (s.setToggle a b).lineB = s.lineB := rfl
@[simp] theorem setToggle_own (s : State) (a : Addr) (b : Bool) :
    (s.setToggle a b).own = s.own := rfl
@[simp] theorem setToggle_safety (s : State) (a : Addr) (b : Bool) :
    (s.setToggle a b).safety = s.safety := rfl
@[simp] theorem setToggle_trans (s : State) (a : Addr) (b : Bool) :
    (s.setToggle a b).trans = { s.trans with toggles := s.trans.toggles.set a.val b } := rfl
@[simp] theorem setToggle_config (s : State) (a : Addr) (b : Bool) :
    (s.setToggle a b).config = s.config := rfl
@[simp] theorem setToggle_session (s : State) (a : Addr) (b : Bool) :
    (s.setToggle a b).session = s.session := rfl
@[simp] theorem setToggle_port (s : State) (a : Addr) (b : Bool) :
    (s.setToggle a b).port = s.port := rfl
@[simp] theorem setToggle_freeReads (s : State) (a : Addr) (b : Bool) :
    (s.setToggle a b).freeReads = s.freeReads := rfl

/-! ## `State.drawn` -/

@[simp] theorem drawn_pending (s : State) :
    (s.drawn).pending = s.pending := rfl
@[simp] theorem drawn_mode (s : State) :
    (s.drawn).mode = s.mode := rfl
@[simp] theorem drawn_stopPending (s : State) :
    (s.drawn).stopPending = s.stopPending := rfl
@[simp] theorem drawn_roster (s : State) :
    (s.drawn).roster = s.roster := rfl
@[simp] theorem drawn_supervised (s : State) :
    (s.drawn).supervised = s.supervised := rfl
@[simp] theorem drawn_profiles (s : State) :
    (s.drawn).profiles = s.profiles := rfl
@[simp] theorem drawn_cond (s : State) :
    (s.drawn).cond = s.cond := rfl
@[simp] theorem drawn_overrides (s : State) :
    (s.drawn).overrides = s.overrides := rfl
@[simp] theorem drawn_scan (s : State) :
    (s.drawn).scan = s.scan := rfl
@[simp] theorem drawn_lineA (s : State) :
    (s.drawn).lineA = s.lineA := rfl
@[simp] theorem drawn_lineB (s : State) :
    (s.drawn).lineB = s.lineB := rfl
@[simp] theorem drawn_own (s : State) :
    (s.drawn).own = s.own := rfl
@[simp] theorem drawn_safety (s : State) :
    (s.drawn).safety = s.safety := rfl
@[simp] theorem drawn_trans (s : State) :
    (s.drawn).trans = s.trans := rfl
@[simp] theorem drawn_config (s : State) :
    (s.drawn).config = s.config := rfl
@[simp] theorem drawn_session (s : State) :
    (s.drawn).session = s.session := rfl
@[simp] theorem drawn_port (s : State) :
    (s.drawn).port = s.port := rfl
@[simp] theorem drawn_freeReads (s : State) :
    (s.drawn).freeReads = s.freeReads + 1 := rfl

/-! ## `State.post` -/

@[simp] theorem post_pending (s : State) (tag kind : Byte) (st : Status) (r : List Byte) :
    (s.post tag kind st r).pending = s.pending := rfl
@[simp] theorem post_mode (s : State) (tag kind : Byte) (st : Status) (r : List Byte) :
    (s.post tag kind st r).mode = s.mode := rfl
@[simp] theorem post_stopPending (s : State) (tag kind : Byte) (st : Status) (r : List Byte) :
    (s.post tag kind st r).stopPending = s.stopPending := rfl
@[simp] theorem post_roster (s : State) (tag kind : Byte) (st : Status) (r : List Byte) :
    (s.post tag kind st r).roster = s.roster := rfl
@[simp] theorem post_supervised (s : State) (tag kind : Byte) (st : Status) (r : List Byte) :
    (s.post tag kind st r).supervised = s.supervised := rfl
@[simp] theorem post_profiles (s : State) (tag kind : Byte) (st : Status) (r : List Byte) :
    (s.post tag kind st r).profiles = s.profiles := rfl
@[simp] theorem post_cond (s : State) (tag kind : Byte) (st : Status) (r : List Byte) :
    (s.post tag kind st r).cond = s.cond := rfl
@[simp] theorem post_overrides (s : State) (tag kind : Byte) (st : Status) (r : List Byte) :
    (s.post tag kind st r).overrides = s.overrides := rfl
@[simp] theorem post_scan (s : State) (tag kind : Byte) (st : Status) (r : List Byte) :
    (s.post tag kind st r).scan = s.scan := rfl
@[simp] theorem post_lineA (s : State) (tag kind : Byte) (st : Status) (r : List Byte) :
    (s.post tag kind st r).lineA = s.lineA := rfl
@[simp] theorem post_lineB (s : State) (tag kind : Byte) (st : Status) (r : List Byte) :
    (s.post tag kind st r).lineB = s.lineB := rfl
@[simp] theorem post_own (s : State) (tag kind : Byte) (st : Status) (r : List Byte) :
    (s.post tag kind st r).own = s.own := rfl
@[simp] theorem post_safety (s : State) (tag kind : Byte) (st : Status) (r : List Byte) :
    (s.post tag kind st r).safety = s.safety := rfl
@[simp] theorem post_trans (s : State) (tag kind : Byte) (st : Status) (r : List Byte) :
    (s.post tag kind st r).trans = s.trans := rfl
@[simp] theorem post_config (s : State) (tag kind : Byte) (st : Status) (r : List Byte) :
    (s.post tag kind st r).config = s.config := rfl
@[simp] theorem post_session (s : State) (tag kind : Byte) (st : Status) (r : List Byte) :
    (s.post tag kind st r).session = s.session := rfl
@[simp] theorem post_port (s : State) (tag kind : Byte) (st : Status) (r : List Byte) :
    (s.post tag kind st r).port = { s.port with responses := s.port.responses ++ [⟨tag, kind, st, s.mode, r⟩] } := rfl
@[simp] theorem post_freeReads (s : State) (tag kind : Byte) (st : Status) (r : List Byte) :
    (s.post tag kind st r).freeReads = s.freeReads := rfl

/-! ## `State.defer` -/

@[simp] theorem defer_pending (s : State) :
    (s.defer).pending = s.pending := rfl
@[simp] theorem defer_mode (s : State) :
    (s.defer).mode = s.mode := rfl
@[simp] theorem defer_stopPending (s : State) :
    (s.defer).stopPending = s.stopPending := rfl
@[simp] theorem defer_roster (s : State) :
    (s.defer).roster = s.roster := rfl
@[simp] theorem defer_supervised (s : State) :
    (s.defer).supervised = s.supervised := rfl
@[simp] theorem defer_profiles (s : State) :
    (s.defer).profiles = s.profiles := rfl
@[simp] theorem defer_cond (s : State) :
    (s.defer).cond = s.cond := rfl
@[simp] theorem defer_overrides (s : State) :
    (s.defer).overrides = s.overrides := rfl
@[simp] theorem defer_scan (s : State) :
    (s.defer).scan = s.scan := rfl
@[simp] theorem defer_lineA (s : State) :
    (s.defer).lineA = s.lineA := rfl
@[simp] theorem defer_lineB (s : State) :
    (s.defer).lineB = s.lineB := rfl
@[simp] theorem defer_own (s : State) :
    (s.defer).own = s.own := rfl
@[simp] theorem defer_safety (s : State) :
    (s.defer).safety = s.safety := rfl
@[simp] theorem defer_trans (s : State) :
    (s.defer).trans = s.trans := rfl
@[simp] theorem defer_config (s : State) :
    (s.defer).config = s.config := rfl
@[simp] theorem defer_session (s : State) :
    (s.defer).session = s.session := rfl
@[simp] theorem defer_port (s : State) :
    (s.defer).port = { s.port with deferred := s.port.deferred + 1 } := rfl
@[simp] theorem defer_freeReads (s : State) :
    (s.defer).freeReads = s.freeReads := rfl

/-! ## `State.postDeferred` -/

@[simp] theorem postDeferred_pending (s : State) (tag kind : Byte) (st : Status) (r : List Byte) :
    (s.postDeferred tag kind st r).pending = s.pending := rfl
@[simp] theorem postDeferred_mode (s : State) (tag kind : Byte) (st : Status) (r : List Byte) :
    (s.postDeferred tag kind st r).mode = s.mode := rfl
@[simp] theorem postDeferred_stopPending (s : State) (tag kind : Byte) (st : Status) (r : List Byte) :
    (s.postDeferred tag kind st r).stopPending = s.stopPending := rfl
@[simp] theorem postDeferred_roster (s : State) (tag kind : Byte) (st : Status) (r : List Byte) :
    (s.postDeferred tag kind st r).roster = s.roster := rfl
@[simp] theorem postDeferred_supervised (s : State) (tag kind : Byte) (st : Status) (r : List Byte) :
    (s.postDeferred tag kind st r).supervised = s.supervised := rfl
@[simp] theorem postDeferred_profiles (s : State) (tag kind : Byte) (st : Status) (r : List Byte) :
    (s.postDeferred tag kind st r).profiles = s.profiles := rfl
@[simp] theorem postDeferred_cond (s : State) (tag kind : Byte) (st : Status) (r : List Byte) :
    (s.postDeferred tag kind st r).cond = s.cond := rfl
@[simp] theorem postDeferred_overrides (s : State) (tag kind : Byte) (st : Status) (r : List Byte) :
    (s.postDeferred tag kind st r).overrides = s.overrides := rfl
@[simp] theorem postDeferred_scan (s : State) (tag kind : Byte) (st : Status) (r : List Byte) :
    (s.postDeferred tag kind st r).scan = s.scan := rfl
@[simp] theorem postDeferred_lineA (s : State) (tag kind : Byte) (st : Status) (r : List Byte) :
    (s.postDeferred tag kind st r).lineA = s.lineA := rfl
@[simp] theorem postDeferred_lineB (s : State) (tag kind : Byte) (st : Status) (r : List Byte) :
    (s.postDeferred tag kind st r).lineB = s.lineB := rfl
@[simp] theorem postDeferred_own (s : State) (tag kind : Byte) (st : Status) (r : List Byte) :
    (s.postDeferred tag kind st r).own = s.own := rfl
@[simp] theorem postDeferred_safety (s : State) (tag kind : Byte) (st : Status) (r : List Byte) :
    (s.postDeferred tag kind st r).safety = s.safety := rfl
@[simp] theorem postDeferred_trans (s : State) (tag kind : Byte) (st : Status) (r : List Byte) :
    (s.postDeferred tag kind st r).trans = s.trans := rfl
@[simp] theorem postDeferred_config (s : State) (tag kind : Byte) (st : Status) (r : List Byte) :
    (s.postDeferred tag kind st r).config = s.config := rfl
@[simp] theorem postDeferred_session (s : State) (tag kind : Byte) (st : Status) (r : List Byte) :
    (s.postDeferred tag kind st r).session = s.session := rfl
@[simp] theorem postDeferred_port (s : State) (tag kind : Byte) (st : Status) (r : List Byte) :
    (s.postDeferred tag kind st r).port = { s.port with responses := s.port.responses ++ [⟨tag, kind, st, s.mode, r⟩], deferred := s.port.deferred - 1 } := rfl
@[simp] theorem postDeferred_freeReads (s : State) (tag kind : Byte) (st : Status) (r : List Byte) :
    (s.postDeferred tag kind st r).freeReads = s.freeReads := rfl

/-! ## `State.setRecords` -/

@[simp] theorem setRecords_pending (s : State) (rs : List ConditionRecord) :
    (s.setRecords rs).pending = s.pending := rfl
@[simp] theorem setRecords_mode (s : State) (rs : List ConditionRecord) :
    (s.setRecords rs).mode = s.mode := rfl
@[simp] theorem setRecords_stopPending (s : State) (rs : List ConditionRecord) :
    (s.setRecords rs).stopPending = s.stopPending := rfl
@[simp] theorem setRecords_roster (s : State) (rs : List ConditionRecord) :
    (s.setRecords rs).roster = s.roster := rfl
@[simp] theorem setRecords_supervised (s : State) (rs : List ConditionRecord) :
    (s.setRecords rs).supervised = s.supervised := rfl
@[simp] theorem setRecords_profiles (s : State) (rs : List ConditionRecord) :
    (s.setRecords rs).profiles = s.profiles := rfl
@[simp] theorem setRecords_cond (s : State) (rs : List ConditionRecord) :
    (s.setRecords rs).cond = { s.cond with records := rs } := rfl
@[simp] theorem setRecords_overrides (s : State) (rs : List ConditionRecord) :
    (s.setRecords rs).overrides = s.overrides := rfl
@[simp] theorem setRecords_scan (s : State) (rs : List ConditionRecord) :
    (s.setRecords rs).scan = s.scan := rfl
@[simp] theorem setRecords_lineA (s : State) (rs : List ConditionRecord) :
    (s.setRecords rs).lineA = s.lineA := rfl
@[simp] theorem setRecords_lineB (s : State) (rs : List ConditionRecord) :
    (s.setRecords rs).lineB = s.lineB := rfl
@[simp] theorem setRecords_own (s : State) (rs : List ConditionRecord) :
    (s.setRecords rs).own = s.own := rfl
@[simp] theorem setRecords_safety (s : State) (rs : List ConditionRecord) :
    (s.setRecords rs).safety = s.safety := rfl
@[simp] theorem setRecords_trans (s : State) (rs : List ConditionRecord) :
    (s.setRecords rs).trans = s.trans := rfl
@[simp] theorem setRecords_config (s : State) (rs : List ConditionRecord) :
    (s.setRecords rs).config = s.config := rfl
@[simp] theorem setRecords_session (s : State) (rs : List ConditionRecord) :
    (s.setRecords rs).session = s.session := rfl
@[simp] theorem setRecords_port (s : State) (rs : List ConditionRecord) :
    (s.setRecords rs).port = s.port := rfl
@[simp] theorem setRecords_freeReads (s : State) (rs : List ConditionRecord) :
    (s.setRecords rs).freeReads = s.freeReads := rfl

/-! ## `State.changeRecord` -/

@[simp] theorem changeRecord_pending (s : State) (i : Fin 64) (f : ConditionRecord → ConditionRecord) :
    (s.changeRecord i f).pending = s.pending := rfl
@[simp] theorem changeRecord_mode (s : State) (i : Fin 64) (f : ConditionRecord → ConditionRecord) :
    (s.changeRecord i f).mode = s.mode := rfl
@[simp] theorem changeRecord_stopPending (s : State) (i : Fin 64) (f : ConditionRecord → ConditionRecord) :
    (s.changeRecord i f).stopPending = s.stopPending := rfl
@[simp] theorem changeRecord_roster (s : State) (i : Fin 64) (f : ConditionRecord → ConditionRecord) :
    (s.changeRecord i f).roster = s.roster := rfl
@[simp] theorem changeRecord_supervised (s : State) (i : Fin 64) (f : ConditionRecord → ConditionRecord) :
    (s.changeRecord i f).supervised = s.supervised := rfl
@[simp] theorem changeRecord_profiles (s : State) (i : Fin 64) (f : ConditionRecord → ConditionRecord) :
    (s.changeRecord i f).profiles = s.profiles := rfl
@[simp] theorem changeRecord_cond (s : State) (i : Fin 64) (f : ConditionRecord → ConditionRecord) :
    (s.changeRecord i f).cond = { s.cond with records := s.cond.records.map (fun q => if q.slot = i then f q else q) } := rfl
@[simp] theorem changeRecord_overrides (s : State) (i : Fin 64) (f : ConditionRecord → ConditionRecord) :
    (s.changeRecord i f).overrides = s.overrides := rfl
@[simp] theorem changeRecord_scan (s : State) (i : Fin 64) (f : ConditionRecord → ConditionRecord) :
    (s.changeRecord i f).scan = s.scan := rfl
@[simp] theorem changeRecord_lineA (s : State) (i : Fin 64) (f : ConditionRecord → ConditionRecord) :
    (s.changeRecord i f).lineA = s.lineA := rfl
@[simp] theorem changeRecord_lineB (s : State) (i : Fin 64) (f : ConditionRecord → ConditionRecord) :
    (s.changeRecord i f).lineB = s.lineB := rfl
@[simp] theorem changeRecord_own (s : State) (i : Fin 64) (f : ConditionRecord → ConditionRecord) :
    (s.changeRecord i f).own = s.own := rfl
@[simp] theorem changeRecord_safety (s : State) (i : Fin 64) (f : ConditionRecord → ConditionRecord) :
    (s.changeRecord i f).safety = s.safety := rfl
@[simp] theorem changeRecord_trans (s : State) (i : Fin 64) (f : ConditionRecord → ConditionRecord) :
    (s.changeRecord i f).trans = s.trans := rfl
@[simp] theorem changeRecord_config (s : State) (i : Fin 64) (f : ConditionRecord → ConditionRecord) :
    (s.changeRecord i f).config = s.config := rfl
@[simp] theorem changeRecord_session (s : State) (i : Fin 64) (f : ConditionRecord → ConditionRecord) :
    (s.changeRecord i f).session = s.session := rfl
@[simp] theorem changeRecord_port (s : State) (i : Fin 64) (f : ConditionRecord → ConditionRecord) :
    (s.changeRecord i f).port = s.port := rfl
@[simp] theorem changeRecord_freeReads (s : State) (i : Fin 64) (f : ConditionRecord → ConditionRecord) :
    (s.changeRecord i f).freeReads = s.freeReads := rfl

/-! ## `State.removeRecord` -/

@[simp] theorem removeRecord_pending (s : State) (r : ConditionRecord) :
    (s.removeRecord r).pending = s.pending := rfl
@[simp] theorem removeRecord_mode (s : State) (r : ConditionRecord) :
    (s.removeRecord r).mode = s.mode := rfl
@[simp] theorem removeRecord_stopPending (s : State) (r : ConditionRecord) :
    (s.removeRecord r).stopPending = s.stopPending := rfl
@[simp] theorem removeRecord_roster (s : State) (r : ConditionRecord) :
    (s.removeRecord r).roster = s.roster := rfl
@[simp] theorem removeRecord_supervised (s : State) (r : ConditionRecord) :
    (s.removeRecord r).supervised = s.supervised := rfl
@[simp] theorem removeRecord_profiles (s : State) (r : ConditionRecord) :
    (s.removeRecord r).profiles = s.profiles := rfl
@[simp] theorem removeRecord_cond (s : State) (r : ConditionRecord) :
    (s.removeRecord r).cond = { s.cond with records := s.cond.records.eraseP (fun q => decide (q.slot = r.slot)), generations := s.cond.generations.set r.slot.val (s.cond.generations[r.slot.val] + 1), sweepOwed := true } := rfl
@[simp] theorem removeRecord_overrides (s : State) (r : ConditionRecord) :
    (s.removeRecord r).overrides = s.overrides := rfl
@[simp] theorem removeRecord_scan (s : State) (r : ConditionRecord) :
    (s.removeRecord r).scan = s.scan := rfl
@[simp] theorem removeRecord_lineA (s : State) (r : ConditionRecord) :
    (s.removeRecord r).lineA = s.lineA := rfl
@[simp] theorem removeRecord_lineB (s : State) (r : ConditionRecord) :
    (s.removeRecord r).lineB = s.lineB := rfl
@[simp] theorem removeRecord_own (s : State) (r : ConditionRecord) :
    (s.removeRecord r).own = s.own := rfl
@[simp] theorem removeRecord_safety (s : State) (r : ConditionRecord) :
    (s.removeRecord r).safety = s.safety := rfl
@[simp] theorem removeRecord_trans (s : State) (r : ConditionRecord) :
    (s.removeRecord r).trans = s.trans := rfl
@[simp] theorem removeRecord_config (s : State) (r : ConditionRecord) :
    (s.removeRecord r).config = s.config := rfl
@[simp] theorem removeRecord_session (s : State) (r : ConditionRecord) :
    (s.removeRecord r).session = s.session := rfl
@[simp] theorem removeRecord_port (s : State) (r : ConditionRecord) :
    (s.removeRecord r).port = s.port := rfl
@[simp] theorem removeRecord_freeReads (s : State) (r : ConditionRecord) :
    (s.removeRecord r).freeReads = s.freeReads := rfl

/-! ## `State.countOverflow` -/

@[simp] theorem countOverflow_pending (s : State) :
    (s.countOverflow).pending = s.pending := rfl
@[simp] theorem countOverflow_mode (s : State) :
    (s.countOverflow).mode = s.mode := rfl
@[simp] theorem countOverflow_stopPending (s : State) :
    (s.countOverflow).stopPending = s.stopPending := rfl
@[simp] theorem countOverflow_roster (s : State) :
    (s.countOverflow).roster = s.roster := rfl
@[simp] theorem countOverflow_supervised (s : State) :
    (s.countOverflow).supervised = s.supervised := rfl
@[simp] theorem countOverflow_profiles (s : State) :
    (s.countOverflow).profiles = s.profiles := rfl
@[simp] theorem countOverflow_cond (s : State) :
    (s.countOverflow).cond = { s.cond with overflowCount := min 65535 (s.cond.overflowCount + 1), overflowFlag := true } := rfl
@[simp] theorem countOverflow_overrides (s : State) :
    (s.countOverflow).overrides = s.overrides := rfl
@[simp] theorem countOverflow_scan (s : State) :
    (s.countOverflow).scan = s.scan := rfl
@[simp] theorem countOverflow_lineA (s : State) :
    (s.countOverflow).lineA = s.lineA := rfl
@[simp] theorem countOverflow_lineB (s : State) :
    (s.countOverflow).lineB = s.lineB := rfl
@[simp] theorem countOverflow_own (s : State) :
    (s.countOverflow).own = s.own := rfl
@[simp] theorem countOverflow_safety (s : State) :
    (s.countOverflow).safety = s.safety := rfl
@[simp] theorem countOverflow_trans (s : State) :
    (s.countOverflow).trans = s.trans := rfl
@[simp] theorem countOverflow_config (s : State) :
    (s.countOverflow).config = s.config := rfl
@[simp] theorem countOverflow_session (s : State) :
    (s.countOverflow).session = s.session := rfl
@[simp] theorem countOverflow_port (s : State) :
    (s.countOverflow).port = s.port := rfl
@[simp] theorem countOverflow_freeReads (s : State) :
    (s.countOverflow).freeReads = s.freeReads := rfl

/-! ## `State.setSession` -/

@[simp] theorem setSession_pending (s : State) (o : Option OpenSession) :
    (s.setSession o).pending = s.pending := rfl
@[simp] theorem setSession_mode (s : State) (o : Option OpenSession) :
    (s.setSession o).mode = s.mode := rfl
@[simp] theorem setSession_stopPending (s : State) (o : Option OpenSession) :
    (s.setSession o).stopPending = s.stopPending := rfl
@[simp] theorem setSession_roster (s : State) (o : Option OpenSession) :
    (s.setSession o).roster = s.roster := rfl
@[simp] theorem setSession_supervised (s : State) (o : Option OpenSession) :
    (s.setSession o).supervised = s.supervised := rfl
@[simp] theorem setSession_profiles (s : State) (o : Option OpenSession) :
    (s.setSession o).profiles = s.profiles := rfl
@[simp] theorem setSession_cond (s : State) (o : Option OpenSession) :
    (s.setSession o).cond = s.cond := rfl
@[simp] theorem setSession_overrides (s : State) (o : Option OpenSession) :
    (s.setSession o).overrides = s.overrides := rfl
@[simp] theorem setSession_scan (s : State) (o : Option OpenSession) :
    (s.setSession o).scan = s.scan := rfl
@[simp] theorem setSession_lineA (s : State) (o : Option OpenSession) :
    (s.setSession o).lineA = s.lineA := rfl
@[simp] theorem setSession_lineB (s : State) (o : Option OpenSession) :
    (s.setSession o).lineB = s.lineB := rfl
@[simp] theorem setSession_own (s : State) (o : Option OpenSession) :
    (s.setSession o).own = s.own := rfl
@[simp] theorem setSession_safety (s : State) (o : Option OpenSession) :
    (s.setSession o).safety = s.safety := rfl
@[simp] theorem setSession_trans (s : State) (o : Option OpenSession) :
    (s.setSession o).trans = s.trans := rfl
@[simp] theorem setSession_config (s : State) (o : Option OpenSession) :
    (s.setSession o).config = s.config := rfl
@[simp] theorem setSession_session (s : State) (o : Option OpenSession) :
    (s.setSession o).session = { s.session with current := o } := rfl
@[simp] theorem setSession_port (s : State) (o : Option OpenSession) :
    (s.setSession o).port = s.port := rfl
@[simp] theorem setSession_freeReads (s : State) (o : Option OpenSession) :
    (s.setSession o).freeReads = s.freeReads := rfl

/-! ## `State.send` -/

@[simp] theorem send_pending (s : State) (j : Job) (l : LineId) (f : Frame) (w : Option Nat) :
    (s.send j l f w).pending = s.pending := rfl
@[simp] theorem send_mode (s : State) (j : Job) (l : LineId) (f : Frame) (w : Option Nat) :
    (s.send j l f w).mode = s.mode := rfl
@[simp] theorem send_stopPending (s : State) (j : Job) (l : LineId) (f : Frame) (w : Option Nat) :
    (s.send j l f w).stopPending = s.stopPending := rfl
@[simp] theorem send_roster (s : State) (j : Job) (l : LineId) (f : Frame) (w : Option Nat) :
    (s.send j l f w).roster = s.roster := rfl
@[simp] theorem send_supervised (s : State) (j : Job) (l : LineId) (f : Frame) (w : Option Nat) :
    (s.send j l f w).supervised = s.supervised := rfl
@[simp] theorem send_profiles (s : State) (j : Job) (l : LineId) (f : Frame) (w : Option Nat) :
    (s.send j l f w).profiles = s.profiles := rfl
@[simp] theorem send_cond (s : State) (j : Job) (l : LineId) (f : Frame) (w : Option Nat) :
    (s.send j l f w).cond = s.cond := rfl
@[simp] theorem send_overrides (s : State) (j : Job) (l : LineId) (f : Frame) (w : Option Nat) :
    (s.send j l f w).overrides = s.overrides := rfl
@[simp] theorem send_scan (s : State) (j : Job) (l : LineId) (f : Frame) (w : Option Nat) :
    (s.send j l f w).scan = { s.scan with flight := some ⟨j, l, f, w, .sending⟩ } := rfl
@[simp] theorem send_lineA (s : State) (j : Job) (l : LineId) (f : Frame) (w : Option Nat) :
    (s.send j l f w).lineA = s.lineA := rfl
@[simp] theorem send_lineB (s : State) (j : Job) (l : LineId) (f : Frame) (w : Option Nat) :
    (s.send j l f w).lineB = s.lineB := rfl
@[simp] theorem send_own (s : State) (j : Job) (l : LineId) (f : Frame) (w : Option Nat) :
    (s.send j l f w).own = s.own := rfl
@[simp] theorem send_safety (s : State) (j : Job) (l : LineId) (f : Frame) (w : Option Nat) :
    (s.send j l f w).safety = s.safety := rfl
@[simp] theorem send_trans (s : State) (j : Job) (l : LineId) (f : Frame) (w : Option Nat) :
    (s.send j l f w).trans = s.trans := rfl
@[simp] theorem send_config (s : State) (j : Job) (l : LineId) (f : Frame) (w : Option Nat) :
    (s.send j l f w).config = s.config := rfl
@[simp] theorem send_session (s : State) (j : Job) (l : LineId) (f : Frame) (w : Option Nat) :
    (s.send j l f w).session = s.session := rfl
@[simp] theorem send_port (s : State) (j : Job) (l : LineId) (f : Frame) (w : Option Nat) :
    (s.send j l f w).port = s.port := rfl
@[simp] theorem send_freeReads (s : State) (j : Job) (l : LineId) (f : Frame) (w : Option Nat) :
    (s.send j l f w).freeReads = s.freeReads := rfl

/-! ## `State.popRequest` -/

@[simp] theorem popRequest_pending (s : State) :
    (s.popRequest).pending = s.pending := rfl
@[simp] theorem popRequest_mode (s : State) :
    (s.popRequest).mode = s.mode := rfl
@[simp] theorem popRequest_stopPending (s : State) :
    (s.popRequest).stopPending = s.stopPending := rfl
@[simp] theorem popRequest_roster (s : State) :
    (s.popRequest).roster = s.roster := rfl
@[simp] theorem popRequest_supervised (s : State) :
    (s.popRequest).supervised = s.supervised := rfl
@[simp] theorem popRequest_profiles (s : State) :
    (s.popRequest).profiles = s.profiles := rfl
@[simp] theorem popRequest_cond (s : State) :
    (s.popRequest).cond = s.cond := rfl
@[simp] theorem popRequest_overrides (s : State) :
    (s.popRequest).overrides = s.overrides := rfl
@[simp] theorem popRequest_scan (s : State) :
    (s.popRequest).scan = s.scan := rfl
@[simp] theorem popRequest_lineA (s : State) :
    (s.popRequest).lineA = s.lineA := rfl
@[simp] theorem popRequest_lineB (s : State) :
    (s.popRequest).lineB = s.lineB := rfl
@[simp] theorem popRequest_own (s : State) :
    (s.popRequest).own = s.own := rfl
@[simp] theorem popRequest_safety (s : State) :
    (s.popRequest).safety = s.safety := rfl
@[simp] theorem popRequest_trans (s : State) :
    (s.popRequest).trans = s.trans := rfl
@[simp] theorem popRequest_config (s : State) :
    (s.popRequest).config = s.config := rfl
@[simp] theorem popRequest_session (s : State) :
    (s.popRequest).session = s.session := rfl
@[simp] theorem popRequest_port (s : State) :
    (s.popRequest).port = { s.port with requests := s.port.requests.tail } := rfl
@[simp] theorem popRequest_freeReads (s : State) :
    (s.popRequest).freeReads = s.freeReads := rfl

/-! ## `State.restartGap` -/

@[simp] theorem restartGap_pending (s : State) :
    (s.restartGap).pending = s.pending := rfl
@[simp] theorem restartGap_mode (s : State) :
    (s.restartGap).mode = s.mode := rfl
@[simp] theorem restartGap_stopPending (s : State) :
    (s.restartGap).stopPending = s.stopPending := rfl
@[simp] theorem restartGap_roster (s : State) :
    (s.restartGap).roster = s.roster := rfl
@[simp] theorem restartGap_supervised (s : State) :
    (s.restartGap).supervised = s.supervised := rfl
@[simp] theorem restartGap_profiles (s : State) :
    (s.restartGap).profiles = s.profiles := rfl
@[simp] theorem restartGap_cond (s : State) :
    (s.restartGap).cond = s.cond := rfl
@[simp] theorem restartGap_overrides (s : State) :
    (s.restartGap).overrides = s.overrides := rfl
@[simp] theorem restartGap_scan (s : State) :
    (s.restartGap).scan = s.scan := rfl
@[simp] theorem restartGap_lineA (s : State) :
    (s.restartGap).lineA = s.lineA := rfl
@[simp] theorem restartGap_lineB (s : State) :
    (s.restartGap).lineB = s.lineB := rfl
@[simp] theorem restartGap_own (s : State) :
    (s.restartGap).own = s.own := rfl
@[simp] theorem restartGap_safety (s : State) :
    (s.restartGap).safety = s.safety := rfl
@[simp] theorem restartGap_trans (s : State) :
    (s.restartGap).trans = s.trans := rfl
@[simp] theorem restartGap_config (s : State) :
    (s.restartGap).config = { s.config with gapTimer := some s.config.gapSetting } := rfl
@[simp] theorem restartGap_session (s : State) :
    (s.restartGap).session = s.session := rfl
@[simp] theorem restartGap_port (s : State) :
    (s.restartGap).port = s.port := rfl
@[simp] theorem restartGap_freeReads (s : State) :
    (s.restartGap).freeReads = s.freeReads := rfl

/-! ## `State.closeStaging` -/

@[simp] theorem closeStaging_pending (s : State) :
    (s.closeStaging).pending = s.pending := rfl
@[simp] theorem closeStaging_mode (s : State) :
    (s.closeStaging).mode = s.mode := rfl
@[simp] theorem closeStaging_stopPending (s : State) :
    (s.closeStaging).stopPending = s.stopPending := rfl
@[simp] theorem closeStaging_roster (s : State) :
    (s.closeStaging).roster = s.roster := rfl
@[simp] theorem closeStaging_supervised (s : State) :
    (s.closeStaging).supervised = s.supervised := rfl
@[simp] theorem closeStaging_profiles (s : State) :
    (s.closeStaging).profiles = s.profiles := rfl
@[simp] theorem closeStaging_cond (s : State) :
    (s.closeStaging).cond = s.cond := rfl
@[simp] theorem closeStaging_overrides (s : State) :
    (s.closeStaging).overrides = s.overrides := rfl
@[simp] theorem closeStaging_scan (s : State) :
    (s.closeStaging).scan = s.scan := rfl
@[simp] theorem closeStaging_lineA (s : State) :
    (s.closeStaging).lineA = s.lineA := rfl
@[simp] theorem closeStaging_lineB (s : State) :
    (s.closeStaging).lineB = s.lineB := rfl
@[simp] theorem closeStaging_own (s : State) :
    (s.closeStaging).own = s.own := rfl
@[simp] theorem closeStaging_safety (s : State) :
    (s.closeStaging).safety = s.safety := rfl
@[simp] theorem closeStaging_trans (s : State) :
    (s.closeStaging).trans = s.trans := rfl
@[simp] theorem closeStaging_config (s : State) :
    (s.closeStaging).config = { s.config with staging := .closed, gapTimer := none } := rfl
@[simp] theorem closeStaging_session (s : State) :
    (s.closeStaging).session = s.session := rfl
@[simp] theorem closeStaging_port (s : State) :
    (s.closeStaging).port = s.port := rfl
@[simp] theorem closeStaging_freeReads (s : State) :
    (s.closeStaging).freeReads = s.freeReads := rfl

/-! ## `State.setLine` -/

@[simp] theorem setLine_pending (s : State) (l : LineId) (e : LineEngine) :
    (s.setLine l e).pending = s.pending := by cases l <;> rfl
@[simp] theorem setLine_mode (s : State) (l : LineId) (e : LineEngine) :
    (s.setLine l e).mode = s.mode := by cases l <;> rfl
@[simp] theorem setLine_stopPending (s : State) (l : LineId) (e : LineEngine) :
    (s.setLine l e).stopPending = s.stopPending := by cases l <;> rfl
@[simp] theorem setLine_roster (s : State) (l : LineId) (e : LineEngine) :
    (s.setLine l e).roster = s.roster := by cases l <;> rfl
@[simp] theorem setLine_supervised (s : State) (l : LineId) (e : LineEngine) :
    (s.setLine l e).supervised = s.supervised := by cases l <;> rfl
@[simp] theorem setLine_profiles (s : State) (l : LineId) (e : LineEngine) :
    (s.setLine l e).profiles = s.profiles := by cases l <;> rfl
@[simp] theorem setLine_cond (s : State) (l : LineId) (e : LineEngine) :
    (s.setLine l e).cond = s.cond := by cases l <;> rfl
@[simp] theorem setLine_overrides (s : State) (l : LineId) (e : LineEngine) :
    (s.setLine l e).overrides = s.overrides := by cases l <;> rfl
@[simp] theorem setLine_scan (s : State) (l : LineId) (e : LineEngine) :
    (s.setLine l e).scan = s.scan := by cases l <;> rfl
@[simp] theorem setLine_own (s : State) (l : LineId) (e : LineEngine) :
    (s.setLine l e).own = s.own := by cases l <;> rfl
@[simp] theorem setLine_safety (s : State) (l : LineId) (e : LineEngine) :
    (s.setLine l e).safety = s.safety := by cases l <;> rfl
@[simp] theorem setLine_trans (s : State) (l : LineId) (e : LineEngine) :
    (s.setLine l e).trans = s.trans := by cases l <;> rfl
@[simp] theorem setLine_config (s : State) (l : LineId) (e : LineEngine) :
    (s.setLine l e).config = s.config := by cases l <;> rfl
@[simp] theorem setLine_session (s : State) (l : LineId) (e : LineEngine) :
    (s.setLine l e).session = s.session := by cases l <;> rfl
@[simp] theorem setLine_port (s : State) (l : LineId) (e : LineEngine) :
    (s.setLine l e).port = s.port := by cases l <;> rfl
@[simp] theorem setLine_freeReads (s : State) (l : LineId) (e : LineEngine) :
    (s.setLine l e).freeReads = s.freeReads := by cases l <;> rfl

@[simp] theorem setLine_line_same (s : State) (l : LineId) (e : LineEngine) : (s.setLine l e).line l = e := by
  cases l <;> rfl

@[simp] theorem setLine_line_other (s : State) (l m : LineId) (e : LineEngine) (h : m ≠ l) :
    (s.setLine l e).line m = s.line m := by
  cases l <;> cases m <;> first | rfl | exact absurd rfl h

/-! ## Reading back through the accessors -/

@[simp] theorem entry_setEntry_same (s : State) (a : Addr) (e : Entry) : (s.setEntry a e).entry a = e := by
  simp [State.entry, State.setEntry]

theorem entry_setEntry_other (s : State) (a b : Addr) (e : Entry) (h : b ≠ a) :
    (s.setEntry a e).entry b = s.entry b := by
  have : a.val ≠ b.val := fun hv => h (Fin.ext hv.symm)
  simp [State.entry, State.setEntry, this]

@[simp] theorem slot_setSlot_same (s : State) (i : Fin 4) (t : Option Transaction) : (s.setSlot i t).slot i = t := by
  simp [State.slot, State.setSlot]

theorem slot_setSlot_other (s : State) (i j : Fin 4) (t : Option Transaction) (h : j ≠ i) :
    (s.setSlot i t).slot j = s.slot j := by
  have : i.val ≠ j.val := fun hv => h (Fin.ext hv.symm)
  simp [State.slot, State.setSlot, this]

@[simp] theorem toggle_setToggle_same (s : State) (a : Addr) (b : Bool) : (s.setToggle a b).toggle a = b := by
  simp [State.toggle, State.setToggle]

@[simp] theorem slice_setSlice_same (s : State) (a : Addr) (b : List Byte) : (s.setSlice a b).slice a = b := by
  simp [State.slice, State.setSlice]

end Sys2Proof.Laws
end

