-- ==== Sys2Proof/Laws/Conditions.lean ====
section
/-! SUPPORT. What the condition unit's operations can do: they change the condition unit alone, and the mode only from
SCANNING to HELD; and what they keep. -/

namespace Sys2Proof.Laws

open Sys2Proof.Machine

/-- `t` is `s` but for the condition unit, and the mode may have gone from SCANNING to HELD (R77). -/
def CondOnly (s t : State) : Prop :=
  t = { s with cond := t.cond, mode := t.mode } ∧ (t.mode = s.mode ∨ (s.mode = .scanning ∧ t.mode = .held))

theorem CondOnly.refl (s : State) : CondOnly s s := ⟨rfl, Or.inl rfl⟩

theorem CondOnly.trans {s t u : State} (h : CondOnly s t) (k : CondOnly t u) : CondOnly s u := by
  refine ⟨?_, ?_⟩
  · have h1 := h.1
    have k1 := k.1
    rw [k1, h1]
  · rcases h.2 with h2 | h2 <;> rcases k.2 with k2 | k2
    · exact Or.inl (k2.trans h2)
    · exact Or.inr ⟨h2 ▸ k2.1, k2.2⟩
    · exact Or.inr ⟨h2.1, k2.trans h2.2⟩
    · exact Or.inr ⟨h2.1, k2.2⟩

theorem condOnly_foldl {α : Type} (f : State → α → State) (hf : ∀ s x, CondOnly s (f s x)) (xs : List α) (s : State) :
    CondOnly s (xs.foldl f s) := by
  induction xs generalizing s with
  | nil => exact .refl s
  | cons x xs ih => exact (hf s x).trans (ih (f s x))

theorem condOnly_cond (s : State) (c : ConditionUnit) : CondOnly s { s with cond := c } := ⟨rfl, Or.inl rfl⟩

theorem condOnly_setRecords (s : State) (rs : List ConditionRecord) : CondOnly s (s.setRecords rs) :=
  condOnly_cond s _

theorem condOnly_changeRecord (s : State) (i : Fin 64) (f : ConditionRecord → ConditionRecord) :
    CondOnly s (s.changeRecord i f) := condOnly_cond s _

theorem condOnly_removeRecord (s : State) (r : ConditionRecord) : CondOnly s (s.removeRecord r) := condOnly_cond s _

theorem condOnly_countOverflow (s : State) : CondOnly s s.countOverflow := condOnly_cond s _

theorem condOnly_fatalNotice (s : State) : CondOnly s s.fatalNotice := by
  simp only [State.fatalNotice]
  split
  · exact ⟨rfl, Or.inr ⟨‹_›, rfl⟩⟩
  · exact .refl s

theorem condOnly_noticeOf (s : State) (c : ActionClass) : CondOnly s (s.noticeOf c) := by
  simp only [State.noticeOf]
  split
  · exact condOnly_fatalNotice s
  · exact .refl s

theorem condOnly_createRecord (s : State) (c : Cause) : CondOnly s (s.createRecord c) := by
  simp only [State.createRecord]
  split
  · exact .refl s
  · exact (condOnly_setRecords s _).trans (condOnly_noticeOf _ _)

theorem condOnly_restand (s : State) (r : ConditionRecord) (c : Cause) : CondOnly s (s.restand r c) := by
  simp only [State.restand]
  split
  · exact (condOnly_changeRecord s _ _).trans (condOnly_noticeOf _ _)
  · exact .refl s

theorem condOnly_beginFull (s : State) (c : Cause) : CondOnly s (s.beginFull c) := by
  simp only [State.beginFull]
  split
  · split
    · exact ((condOnly_removeRecord s _).trans (condOnly_countOverflow _)).trans (condOnly_createRecord _ _)
    · exact condOnly_countOverflow s
  · exact condOnly_countOverflow s

/-- A beginning changes the condition unit alone, and the mode only to HELD (R52 to R55). -/
theorem condOnly_beginCause (s : State) (c : Cause) : CondOnly s (s.beginCause c) := by
  simp only [State.beginCause]
  split
  · exact condOnly_restand s _ _
  · split
    · exact condOnly_createRecord s _
    · exact condOnly_beginFull s _

/-- An end changes the condition unit alone (R57). -/
theorem condOnly_finishCause (s : State) (k : Key) : CondOnly s (s.finishCause k) := by
  simp only [State.finishCause]
  split
  · exact .refl s
  · split
    · exact .refl s
    · exact condOnly_removeRecord s _
    · split
      · exact condOnly_changeRecord s _ _
      · exact condOnly_removeRecord s _

/-- A refresh changes the condition unit alone (R56). -/
theorem condOnly_refreshCause (s : State) (c : Cause) : CondOnly s (s.refreshCause c) := by
  simp only [State.refreshCause]
  split
  · exact .refl s
  · exact condOnly_changeRecord s _ _

theorem condOnly_sweepOne (s : State) (c : Cause) : CondOnly s (s.sweepOne c) := by
  simp only [State.sweepOne]
  split
  · exact condOnly_createRecord s c
  · exact .refl s

/-- The sweep changes the condition unit alone, and the mode only to HELD (R66). -/
theorem condOnly_sweep (s : State) : CondOnly s s.sweep :=
  (condOnly_foldl _ condOnly_sweepOne s.standingCauses s).trans (condOnly_cond _ _)

theorem condOnly_endGroup (s : State) : CondOnly s s.endGroup := by
  simp only [State.endGroup]
  split
  · exact condOnly_sweep s
  · exact .refl s

theorem condOnly_handChanges (s : State) (before after : List Cause) : CondOnly s (s.handChanges before after) :=
  ((condOnly_foldl _ condOnly_finishCause _ s).trans (condOnly_foldl _ condOnly_beginCause _ _)).trans
    (condOnly_foldl _ condOnly_refreshCause _ _)

theorem condOnly_ackRecord (s : State) (r : ConditionRecord) : CondOnly s (s.ackRecord r) := by
  simp only [State.ackRecord]
  split
  · exact condOnly_changeRecord s _ _
  · exact condOnly_removeRecord s _
  · exact .refl s

theorem condOnly_retireStation (s : State) (a : Addr) : CondOnly s (s.retireStation a) :=
  condOnly_foldl _ condOnly_removeRecord _ s

/-- Every condition operation leaves a group with no sweep owed once it has ended. -/
theorem sweepOwed_sweep (s : State) : s.sweep.cond.sweepOwed = false := rfl

theorem sweepOwed_endGroup (s : State) : s.endGroup.cond.sweepOwed = false := by
  simp only [State.endGroup]
  split
  · exact sweepOwed_sweep s
  · simpa using ‹¬ s.cond.sweepOwed = true›

/-- With no sweep owed the end of a group does nothing. -/
theorem endGroup_of_not_owed {s : State} (h : s.cond.sweepOwed = false) : s.endGroup = s := by
  simp [State.endGroup, h]

/-! ## FATAL records and the mode (R77) -/

/-- R77 as a property of the records and the mode alone. -/
def FatalSafe (s : State) : Prop := (∃ r ∈ s.cond.records, r.cls = .fatal) → s.mode ≠ .scanning

theorem fatalCount_pos {s : State} : 0 < s.fatalCount ↔ ∃ r ∈ s.cond.records, r.cls = .fatal := by
  simp [State.fatalCount, List.countP_pos_iff]

theorem noticeOf_cond (s : State) (c : ActionClass) : (s.noticeOf c).cond = s.cond := by
  simp only [State.noticeOf, State.fatalNotice]
  split <;> [split; skip] <;> rfl

theorem noticeOf_fatal_mode (s : State) : (s.noticeOf .fatal).mode ≠ .scanning := by
  simp only [State.noticeOf, State.fatalNotice, if_true]
  split
  · simp
  · assumption

theorem noticeOf_mode (s : State) (c : ActionClass) (h : s.mode ≠ .scanning) : (s.noticeOf c).mode ≠ .scanning := by
  simp only [State.noticeOf, State.fatalNotice, h, if_false]
  split <;> exact h

theorem fatalSafe_createRecord {s : State} (h : FatalSafe s) (c : Cause) : FatalSafe (s.createRecord c) := by
  simp only [State.createRecord]
  split
  · exact h
  · rename_i slot _
    rintro ⟨r, hr, hc⟩
    rw [noticeOf_cond] at hr
    rcases List.mem_append.1 hr with hr | hr
    · exact noticeOf_mode _ _ (h ⟨r, hr, hc⟩)
    · simp only [List.mem_singleton] at hr
      subst hr
      simp only at hc
      rw [hc]
      exact noticeOf_fatal_mode _

theorem fatalSafe_changeRecord {s : State} (h : FatalSafe s) (i : Fin 64) (f : ConditionRecord → ConditionRecord)
    (hf : ∀ q, (f q).cls = q.cls) : FatalSafe (s.changeRecord i f) := by
  rintro ⟨r, hr, hc⟩
  obtain ⟨q, hq, rfl⟩ := List.mem_map.1 hr
  refine h ⟨q, hq, ?_⟩
  split at hc
  · rw [← hf q]; exact hc
  · exact hc

theorem fatalSafe_removeRecord {s : State} (h : FatalSafe s) (r : ConditionRecord) : FatalSafe (s.removeRecord r) := by
  rintro ⟨q, hq, hc⟩
  exact h ⟨q, List.mem_of_mem_eraseP hq, hc⟩

theorem fatalSafe_noticeOf {s : State} (h : FatalSafe s) (c : ActionClass) : FatalSafe (s.noticeOf c) := by
  rintro ⟨r, hr, hc⟩
  rw [noticeOf_cond] at hr
  exact noticeOf_mode _ _ (h ⟨r, hr, hc⟩)

theorem fatalSafe_beginCause {s : State} (h : FatalSafe s) (c : Cause) : FatalSafe (s.beginCause c) := by
  simp only [State.beginCause]
  split
  · simp only [State.restand]
    split
    · refine fatalSafe_noticeOf (fatalSafe_changeRecord h _ _ ?_) _
      intro q; rfl
    · exact h
  · split
    · exact fatalSafe_createRecord h c
    · simp only [State.beginFull]
      split
      · split
        · exact fatalSafe_createRecord (s := (s.removeRecord _).countOverflow) (fatalSafe_removeRecord h _) c
        · exact h
      · exact h

theorem fatalSafe_finishCause {s : State} (h : FatalSafe s) (k : Key) : FatalSafe (s.finishCause k) := by
  simp only [State.finishCause]
  split
  · exact h
  · split
    · exact h
    · exact fatalSafe_removeRecord h _
    · split
      · exact fatalSafe_changeRecord h _ _ (fun _ => rfl)
      · exact fatalSafe_removeRecord h _

theorem fatalSafe_refreshCause {s : State} (h : FatalSafe s) (c : Cause) : FatalSafe (s.refreshCause c) := by
  simp only [State.refreshCause]
  split
  · exact h
  · exact fatalSafe_changeRecord h _ _ (fun _ => rfl)

theorem keeps_foldl {α : Type} {P : State → Prop} (f : State → α → State) (hf : ∀ s x, P s → P (f s x)) (xs : List α)
    {s : State} (h : P s) : P (xs.foldl f s) := by
  induction xs generalizing s with
  | nil => exact h
  | cons x xs ih => exact ih (hf s x h)

theorem fatalSafe_sweep {s : State} (h : FatalSafe s) : FatalSafe s.sweep := by
  refine keeps_foldl (P := FatalSafe) State.sweepOne (fun t c ht => ?_) s.standingCauses h
  simp only [State.sweepOne]
  split
  · exact fatalSafe_createRecord ht c
  · exact ht

theorem fatalSafe_handChanges {s : State} (h : FatalSafe s) (before after : List Cause) :
    FatalSafe (s.handChanges before after) := by
  simp only [State.handChanges]
  refine keeps_foldl (P := FatalSafe) _ (fun _ c ht => fatalSafe_refreshCause ht c) _ ?_
  refine keeps_foldl (P := FatalSafe) _ (fun _ c ht => fatalSafe_beginCause ht c) _ ?_
  exact keeps_foldl (P := FatalSafe) _ (fun _ c ht => fatalSafe_finishCause ht c) _ h

/-! ## The bound of the table (R45) -/

theorem length_createRecord (s : State) (c : Cause) :
    (s.createRecord c).cond.records.length ≤ s.cond.records.length + 1 := by
  simp only [State.createRecord]
  split
  · omega
  · rw [noticeOf_cond]; simp

theorem victim_mem {s : State} {v : ConditionRecord} (h : s.victim = some v) : v ∈ s.cond.records := by
  simp only [State.victim, Option.or_eq_some_iff] at h
  rcases h with h | ⟨_, h⟩ <;> exact List.mem_of_find?_eq_some h

theorem length_removeRecord {s : State} {r : ConditionRecord} (h : r ∈ s.cond.records) :
    (s.removeRecord r).cond.records.length + 1 = s.cond.records.length := by
  have hp : 0 < s.cond.records.length := List.length_pos_of_mem h
  have := List.length_eraseP_of_mem (p := fun q : ConditionRecord => decide (q.slot = r.slot)) h (by simp)
  simp only [removeRecord_cond, this]
  omega

/-- A beginning keeps the table within 64 records (R45). -/
theorem bounded_beginCause {s : State} (h : s.cond.records.length ≤ 64) (c : Cause) :
    (s.beginCause c).cond.records.length ≤ 64 := by
  simp only [State.beginCause]
  split
  · simp only [State.restand]
    split
    · rw [noticeOf_cond]; simpa using h
    · exact h
  · split
    · have := length_createRecord s c; omega
    · simp only [State.beginFull]
      split
      · split
        · rename_i v hv
          have h1 := length_removeRecord (victim_mem hv)
          have h2 := length_createRecord (s.removeRecord v).countOverflow c
          simp only [countOverflow_cond] at h2
          omega
        · exact h
      · exact h

/-- The sweep keeps the table within 64 records (R66). -/
theorem bounded_sweep {s : State} (h : s.cond.records.length ≤ 64) : s.sweep.cond.records.length ≤ 64 := by
  refine keeps_foldl (P := fun t : State => t.cond.records.length ≤ 64) State.sweepOne (fun t c ht => ?_)
    s.standingCauses h
  simp only [State.sweepOne]
  split
  · rename_i hc
    have := length_createRecord t c; omega
  · exact ht

/-! ## Finding records and slots -/

/-- The record with a key is found where keys are distinct (R45). -/
theorem findRecord_of_mem {s : State} (hn : (s.cond.records.map ConditionRecord.key).Nodup) {q : ConditionRecord}
    (hq : q ∈ s.cond.records) {k : Key} (hk : q.key = k) :
    s.findRecord k = some q := by
  simp only [State.findRecord]
  subst hk
  generalize s.cond.records = rs at hn hq
  induction rs with
  | nil => cases hq
  | cons x xs ih =>
    have hx := List.nodup_cons.1 hn
    by_cases h : x = q
    · subst h; simp
    · have hm : q ∈ xs := by simpa [Ne.symm h] using hq
      have : x.key ≠ q.key := fun e => hx.1 (e ▸ List.mem_map_of_mem hm)
      rw [List.find?_cons_of_neg (by simpa using this)]
      exact ih hx.2 hm

/-- While fewer than 64 records are held there is a free slot, and the lowest is found (R46). -/
theorem freeSlot_spec (rs : List ConditionRecord) (h : rs.length < 64) :
    ∃ i : Fin 64, freeSlot rs = some i ∧ (∀ q ∈ rs, q.slot ≠ i) ∧ (∀ j < i, ∃ q ∈ rs, q.slot = j) := by
  have : ∃ i : Fin 64, ∀ q ∈ rs, q.slot ≠ i := by
    by_contra hc
    push Not at hc
    have hsub : (List.finRange 64) ⊆ rs.map ConditionRecord.slot := by
      intro i _
      obtain ⟨q, hq, he⟩ := hc i
      exact he ▸ List.mem_map_of_mem hq
    have := (List.nodup_finRange 64).subperm hsub |>.length_le
    simp at this; omega
  obtain ⟨i, hi⟩ := this
  cases hf : freeSlot rs with
  | none =>
    simp only [freeSlot, List.find?_eq_none] at hf
    exact absurd (by simpa using hi) (hf i (List.mem_finRange i))
  | some k =>
    simp only [freeSlot] at hf
    have h1 := List.find?_some hf
    refine ⟨k, rfl, by simpa using h1, ?_⟩
    intro j hj
    by_contra hc
    push Not at hc
    rw [List.find?_eq_some_iff_append] at hf
    obtain ⟨_, as, bs, e, hall⟩ := hf
    have hmem : j ∈ as := by
      have hs : (as ++ k :: bs).Pairwise (· < ·) := e ▸ List.pairwise_lt_finRange 64
      have hj' : j ∈ as ++ k :: bs := e ▸ List.mem_finRange j
      rcases List.mem_append.1 hj' with h | h
      · exact h
      · rw [List.pairwise_append] at hs
        rcases List.mem_cons.1 h with h | h
        · subst h; exact absurd hj (lt_irrefl _)
        · have := (List.pairwise_cons.1 hs.2.1).1 j h
          exact absurd hj (lt_asymm this)
    have := hall j hmem
    simp at this
    obtain ⟨q, hq, he⟩ := this
    exact hc q hq he

theorem recordOf_none {s : State} {i : Fin 64} {g : Byte} (h : ∀ q ∈ s.cond.records, q.slot = i → q.generation ≠ g) :
    s.recordOfReference i g = none := by
  simp only [State.recordOfReference, List.find?_eq_none]; intro x hx; simpa using h x hx

/-- The record a reference names is found where slots are distinct (R47). -/
theorem recordOf_some {s : State} (hn : (s.cond.records.map ConditionRecord.slot).Nodup) {q : ConditionRecord}
    (hq : q ∈ s.cond.records) {i : Fin 64} {g : Byte} (hi : q.slot = i) (hg : q.generation = g) :
    s.recordOfReference i g = some q := by
  simp only [State.recordOfReference]
  subst hi; subst hg
  generalize s.cond.records = rs at hn hq
  induction rs with
  | nil => cases hq
  | cons x xs ih =>
    have hx := List.nodup_cons.1 hn
    by_cases h : x = q
    · subst h; simp
    · have hm : q ∈ xs := by simpa [Ne.symm h] using hq
      have : x.slot ≠ q.slot := fun e => hx.1 (e ▸ List.mem_map_of_mem hm)
      rw [List.find?_cons_of_neg (by simp [this])]
      exact ih hx.2 hm

/-- A condition operation leaves every entry, supervision and slice. -/
theorem CondOnly.stations {s t : State} (h : CondOnly s t) :
    t.roster = s.roster ∧ t.supervised = s.supervised ∧ t.scan = s.scan ∧ t.trans = s.trans :=
  ⟨by rw [h.1], by rw [h.1], by rw [h.1], by rw [h.1]⟩

/-! ## Ends and differences that hand nothing -/

/-- The end of a cause reads and writes nothing but the condition unit and the scan number (R57). -/
theorem finishCause_overrides (s : State) (k : Key) (os : List OverrideRecord) :
    State.finishCause { s with overrides := os } k = { s.finishCause k with overrides := os } := by
  show (match s.findRecord k with | none => _ | some r => _) = { (match s.findRecord k with | none => _ | some r => _ : State) with overrides := os }
  cases s.findRecord k with
  | none => rfl
  | some r => cases h : r.state <;> cases h2 : r.latching <;> simp only [h, h2] <;> rfl

/-- Two sets of standing causes that are the same hand nothing. -/
theorem handChanges_same (s : State) (cs : List Cause) : s.handChanges cs cs = s := by
  have h1 : ∀ c ∈ cs, hasKey cs c.key = true := by
    intro c hc; simp only [hasKey, List.any_eq_true, decide_eq_true_eq]; exact ⟨c, hc, rfl⟩
  have e1 : cs.filter (fun c => !hasKey cs c.key) = [] := by
    rw [List.filter_eq_nil_iff]; intro c hc; simp [h1 c hc]
  have e2 : refreshesOf cs cs = [] := by
    simp only [refreshesOf]; rw [List.filter_eq_nil_iff]; intro c hc; simp [hc]
  simp [State.handChanges, e1, e2]

end Sys2Proof.Laws
end

