-- ==== Sys2Proof/Laws/Operations.lean ====
section
/-! SUPPORT. What the shared operations of the units above the condition unit can do, as relations that name the fields
each may change. -/

namespace Sys2Proof.Laws

open Sys2Proof.Machine

/-- The mode is as before, or has gone from SCANNING to HELD (R77). -/
def ModeStep (s t : State) : Prop := t.mode = s.mode ∨ (s.mode = .scanning ∧ t.mode = .held)

theorem ModeStep.trans {s t u : State} (h : ModeStep s t) (k : ModeStep t u) : ModeStep s u := by
  rcases h with h | h <;> rcases k with k | k
  · exact Or.inl (k.trans h)
  · exact Or.inr ⟨h ▸ k.1, k.2⟩
  · exact Or.inr ⟨h.1, k.trans h.2⟩
  · exact Or.inr ⟨h.1, k.2⟩

/-! ## The override unit -/

/-- `t` is `s` but for the override table, the condition unit and the mode. -/
def OverrideOnly (s t : State) : Prop :=
  t = { s with overrides := t.overrides, cond := t.cond, mode := t.mode } ∧ ModeStep s t

theorem OverrideOnly.refl (s : State) : OverrideOnly s s := ⟨rfl, Or.inl rfl⟩

theorem OverrideOnly.trans {s t u : State} (h : OverrideOnly s t) (k : OverrideOnly t u) : OverrideOnly s u :=
  ⟨by rw [k.1, h.1], h.2.trans k.2⟩

theorem CondOnly.override {s t : State} (h : CondOnly s t) : OverrideOnly s t := by
  refine ⟨?_, h.2⟩
  have := h.1
  rw [this]

theorem overrideOnly_overrides (s : State) (os : List OverrideRecord) : OverrideOnly s { s with overrides := os } :=
  ⟨rfl, Or.inl rfl⟩

theorem overrideOnly_createOverride (s : State) (r : OverrideRecord) : OverrideOnly s (s.createOverride r) := by
  simp only [State.createOverride, State.beginForced]
  split
  · exact (overrideOnly_overrides s _).trans (condOnly_beginCause _ _).override
  · exact overrideOnly_overrides s _

/-- A removal changes the override table, the condition unit and the mode alone (R96). -/
theorem overrideOnly_dropOverride (s : State) (r : OverrideRecord) : OverrideOnly s (s.dropOverride r) := by
  simp only [State.dropOverride, State.finishForced]
  split
  · exact (overrideOnly_overrides s _).trans (condOnly_finishCause _ _).override
  · exact overrideOnly_overrides s _

theorem overrideOnly_dropOverrides (s : State) (p : OverrideRecord → Bool) : OverrideOnly s (s.dropOverrides p) := by
  simp only [State.dropOverrides]
  generalize s.overrides.filter p = rs
  induction rs generalizing s with
  | nil => exact .refl s
  | cons r rs ih => exact (overrideOnly_dropOverride s r).trans (ih _)

theorem overrideOnly_applyOverride (s : State) (w : Owner) (a : Addr) (d : Direction) (c : Fin 32) (v : Word)
    (f : Option OverrideRecord) : OverrideOnly s (s.applyOverride w a d c v f).2 := by
  cases f
  · exact overrideOnly_createOverride s _
  · exact overrideOnly_overrides s _

/-- SET OVERRIDE changes the override table, the condition unit and the mode alone (R92 to R94). -/
theorem overrideOnly_setOverride (s : State) (w : Owner) (st d c : Byte) (v : Word) :
    OverrideOnly s (s.setOverride w st d c v).2 := by
  simp only [State.setOverride]
  repeat' split
  all_goals first
    | exact .refl s
    | exact overrideOnly_applyOverride s _ _ _ _ _ _

/-- REMOVE OVERRIDE changes the override table, the condition unit and the mode alone (R96). -/
theorem overrideOnly_removeOverride (s : State) (w : Owner) (st d c : Byte) :
    OverrideOnly s (s.removeOverride w st d c).2 := by
  simp only [State.removeOverride]
  repeat' split
  all_goals first
    | exact .refl s
    | exact overrideOnly_dropOverride s _

/-! ## The transaction unit -/

/-- `t` is `s` but for the transaction unit, the response queue and the deferred count. -/
def TransOnly (s t : State) : Prop :=
  t = { s with trans := t.trans
               port := { s.port with responses := t.port.responses, deferred := t.port.deferred } }

theorem TransOnly.refl (s : State) : TransOnly s s := rfl

theorem TransOnly.trans {s t u : State} (h : TransOnly s t) (k : TransOnly t u) : TransOnly s u := by
  unfold TransOnly at *; rw [k, h]

theorem transOnly_complete (s : State) (i : Fin 4) (t : Transaction) (st : Status) (m : List Byte) :
    TransOnly s (s.complete i t st m) := rfl

theorem transOnly_answerCancel (s : State) (t : Transaction) (st : Status) : TransOnly s (s.answerCancel t st) := by
  simp only [State.answerCancel]; split <;> exact rfl

theorem transOnly_completeAnswered (s : State) (i : Fin 4) (t : Transaction) (st : Status) (m : List Byte) :
    TransOnly s (s.completeAnswered i t st m) :=
  (transOnly_complete s i t st m).trans (transOnly_answerCancel _ t _)

/-- A failed attempt changes the transaction unit and the port alone (R144, R150). -/
theorem transOnly_failAttempt (s : State) (i : Fin 4) (t : Transaction) : TransOnly s (s.failAttempt i t) := by
  simp only [State.failAttempt]
  split
  · exact (transOnly_complete s i t _ _).trans (transOnly_answerCancel _ t _)
  · split <;> exact rfl

/-- Completions change the transaction unit and the port alone (R145). -/
theorem transOnly_completeWhere (s : State) (p : Transaction → Bool) (st : Status) :
    TransOnly s (s.completeWhere p st) := by
  simp only [State.completeWhere]
  generalize allSlots = is
  induction is generalizing s with
  | nil => exact .refl s
  | cons i is ih =>
    refine TransOnly.trans ?_ (ih _)
    dsimp only
    split
    · exact .refl s
    · split
      · exact (transOnly_complete s i _ _ _).trans (transOnly_answerCancel _ _ _)
      · exact .refl s

/-! ## The presence supervisor and the scan engine -/

/-- `t` is `s` but for what a visit and the rest of a cycle may change: the roster, the supervisor's sets, the condition
unit, the mode (to HELD), the course of the cycle, the transaction unit, the response queue and the deferred count. -/
def ScanOnly (s t : State) : Prop :=
  t = { s with
    roster := t.roster
    supervised := t.supervised
    cond := t.cond
    mode := t.mode
    scan := { s.scan with cycle := t.scan.cycle, pointer := t.scan.pointer, buffer := t.scan.buffer,
                          nextAddress := t.scan.nextAddress, flight := t.scan.flight }
    trans := t.trans
    port := { s.port with responses := t.port.responses, deferred := t.port.deferred } } ∧ ModeStep s t

theorem ScanOnly.refl (s : State) : ScanOnly s s := ⟨rfl, Or.inl rfl⟩

theorem ScanOnly.trans {s t u : State} (h : ScanOnly s t) (k : ScanOnly t u) : ScanOnly s u :=
  ⟨by rw [k.1, h.1], h.2.trans k.2⟩

theorem CondOnly.scan {s t : State} (h : CondOnly s t) : ScanOnly s t :=
  ⟨by have := h.1; rw [this], h.2⟩

theorem TransOnly.scan {s t : State} (h : TransOnly s t) : ScanOnly s t := by
  unfold TransOnly at h
  refine ⟨by rw [h], Or.inl (by rw [h])⟩

theorem scanOnly_scan (s : State) (e : ScanEngine)
    (h : e = { s.scan with cycle := e.cycle, pointer := e.pointer, buffer := e.buffer,
                           nextAddress := e.nextAddress, flight := e.flight }) : ScanOnly s { s with scan := e } :=
  ⟨by conv_lhs => rw [h], Or.inl rfl⟩

theorem scanOnly_station (s : State) (a : Addr) (e : Entry) (v : Supervision) :
    ScanOnly s ((s.setEntry a e).setSupervision a v) := ⟨rfl, Or.inl rfl⟩

/-- One update of a station changes the roster, the supervisor's sets, the condition unit and the mode (R25). -/
theorem scanOnly_updateStation (s : State) (a : Addr) (e : Entry) (v : Supervision) :
    ScanOnly s (s.updateStation a e v) :=
  (scanOnly_station s a e v).trans (condOnly_handChanges _ _ _).scan

theorem scanOnly_enterLost (s : State) (a : Addr) (d : Descriptor) : ScanOnly s (s.enterLost a d) := by
  simp only [State.enterLost]
  exact (((scanOnly_station s a _ _).trans (scanOnly_scan _ _ rfl)).trans
    (transOnly_completeWhere _ _ _).scan).trans (condOnly_handChanges _ _ _).scan

theorem scanOnly_lossRule (s : State) (a : Addr) (d : Descriptor) (m : Nat) (k : Presence) :
    ScanOnly s (s.lossRule a d m k) := by
  simp only [State.lossRule]
  split
  · exact scanOnly_enterLost s _ _
  · exact scanOnly_updateStation s _ _ _

theorem scanOnly_takeMiss (s : State) (a : Addr) : ScanOnly s (s.takeMiss a) := by
  simp only [State.takeMiss]
  split
  · exact .refl s
  · split <;> first
      | exact .refl s
      | exact scanOnly_lossRule s _ _ _ _
      | exact scanOnly_updateStation s _ _ _

theorem scanOnly_takeIdentity (s : State) (a : Addr) (l : LineId) (i : Identity) : ScanOnly s (s.takeIdentity a l i) := by
  simp only [State.takeIdentity]
  split
  · exact .refl s
  · exact scanOnly_updateStation s _ _ _

theorem scanOnly_takeReply (s : State) (a : Addr) (l : LineId) (r : ReplyContents) : ScanOnly s (s.takeReply a l r) := by
  simp only [State.takeReply]
  repeat' split
  · exact .refl s
  · exact (scanOnly_scan s _ rfl).trans (scanOnly_updateStation _ _ _ _)
  · exact scanOnly_updateStation s _ _ _

theorem scanOnly_send (s : State) (j : Job) (l : LineId) (f : Frame) (w : Option Nat) : ScanOnly s (s.send j l f w) :=
  scanOnly_scan s _ rfl

theorem scanOnly_issue (s : State) (i : Fin 4) (t : Transaction) (e : Entry) (d : Descriptor) :
    ScanOnly s (s.issue i t e d) := by
  simp only [State.issue]
  split
  · exact (transOnly_failAttempt s i _).scan
  · exact ⟨rfl, Or.inl rfl⟩

theorem scanOnly_afterVisit (s : State) (a : Addr) : ScanOnly s (s.afterVisit a) := by
  refine (condOnly_endGroup s).scan.trans ?_
  simp only [State.afterVisit]
  repeat' split
  all_goals first
    | exact scanOnly_issue _ _ _ _ _
    | exact .refl _

theorem makeAttempt_eq_send {s t : State} {a : Addr} {d : Descriptor} {last : Option LineId} {n : Nat}
    (h : s.makeAttempt a d last n = some t) : ∃ j l f w, t = s.send j l f w := by
  induction n with
  | zero => simp [State.makeAttempt] at h
  | succ n ih =>
    simp only [State.makeAttempt] at h
    split at h
    · exact ⟨_, _, _, _, (Option.some.inj h).symm⟩
    · exact ih h

theorem scanOnly_nextAttempt (s : State) (a : Addr) (d : Descriptor) (last : Option LineId) (n : Nat) :
    ScanOnly s (s.nextAttempt a d last n) := by
  simp only [State.nextAttempt]
  split
  · rename_i h
    obtain ⟨j, l, f, w, rfl⟩ := makeAttempt_eq_send h
    exact scanOnly_send s j l f w
  · exact (scanOnly_takeMiss s a).trans (scanOnly_afterVisit _ a)

theorem scanOnly_visitAt (s : State) (a : Addr) : ScanOnly s (s.visitAt a) := by
  simp only [State.visitAt, State.startVisit]
  repeat' split
  all_goals first
    | exact .refl s
    | exact scanOnly_scan s _ rfl
    | exact (scanOnly_scan s _ rfl).trans (scanOnly_nextAttempt _ _ _ _ _)

theorem scanOnly_visitRest (s : State) : ScanOnly s s.visitRest := by
  simp only [State.visitRest]
  generalize allAddrs.drop s.scan.nextAddress = as
  induction as generalizing s with
  | nil => exact .refl s
  | cons a as ih => exact (scanOnly_visitAt s a).trans (ih _)

theorem scanOnly_judge (s : State) (d : Discovery) : ScanOnly s (s.judge d) := by
  simp only [State.judge]
  repeat' split
  all_goals first
    | exact .refl s
    | exact (scanOnly_updateStation s _ _ _).trans (condOnly_endGroup _).scan

theorem scanOnly_probeNext (s : State) (d : Discovery) : ScanOnly s (s.probeNext d) := by
  simp only [State.probeNext, State.probe]
  repeat' split
  all_goals first
    | exact scanOnly_judge s _
    | exact scanOnly_send s _ _ _ _

theorem scanOnly_enterSessionSlot (s : State) : ScanOnly s s.enterSessionSlot := by
  simp only [State.enterSessionSlot]
  repeat' split
  all_goals exact scanOnly_scan s _ rfl

theorem scanOnly_enterDiscovery (s : State) : ScanOnly s s.enterDiscovery := by
  simp only [State.enterDiscovery]
  repeat' split
  all_goals first
    | exact scanOnly_scan s _ rfl
    | exact (scanOnly_scan s _ rfl).trans (scanOnly_probeNext _ _)

theorem scanOnly_inPart (s : State) (c : CycleState) (f : State → State) (h : ∀ t, ScanOnly t (f t)) :
    ScanOnly s (s.inPart c f) := by
  simp only [State.inPart]
  split
  · exact h s
  · exact .refl s

/-- Going on with a cycle changes only what visits, the session slot and the discovery slot may change (R106 to R109). -/
theorem scanOnly_scanOn (s : State) : ScanOnly s s.scanOn :=
  (((scanOnly_inPart s _ _ scanOnly_visitRest).trans (scanOnly_inPart _ _ _ scanOnly_enterSessionSlot)).trans
    (scanOnly_inPart _ _ _ scanOnly_enterDiscovery)).trans (scanOnly_inPart _ _ _ (fun t => scanOnly_scan t _ rfl))

/-! ## The port -/

/-- The head record of a kind executes when it stands at the head and its response has room (R184). -/
theorem runRequest_of_head {s : State} {k : RequestKind} {r : Memory} {rest : List Memory}
    (hq : s.port.requests = r :: rest) (hk : requestKindOf (requestKindOctet r) = some k)
    (hr : s.port.responses.length + s.port.deferred + 1 ≤ 12) (body : Memory → State → Option Answer × State) :
    s.runRequest k body =
      (answered r (body r { s with port := { s.port with requests := rest } })).endGroup := by
  simp [State.runRequest, State.headReady, hq, hk, State.hasRoom, hr, State.runHead, State.headRequest, State.popRequest]

/-- A head record of another kind, or without room, is left alone by a row of a kind (R184). -/
theorem runRequest_of_not {s : State} {k : RequestKind} (body : Memory → State → Option Answer × State)
    (h : s.headReady (fun b => decide (requestKindOf b = some k)) = false) : s.runRequest k body = s := by
  simp [State.runRequest, h]

end Sys2Proof.Laws
end

