-- ==== Sys2Proof/Laws/Requests.lean ====
section
/-! SUPPORT. How a request at the head executes, in the words of the statements: what a row of a kind does with a record
that is ready, and how operand octets are read. -/

namespace Sys2Proof.Laws

open Sys2Proof.Machine Sys2Proof.Safety

theorem requestKindOf_code (k : RequestKind) : requestKindOf k.code = some k := by cases k <;> rfl

theorem code_injective {j k : RequestKind} (h : j.code = k.code) : j = k := by
  have := requestKindOf_code j
  rw [h, requestKindOf_code] at this
  exact (Option.some.inj this).symm

theorem code_of_requestKindOf {b : Byte} {k : RequestKind} (h : requestKindOf b = some k) : b = k.code := by
  have := List.find?_some h
  exact (of_decide_eq_true this).symm

/-- A record that is ready executes (R184). -/
theorem run_ready {s : State} {k : RequestKind} {r : Memory} {rest : List Memory} (h : Ready s k r rest)
    (body : Memory → State → Option Answer × State) :
    s.runRequest k body = (answered r (body r (taken s rest))).endGroup :=
  runRequest_of_head h.1 (by rw [h.2.1]; exact requestKindOf_code k) h.2.2.1 body

/-- A record that is ready and is answered at once with no sweep owed leaves the state the answer leaves, its response
posted. -/
theorem run_reply {s : State} {k : RequestKind} {r : Memory} {rest : List Memory} (h : Ready s k r rest)
    {body : Memory → State → Option Answer × State} {st : Status} {result : List Byte} {u : State}
    (hb : body r (taken s rest) = (some ⟨st, result⟩, u)) (ho : u.cond.sweepOwed = false) :
    s.runRequest k body = posted u r st result := by
  rw [run_ready h, hb]
  exact endGroup_of_not_owed ho

/-- A record that is ready and leaves its response for later. -/
theorem run_deferred {s : State} {k : RequestKind} {r : Memory} {rest : List Memory} (h : Ready s k r rest)
    {body : Memory → State → Option Answer × State} {u : State}
    (hb : body r (taken s rest) = (none, u)) (ho : u.cond.sweepOwed = false) : s.runRequest k body = u := by
  rw [run_ready h, hb]
  exact endGroup_of_not_owed ho

/-- A record that is ready, is answered at once and hands changes to the condition unit. -/
theorem run_hands {s : State} {k : RequestKind} {r : Memory} {rest : List Memory} (h : Ready s k r rest)
    {body : Memory → State → Option Answer × State} {st : Status} {result : List Byte} {u v : State}
    (hb : body r (taken s rest) = (some ⟨st, result⟩, v)) (hv : CondOnly u v) :
    HandsAndAnswers u (s.runRequest k body) r st result := by
  rw [run_ready h, hb]
  refine ⟨v.mode, hv.2, ?_⟩
  have h1 := condOnly_endGroup (v.post (requestTag r) (requestKindOctet r) st result)
  have h2 : CondOnly { u with port := { u.port with
      responses := u.port.responses ++ [{ tag := r.read 0, kind := r.read 1, status := st, mode := v.mode,
                                          result := result }] } }
      (v.post (requestTag r) (requestKindOctet r) st result) := by
    refine ⟨?_, hv.2⟩
    have := hv.1
    simp only [State.post, requestTag, requestKindOctet]
    rw [this]
  exact h2.trans h1

/-! ## Operand octets -/

theorem toNat_octet {n : Nat} (h : n < 256) : (octet n).toNat = n := by
  simp [octet, Nat.mod_eq_of_lt h]

theorem below_octet {m n : Nat} (hm : m ≤ 256) (h : n < m) : below m (octet n) = some ⟨n, h⟩ := by
  have : (octet n).toNat = n := toNat_octet (by omega)
  simp [below, this, h]

theorem below_none {m : Nat} {b : Byte} (h : m ≤ b.toNat) : below m b = none := by
  simp [below]; omega

theorem addrOf_octet (a : Addr) : addrOf (octet a.val) = some a := below_octet (by omega) a.isLt

theorem addrOf_none {b : Byte} (h : 31 < b.toNat) : addrOf b = none := below_none h

theorem flagOf_code (b : Bool) : flagOf (flagCode b) = some b := by cases b <;> rfl

theorem directionOf_code (d : Direction) : directionOf (directionCode d) = some d := by cases d <;> rfl

theorem categoryOf_code (c : Category) : categoryOf c.code = some c := by cases c <;> rfl

theorem actionClassOf_code (c : ActionClass) : actionClassOf c.code = some c := by cases c <;> rfl

theorem lineOf_code (l : LineId) : lineOf (lineCode (some l)) = some l := by cases l <;> rfl

theorem widthOf_code (w : Width) : widthOf w.code = some w := by cases w <;> rfl

theorem attachmentOf_code (a : Attachment) : attachmentOf a.code = some a := by cases a <;> rfl

theorem lossPolicyOf_code (p : LossPolicy) : lossPolicyOf p.code = some p := by cases p <;> rfl

theorem wordOf_octets (w : Word) : wordOf (lowOctet w) (highOctet w) = w := by
  simp only [wordOf, lowOctet, highOctet]
  apply BitVec.eq_of_getLsbD_eq
  intro i hi
  rw [BitVec.getLsbD_append]
  by_cases h : i < 8
  · simp [h]
  · have : i - 8 < 8 := by omega
    have h8 : 8 + (i - 8) = i := by omega
    simp [h, this, h8]

theorem flagOf_none {b : Byte} (h : 1 < b.toNat) : flagOf b = none := by
  have h1 : b ≠ 1 := by rintro rfl; simp at h
  have h0 : b ≠ 0 := by rintro rfl; simp at h
  unfold flagOf; rw [if_neg h1, if_neg h0]

theorem directionOf_none {b : Byte} (h : 1 < b.toNat) : directionOf b = none := by
  have h1 : b ≠ 1 := by rintro rfl; simp at h
  have h0 : b ≠ 0 := by rintro rfl; simp at h
  unfold directionOf; rw [if_neg h0, if_neg h1]

end Sys2Proof.Laws
end

