-- ==== Sys2Proof/Laws/Lifecycle.lean ====
section
/-! SUPPORT. What the end of a session, the bulk removals of overrides, a STOP taking effect, a commit and the stages of the
cycle end can do: which fields they may change, and what they leave in them. -/

namespace Sys2Proof.Laws

open Sys2Proof.Machine Sys2Proof.Safety

/-! ## Overrides removed in bulk -/

/-- The key of an override record. -/
def overrideKey (r : OverrideRecord) : Addr × Direction × Fin 32 := (r.station, r.direction, r.circuit)

theorem hasKey_iff (q r : OverrideRecord) : q.hasKey r.station r.direction r.circuit = true ↔ overrideKey q = overrideKey r := by
  simp [OverrideRecord.hasKey, overrideKey, and_assoc]

theorem dropOverride_overrides (s : State) (r : OverrideRecord) :
    (s.dropOverride r).overrides = s.overrides.eraseP (fun q => q.hasKey r.station r.direction r.circuit) := by
  simp only [State.dropOverride, State.finishForced]
  split
  · rw [(condOnly_finishCause _ _).1]
  · rfl

/-- Where keys are distinct, removing a record held takes exactly that record. -/
theorem eraseP_key_eq_filter {rs : List OverrideRecord} (hn : (rs.map overrideKey).Nodup) {r : OverrideRecord}
    (hr : r ∈ rs) : rs.eraseP (fun q => q.hasKey r.station r.direction r.circuit) = rs.filter (fun q => decide (q ≠ r)) := by
  induction rs with
  | nil => cases hr
  | cons x xs ih =>
    have hx := List.nodup_cons.1 hn
    by_cases h : x = r
    · subst h
      rw [List.eraseP_cons_of_pos (p := fun q : OverrideRecord => q.hasKey x.station x.direction x.circuit) ((hasKey_iff x x).2 rfl)]
      have : ∀ q ∈ xs, decide (q ≠ x) = true := by
        intro q hq
        have : q ≠ x := by
          rintro rfl
          exact hx.1 (List.mem_map_of_mem hq)
        simpa using this
      rw [List.filter_cons_of_neg (by simp), List.filter_eq_self.2 this]
    · have hm : r ∈ xs := by simpa [Ne.symm h] using hr
      have hk : ¬ x.hasKey r.station r.direction r.circuit = true := by
        rw [hasKey_iff]
        intro e
        exact hx.1 (e ▸ List.mem_map_of_mem hm)
      rw [List.eraseP_cons_of_neg (p := fun q : OverrideRecord => q.hasKey r.station r.direction r.circuit) hk, ih hx.2 hm]
      simp [h]

theorem dropOverrides_go (s : State) (rs : List OverrideRecord) (hn : (s.overrides.map overrideKey).Nodup)
    (hd : rs.Nodup) (hs : ∀ r ∈ rs, r ∈ s.overrides) :
    (rs.foldl State.dropOverride s).overrides = s.overrides.filter (fun q => decide (q ∉ rs)) := by
  induction rs generalizing s with
  | nil => simp
  | cons r rs ih =>
    have hr := hs r List.mem_cons_self
    have e := dropOverride_overrides s r
    rw [eraseP_key_eq_filter hn hr] at e
    have hd' := List.nodup_cons.1 hd
    simp only [List.foldl_cons]
    rw [ih, e, List.filter_filter]
    · congr 1
      funext q
      simp only [List.mem_cons, not_or, Bool.decide_and, ne_eq]
      rw [Bool.and_comm]
    · rw [e]
      exact hn.sublist (List.filter_sublist.map _)
    · exact hd'.2
    · intro q hq
      rw [e]
      have : q ≠ r := by rintro rfl; exact hd'.1 hq
      simp [hs q (List.mem_cons_of_mem _ hq), this]

/-- A bulk removal takes exactly the records it picks (R97, R98, R104). -/
theorem dropOverrides_overrides (s : State) (p : OverrideRecord → Bool) (hn : (s.overrides.map overrideKey).Nodup) :
    (s.dropOverrides p).overrides = s.overrides.filter (fun q => !p q) := by
  have hd : s.overrides.Nodup := List.Nodup.of_map _ hn
  simp only [State.dropOverrides]
  rw [dropOverrides_go s _ hn (hd.filter _) (fun r hr => (List.mem_filter.1 hr).1)]
  refine List.filter_congr ?_
  intro q hq
  by_cases h : p q = true
  · simp [hq, h]
  · simp [h]

theorem dropOverride_eq (s : State) (r : OverrideRecord) :
    s.dropOverride r =
      let left := s.overrides.eraseP (fun q => q.hasKey r.station r.direction r.circuit)
      if left.all (fun q => decide (q.station ≠ r.station)) then
        State.finishCause { s with overrides := left } (plainKey (.station r.station) .forced)
      else { s with overrides := left } := by
  simp only [State.dropOverride, State.finishForced, State.overrideCount]
  congr 1
  simp [List.countP_eq_zero]

theorem dropOverrides_fold (os rs : List OverrideRecord) (s : State) (hn : (os.map overrideKey).Nodup) (hd : rs.Nodup)
    (hs : ∀ r ∈ rs, r ∈ os) :
    rs.foldl State.dropOverride { s with overrides := os } =
      ((rs.map OverrideRecord.station).dedup.filter (fun a =>
        (os.filter (fun q => decide (q ∉ rs))).all (fun q => decide (q.station ≠ a)))).foldl
        (fun u a => u.finishCause (plainKey (.station a) .forced))
        { s with overrides := os.filter (fun q => decide (q ∉ rs)) } := by
  induction rs generalizing s os with
  | nil => simp
  | cons r rs ih =>
    have hr := hs r List.mem_cons_self
    have hd' := List.nodup_cons.1 hd
    have hleft := eraseP_key_eq_filter hn hr
    have hn' : ((os.filter (fun q => decide (q ≠ r))).map overrideKey).Nodup := hn.sublist (List.filter_sublist.map _)
    have hs' : ∀ q ∈ rs, q ∈ os.filter (fun q => decide (q ≠ r)) := by
      intro q hq
      have : q ≠ r := by rintro rfl; exact hd'.1 hq
      simp [hs q (List.mem_cons_of_mem _ hq), this]
    have hff : (os.filter (fun q => decide (q ≠ r))).filter (fun q => decide (q ∉ rs)) = os.filter (fun q => decide (q ∉ r :: rs)) := by
      rw [List.filter_filter]
      congr 1; funext q
      simp only [List.mem_cons, not_or, Bool.decide_and, ne_eq]
      rw [Bool.and_comm]
    simp only [List.foldl_cons]
    rw [dropOverride_eq]
    simp only [hleft]
    by_cases hm : r.station ∈ rs.map OverrideRecord.station
    · rw [if_neg, ih _ s hn' hd'.2 hs', hff, List.map_cons, List.dedup_cons_of_mem hm]
      obtain ⟨q, hq, he⟩ := List.mem_map.1 hm
      simp only [List.all_eq_true, not_forall]
      exact ⟨q, hs' q hq, by simp [he]⟩
    · have hall : (os.filter (fun q => decide (q ≠ r))).all (fun q => decide (q.station ≠ r.station)) =
          (os.filter (fun q => decide (q ∉ r :: rs))).all (fun q => decide (q.station ≠ r.station)) := by
        rw [Bool.eq_iff_iff]
        simp only [List.all_eq_true, List.mem_filter, decide_eq_true_eq, List.mem_cons, not_or]
        constructor
        · rintro h q ⟨h1, h2, _⟩; exact h q ⟨h1, h2⟩
        · rintro h q ⟨h1, h2⟩
          by_cases hq : q ∈ rs
          · intro e; exact hm (e ▸ List.mem_map_of_mem hq)
          · exact h q ⟨h1, h2, hq⟩
      rw [List.map_cons, List.dedup_cons_of_notMem hm, hall]
      by_cases hx : (os.filter (fun q => decide (q ∉ r :: rs))).all (fun q => decide (q.station ≠ r.station)) = true
      · rw [if_pos hx, List.filter_cons_of_pos (by simpa using hx), List.foldl_cons, finishCause_overrides, ih _ _ hn' hd'.2 hs', hff, ← finishCause_overrides]
      · rw [if_neg hx, List.filter_cons_of_neg (by simpa using hx), ih _ s hn' hd'.2 hs', hff]

/-- A bulk removal takes the records it picks and hands the end of FORCED for each station left without one, in the order
in which the last records go (R97, R98, R102 to R104). -/
theorem dropOverrides_eq (s : State) (p : OverrideRecord → Bool) (hn : (s.overrides.map overrideKey).Nodup) :
    s.dropOverrides p = withoutOverrides s p := by
  have hd : s.overrides.Nodup := List.Nodup.of_map _ hn
  have h := dropOverrides_fold s.overrides (s.overrides.filter p) s hn (hd.filter _) (fun r hr => (List.mem_filter.1 hr).1)
  have e : s.overrides.filter (fun q => decide (q ∉ s.overrides.filter p)) = s.overrides.filter (fun q => !p q) := by
    refine List.filter_congr ?_
    intro q hq
    by_cases h : p q = true
    · simp [hq, h]
    · simp [h]
  rw [e] at h
  exact h


theorem withoutOverrides_condOnly (s : State) (p : OverrideRecord → Bool) :
    CondOnly { s with overrides := s.overrides.filter (fun q => !p q) } (withoutOverrides s p) :=
  condOnly_foldl _ (fun _ _ => condOnly_finishCause _ _) _ _

/-! ## The end of a session -/

/-- `t` is `s` but for the roster, the supervisor's sets, the condition unit, the mode (to HELD), the override table and the
session unit. -/
def SessionOnly (s t : State) : Prop :=
  t = { s with
    roster := t.roster
    supervised := t.supervised
    cond := t.cond
    mode := t.mode
    overrides := t.overrides
    session := t.session } ∧ ModeStep s t

theorem SessionOnly.refl (s : State) : SessionOnly s s := ⟨rfl, Or.inl rfl⟩

theorem SessionOnly.trans {s t u : State} (h : SessionOnly s t) (k : SessionOnly t u) : SessionOnly s u :=
  ⟨by rw [k.1, h.1], h.2.trans k.2⟩

theorem OverrideOnly.session {s t : State} (h : OverrideOnly s t) : SessionOnly s t :=
  ⟨by have := h.1; rw [this], h.2⟩

theorem CondOnly.session {s t : State} (h : CondOnly s t) : SessionOnly s t := h.override.session

theorem sessionOnly_updateStation (s : State) (a : Addr) (e : Entry) (v : Supervision) :
    SessionOnly s (s.updateStation a e v) :=
  (show SessionOnly s ((s.setEntry a e).setSupervision a v) from ⟨rfl, Or.inl rfl⟩).trans
    (condOnly_handChanges _ _ _).session

/-- An update of a station puts the new entry in the roster and touches no other (R25). -/
theorem updateStation_roster (s : State) (a : Addr) (e : Entry) (v : Supervision) :
    (s.updateStation a e v).roster = s.roster.set a.val e := by
  simp only [State.updateStation]
  rw [(condOnly_handChanges _ _ _).1]
  rfl

theorem updateStation_supervised (s : State) (a : Addr) (e : Entry) (v : Supervision) :
    (s.updateStation a e v).supervised = s.supervised.set a.val v := by
  simp only [State.updateStation]
  rw [(condOnly_handChanges _ _ _).1]
  rfl

/-- The end of a session changes those fields alone (R177). -/
theorem sessionOnly_endSession (s : State) (reason : EndReason) : SessionOnly s (s.endSession reason) := by
  simp only [State.endSession]
  split
  · exact .refl s
  · exact ((overrideOnly_dropOverrides s _).session.trans (sessionOnly_updateStation _ _ _ _)).trans ⟨rfl, Or.inl rfl⟩

theorem endSession_none {s : State} {reason : EndReason} (h : s.session.current = none) : s.endSession reason = s := by
  simp [State.endSession, h]

theorem dropSessionOverrides_session (s : State) : s.dropSessionOverrides.session = s.session := by
  rw [State.dropSessionOverrides, (overrideOnly_dropOverrides s _).1]

theorem dropSessionOverrides_roster (s : State) : s.dropSessionOverrides.roster = s.roster := by
  rw [State.dropSessionOverrides, (overrideOnly_dropOverrides s _).1]

/-- What the end of an open session leaves in the session unit, the roster and the override table (R177). -/
theorem endSession_some {s : State} {reason : EndReason} {o : OpenSession} (h : s.session.current = some o) :
    (s.endSession reason).session = { s.session with current := none, lastEnd := reason } ∧
    (s.endSession reason).roster =
      s.roster.set o.tool.val { s.entry o.tool with presence := .absent, identity := none } ∧
    (s.endSession reason).overrides = s.dropSessionOverrides.overrides := by
  have hr := dropSessionOverrides_roster s
  have he : s.dropSessionOverrides.entry o.tool = s.entry o.tool := by simp only [State.entry, hr]
  have hu := (sessionOnly_updateStation s.dropSessionOverrides o.tool
    { s.entry o.tool with presence := .absent, identity := none } (s.dropSessionOverrides.supervision o.tool)).1
  have hc := (condOnly_handChanges ((s.dropSessionOverrides.setEntry o.tool
      { s.entry o.tool with presence := .absent, identity := none }).setSupervision o.tool
        (s.dropSessionOverrides.supervision o.tool)) (s.dropSessionOverrides.causesOfStation o.tool)
    (stationCauses s.dropSessionOverrides.config.setup o.tool
      { s.entry o.tool with presence := .absent, identity := none } (s.dropSessionOverrides.supervision o.tool)
      (s.dropSessionOverrides.overrideCount o.tool))).1
  simp only [State.endSession, h, he]
  refine ⟨?_, ?_, ?_⟩
  · simp only [State.updateStation]
    rw [hc]
    simp only [State.setSupervision, State.setEntry, dropSessionOverrides_session]
  · rw [updateStation_roster, hr]
  · simp only [State.updateStation]
    rw [hc]
    simp only [State.setSupervision, State.setEntry]

/-- The end of an open session whose tool's entry is SERVICE (R177). -/
theorem endSession_eq {s : State} {o : OpenSession} (reason : EndReason) (hn : (s.overrides.map overrideKey).Nodup)
    (h : s.session.current = some o) (hp : (s.entry o.tool).presence = .service) :
    s.endSession reason = sessionEnded s o reason := by
  have hd : s.dropSessionOverrides = withoutOverrides s (fun q => decide (q.owner = .session)) := dropOverrides_eq s _ hn
  simp only [State.endSession, h, hd, sessionEnded]
  generalize hw : withoutOverrides s (fun q => decide (q.owner = .session)) = t
  have hc := withoutOverrides_condOnly s (fun q => decide (q.owner = .session))
  rw [hw] at hc
  have he : t.entry o.tool = s.entry o.tool := by simp only [State.entry, hc.stations.1]
  have hcs : t.causesOfStation o.tool = stationCauses t.config.setup o.tool { t.entry o.tool with presence := .absent, identity := none } (t.supervision o.tool) (t.overrideCount o.tool) := by
    simp only [State.causesOfStation, stationCauses, he, hp, Entry.lostCause, Entry.alternateLine, Entry.dataValid, causeIf]
    cases (s.entry o.tool).descriptor <;> simp
  simp only [State.updateStation, hcs, handChanges_same]
  have hv : t.supervised.set o.tool.val (t.supervision o.tool) = t.supervised := by
    simp [State.supervision]
  have hr : t.roster = s.roster := hc.stations.1
  simp only [State.setSupervision, State.setEntry, he, hv, hr]
/-! ## Transactions completed (R145) -/

theorem slot_setSlot (s : State) (i j : Fin 4) (t : Option Transaction) :
    (s.setSlot i t).slot j = if i = j then t else s.slot j := by
  simp only [State.slot, State.setSlot]
  by_cases h : i = j
  · subst h; simp
  · have : i.val ≠ j.val := fun e => h (Fin.ext e)
    simp [h, this]

theorem slot_complete (s : State) (i j : Fin 4) (t : Transaction) (st : Status) (m : List Byte) :
    (s.complete i t st m).slot j = if i = j then none else s.slot j := slot_setSlot s i j none

theorem slot_answerCancel (s : State) (t : Transaction) (st : Status) (j : Fin 4) :
    (s.answerCancel t st).slot j = s.slot j := by
  simp only [State.answerCancel]; split <;> rfl

theorem slot_completeGo (p : Transaction → Bool) (st : Status) (is : List (Fin 4)) (s : State) (j : Fin 4) :
    (is.foldl (fun u i =>
      match u.slot i with
      | none => u
      | some t => if p t then (u.complete i t st []).answerCancel t .ok else u) s).slot j =
      if j ∈ is then (s.slot j).filter (fun t => !p t) else s.slot j := by
  induction is generalizing s with
  | nil => rfl
  | cons i is ih =>
    simp only [List.foldl_cons]
    rw [ih]
    have key : (match s.slot i with
        | none => s
        | some t => if p t then (s.complete i t st []).answerCancel t .ok else s).slot j =
        if i = j then (s.slot j).filter (fun t => !p t) else s.slot j := by
      by_cases hij : i = j
      · subst hij
        rw [if_pos rfl]
        cases hs : s.slot i with
        | none => simp [hs]
        | some t =>
          by_cases hp : p t = true
          · simp [hp, slot_answerCancel, slot_complete, Option.filter]
          · simp [hp, hs, Option.filter]
      · rw [if_neg hij]
        cases hs : s.slot i with
        | none => rfl
        | some t =>
          by_cases hp : p t = true
          · simp [hp, slot_answerCancel, slot_complete, hij]
          · simp [hp]
    rw [key]
    by_cases hij : i = j
    · subst hij
      simp only [if_true, List.mem_cons, true_or]
      split <;> simp [Option.filter_filter]
    · have : (j ∈ i :: is) ↔ j ∈ is := by simp [Ne.symm hij]
      simp [hij, this]

/-- Completing the transactions that a test picks frees their slots and touches no other (R145). -/
theorem slot_completeWhere (s : State) (p : Transaction → Bool) (st : Status) (j : Fin 4) :
    (s.completeWhere p st).slot j = (s.slot j).filter (fun t => !p t) := by
  have : j ∈ allSlots := List.mem_finRange j
  exact (slot_completeGo p st allSlots s j).trans (if_pos this)

/-! ## A STOP taking effect (R116) -/

theorem stopLine_line (s : State) (l m : LineId) :
    (s.stopLine l).line m = if l = m ∧ (s.line l).state = .active then (s.line l).quieten else s.line m := by
  simp only [State.stopLine]
  by_cases h : (s.line l).state = .active
  · cases l <;> cases m <;> simp_all [State.setLine, State.line]
  · simp [h]

/-- What the first part of a STOP changes. -/
theorem stopHalt_eq (s : State) : s.stopHalt = { s with
    mode := .standby
    stopPending := none
    safety := { s.safety with timer := none }
    lineA := if s.lineA.state = .active then s.lineA.quieten else s.lineA
    lineB := if s.lineB.state = .active then s.lineB.quieten else s.lineB } := by
  simp only [State.stopHalt, State.stopLine, State.line]
  by_cases ha : s.lineA.state = .active <;> by_cases hb : s.lineB.state = .active <;> simp [ha, hb, State.setLine]

/-- `t` is `s` but for what the second part of a STOP may change. -/
def StopOnly (s t : State) : Prop :=
  t = { s with
    roster := t.roster
    supervised := t.supervised
    cond := t.cond
    mode := t.mode
    overrides := t.overrides
    session := t.session
    own := { s.own with standing := t.own.standing }
    trans := t.trans
    port := { s.port with responses := t.port.responses, deferred := t.port.deferred } } ∧ ModeStep s t

theorem StopOnly.trans {s t u : State} (h : StopOnly s t) (k : StopOnly t u) : StopOnly s u :=
  ⟨by rw [k.1, h.1], h.2.trans k.2⟩

theorem CondOnly.stop {s t : State} (h : CondOnly s t) : StopOnly s t := ⟨by have := h.1; rw [this], h.2⟩

theorem TransOnly.stop {s t : State} (h : TransOnly s t) : StopOnly s t := by
  unfold TransOnly at h
  exact ⟨by rw [h], Or.inl (by rw [h])⟩

theorem SessionOnly.stop {s t : State} (h : SessionOnly s t) : StopOnly s t := ⟨by have := h.1; rw [this], h.2⟩

theorem stopOnly_finishOwnAddress (s : State) : StopOnly s s.finishOwnAddress := by
  simp only [State.finishOwnAddress]
  split
  · exact ⟨rfl, Or.inl rfl⟩
  · exact (show StopOnly s { s with own := { s.own with standing := none } } from ⟨rfl, Or.inl rfl⟩).trans
      (condOnly_finishCause _ _).stop

theorem finishOwnAddress_own (s : State) : s.finishOwnAddress.own = { s.own with standing := none } := by
  simp only [State.finishOwnAddress]
  split
  · rename_i h
    cases ho : s.own
    simp_all
  · rw [(condOnly_finishCause _ _).1]

/-- What the second part of a STOP changes (R116). -/
theorem stopOnly_stopEnds (s : State) : StopOnly s s.stopEnds :=
  ((transOnly_completeWhere s _ _).stop.trans (sessionOnly_endSession _ _).stop).trans (stopOnly_finishOwnAddress _)

/-- What the second part of a STOP leaves: no transaction, no session, no OWN ADDRESS CONFLICT (R116). -/
theorem stopEnds_leaves (s : State) :
    (∀ i, s.stopEnds.slot i = none) ∧ s.stopEnds.session.current = none ∧ s.stopEnds.own.standing = none := by
  have h1 := (stopOnly_finishOwnAddress ((s.completeWhere (fun _ => true) .stopped).endSession .stopped)).1
  have h2 := (sessionOnly_endSession (s.completeWhere (fun _ => true) .stopped) .stopped).1
  refine ⟨fun i => ?_, ?_, ?_⟩
  · have e1 : s.stopEnds.slot i = ((s.completeWhere (fun _ => true) .stopped).endSession .stopped).slot i := by
      have : s.stopEnds.trans = ((s.completeWhere (fun _ => true) .stopped).endSession .stopped).trans := by
        simp only [State.stopEnds, State.finishOwnAddress]
        split
        · rfl
        · rw [(condOnly_finishCause _ _).1]
      simp only [State.slot, this]
    have e2 : ((s.completeWhere (fun _ => true) .stopped).endSession .stopped).slot i =
        (s.completeWhere (fun _ => true) .stopped).slot i := by
      simp only [State.slot]
      rw [h2]
    rw [e1, e2, slot_completeWhere]
    cases s.slot i <;> rfl
  · have e1 : s.stopEnds.session = ((s.completeWhere (fun _ => true) .stopped).endSession .stopped).session := by
      simp only [State.stopEnds, State.finishOwnAddress]
      split
      · rfl
      · rw [(condOnly_finishCause _ _).1]
    rw [e1]
    cases hc : (s.completeWhere (fun _ => true) .stopped).session.current with
    | none => rw [endSession_none hc]; exact hc
    | some o => rw [(endSession_some hc).1]
  · exact congrArg OwnDetection.standing (finishOwnAddress_own _)

/-! ## A commit applied (R167) -/

/-- `t` is `s` but for what a commit may change. -/
def CommitOnly (s t : State) : Prop :=
  t = { s with
    roster := t.roster
    supervised := t.supervised
    cond := t.cond
    mode := t.mode
    overrides := t.overrides
    session := t.session
    trans := t.trans
    scan := { s.scan with buffer := t.scan.buffer, published := t.scan.published, live := t.scan.live,
                          layout := t.scan.layout }
    config := { s.config with staging := t.config.staging, gapTimer := t.config.gapTimer,
                              incomplete := t.config.incomplete }
    port := { s.port with responses := t.port.responses, deferred := t.port.deferred,
                          outputArea := t.port.outputArea } }

theorem CommitOnly.trans {s t u : State} (h : CommitOnly s t) (k : CommitOnly t u) : CommitOnly s u := by
  unfold CommitOnly at *
  rw [k, h]

theorem CondOnly.commit {s t : State} (h : CondOnly s t) : CommitOnly s t := by
  have := h.1
  unfold CommitOnly
  rw [this]

theorem OverrideOnly.commit {s t : State} (h : OverrideOnly s t) : CommitOnly s t := by
  have := h.1
  unfold CommitOnly
  rw [this]

theorem SessionOnly.commit {s t : State} (h : SessionOnly s t) : CommitOnly s t := by
  have := h.1
  unfold CommitOnly
  rw [this]

theorem TransOnly.commit {s t : State} (h : TransOnly s t) : CommitOnly s t := by
  unfold TransOnly at h
  unfold CommitOnly
  rw [h]

theorem CommitOnly.foldl {α : Type} (f : State → α → State) (hf : ∀ s x, CommitOnly s (f s x)) (xs : List α) (s : State) :
    CommitOnly s (xs.foldl f s) := by
  induction xs generalizing s with
  | nil => exact rfl
  | cons x xs ih => exact (hf s x).trans (ih (f s x))

theorem commitOnly_commitSession (s : State) (c : StagingCopy) : CommitOnly s (s.commitSession c) := by
  simp only [State.commitSession]
  split
  · exact rfl
  · split
    · exact (sessionOnly_endSession s _).commit
    · exact rfl

theorem commitOnly_takeOut (s : State) (a : Addr) : CommitOnly s (s.takeOut a) :=
  ((condOnly_retireStation s a).commit.trans (overrideOnly_dropOverrides _ _).commit).trans
    (show CommitOnly _ ((State.setEntry _ a .unconfigured).setSupervision a {}) from rfl)

theorem commitOnly_station (s : State) (a : Addr) (e : Entry) (b : List Byte) :
    CommitOnly s (((s.setEntry a e).setSlice a b).setToggle a false) := rfl

theorem commitOnly_setUp (s : State) (c : StagingCopy) (a : Addr) : CommitOnly s (s.setUp c a) := by
  simp only [State.setUp]
  split
  · exact (sessionOnly_updateStation s _ _ _).commit.trans (commitOnly_station _ a _ _)
  · exact rfl

theorem commitOnly_clearIncomplete (s : State) : CommitOnly s s.clearIncomplete := by
  simp only [State.clearIncomplete]
  split
  · exact (show CommitOnly s { s with config := { s.config with incomplete := false } } from rfl).trans
      (condOnly_finishCause _ _).commit
  · exact rfl

theorem commitOnly_rebuild (s : State) (kept : List (Placement × Placement)) : CommitOnly s (s.rebuild kept) := rfl

theorem commitOnly_place (s : State) (c : StagingCopy) : CommitOnly s (s.place c) := rfl

theorem commitOnly_close (s : State) (layout : Word) (m : State → Mode) :
    CommitOnly s (let t : State := { s with
      scan := { s.scan with layout := layout }
      config := { s.config with staging := .closed, gapTimer := none } }
    { t with mode := m t }) := rfl

/-- What the application of a commit changes (R167). -/
theorem commitOnly_applyCommit (s : State) (c : StagingCopy) : CommitOnly s (s.applyCommit c) := by
  refine CommitOnly.trans ?_ (commitOnly_close _ _ (fun t => modeAfterCommit t.mode (copyHolds c)))
  refine CommitOnly.trans ?_ (commitOnly_clearIncomplete _)
  refine CommitOnly.trans ?_ (commitOnly_place _ c)
  have h2 := (commitOnly_commitSession s c).trans
    ((CommitOnly.foldl State.takeOut commitOnly_takeOut (allAddrs.filter (fun a => (s.compare c a).takesOut)) _).trans
      (transOnly_completeWhere _ (fun t => decide (t.station ∈ allAddrs.filter (fun a => (s.compare c a).takesOut)))
        .reconfigured).commit)
  have h3 := h2.trans (CommitOnly.foldl (fun u a => u.setUp c a) (fun u a => commitOnly_setUp u c a)
    (allAddrs.filter (fun a => (s.compare c a).moves)) _)
  split
  · exact h3
  · exact h3.trans (commitOnly_rebuild _ _)

theorem entry_set (s : State) (r : Vector Entry 32) (a b : Addr) (e : Entry) (h : s.roster = r.set a.val e) :
    s.entry b = if a = b then e else r[b.val] := by
  simp only [State.entry, h]
  by_cases hab : a = b
  · subst hab; simp
  · have : a.val ≠ b.val := fun x => hab (Fin.ext x)
    simp [hab, this]

theorem takeOut_entry (s : State) (a b : Addr) :
    (s.takeOut a).entry b = if a = b then .unconfigured else s.entry b := by
  have h : (s.takeOut a).roster = s.roster.set a.val .unconfigured := by
    simp only [State.takeOut, State.setSupervision, State.setEntry]
    rw [(overrideOnly_dropOverrides _ _).1, (condOnly_retireStation s a).1]
  exact entry_set _ _ _ _ _ h

theorem takeOut_foldl_entry (as : List Addr) (s : State) (b : Addr) :
    (as.foldl State.takeOut s).entry b = if b ∈ as then .unconfigured else s.entry b := by
  induction as generalizing s with
  | nil => rfl
  | cons a as ih =>
    simp only [List.foldl_cons, ih, takeOut_entry, List.mem_cons]
    by_cases h1 : b ∈ as
    · simp [h1]
    · by_cases h2 : a = b
      · subst h2; simp
      · simp [h1, h2, Ne.symm h2]

theorem setUp_entry (s : State) (c : StagingCopy) (a b : Addr) :
    (s.setUp c a).entry b =
      if a = b then
        (match copyAt c a with
         | some d => .setUp d
         | none => s.entry b)
      else s.entry b := by
  cases hd : copyAt c a with
  | some d =>
    simp only [State.setUp, hd]
    have h : ((((s.updateStation a .unconfigured (s.supervision a)).setEntry a (.setUp d)).setSlice a
        (List.replicate d.inputSize 0)).setToggle a false).roster =
        (s.roster.set a.val Entry.unconfigured).set a.val (.setUp d) := by
      rw [← updateStation_roster s a .unconfigured (s.supervision a)]
      rfl
    rw [entry_set _ _ _ _ _ h]
    by_cases hab : a = b
    · subst hab
      simp
    · have : a.val ≠ b.val := fun x => hab (Fin.ext x)
      simp [hab, this, State.entry]
  | none =>
    simp only [State.setUp, hd]
    split <;> rfl

theorem setUp_foldl_entry (as : List Addr) (s : State) (c : StagingCopy) (b : Addr) :
    (as.foldl (fun u a => u.setUp c a) s).entry b =
      if b ∈ as then
        (match copyAt c b with
         | some d => .setUp d
         | none => s.entry b)
      else s.entry b := by
  induction as generalizing s with
  | nil => rfl
  | cons a as ih =>
    simp only [List.foldl_cons, ih, setUp_entry, List.mem_cons]
    by_cases h1 : b ∈ as
    · cases hc : copyAt c b <;> simp only [h1, or_true, if_true]
      · split
        · rename_i h2; subst h2; rw [hc]
        · rfl
    · by_cases h2 : a = b
      · subst h2; simp [h1]
      · simp [h1, h2, Ne.symm h2]

theorem clearIncomplete_roster (s : State) : s.clearIncomplete.roster = s.roster := by
  simp only [State.clearIncomplete]
  split
  · rw [(condOnly_finishCause _ _).1]
  · rfl

/-- What a commit leaves in an entry: unconfigured where the copy holds nothing and a station was committed, set up where
the copy adds or changes one, else as it was; each with the placement of the copy (R4, R5, R120, R167). -/
theorem applyCommit_entry (s : State) (c : StagingCopy) (b : Addr) :
    (s.applyCommit c).entry b =
      { (if (s.compare c b).moves then
          (match copyAt c b with
           | some d => Entry.setUp d
           | none => .unconfigured)
         else (s.commitSession c).entry b) with placement := placementIn c b } := by
  have hm : ∀ f : Addr → Bool, b ∈ allAddrs.filter f ↔ f b = true := by
    intro f; simp [allAddrs]
  have htr : ∀ (u : State) p st, (u.completeWhere p st).entry b = u.entry b := by
    intro u p st
    have := transOnly_completeWhere u p st
    unfold TransOnly at this
    simp only [State.entry]
    rw [this]
  have key : ∀ u : State, ((u.place c).clearIncomplete).entry b = { u.entry b with placement := placementIn c b } := by
    intro u
    simp only [State.entry, clearIncomplete_roster]
    simp [State.place, State.entry]
  have hfin : ∀ (kept : List (Placement × Placement)) (x : Bool) (u : State),
      (if x then u else u.rebuild kept).entry b = u.entry b := by
    intro kept x u; cases x <;> rfl
  show ((State.place _ c).clearIncomplete).entry b = _
  rw [key, hfin, setUp_foldl_entry, htr, takeOut_foldl_entry]
  simp only [hm]
  refine congrArg (fun e : Entry => { e with placement := placementIn c b }) ?_
  simp only [Comparison.moves]
  rcases Bool.eq_false_or_eq_true (s.compare c b).takesOut with h1 | h1 <;>
    rcases Bool.eq_false_or_eq_true (s.compare c b).setsUp with h2 | h2 <;>
    simp only [h1, h2, Bool.or_self, Bool.or_true, Bool.or_false, if_true, if_false, Bool.false_eq_true]
  cases hc : copyAt c b with
  | some d => rfl
  | none =>
    exfalso
    have : ∀ x, (comparisonOf x none).setsUp = false := by intro x; cases x <;> rfl
    simp only [State.compare, hc, this] at h2
    cases h2

/-! ## The cycle end (R110) -/

theorem ownCheck_own (s : State) :
    s.ownCheck.own = { seen := false, standing := if s.own.seen then s.own.standing else none } := by
  simp only [State.ownCheck]
  cases h : s.own.seen
  · simp [finishOwnAddress_own]
  · simp

end Sys2Proof.Laws
end

