-- ==== Sys2Proof/Laws/Presence.lean ====
section
/-! SUPPORT. What one update of a station, and the entry to LOST, leave in the entry, the supervisor's sets, the slice and
the transaction slots. -/

namespace Sys2Proof.Laws

open Sys2Proof.Machine

theorem ne_val {a b : Addr} (h : a ≠ b) : a.val ≠ b.val := fun e => h (Fin.ext e)

theorem entry_setEntry (s : State) (a b : Addr) (e : Entry) :
    (s.setEntry a e).entry b = if a = b then e else s.entry b := by
  simp only [State.entry, State.setEntry]
  by_cases h : a = b
  · subst h; simp
  · simp [h, ne_val h]

theorem supervision_setSupervision (s : State) (a b : Addr) (v : Supervision) :
    (s.setSupervision a v).supervision b = if a = b then v else s.supervision b := by
  simp only [State.supervision, State.setSupervision]
  by_cases h : a = b
  · subst h; simp
  · simp [h, ne_val h]

theorem slice_setSlice (s : State) (a b : Addr) (x : List Byte) :
    (s.setSlice a x).slice b = if a = b then x else s.slice b := by
  simp only [State.slice, State.setSlice]
  by_cases h : a = b
  · subst h; simp
  · simp [h, ne_val h]

/-- One update of a station puts its entry and its supervision, and touches no other and no slice (R25). -/
theorem updateStation_entry (s : State) (a b : Addr) (e : Entry) (v : Supervision) :
    (s.updateStation a e v).entry b = if a = b then e else s.entry b := by
  have : (s.updateStation a e v).roster = ((s.setEntry a e).setSupervision a v).roster :=
    (condOnly_handChanges _ _ _).stations.1
  rw [← entry_setEntry]
  simp only [State.entry, this]
  rfl

theorem updateStation_supervision (s : State) (a b : Addr) (e : Entry) (v : Supervision) :
    (s.updateStation a e v).supervision b = if a = b then v else s.supervision b := by
  have : (s.updateStation a e v).supervised = ((s.setEntry a e).setSupervision a v).supervised :=
    (condOnly_handChanges _ _ _).stations.2.1
  rw [← supervision_setSupervision]
  simp only [State.supervision, this]
  rfl

theorem updateStation_slice (s : State) (a b : Addr) (e : Entry) (v : Supervision) :
    (s.updateStation a e v).slice b = s.slice b := by
  have : (s.updateStation a e v).scan = ((s.setEntry a e).setSupervision a v).scan :=
    (condOnly_handChanges _ _ _).stations.2.2.1
  simp only [State.slice, this]
  rfl

/-- R42 on an entry with a descriptor. -/
theorem heardOn_eq {e : Entry} (l : LineId) {d : Descriptor} (h : e.descriptor = some d) :
    e.heardOn l = { e with activeLine := if d.attachment = .dual then some l else e.activeLine } := by
  cases e
  cases h
  simp only [Entry.heardOn]
  split <;> rfl

/-- What the entry to LOST leaves (R33, R146). -/
theorem enterLost_leaves (s : State) (a : Addr) (d : Descriptor) :
    (∀ b, (s.enterLost a d).entry b = if a = b then (s.entry a).lose (s.profile d.profile) else s.entry b) ∧
    (s.enterLost a d).supervision a = { s.supervision a with stationFaults := [], circuitFaults := [] } ∧
    (s.enterLost a d).slice a = lostSlice d (s.slice a) ∧
    ∀ i t, (s.enterLost a d).slot i = some t → t.station ≠ a := by
  generalize hu : (((s.setEntry a ((s.entry a).lose (s.profile d.profile))).setSupervision a
    { s.supervision a with stationFaults := [], circuitFaults := [] }).setSlice a (lostSlice d (s.slice a))) = u
  have h1 : CondOnly (u.completeStation a .stationLost) (s.enterLost a d) := by
    subst hu; exact condOnly_handChanges _ _ _
  have h2 := transOnly_completeWhere u (fun t => decide (t.station = a)) .stationLost
  unfold TransOnly at h2
  have hr : (s.enterLost a d).roster = u.roster := h1.stations.1.trans (by rw [State.completeStation, h2])
  have hv : (s.enterLost a d).supervised = u.supervised := h1.stations.2.1.trans (by rw [State.completeStation, h2])
  have hs : (s.enterLost a d).scan = u.scan := h1.stations.2.2.1.trans (by rw [State.completeStation, h2])
  refine ⟨fun b => ?_, ?_, ?_, fun i t ht => ?_⟩
  · rw [← entry_setEntry]; simp only [State.entry, hr]; subst hu; rfl
  · simp only [State.supervision, hv]; subst hu; simp [State.supervision]
  · simp only [State.slice, hs]; subst hu; simp [State.slice]
  · have ht' : (s.enterLost a d).trans = (u.completeStation a .stationLost).trans := h1.stations.2.2.2
    have e : (s.enterLost a d).slot i = (u.slot i).filter (fun t => !decide (t.station = a)) := by
      rw [← slot_completeWhere u (fun t => decide (t.station = a)) .stationLost i]
      simp only [State.slot, ht']
      rfl
    rw [e] at ht
    have := (Option.filter_eq_some_iff.1 ht).2
    simpa using this

end Sys2Proof.Laws
end

