-- ==== Sys2Proof/Laws/Handing.lean ====
section
/-! SUPPORT. The condition unit takes the difference of two sets of causes: what it does depends on the condition unit, the
mode and the scan number alone, and the difference of a station's causes is read off class by class. -/

namespace Sys2Proof.Laws

open Sys2Proof.Machine Sys2Proof.Safety

/-! ## What the condition unit reads and writes -/

/-- Two states agree on all that the condition unit reads and writes. -/
def Agree (s u : State) : Prop := u.cond = s.cond ∧ u.mode = s.mode ∧ u.scan.number = s.scan.number

theorem Agree.with {s u : State} (h : Agree s u) : u = { u with cond := s.cond, mode := s.mode } := by rw [← h.1, ← h.2.1]

theorem agree_noticeOf {s u : State} (h : Agree s u) (c : ActionClass) : Agree (s.noticeOf c) (u.noticeOf c) := by
  obtain ⟨h1, h2, h3⟩ := h
  simp only [State.noticeOf, State.fatalNotice, h2]
  split
  · split
    · exact ⟨h1, rfl, h3⟩
    · exact ⟨h1, h2, h3⟩
  · exact ⟨h1, h2, h3⟩

theorem agree_setRecords {s u : State} (h : Agree s u) (rs) : Agree (s.setRecords rs) (u.setRecords rs) := by
  obtain ⟨h1, h2, h3⟩ := h
  exact ⟨by simp [State.setRecords, h1], h2, h3⟩

theorem agree_changeRecord {s u : State} (h : Agree s u) (i f) : Agree (s.changeRecord i f) (u.changeRecord i f) := by
  simp only [State.changeRecord]; rw [h.1]; exact agree_setRecords h _

theorem agree_createRecord {s u : State} (h : Agree s u) (c) : Agree (s.createRecord c) (u.createRecord c) := by
  simp only [State.createRecord, h.1, h.2.2, State.action]
  split
  · exact h
  · exact agree_noticeOf (agree_setRecords h _) _

theorem agree_removeRecord {s u : State} (h : Agree s u) (r) : Agree (s.removeRecord r) (u.removeRecord r) := by
  obtain ⟨h1, h2, h3⟩ := h
  exact ⟨by simp only [State.removeRecord, h1], h2, h3⟩

theorem agree_countOverflow {s u : State} (h : Agree s u) : Agree s.countOverflow u.countOverflow := by
  obtain ⟨h1, h2, h3⟩ := h
  exact ⟨by simp only [State.countOverflow, h1], h2, h3⟩

theorem agree_findRecord {s u : State} (h : Agree s u) (k) : u.findRecord k = s.findRecord k
    := by simp only [State.findRecord, h.1]

theorem agree_beginCause {s u : State} (h : Agree s u) (c : Cause) : Agree (s.beginCause c) (u.beginCause c) := by
  simp only [State.beginCause, agree_findRecord h]
  split
  · simp only [State.restand, h.2.2]; split
    · exact agree_noticeOf (agree_changeRecord h _ _) _
    · exact h
  · rw [h.1]; split
    · exact agree_createRecord h c
    · simp only [State.beginFull, State.action, h.1, State.victim]
      cases s.cond.actionMap[c.key.category.index.val].cls
      · exact agree_countOverflow h
      · exact agree_countOverflow h
      · dsimp only; split
        · exact agree_createRecord (agree_countOverflow (agree_removeRecord h _)) c
        · exact agree_countOverflow h

theorem agree_finishCause {s u : State} (h : Agree s u) (k : Key) : Agree (s.finishCause k) (u.finishCause k) := by
  simp only [State.finishCause, agree_findRecord h, h.2.2]
  split
  · exact h
  · split
    · exact h
    · exact agree_removeRecord h _
    · split
      · exact agree_changeRecord h _ _
      · exact agree_removeRecord h _

theorem agree_refreshCause {s u : State} (h : Agree s u) (c : Cause) : Agree (s.refreshCause c) (u.refreshCause c) := by
  simp only [State.refreshCause, agree_findRecord h, h.2.2]
  split
  · exact h
  · exact agree_changeRecord h _ _

theorem agree_foldl {α : Type} (f : State → α → State) (hf : ∀ s u x, Agree s u → Agree (f s x) (f u x)) (xs
    : List α) {s u : State} (h : Agree s u) :
    Agree (xs.foldl f s) (xs.foldl f u) := by
  induction xs generalizing s u with
  | nil => exact h
  | cons x xs ih => exact ih (hf s u x h)

theorem agree_handed {s u : State} (h : Agree s u) (e b r) : Agree (handed s e b r) (handed u e b r) :=
  agree_foldl _ (fun _ _ x h => agree_refreshCause h x) _ (agree_foldl _ (fun _ _ x h => agree_beginCause h x) _
      (agree_foldl _ (fun _ _ x h => agree_finishCause h x) _ h))

theorem hands_handChanges {s u : State} (h : Agree s u) {before after : List Cause} {e : List Key} {b r : List Cause}
   (he : (before.filter (fun c => !hasKey after c.key)).map Cause.key = e) (hb : after.filter
       (fun c => !hasKey before c.key) = b) (hr : refreshesOf before after = r) :
   Hands s (u.handChanges before after) e b r := by
  have : u.handChanges before after = handed u e b r := by simp only [State.handChanges, he, hb, hr]; rfl
  rw [this]
  have := agree_handed h e b r
  exact ⟨this.1, this.2.1⟩

/-! ## The causes of a station as one list, and the difference of two such lists (R25, R51) -/

theorem hasKey_append (x y : List Cause) (k : Key) : hasKey (x ++ y) k = (hasKey x k || hasKey y k) := by simp [hasKey]
theorem hasKey_causeIf (b : Bool) (o : Origin) (c : Category) (x : List Byte) (k : Key) : hasKey (causeIf b o c x) k =
    (b && decide (plainKey o c = k)) := by
  cases b <;> simp [causeIf, hasKey]
theorem hasKey_stationFaults (a : Addr) (l : List Byte) (k : Key) :
    hasKey (l.map (fun f => ({
      key := { origin := .station a, circuit := none, category := .stationFault, code := f }
      extra := [] } : Cause))) k = l.any (fun f => decide (stationFaultKey a f = k)) := by
  simp only [hasKey, List.any_map]; rfl

theorem hasKey_circuitFaults (a : Addr) (l : List FaultItem) (k : Key) :
    hasKey (l.map (fun f => ({
      key := { origin := .station a, circuit := some (f.direction, f.circuit), category := .circuitFault, code := f.code }
      extra := [f.detail] } : Cause))) k = l.any (fun f => decide (circuitFaultKey a f = k)) := by
  simp only [hasKey, List.any_map]; rfl

/-- The causes of a station, each class of them on or off, in the order of R66. -/
def causeList (a : Addr) (lost mis conf ext alt : Bool) (xm xc xe xa : List Byte) (sf : List Byte) (cf : List FaultItem)
    (forced : Nat) : List Cause :=
  causeIf lost (.station a) .stationLost [] ++
  causeIf mis (.station a) .stationMismatch xm ++
  causeIf conf (.station a) .addressConflict xc ++
  causeIf ext (.station a) .stationExtra xe ++
  causeIf alt (.station a) .alternateLine xa ++
  sf.map (fun f =>
    { key := { origin := .station a, circuit := none, category := .stationFault, code := f }, extra := [] }) ++
  cf.map (fun f =>
    { key := { origin := .station a, circuit := some (f.direction, f.circuit), category := .circuitFault,
               code := f.code },
      extra := [f.detail] }) ++
  causeIf (decide (1 ≤ forced)) (.station a) .forced [octet forced]

theorem filter_causeIf (b : Bool) (o : Origin) (c : Category) (x : List Byte) (p : Cause → Bool) :
    (causeIf b o c x).filter p = causeIf (b && p ⟨plainKey o c, x⟩) o c x := by
  cases b <;> simp [causeIf, List.filter_cons]
theorem map_causeIf (b : Bool) (o : Origin) (c : Category) (x : List Byte) :
    (causeIf b o c x).map Cause.key = if b then [plainKey o c] else [] := by
  cases b <;> simp [causeIf]

theorem hasKey_causeList (a lost mis conf ext alt xm xc xe xa sf cf forced) (k : Key) :
   hasKey (causeList a lost mis conf ext alt xm xc xe xa sf cf forced) k = 
   ((lost && decide (plainKey (.station a) .stationLost = k)) || (mis && decide (plainKey
       (.station a) .stationMismatch = k)) || (conf && decide (plainKey (.station a) .addressConflict = k)) ||
    (ext && decide (plainKey (.station a) .stationExtra = k)) || (alt && decide (plainKey
        (.station a) .alternateLine = k)) || sf.any (fun f => decide (stationFaultKey a f = k)) || cf.any (fun f => decide
        (circuitFaultKey a f = k)) ||
    (decide (1 ≤ forced) && decide (plainKey (.station a) .forced = k))) := by
  simp only [causeList, hasKey_append, hasKey_causeIf, hasKey_stationFaults, hasKey_circuitFaults]

theorem any_const_false {α : Type} (l : List α) : (l.any fun _ => false) = false := by simp

theorem causeList_missing
    (a lost mis conf ext alt xm xc xe xa sf cf forced lost' mis' conf' ext' alt' xm' xc' xe' xa' sf' cf' ) :
   (causeList a lost mis conf ext alt xm xc xe xa sf cf forced).filter (fun c => !hasKey
       (causeList a lost' mis' conf' ext' alt' xm' xc' xe' xa' sf' cf' forced) c.key) =
    causeIf (lost && !lost') (.station a) .stationLost [] ++
    causeIf (mis && !mis') (.station a) .stationMismatch xm ++
    causeIf (conf && !conf') (.station a) .addressConflict xc ++
    causeIf (ext && !ext') (.station a) .stationExtra xe ++
    causeIf (alt && !alt') (.station a) .alternateLine xa ++
    (sf.filter (fun c => decide (c ∉ sf'))).map (fun f =>
      { key := stationFaultKey a f, extra := [] }) ++
    (cf.filter (fun x => decide (∀ y ∈ cf', circuitFaultKey a y ≠ circuitFaultKey a x))).map (fun f =>
      { key := circuitFaultKey a f, extra := [f.detail] }) := by
  simp only [hasKey_causeList]
  conv_lhs => simp only [causeList]
  simp only [List.filter_append, filter_causeIf, List.filter_map]
  refine (congrArg₂ (· ++ ·) ?_ (show _ = [] from ?_)).trans (List.append_nil _)
  rotate_left 1
  · cases h : decide (1 ≤ forced) <;> simp [causeIf]
  congr 1
  · congr 1
    · simp [plainKey, stationFaultKey, circuitFaultKey, any_const_false]
    · simp only [stationFaultKey]
      congr 1
      refine List.filter_congr (fun x _ => ?_)
      simp [plainKey, circuitFaultKey, any_const_false]
      try (rw [Bool.eq_iff_iff]; simp)
  · simp only [circuitFaultKey]
    congr 1
    refine List.filter_congr (fun x _ => ?_)
    rw [Bool.eq_iff_iff]
    simp [plainKey, stationFaultKey, any_const_false]

theorem causeList_refreshes
    (a lost mis conf ext alt xm xc xe xa sf cf forced lost' mis' conf' ext' alt' xm' xc' xe' xa' sf' cf' ) :
   refreshesOf (causeList a lost mis conf ext alt xm xc xe xa sf cf forced)
       (causeList a lost' mis' conf' ext' alt' xm' xc' xe' xa' sf' cf' forced) =
    causeIf (mis && mis' && decide (xm ≠ xm')) (.station a) .stationMismatch xm' ++
    causeIf (ext && ext' && decide (xe ≠ xe')) (.station a) .stationExtra xe' ++
    (cf'.filter (fun x => decide (x ∉ cf ∧ ∃ y ∈ cf, circuitFaultKey a y = circuitFaultKey a x))).map (fun f =>
      { key := circuitFaultKey a f, extra := [f.detail] }) := by
  have hmem : ∀ c : Cause, c ∈ causeList a lost mis conf ext alt xm xc xe xa sf cf forced ↔ (lost = true ∧ c = ⟨plainKey
      (.station a) .stationLost, []⟩) ∨ (mis = true ∧ c = ⟨plainKey (.station a) .stationMismatch, xm⟩) ∨ (conf = true ∧
      c = ⟨plainKey (.station a) .addressConflict, xc⟩) ∨
     (ext = true ∧ c = ⟨plainKey (.station a) .stationExtra, xe⟩) ∨ (alt = true ∧ c = ⟨plainKey
         (.station a) .alternateLine, xa⟩) ∨ (∃ f ∈ sf, c = ⟨stationFaultKey a f, []⟩) ∨ (∃ f ∈ cf,
         c = ⟨circuitFaultKey a f, [f.detail]⟩) ∨ (1 ≤ forced ∧ c = ⟨plainKey (.station a) .forced, [octet forced]⟩) := by
    intro c
    have hif : ∀ b o k x, c ∈ causeIf b o k x ↔ b = true ∧ c = ⟨plainKey o k, x⟩
        := by intro b o k x; cases b <;> simp [causeIf]
    have e : ∀ x : Cause, (c = x) = (x = c) := fun x => propext eq_comm
    simp only [causeList, List.mem_append, hif, List.mem_map, decide_eq_true_eq, or_assoc, stationFaultKey,
        circuitFaultKey, e]
  simp only [refreshesOf, hasKey_causeList]
  simp only [hmem]
  conv_lhs => rw [causeList]
  simp only [List.filter_append, filter_causeIf, List.filter_map]
  simp only [plainKey, stationFaultKey, circuitFaultKey, Category.refreshed]
  simp only [Bool.false_and, Bool.and_false, causeIf, Bool.false_eq_true, if_false, List.nil_append, List.append_nil,
      Bool.true_and]
  congr 1
  · simp [Function.comp_def]
    cases mis <;> cases mis' <;> cases ext <;> cases ext' <;> simp [@eq_comm _ xm, @eq_comm _ xe]
  · congr 1
    refine List.filter_congr (fun x _ => ?_)
    simp
    rw [Bool.eq_iff_iff]; simp
    constructor
    · rintro ⟨⟨y, hy, h1⟩, h2⟩
      refine ⟨fun hx => h2 x hx rfl rfl rfl rfl, y, hy, h1⟩
    · rintro ⟨h1, y, hy, h2⟩
      refine ⟨⟨y, hy, h2⟩, ?_⟩
      intro z hz e1 e2 e3 e4
      apply h1
      have : z = x := by cases z; cases x; simp_all
      rw [← this]; exact hz

theorem causeList_missing_same_faults
    (a lost mis conf ext alt xm xc xe xa sf cf forced lost' mis' conf' ext' alt' xm' xc' xe' xa') :
   (causeList a lost mis conf ext alt xm xc xe xa sf cf forced).filter (fun c => !hasKey
       (causeList a lost' mis' conf' ext' alt' xm' xc' xe' xa' sf cf forced) c.key) =
    causeIf (lost && !lost') (.station a) .stationLost [] ++
    causeIf (mis && !mis') (.station a) .stationMismatch xm ++
    causeIf (conf && !conf') (.station a) .addressConflict xc ++
    causeIf (ext && !ext') (.station a) .stationExtra xe ++
    causeIf (alt && !alt') (.station a) .alternateLine xa := by
  rw [causeList_missing]
  have h1 : sf.filter (fun c => decide (c ∉ sf)) = [] := by rw [List.filter_eq_nil_iff]; intro x hx; simp [hx]
  have h2 : cf.filter (fun x => decide (∀ y ∈ cf, circuitFaultKey a y ≠ circuitFaultKey a x)) = [] := by
    rw [List.filter_eq_nil_iff]; intro x hx; simp; exact ⟨x, hx, rfl⟩
  rw [h1, h2]; simp

theorem causeList_refreshes_same_faults
    (a lost mis conf ext alt xm xc xe xa sf cf forced lost' mis' conf' ext' alt' xm' xc' xe' xa') :
   refreshesOf (causeList a lost mis conf ext alt xm xc xe xa sf cf forced)
       (causeList a lost' mis' conf' ext' alt' xm' xc' xe' xa' sf cf forced) =
    causeIf (mis && mis' && decide (xm ≠ xm')) (.station a) .stationMismatch xm' ++
    causeIf (ext && ext' && decide (xe ≠ xe')) (.station a) .stationExtra xe' := by
  rw [causeList_refreshes]
  have h2 : cf.filter (fun x => decide (x ∉ cf ∧ ∃ y ∈ cf, circuitFaultKey a y = circuitFaultKey a x)) = [] := by
    rw [List.filter_eq_nil_iff]; intro x hx; simp [hx]
  rw [h2]; simp

theorem stationCauses_eq (c : LineSetup) (a : Addr) (e : Entry) (v : Supervision) (n : Nat) :
   stationCauses c a e v n = causeList a e.lostCause (decide (e.presence = .mismatch)) (decide (e.presence = .conflict))
       (decide (e.presence = .extra)) (e.alternateLine c)
     (reportedExtra e.identity) (conflictExtra v.conflictTags)
         (reportedExtra e.identity) [lineCode e.activeLine] v.stationFaults v.circuitFaults n := rfl

theorem hands_updateStation (s u : State) (a : Addr) (e : Entry) (v : Supervision) (h : Agree s u) (hc
    : u.causesOfStation a = s.causesOfStation a) (hs : u.config = s.config) (ho : u.overrides = s.overrides) (ends
    : List Key) (begins refreshes : List Cause)
   (he : ((s.causesOfStation a).filter (fun c => !hasKey (stationCauses s.config.setup a e v
       (s.overrideCount a)) c.key)).map Cause.key = ends)
   (hb : (stationCauses s.config.setup a e v (s.overrideCount a)).filter (fun c => !hasKey
       (s.causesOfStation a) c.key) = begins)
   (hr : refreshesOf (s.causesOfStation a) (stationCauses s.config.setup a e v (s.overrideCount a)) = refreshes) :
   Hands s (u.updateStation a e v) ends begins refreshes := by
  simp only [State.updateStation, hc, hs, State.overrideCount, ho]
  exact hands_handChanges (by exact h) he hb hr

theorem alternateLine_eq (s : State) (e : Entry) (d : Descriptor) (hd : e.descriptor = some d)
    : e.alternateLine s.config.setup = (e.dataValid && alternateOn s d e.activeLine) := by
  simp only [Entry.alternateLine, hd, alternateOn]
  cases e.dataValid <;> simp

theorem stationCauses_of_descriptor (s : State) (a : Addr) (x : Entry) (v : Supervision) (n : Nat) (d : Descriptor) (hd
    : x.descriptor = some d) :
   stationCauses s.config.setup a x v n = causeList a x.lostCause (decide (x.presence = .mismatch)) (decide
       (x.presence = .conflict)) (decide (x.presence = .extra)) (x.dataValid && alternateOn s d x.activeLine)
     (reportedExtra x.identity) (conflictExtra v.conflictTags)
         (reportedExtra x.identity) [lineCode x.activeLine] v.stationFaults v.circuitFaults n := by
  rw [stationCauses_eq, alternateLine_eq s x d hd]

/-! ## The CIRCUIT FAULT set (R37) -/

theorem mem_insertFault (i : FaultItem) (l : List FaultItem) (h : ∀ j ∈ l, faultRank j ≠ faultRank i) (x : FaultItem)
    : x ∈ insertFault i l ↔ x = i ∨ x ∈ l := by
  induction l with
  | nil => simp [insertFault]
  | cons j js ih =>
    simp only [insertFault]
    split
    · simp
    · split
      · rename_i h1; exact absurd h1.symm (h j List.mem_cons_self)
      · simp only [List.mem_cons, ih (fun k hk => h k (List.mem_cons_of_mem _ hk))]
        tauto

theorem mem_foldl_insertFault (items : List FaultItem) : ∀ (l : List FaultItem), (items.map faultRank).Nodup →
    (∀ i ∈ items, ∀ j ∈ l, faultRank j ≠ faultRank i) → ∀ x, x ∈ items.foldl (fun m i => insertFault i m) l ↔ x ∈ items ∨
    x ∈ l := by
  induction items with
  | nil => simp
  | cons i items ih =>
    intro l hn hl x
    simp only [List.foldl_cons]
    have hn' := List.nodup_cons.1 (List.map_cons ▸ hn)
    rw [ih _ (hn'.2)]
    · rw [mem_insertFault _ _ (hl i List.mem_cons_self)]; simp only [List.mem_cons]; tauto
    · intro k hk j hj
      rw [mem_insertFault _ _ (hl i List.mem_cons_self)] at hj
      rcases hj with rfl | hj
      · intro e; exact hn'.1 (by simp; exact ⟨k, hk, e.symm⟩)
      · exact hl k (List.mem_cons_of_mem _ hk) j hj

theorem faultRank_iff_key (a : Addr) (x y : FaultItem)
    : faultRank x = faultRank y ↔ circuitFaultKey a x = circuitFaultKey a y := by
  obtain ⟨d, c, co, de⟩ := x
  obtain ⟨d', c', co', de'⟩ := y
  simp only [faultRank, circuitFaultKey, Key.mk.injEq, true_and, Option.some.injEq, Prod.mk.injEq]
  have h1 := co.isLt; have h2 := co'.isLt; have h3 := c.isLt; have h4 := c'.isLt
  constructor
  · intro hxy
    have : d = d' := by cases d <;> cases d' <;> simp_all <;> omega
    subst this
    have h5 : c.val = c'.val := by omega
    have h6 : co.toNat = co'.toNat := by omega
    exact ⟨⟨rfl, Fin.ext h5⟩, BitVec.eq_of_toNat_eq h6⟩
  · rintro ⟨⟨rfl, rfl⟩, rfl⟩; rfl

theorem mem_standingFaults (a : Addr) (old items : List FaultItem) (more : Bool) (hn : (items.map
    (circuitFaultKey a)).Nodup) (x : FaultItem) :
   x ∈ standingFaults old items more ↔ x ∈ items ∨ (more = true ∧ x ∈ old ∧ ∀ y ∈ items,
       circuitFaultKey a y ≠ circuitFaultKey a x) := by
  have hn2 : (items.map faultRank).Nodup := by
    rw [List.nodup_map_iff_inj_on (List.Nodup.of_map _ hn)]
    intro p hp q hq hpq
    exact List.inj_on_of_nodup_map hn hp hq ((faultRank_iff_key a p q).1 hpq)
  simp only [standingFaults]
  rw [mem_foldl_insertFault _ _ hn2]
  · cases more <;> simp [faultRank_iff_key a]
  · intro i hi j hj
    cases more
    · simp at hj
    · simp at hj; exact fun e => hj.2 i hi e.symm

end Sys2Proof.Laws
end

