-- ==== Sys2Proof/Laws/Scan.lean ====
section
/-! SUPPORT. What the scan engine does next: the line and the frame of an attempt, the transaction of a station, the place
of the cycle, and the pieces of a frame's reception. -/

namespace Sys2Proof.Laws

open Sys2Proof.Machine Sys2Proof.Safety

/-! ## Attempts and transactions (R24, R41, R142, R145) -/

theorem makeAttempt_none {s : State} {a : Addr} {d : Descriptor} {last : Option LineId}
    (h : s.attemptLine (s.entry a) d last = none) : ∀ n, s.makeAttempt a d last n = none := by
  intro n
  induction n with
  | zero => rfl
  | succ n ih => simp only [State.makeAttempt, h, ih]

theorem makeAttempt_some {s : State} {a : Addr} {d : Descriptor} {last : Option LineId} {l : LineId} (n : Nat)
    (h : s.attemptLine (s.entry a) d last = some l) :
    s.makeAttempt a d last (n + 1) =
      some (s.send (.attempt ⟨a, n, some l⟩) l (s.visitFrame a d) (some (s.profile d.profile).replyWindow)) := by
  simp only [State.makeAttempt, h]

theorem dataValid_eq (e : Entry) : e.dataValid = decide (e.presence = .present ∨ e.presence = .silent) := by
  obtain ⟨_, p⟩ := e
  cases p <;> rfl

theorem visitFrame_eq (s : State) (a : Addr) (d : Descriptor) :
    let polled := (s.entry a).presence = .present ∨ (s.entry a).presence = .silent
    s.visitFrame a d =
      { dest := octet a.val, source := octet s.ownAddress.val, kind := if polled then 1 else 3, toggle := 0
        payload := if polled then s.pollPayload a d else [] } := by
  dsimp only
  simp only [State.visitFrame, dataValid_eq]
  by_cases h : (s.entry a).presence = .present ∨ (s.entry a).presence = .silent <;>
    simp [h, State.frameTo, FrameKind.code, flagCode]

theorem transactionOf_none {s : State} {a : Addr} (h : ∀ i t, s.slot i = some t → t.station ≠ a) :
    s.transactionOf a = none := by
  simp only [State.transactionOf, List.find?_eq_none]
  intro i _
  cases hi : s.slot i with
  | none => simp
  | some t => simp [h i t hi]

theorem find_slot {i : Fin 4} (p : Fin 4 → Bool) (hp : p i = true) (hq : ∀ j, p j = true → i ≤ j) :
    allSlots.find? p = some i := by
  rw [show allSlots = [0, 1, 2, 3] from rfl]
  have h0 := hq 0
  have h1 := hq 1
  have h2 := hq 2
  have h3 := hq 3
  simp only [List.find?]
  revert h0 h1 h2 h3 hp
  fin_cases i <;> simp <;> (cases p 0 <;> cases p 1 <;> cases p 2 <;> cases p 3 <;> simp)

theorem transactionOf_some {s : State} {a : Addr} {i : Fin 4} {t : Transaction} (h : s.slot i = some t)
    (ht : t.station = a) (hm : ∀ j u, s.slot j = some u → u.station = a → i ≤ j) : s.transactionOf a = some i := by
  refine find_slot _ (by simp [h, ht]) (fun j hj => ?_)
  cases hs : s.slot j with
  | none => simp [hs] at hj
  | some u => simp [hs] at hj; exact hm j u hs hj

/-- What the completions of some transactions leave in the port: their responses behind those queued, and as many promises
fewer (R145, R150, R185). -/
theorem completeWhere_port (s : State) (p : Transaction → Bool) (st : Status) :
    (s.completeWhere p st).port = { s.port with
      responses := s.port.responses ++ completions s p st
      deferred := s.port.deferred - (completions s p st).length } := by
  let part : Mode → Fin 4 → Option Transaction → List Response := fun m i x =>
    match x with
    | none => []
    | some u =>
      if p u then
        { tag := u.tag
          kind := (match u.kind with
            | .read => 60
            | .write => 61)
          status := st, mode := m, result := [octet i.val, octet u.station.val, u.index, octet u.attempts] } ::
        (match u.cancel with
         | some tag => [{ tag := tag, kind := 62, status := .ok, mode := m, result := [] }]
         | none => [])
      else []
  have go : ∀ (is : List (Fin 4)), is.Nodup → ∀ s : State,
      (is.foldl (fun u i =>
        match u.slot i with
        | none => u
        | some t => if p t then (u.complete i t st []).answerCancel t .ok else u) s).port = { s.port with
          responses := s.port.responses ++ is.flatMap (fun i => part s.mode i (s.slot i))
          deferred := s.port.deferred - (is.flatMap (fun i => part s.mode i (s.slot i))).length } := by
    intro is hn
    induction is with
    | nil => intro s; simp
    | cons i is ih =>
      intro s
      have hn' := List.nodup_cons.1 hn
      rw [List.foldl_cons]
      cases hs : s.slot i with
      | none =>
        dsimp only
        rw [ih hn'.2]
        simp [hs, part]
      | some u =>
        dsimp only
        by_cases hp : p u = true
        · rw [if_pos hp, ih hn'.2]
          have hslot : ∀ j ∈ is, ((s.complete i u st []).answerCancel u .ok).slot j = s.slot j := by
            intro j hj
            rw [slot_answerCancel, slot_complete, if_neg]
            rintro rfl
            exact hn'.1 hj
          have hmode : ((s.complete i u st []).answerCancel u .ok).mode = s.mode := by
            rw [transOnly_answerCancel, transOnly_complete]
          have hport : ((s.complete i u st []).answerCancel u .ok).port = { s.port with
              responses := s.port.responses ++ part s.mode i (some u)
              deferred := s.port.deferred - (part s.mode i (some u)).length } := by
            simp only [State.answerCancel, part, hp, if_true]
            cases u.cancel <;> cases hk : u.kind <;>
              simp [State.complete, State.postDeferred, State.post, State.setSlot, hk, TransactionKind.request,
                RequestKind.code] <;> try omega
          have e : is.flatMap (fun j => part s.mode j (((s.complete i u st []).answerCancel u .ok).slot j)) =
              is.flatMap (fun j => part s.mode j (s.slot j)) := by
            rw [List.flatMap_def, List.flatMap_def, List.map_congr_left (fun j hj => by rw [hslot j hj])]
          rw [hport, hmode, e]
          simp only [List.flatMap_cons, hs, List.append_assoc, List.length_append, Nat.sub_sub]
        · rw [if_neg hp, ih hn'.2]
          simp [hs, hp, part]
  exact go allSlots (List.nodup_finRange 4) s

/-! ## The place of a cycle (R106 to R109) -/

theorem scanOn_in_flight {s : State} (h : s.scan.flight.isSome = true) : s.scanOn = s := by
  have : s.scan.flight.isNone = false := by cases hf : s.scan.flight <;> simp_all
  simp [State.scanOn, State.inPart, this]

theorem visitAt_foldl_in_flight (xs : List Addr) {s : State} (h : s.scan.flight.isSome = true) :
    xs.foldl State.visitAt s = s := by
  induction xs with
  | nil => rfl
  | cons a xs ih => simp only [List.foldl_cons, State.visitAt, h, if_true]; exact ih

theorem drop_addrs (a : Addr) : allAddrs.drop a.val = a :: allAddrs.drop (a.val + 1) := by
  rw [List.drop_eq_getElem_cons (by simp [allAddrs])]
  simp [allAddrs]

/-- The cycle goes on from an address to what its visit leaves. -/
theorem scanOn_visitAt {s t : State} (hf : s.scan.flight = none) (hc : s.scan.cycle = .visiting) {a : Addr}
    (hn : s.scan.nextAddress = a.val) (ht : s.visitAt a = t) (h1 : t.scan.cycle = .visiting)
    (h2 : t.scan.nextAddress = a.val + 1) : s.scanOn = t.scanOn := by
  have hs : s.inPart .visiting State.visitRest = (allAddrs.drop (a.val + 1)).foldl State.visitAt t := by
    simp [State.inPart, hf, hc, State.visitRest, hn, drop_addrs, ht]
  simp only [State.scanOn]
  rw [hs]
  cases hft : t.scan.flight with
  | some f =>
    rw [visitAt_foldl_in_flight _ (by simp [hft])]
    simp [State.inPart, hft]
  | none =>
    have : t.inPart .visiting State.visitRest = (allAddrs.drop (a.val + 1)).foldl State.visitAt t := by
      simp [State.inPart, hft, h1, State.visitRest, h2]
    rw [this]

/-- `t` stands where `s` stands in the cycle. -/
def SamePlace (s t : State) : Prop := t.scan.cycle = s.scan.cycle ∧ t.scan.nextAddress = s.scan.nextAddress

theorem SamePlace.refl (s : State) : SamePlace s s := ⟨rfl, rfl⟩

theorem SamePlace.trans {s t u : State} (h : SamePlace s t) (k : SamePlace t u) : SamePlace s u :=
  ⟨k.1.trans h.1, k.2.trans h.2⟩

theorem CondOnly.samePlace {s t : State} (h : CondOnly s t) : SamePlace s t := by
  have e := h.1
  constructor <;> rw [e]

theorem TransOnly.samePlace {s t : State} (h : TransOnly s t) : SamePlace s t := by
  have e : t = _ := h
  constructor <;> rw [e]

theorem samePlace_updateStation (s : State) (a : Addr) (e : Entry) (v : Supervision) :
    SamePlace s (s.updateStation a e v) :=
  CondOnly.samePlace (s := (s.setEntry a e).setSupervision a v) (condOnly_handChanges _ _ _)

theorem samePlace_station (s : State) (a : Addr) (e : Entry) (v : Supervision) (x : List Byte) :
    SamePlace s (((s.setEntry a e).setSupervision a v).setSlice a x) := ⟨rfl, rfl⟩

theorem samePlace_enterLost (s : State) (a : Addr) (d : Descriptor) : SamePlace s (s.enterLost a d) := by
  unfold State.enterLost State.completeStation
  exact ((samePlace_station s a _ _ _).trans (transOnly_completeWhere _ _ _).samePlace).trans
    (condOnly_handChanges _ _ _).samePlace

theorem samePlace_lossRule (s : State) (a : Addr) (d : Descriptor) (n : Nat) (p : Presence) :
    SamePlace s (s.lossRule a d n p) := by
  unfold State.lossRule
  split
  · exact samePlace_enterLost _ _ _
  · exact samePlace_updateStation _ _ _ _

theorem samePlace_takeMiss (s : State) (a : Addr) : SamePlace s (s.takeMiss a) := by
  unfold State.takeMiss
  dsimp only
  split
  · exact .refl s
  · split
    · exact samePlace_lossRule _ _ _ _ _
    · exact samePlace_updateStation _ _ _ _
    · exact samePlace_lossRule _ _ _ _ _
    · exact samePlace_lossRule _ _ _ _ _
    · exact samePlace_lossRule _ _ _ _ _
    · exact samePlace_lossRule _ _ _ _ _
    · exact samePlace_updateStation _ _ _ _
    · exact .refl s

theorem samePlace_afterVisit (s : State) (a : Addr) : SamePlace s (s.afterVisit a) := by
  unfold State.afterVisit
  have h0 := (condOnly_endGroup s).samePlace
  dsimp only
  split
  · split
    · split
      · refine h0.trans ?_
        unfold State.issue
        dsimp only
        split
        · exact (transOnly_failAttempt _ _ _).samePlace
        · exact ⟨rfl, rfl⟩
      · exact h0
    · exact h0
  · exact h0

theorem samePlace_startVisit (s : State) (a : Addr) : SamePlace s (s.startVisit a) := by
  unfold State.startVisit
  dsimp only
  split
  · exact .refl s
  · split
    · exact ⟨rfl, rfl⟩
    · unfold State.nextAttempt
      split
      · rename_i h
        obtain ⟨_, _, _, w, h⟩ := makeAttempt_eq_send h
        subst h
        exact ⟨rfl, rfl⟩
      · exact (samePlace_takeMiss s a).trans (samePlace_afterVisit _ _)

/-! ## A frame received (R130 to R134) -/

theorem line_setLine (s : State) (l : LineId) (e : LineEngine) : (s.setLine l e).line l = e := by cases l <;> rfl

theorem setLine_setLine (s : State) (l : LineId) (e f : LineEngine) : (s.setLine l e).setLine l f = s.setLine l f := by
  cases l <;> rfl

theorem scan_setLine (s : State) (l : LineId) (e : LineEngine) : (s.setLine l e).scan = s.scan := by cases l <;> rfl

theorem config_setLine (s : State) (l : LineId) (e : LineEngine) : (s.setLine l e).config = s.config := by
  cases l <;> rfl

theorem own_setLine (s : State) (l : LineId) (e : LineEngine) : (s.setLine l e).own = s.own := by cases l <;> rfl

theorem flight_of_openWindow {s : State} {l : LineId} {f : Flight} (h : s.openWindow l = some f) :
    s.scan.flight = some f := by
  unfold State.openWindow at h
  split at h
  · cases h
  · rename_i g hg
    rw [hg]
    split at h
    · split at h
      · exact h
      · split at h <;> simp_all
      · cases h
    · cases h

theorem receive_active {s : State} {l : LineId} (r : Except ErrorClass Frame) (h : (s.line l).state = .active) :
    s.receive l r = (s.received l).takeClass l (s.openWindow l) (s.classify l r) := by
  simp only [State.receive, h]

/-- An error below the limit is counted. -/
theorem lineError_below {s : State} {l : LineId} (c : ErrorClass)
    (h : (s.line l).errorCount + 1 < s.config.setup.errorLimit) :
    s.lineError l c = s.setLine l ((s.line l).countError c) := by
  simp only [State.lineError, line_setLine, LineEngine.countError]
  rw [if_neg (by omega)]

theorem forget_eq (f : Flight) (l : LineId) : f.forget l = { f with job := match f.job with
    | .probe d => .probe { d with rest := d.rest.filter (fun m => decide (m ≠ l)) }
    | .sessionFrame d done => .sessionFrame { d with rest := d.rest.filter (fun m => decide (m ≠ l)) } done
    | j => j } := by
  obtain ⟨j⟩ := f
  cases j <;> rfl

/-- An error that reaches the limit withdraws the line and begins LINE WITHDRAWN, and the group ends. -/
theorem lineError_at_limit {s : State} {l : LineId} (c : ErrorClass) (ha : (s.line l).state = .active)
    (h : s.config.setup.errorLimit ≤ (s.line l).errorCount + 1) :
    let e := s.line l
    s.lineError l c = (((s.setLine l { e with
        state := .withdrawn, errorCount := e.errorCount + 1, lastError := some c, errorWindow := none
        withdrawal := some s.config.setup.withdrawalTime, figures := some (e.errorCount + 1, c)
        totals := { e.totals.count c with withdrawals := min 65535 (e.totals.withdrawals + 1) } }).setFlight
          (s.scan.flight.map (fun f => f.forget l))).beginCause
        { key := plainKey (.line l) .lineWithdrawn, extra := [octet (e.errorCount + 1), c.code] }).endGroup := by
  have hw : ∀ t : ErrorTotals, (t.count c).withdrawals = t.withdrawals := by intro t; cases c <;> rfl
  dsimp only
  simp only [State.lineError, line_setLine, LineEngine.countError]
  rw [if_pos h]
  simp only [State.withdrawLine, line_setLine, setLine_setLine, scan_setLine, config_setLine, LineEngine.withdraw, hw,
    saturate]
  congr 1
  simp only [State.causesOfLine, line_setLine, ha]
  simp [causeIf, State.handChanges, hasKey, refreshesOf]

end Sys2Proof.Laws
end

