-- ==== Sys2Proof/Laws/Causes.lean ====
section
/-! SUPPORT. What a STOP, the opening of a session and an entry to LOST hand to the condition unit, and what they leave
alone. -/

namespace Sys2Proof.Laws

open Sys2Proof.Machine Sys2Proof.Safety

theorem agree_withoutOverrides {s u : State} (h : Agree s u) (ho : u.overrides = s.overrides) (p : OverrideRecord → Bool) :
    Agree (withoutOverrides s p) (withoutOverrides u p) := by
  simp only [withoutOverrides, ho]
  exact agree_foldl (fun (u : State) (a : Addr) => u.finishCause (plainKey (.station a) .forced))
    (fun _ _ _ h => agree_finishCause h _) _ h

/-- What a STOP ends in the condition unit, where the session's tool is SERVICE (R116, R177). -/
theorem stopEnds_cond {s : State} (hn : (s.overrides.map overrideKey).Nodup)
    (hp : ∀ o, s.session.current = some o → (s.entry o.tool).presence = .service) :
    s.stopEnds.cond = (stopCauses s).cond := by
  have ht := transOnly_completeWhere s (fun _ => true) .stopped
  unfold TransOnly at ht
  generalize hc : s.completeWhere (fun _ => true) .stopped = c at ht
  have ha : Agree s c := by rw [ht]; exact ⟨rfl, rfl, rfl⟩
  have ho : c.overrides = s.overrides := by rw [ht]
  have hses : c.session = s.session := by rw [ht]
  have hent : ∀ a, c.entry a = s.entry a := by intro a; rw [ht]; rfl
  have hown : c.own = s.own := by rw [ht]
  have hw : Agree (match s.session.current with
      | none => s
      | some o => sessionEnded s o .stopped) (c.endSession .stopped) := by
    cases h : s.session.current with
    | none => rw [endSession_none (by rw [hses]; exact h)]; exact ha
    | some o =>
      rw [endSession_eq .stopped (by rw [ho]; exact hn) (by rw [hses]; exact h) (by rw [hent]; exact hp o h)]
      exact agree_withoutOverrides ha ho _
  have hwo : (c.endSession .stopped).own = s.own := by rw [(sessionOnly_endSession c .stopped).1]; exact hown
  simp only [State.stopEnds, hc, State.finishOwnAddress, hwo, stopCauses]
  cases s.own.standing with
  | none => exact hw.1
  | some l =>
    exact (agree_finishCause (s := match s.session.current with
      | none => s
      | some o => sessionEnded s o .stopped) (u := { c.endSession .stopped with own := { s.own with standing := none } })
      hw (plainKey .part .ownAddressConflict)).1

/-- A completion changes the slots alone of the transaction unit (R145). -/
theorem completeWhere_trans (s : State) (p : Transaction → Bool) (st : Status) :
    (s.completeWhere p st).trans = { s.trans with slots := (s.completeWhere p st).trans.slots } := by
  refine keeps_foldl (P := fun t => t.trans = { s.trans with slots := t.trans.slots }) _ (fun t i h => ?_) allSlots rfl
  split
  · exact h
  · split
    · simp only [State.answerCancel]
      split <;> (simp only [State.complete, State.postDeferred, State.post, State.setSlot]; rw [h])
    · exact h

theorem endSession_supervised (s : State) (reason : EndReason) : (s.endSession reason).supervised = s.supervised := by
  simp only [State.endSession]
  split
  · rfl
  · have h1 : s.dropSessionOverrides.supervised = s.supervised := by
      rw [State.dropSessionOverrides, (overrideOnly_dropOverrides s _).1]
    show (State.updateStation _ _ _ _).supervised = _
    rw [updateStation_supervised, h1]
    simp [State.supervision, h1]

/-- What a STOP leaves alone. -/
theorem stopEnds_frame {s : State} (hm : s.mode ≠ .scanning) : s.stopEnds = { s with
    roster := s.stopEnds.roster
    cond := s.stopEnds.cond
    overrides := s.stopEnds.overrides
    session := s.stopEnds.session
    own := { s.own with standing := none }
    trans := { s.trans with slots := s.stopEnds.trans.slots }
    port := { s.port with
      responses := s.port.responses ++ completions s (fun _ => true) .stopped
      deferred := s.port.deferred - (completions s (fun _ => true) .stopped).length } } := by
  have h1 := stopOnly_stopEnds s
  have ht := transOnly_completeWhere s (fun _ => true) .stopped
  unfold TransOnly at ht
  generalize hc : s.completeWhere (fun _ => true) .stopped = c at ht
  have hf : s.stopEnds.port = (c.endSession .stopped).port ∧ s.stopEnds.trans = (c.endSession .stopped).trans ∧
      s.stopEnds.supervised = (c.endSession .stopped).supervised := by
    simp only [State.stopEnds, hc, State.finishOwnAddress]
    split
    · exact ⟨rfl, rfl, rfl⟩
    · rw [(condOnly_finishCause _ _).1]; exact ⟨rfl, rfl, rfl⟩
  have he := (sessionOnly_endSession c .stopped).1
  have hport : s.stopEnds.port = (s.completeWhere (fun _ => true) .stopped).port := by rw [hf.1, he, hc]
  have htrans : s.stopEnds.trans = (s.completeWhere (fun _ => true) .stopped).trans := by rw [hf.2.1, he, hc]
  have hsup : s.stopEnds.supervised = s.supervised := by rw [hf.2.2, endSession_supervised, ht]
  have hown : s.stopEnds.own = { s.own with standing := none } := by
    have : s.stopEnds.own = { (c.endSession .stopped).own with standing := none } := by
      simp only [State.stopEnds, hc]; exact finishOwnAddress_own _
    rw [this, he, ht]
  have hmode : s.stopEnds.mode = s.mode := by
    rcases h1.2 with h | h
    · exact h
    · exact absurd h.1 hm
  have hstamp : s.stopEnds.trans = { s.trans with slots := s.stopEnds.trans.slots } := by
    rw [htrans]; exact completeWhere_trans _ _ _
  have h := h1.1
  rw [hport, completeWhere_port, hsup, hmode, hown] at h
  rw [h, ← hstamp]

/-- What an entry to LOST leaves alone (R33, R146). -/
theorem enterLost_frame (s : State) (a : Addr) (d : Descriptor) :
    let ended := completions s (fun u => decide (u.station = a)) .stationLost
    let t := s.enterLost a d
    t = { s with
      roster := t.roster, supervised := t.supervised, cond := t.cond, mode := t.mode
      scan := { s.scan with buffer := t.scan.buffer }
      trans := { s.trans with slots := t.trans.slots }
      port := { s.port with
        responses := s.port.responses ++ ended, deferred := s.port.deferred - ended.length } } := by
  intro ended t
  generalize hx : (((s.setEntry a ((s.entry a).lose (s.profile d.profile))).setSupervision a
    { s.supervision a with stationFaults := [], circuitFaults := [] }).setSlice a (lostSlice d (s.slice a))) = x
  have hport : x.port = s.port ∧ x.trans = s.trans ∧ completions x = completions s := by subst hx; exact ⟨rfl, rfl, rfl⟩
  have hrest : x = { s with roster := x.roster, supervised := x.supervised, scan := { s.scan with buffer := x.scan.buffer } } := by
    subst hx; rfl
  have h1 := transOnly_completeWhere x (fun u => decide (u.station = a)) .stationLost
  unfold TransOnly at h1
  generalize hy : x.completeWhere (fun u => decide (u.station = a)) .stationLost = y at h1
  have hyp : y.port = { s.port with
      responses := s.port.responses ++ ended, deferred := s.port.deferred - ended.length } := by
    subst hy; rw [completeWhere_port, hport.1, hport.2.2]
  have hyt : y.trans = { s.trans with slots := y.trans.slots } := by
    subst hy; rw [← hport.2.1]; exact completeWhere_trans _ _ _
  have h2 : CondOnly y t := by
    have : t = y.handChanges (s.causesOfStation a) (stationCauses s.config.setup a
        ((s.entry a).lose (s.profile d.profile)) { s.supervision a with stationFaults := [], circuitFaults := [] }
        (s.overrideCount a)) := by subst hy; subst hx; rfl
    rw [this]; exact condOnly_handChanges _ _ _
  have h3 := h2.1
  have hall : t = { s with
      roster := t.roster, supervised := t.supervised, cond := t.cond, mode := t.mode
      scan := { s.scan with buffer := t.scan.buffer }, trans := t.trans, port := t.port } := by
    rw [h3, h1, hrest]
  have hp : t.port = y.port := by rw [h3]
  have htr : t.trans = { s.trans with slots := t.trans.slots } := by
    have : t.trans = y.trans := by rw [h3]
    rw [this]; exact hyt
  rw [hp, hyp] at hall
  rw [← htr]; exact hall

/-- An end is handed the same way whatever the session unit holds. -/
theorem finishCause_session (s : State) (k : Key) (x : SessionUnit) :
    ({ s with session := x } : State).finishCause k = { s.finishCause k with session := x } := by
  have h : Agree s { s with session := x } := ⟨rfl, rfl, rfl⟩
  have ha := agree_finishCause h k
  have h1 := (condOnly_finishCause s k).1
  have h2 := (condOnly_finishCause { s with session := x } k).1
  rw [h2, ha.1, ha.2.1]
  conv_rhs => rw [h1]

/-- The session that an OPEN REQUEST opens (R171, R172). -/
def opened (s : State) (a : Addr) (l : LineId) (tag : Word) : OpenSession :=
  { tool := a, line := l, toolTag := tag, openedAt := s.scan.number, lastNumber := none, result := none,
    timer := s.session.sessionTime }

/-- A session opened at an address that discovery may choose: its STATION EXTRA cause ends (R40, R172). -/
theorem openSession_eq (s : State) (a : Addr) (l : LineId) (tag : Word) (hd : (s.entry a).descriptor = none)
    (hp : (s.entry a).presence = .absent ∨ (s.entry a).presence = .extra) :
    s.openSession a l tag =
      let u : State := { s with
        roster := s.roster.set a.val { s.entry a with presence := .service, identity := none }
        session := { s.session with current := some (opened s a l tag) } }
      if (s.entry a).presence = .extra then u.finishCause (plainKey (.station a) .stationExtra) else u := by
  generalize hw : ({ s with
    roster := s.roster.set a.val { s.entry a with presence := .service, identity := none } } : State) = w
  have hset : (s.setEntry a { s.entry a with presence := .service, identity := none }).setSupervision a (s.supervision a) = w := by
    subst hw
    simp [State.setEntry, State.setSupervision, State.supervision]
  have he : (((s.causesOfStation a).filter (fun c => !hasKey (stationCauses s.config.setup a
      { s.entry a with presence := .service, identity := none } (s.supervision a) (s.overrideCount a)) c.key)).map Cause.key) =
      if (s.entry a).presence = .extra then [plainKey (.station a) .stationExtra] else [] := by
    rw [State.causesOfStation, stationCauses_eq, stationCauses_eq, causeList_missing_same_faults]
    rcases hp with hp | hp <;> simp [Entry.lostCause, Entry.alternateLine, hp, hd, causeIf]
  have hb : (stationCauses s.config.setup a { s.entry a with presence := .service, identity := none } (s.supervision a)
      (s.overrideCount a)).filter (fun c => !hasKey (s.causesOfStation a) c.key) = [] := by
    rw [State.causesOfStation, stationCauses_eq, stationCauses_eq, causeList_missing_same_faults]
    rcases hp with hp | hp <;> simp [Entry.lostCause, Entry.alternateLine, hd, causeIf]
  have hr : refreshesOf (s.causesOfStation a) (stationCauses s.config.setup a
      { s.entry a with presence := .service, identity := none } (s.supervision a) (s.overrideCount a)) = [] := by
    rw [State.causesOfStation, stationCauses_eq, stationCauses_eq, causeList_refreshes_same_faults]
    simp [causeIf]
  simp only [State.openSession, State.updateStation, State.handChanges, he, hb, hr, hset, List.foldl_nil, State.setSession]
  have hsess : w.session = s.session := by subst hw; rfl
  split
  · simp only [List.foldl_cons, List.foldl_nil]
    have hu := finishCause_session w (plainKey (.station a) .stationExtra) { s.session with
      current := some (opened s a l tag) }
    have hf : (w.finishCause (plainKey (.station a) .stationExtra)).session = s.session := by
      rw [(condOnly_finishCause w _).1]; exact hsess
    subst hw
    rw [hf]; exact hu.symm
  · subst hw; rfl

end Sys2Proof.Laws
end

