-- ==== Sys2Proof/Laws/Kept.lean ====
section
/-! SUPPORT. A property of the condition unit and the mode that every beginning, end, refresh, removal and sweep keeps is
kept by every operation of the part: `CondKept` names what such a property must stand, the rest follows. -/

namespace Sys2Proof.Laws

open Sys2Proof.Machine Sys2Proof.Safety

/-- A property that depends on the condition unit and the mode alone, and that the condition unit's operations and every
change of the mode to one other than SCANNING keep. -/
structure CondKept (P : State → Prop) : Prop where
  frame : ∀ s t : State, P s → t.cond = s.cond → t.mode = s.mode → P t
  begins : ∀ s c, P s → P (s.beginCause c)
  finishes : ∀ s k, P s → P (s.finishCause k)
  refreshes : ∀ s c, P s → P (s.refreshCause c)
  removes : ∀ s r, P s → P (s.removeRecord r)
  sweeps : ∀ s, P s → P s.sweep
  modes : ∀ (s : State) m, P s → m ≠ .scanning → P { s with mode := m }

namespace CondKept

variable {P : State → Prop} (h : CondKept P)
include h

theorem endGroup {s : State} (k : P s) : P s.endGroup := by
  simp only [State.endGroup]; split
  · exact h.sweeps s k
  · exact k

theorem handChanges {s : State} (k : P s) (before after : List Cause) : P (s.handChanges before after) := by
  simp only [State.handChanges]
  refine keeps_foldl (P := P) _ (fun _ c ht => h.refreshes _ c ht) _ ?_
  refine keeps_foldl (P := P) _ (fun _ c ht => h.begins _ c ht) _ ?_
  exact keeps_foldl (P := P) _ (fun _ c ht => h.finishes _ c ht) _ k

theorem updateStation {s : State} (k : P s) (a : Addr) (e : Entry) (v : Supervision) : P (s.updateStation a e v) :=
  h.handChanges (h.frame s _ k (by rfl) (by rfl)) _ _

theorem transOnly {s t : State} (k : P s) (r : TransOnly s t) : P t := by
  unfold TransOnly at r
  exact h.frame s t k (by rw [r]) (by rw [r])

theorem setFlight {s : State} (k : P s) (f : Option Flight) : P (s.setFlight f) := h.frame s _ k rfl rfl

theorem setCycle {s : State} (k : P s) (c : CycleState) : P (s.setCycle c) := h.frame s _ k rfl rfl

theorem setSession {s : State} (k : P s) (o : Option OpenSession) : P (s.setSession o) := h.frame s _ k rfl rfl

theorem postDeferred {s : State} (k : P s) (t c : Byte) (st : Status) (r : List Byte) : P (s.postDeferred t c st r) :=
  h.frame s _ k rfl rfl

theorem post {s : State} (k : P s) (t c : Byte) (st : Status) (r : List Byte) : P (s.post t c st r) :=
  h.frame s _ k rfl rfl

theorem beginCycle {s : State} (k : P s) : P s.beginCycle := h.frame s _ k rfl rfl

/-! ## The presence supervisor and the scan engine -/

theorem enterLost {s : State} (k : P s) (a : Addr) (d : Descriptor) : P (s.enterLost a d) := by
  simp only [State.enterLost]
  exact h.handChanges (h.transOnly (h.frame s _ k (by rfl) (by rfl)) (transOnly_completeWhere _ _ _)) _ _

theorem lossRule {s : State} (k : P s) (a : Addr) (d : Descriptor) (m : Nat) (p : Presence) : P (s.lossRule a d m p) := by
  simp only [State.lossRule]; split
  · exact h.enterLost k _ _
  · exact h.updateStation k _ _ _

theorem takeMiss {s : State} (k : P s) (a : Addr) : P (s.takeMiss a) := by
  simp only [State.takeMiss]; split
  · exact k
  · split <;> first
      | exact k
      | exact h.lossRule k _ _ _ _
      | exact h.updateStation k _ _ _

theorem takeIdentity {s : State} (k : P s) (a : Addr) (l : LineId) (i : Identity) : P (s.takeIdentity a l i) := by
  simp only [State.takeIdentity]; split
  · exact k
  · exact h.updateStation k _ _ _

theorem takeReply {s : State} (k : P s) (a : Addr) (l : LineId) (r : ReplyContents) : P (s.takeReply a l r) := by
  simp only [State.takeReply]
  repeat' split
  · exact k
  · exact h.updateStation (h.frame s _ k (by rfl) (by rfl)) _ _ _
  · exact h.updateStation k _ _ _

theorem send {s : State} (k : P s) (j : Job) (l : LineId) (f : Frame) (w : Option Nat) : P (s.send j l f w) :=
  h.frame s _ k (by rfl) (by rfl)

theorem issue {s : State} (k : P s) (i : Fin 4) (t : Transaction) (e : Entry) (d : Descriptor) : P (s.issue i t e d) := by
  simp only [State.issue]; split
  · exact h.transOnly k (transOnly_failAttempt _ _ _)
  · exact h.frame s _ k (by rfl) (by rfl)

theorem afterVisit {s : State} (k : P s) (a : Addr) : P (s.afterVisit a) := by
  simp only [State.afterVisit]
  repeat' split
  all_goals first
    | exact h.issue (h.endGroup k) _ _ _ _
    | exact h.endGroup k

theorem nextAttempt {s : State} (k : P s) (a : Addr) (d : Descriptor) (last : Option LineId) (n : Nat) :
    P (s.nextAttempt a d last n) := by
  simp only [State.nextAttempt]; split
  · rename_i e
    obtain ⟨j, l, f, w, rfl⟩ := makeAttempt_eq_send e
    exact h.send k j l f w
  · exact h.afterVisit (h.takeMiss k a) a

theorem visitAt {s : State} (k : P s) (a : Addr) : P (s.visitAt a) := by
  simp only [State.visitAt, State.startVisit]
  repeat' split
  all_goals first
    | exact k
    | exact h.frame s _ k (by rfl) (by rfl)
    | exact h.nextAttempt (h.frame s _ k (by rfl) (by rfl)) _ _ _ _

theorem visitRest {s : State} (k : P s) : P s.visitRest :=
  keeps_foldl (P := P) _ (fun _ a ht => h.visitAt ht a) _ k

theorem judge {s : State} (k : P s) (d : Discovery) : P (s.judge d) := by
  simp only [State.judge]
  repeat' split
  all_goals first
    | exact k
    | exact h.endGroup (h.updateStation k _ _ _)

theorem probeNext {s : State} (k : P s) (d : Discovery) : P (s.probeNext d) := by
  simp only [State.probeNext, State.probe]
  repeat' split
  all_goals first
    | exact h.judge k _
    | exact h.send k _ _ _ _

theorem enterSessionSlot {s : State} (k : P s) : P s.enterSessionSlot := by
  simp only [State.enterSessionSlot]
  repeat' split
  all_goals exact h.frame s _ k (by rfl) (by rfl)

theorem enterDiscovery {s : State} (k : P s) : P s.enterDiscovery := by
  simp only [State.enterDiscovery]
  repeat' split
  all_goals first
    | exact h.frame s _ k (by rfl) (by rfl)
    | exact h.probeNext (h.frame s _ k (by rfl) (by rfl)) _

omit h in
theorem inPart {s : State} (k : P s) (c : CycleState) (f : State → State) (hf : ∀ t, P t → P (f t)) : P (s.inPart c f) := by
  simp only [State.inPart]; split
  · exact hf s k
  · exact k

theorem scanOn {s : State} (k : P s) : P s.scanOn :=
  inPart (inPart (inPart (inPart k _ _ fun _ e => h.visitRest e) _ _ fun _ e => h.enterSessionSlot e) _ _
    fun _ e => h.enterDiscovery e) _ _ fun t e => h.frame t _ e (by rfl) (by rfl)

/-! ## Lines -/

theorem setLine {s : State} (k : P s) (l : LineId) (e : LineEngine) : P (s.setLine l e) := by
  cases l <;> exact h.frame s _ k (by rfl) (by rfl)

theorem withdrawLine {s : State} (k : P s) (l : LineId) (c : ErrorClass) : P (s.withdrawLine l c) := by
  simp only [State.withdrawLine]
  refine h.endGroup (h.handChanges ?_ _ _)
  exact h.frame (s.setLine l _) _ (h.setLine k l _) (by rfl) (by rfl)

theorem lineError {s : State} (k : P s) (l : LineId) (c : ErrorClass) : P (s.lineError l c) := by
  simp only [State.lineError]; split
  · exact h.withdrawLine (h.setLine k _ _) l c
  · exact h.setLine k _ _

theorem returnLine {s : State} (k : P s) (l : LineId) : P (s.returnLine l) :=
  h.endGroup (h.handChanges (h.setLine k _ _) _ _)

theorem seeOwnAddress {s : State} (k : P s) (l : LineId) : P (s.seeOwnAddress l) := by
  simp only [State.seeOwnAddress]; split
  · exact h.frame s _ k (by rfl) (by rfl)
  · exact h.endGroup (h.begins _ _ (h.frame s _ k (by rfl) (by rfl)))

theorem finishOwnAddress {s : State} (k : P s) : P s.finishOwnAddress := by
  simp only [State.finishOwnAddress]; split
  · exact k
  · exact h.finishes _ _ (h.frame s _ k (by rfl) (by rfl))

/-! ## Overrides and the session -/

theorem dropOverride {s : State} (k : P s) (r : OverrideRecord) : P (s.dropOverride r) := by
  simp only [State.dropOverride, State.finishForced]; split
  · exact h.finishes _ _ (h.frame s _ k (by rfl) (by rfl))
  · exact h.frame s _ k (by rfl) (by rfl)

theorem dropOverrides {s : State} (k : P s) (p : OverrideRecord → Bool) : P (s.dropOverrides p) :=
  keeps_foldl (P := P) _ (fun _ r ht => h.dropOverride ht r) _ k

theorem applyOverride {s : State} (k : P s) (w : Owner) (a : Addr) (d : Direction) (c : Fin 32) (v : Word)
    (f : Option OverrideRecord) : P (s.applyOverride w a d c v f).2 := by
  cases f
  · simp only [State.applyOverride, State.createOverride, State.beginForced]; split
    · exact h.begins _ _ (h.frame s _ k (by rfl) (by rfl))
    · exact h.frame s _ k (by rfl) (by rfl)
  · exact h.frame s _ k (by rfl) (by rfl)

theorem setOverride {s : State} (k : P s) (w : Owner) (st d c : Byte) (v : Word) : P (s.setOverride w st d c v).2 := by
  simp only [State.setOverride]
  repeat' split
  all_goals first
    | exact k
    | exact h.applyOverride k _ _ _ _ _ _

theorem removeOverride {s : State} (k : P s) (w : Owner) (st d c : Byte) : P (s.removeOverride w st d c).2 := by
  simp only [State.removeOverride]
  repeat' split
  all_goals first
    | exact k
    | exact h.dropOverride k _

theorem endSession {s : State} (k : P s) (reason : EndReason) : P (s.endSession reason) := by
  simp only [State.endSession]; split
  · exact k
  · exact h.frame _ _ (h.updateStation (h.dropOverrides k _) _ _ _) (by rfl) (by rfl)

theorem openSession {s : State} (k : P s) (a : Addr) (l : LineId) (t : Word) : P (s.openSession a l t) :=
  h.frame _ _ (h.updateStation k _ _ _) (by rfl) (by rfl)

theorem takeRequest {s : State} (k : P s) (n : Byte) (q : RequestKind) (run : State → Answer × State)
    (hr : P (run s).2) : P (s.takeRequest n q run) := by
  simp only [State.takeRequest]; split
  · exact k
  · split
    · exact h.frame s _ k (by rfl) (by rfl)
    · exact h.frame _ _ hr (by rfl) (by rfl)

theorem takeContents {s : State} (k : P s) (p : List Byte) : P (s.takeContents p) := by
  simp only [State.takeContents]; split
  · exact k
  · exact h.endSession k _
  · exact h.takeRequest k _ _ _ k
  · exact h.takeRequest k _ _ _ k
  · exact h.takeRequest k _ _ _ (h.setOverride k _ _ _ _ _)
  · exact h.takeRequest k _ _ _ (h.removeOverride k _ _ _ _)
  · exact k

theorem takeServiceAnswer {s : State} (k : P s) (p : List Byte) : P (s.takeServiceAnswer p) := by
  simp only [State.takeServiceAnswer]; split
  · exact k
  · exact h.takeContents (h.frame s _ k (by rfl) (by rfl)) p

/-! ## The end of a reply window, and frames -/

theorem attemptEnded {s : State} (k : P s) (v : Visit) (l : LineId) (f : Option Frame) : P (s.attemptEnded v l f) := by
  simp only [State.attemptEnded]
  repeat' split
  · exact k
  · simp only [State.takeGood]
    repeat' split
    · exact h.afterVisit (h.takeReply k _ _ _) _
    · exact h.afterVisit k _
    · exact h.afterVisit (h.takeIdentity k _ _ _) _
    · exact h.afterVisit k _
  · exact h.nextAttempt k _ _ _ _

theorem exchangeEnded {s : State} (k : P s) (i : Fin 4) (f : Option Frame) : P (s.exchangeEnded i f) := by
  simp only [State.exchangeEnded]
  repeat' split
  all_goals first
    | exact k
    | exact h.transOnly k (transOnly_failAttempt _ _ _)
    | exact h.transOnly k (transOnly_completeAnswered _ _ _ _ _)

theorem pollEnded {s : State} (k : P s) (f : Option Frame) : P (s.pollEnded f) := by
  simp only [State.pollEnded]; split
  · exact k
  · exact h.endGroup (h.takeServiceAnswer k _)

theorem refuseSession {s : State} (k : P s) (d : Discovery) (l : LineId) (b : Byte) : P (s.refuseSession d l b) := by
  simp only [State.refuseSession]; split
  · exact h.send (h.judge k _) _ _ _ _
  · exact h.send k _ _ _ _

theorem probeEnded {s : State} (k : P s) (d : Discovery) (l : LineId) (f : Option Frame) : P (s.probeEnded d l f) := by
  simp only [State.probeEnded, State.openRequested]
  repeat' split
  all_goals first
    | exact h.probeNext k _
    | exact h.refuseSession k _ _ _
    | exact h.send (h.endGroup (h.openSession k _ _ _)) _ _ _ _

/-- A reply window that ends (R130). -/
theorem windowEnds {s : State} (k : P s) (f : Flight) (x : Option Frame) : P (s.windowEnds f x) := by
  have k' : P (s.setFlight none) := h.frame s _ k (by rfl) (by rfl)
  simp only [State.windowEnds]
  refine h.scanOn ?_
  split
  · exact h.attemptEnded k' _ _ _
  · exact h.exchangeEnded k' _ _
  · exact h.pollEnded k' _
  · exact h.probeEnded k' _ _ _
  · exact k'

theorem sent {s : State} (k : P s) (f : Flight) : P (s.sent f) := by
  have k' : P (s.setFlight none) := h.frame s _ k (by rfl) (by rfl)
  simp only [State.sent]
  split
  · exact h.frame s _ k (by rfl) (by rfl)
  · refine h.scanOn ?_
    split
    · exact h.probeNext k' _
    · exact k'

theorem takeClass {s : State} (k : P s) (l : LineId) (w : Option Flight) (r : Received) : P (s.takeClass l w r) := by
  cases r with
  | error c =>
    have kc := h.lineError k l c
    simp only [State.takeClass]; split
    · exact h.windowEnds kc _ _
    · exact kc
  | ownAddress =>
    have ko := h.seeOwnAddress k l
    simp only [State.takeClass]; split
    · exact h.setFlight ko _
    · exact ko
  | good q f =>
    simp only [State.takeClass]; split
    · exact h.windowEnds k _ _
    · exact k

/-- A frame that arrives (R130 to R132). -/
theorem receive {s : State} (k : P s) (l : LineId) (r : Except ErrorClass Frame) : P (s.receive l r) := by
  have k' : P (s.received l) := h.setLine k _ _
  simp only [State.receive]
  repeat' split
  all_goals first
    | exact k
    | exact k'
    | exact h.takeClass k' _ _ _
    | exact h.seeOwnAddress k' _

theorem firstOctet {s : State} (k : P s) (l : LineId) : P (s.firstOctet l) := by
  simp only [State.firstOctet]
  repeat' split
  all_goals first
    | exact k
    | exact h.setLine k _ _
    | exact h.frame _ _ (h.setLine k _ _) (by rfl) (by rfl)

/-! ## A STOP, a commit, the cycle end -/

theorem startLine {s : State} (k : P s) (l : LineId) : P (s.startLine l) := by
  simp only [State.startLine]; split
  · exact h.setLine k _ _
  · exact k

theorem stopHalt {s : State} (k : P s) : P s.stopHalt := by
  rw [stopHalt_eq]
  exact h.frame _ _ (h.modes s .standby k (by decide)) (by rfl) (by rfl)

theorem stopEnds {s : State} (k : P s) : P s.stopEnds :=
  h.finishOwnAddress (h.endSession (h.transOnly k (transOnly_completeWhere _ _ _)) _)

theorem takeOut {s : State} (k : P s) (a : Addr) : P (s.takeOut a) := by
  simp only [State.takeOut, State.retireStation]
  exact h.frame _ _ (h.dropOverrides (keeps_foldl (P := P) _ (fun _ r ht => h.removes _ r ht) _ k) _) (by rfl) (by rfl)

theorem setUp {s : State} (k : P s) (c : StagingCopy) (a : Addr) : P (s.setUp c a) := by
  have hset : ∀ u : State, P u → ∀ e b, P (((u.setEntry a e).setSlice a b).setToggle a false) :=
    fun u hu e b => h.frame u _ hu rfl rfl
  simp only [State.setUp]; split
  · exact hset _ (h.updateStation k a .unconfigured (s.supervision a)) _ _
  · exact h.frame s _ k rfl rfl

/-- A commit applied (R167). -/
theorem applyCommit {s : State} (k : P s) (c : StagingCopy) : P (s.applyCommit c) := by
  have hmode : ∀ (u : State) (b : Bool), P u → P { u with mode := modeAfterCommit u.mode b } := by
    intro u b hu
    have : modeAfterCommit u.mode b = u.mode ∨ modeAfterCommit u.mode b ≠ .scanning := by
      cases hm : u.mode <;> cases b <;> simp [modeAfterCommit]
    rcases this with e | e
    · exact h.frame u _ hu rfl e
    · exact h.modes u _ hu e
  have hclear : ∀ u : State, P u → P u.clearIncomplete := by
    intro u hu
    simp only [State.clearIncomplete]; split
    · exact h.finishes _ _ (h.frame u _ hu (by rfl) (by rfl))
    · exact hu
  have hs1 : P (s.commitSession c) := by
    simp only [State.commitSession]; repeat' split
    all_goals first
      | exact k
      | exact h.endSession k _
  have hrebuild : ∀ (u : State) (b : Bool) (l : List (Placement × Placement)), P u → P (if b then u else u.rebuild l) := by
    intro u b l hu; cases b
    · exact h.frame u _ hu (by rfl) (by rfl)
    · exact hu
  have hclose : ∀ (u : State) (w : Word), P u → P { u with
      scan := { u.scan with layout := w }
      config := { u.config with staging := .closed, gapTimer := none } } := fun u w hu => h.frame u _ hu (by rfl) (by rfl)
  exact hmode _ _ (hclose _ _ (hclear _ (h.frame _ _ (hrebuild _ _ _ (keeps_foldl (P := P) _ (fun _ a ht => h.setUp ht c a) _
    (h.transOnly (keeps_foldl (P := P) _ (fun _ a ht => h.takeOut ht a) _ hs1) (transOnly_completeWhere _ _ _)))) (by rfl) (by rfl))))

theorem commitPart {s : State} (k : P s) : P s.commitPart := by
  simp only [State.commitPart]; split
  · exact k
  · exact h.postDeferred (h.applyCommit k _) _ _ _ _

theorem deferredWork {s : State} (k : P s) : P s.deferredWork := by
  simp only [State.deferredWork]; split
  · exact h.commitPart k
  · exact h.postDeferred (h.stopEnds (h.commitPart (h.stopHalt k))) _ _ _ _

theorem countDown {s : State} (k : P s) : P s.countDown := h.frame s _ k rfl rfl

theorem publish {s : State} (k : P s) : P s.publish := h.frame s _ k rfl rfl

theorem ownCheck {s : State} (k : P s) : P s.ownCheck := by
  have hx : P (if s.own.seen then s else s.finishOwnAddress) := by
    split
    · exact k
    · exact h.finishOwnAddress k
  exact h.frame _ _ hx (by rfl) (by rfl)

theorem closeCycle {s : State} (k : P s) : P s.closeCycle := by
  have hn : ∀ u : State, P u → P { u with scan := { u.scan with number := u.scan.number + 1 } } :=
    fun u hu => h.frame u _ hu rfl rfl
  exact hn _ (h.sweeps _ (h.ownCheck (h.countDown (h.deferredWork (h.publish k)))))

/-- The cycle end (R110, R111). -/
theorem cycleEnds {s : State} (k : P s) : P s.cycleEnds := by
  have hc : P s.closeCycle := h.closeCycle k
  have hd : P s.closeCycle.drawn := h.frame _ _ hc rfl rfl
  simp only [State.cycleEnds, State.afterClose]
  repeat' split
  · exact h.setCycle hc _
  · exact h.scanOn (h.beginCycle hc)
  · exact h.scanOn (h.beginCycle hd)
  · exact h.setCycle hd _

/-! ## Requests -/

/-- A request that leaves a state with the property. -/
theorem runRequest {s : State} (k : P s) (q : RequestKind) (body : Memory → State → Option Answer × State)
    (hb : ∀ r, P (body r s.popRequest).2) : P (s.runRequest q body) := by
  simp only [State.runRequest]; split
  · refine h.endGroup ?_
    simp only [answered]; split
    · exact hb _
    · exact h.frame _ _ (hb _) (by rfl) (by rfl)
  · exact k

theorem whileOpen {s : State} (k : P s) (f : StagingCopy → State → Option Answer × State)
    (hf : ∀ c u, P u → P (f c u).2) : P (s.whileOpen f).2 := by
  simp only [State.whileOpen]; split
  · exact k
  · exact k
  · exact hf _ _ (h.frame s _ k (by rfl) (by rfl))

theorem stageBegin {s : State} (k : P s) (n : Nat) : P (s.stageBegin n).2 := by
  simp only [State.stageBegin]
  repeat' split
  all_goals exact h.frame s _ k rfl rfl

theorem stageStation {s : State} (k : P s) (c : StagingCopy) (b : Byte) (d : Option Descriptor) :
    P (s.stageStation c b d).2 := by
  simp only [State.stageStation]
  repeat' split
  all_goals exact h.frame s _ k rfl rfl

theorem stageRemove {s : State} (k : P s) (c : StagingCopy) (b : Byte) : P (s.stageRemove c b).2 := by
  simp only [State.stageRemove]
  repeat' split
  all_goals exact h.frame s _ k rfl rfl

omit h in
theorem readStaged {s : State} (k : P s) (c : StagingCopy) (b : Byte) : P (s.readStaged c b).2 := by
  simp only [State.readStaged]
  split <;> exact k

theorem stageCommit {s : State} (k : P s) (b : Byte) (c : StagingCopy) : P (s.stageCommit b c).2 := by
  simp only [State.stageCommit]
  repeat' split
  · exact k
  · exact h.frame s _ k rfl rfl
  · exact h.applyCommit k c

theorem stopRequest {s : State} (k : P s) (b : Byte) : P (s.stopRequest b).2 := by
  simp only [State.stopRequest]
  repeat' split
  · exact k
  · exact k
  · exact h.setCycle (h.stopEnds (h.stopHalt k)) _
  · exact h.frame s _ k rfl rfl

theorem setLineSetup {s : State} (k : P s) (c : Option LineSetup) : P (s.setLineSetup c).2 := by
  simp only [State.setLineSetup]
  repeat' split
  all_goals first
    | exact k
    | exact h.handChanges (h.frame s _ k (by rfl) (by rfl)) _ _

theorem setProfileRequest {s : State} (k : P s) (b : Byte) (p : Option Profile) : P (s.setProfileRequest b p).2 := by
  simp only [State.setProfileRequest]
  split <;> exact h.frame s _ k rfl rfl

theorem setOutputRefresh {s : State} (k : P s) (n : Nat) : P (s.setOutputRefresh n).2 := by
  simp only [State.setOutputRefresh]
  split <;> exact h.frame s _ k rfl rfl

theorem setServicePermit {s : State} (k : P s) (a b : Byte) (n : Nat) : P (s.setServicePermit a b n).2 := by
  have hset : ∀ u : State, P u → ∀ x, P { u with session := x } := fun u hu x => h.frame u _ hu rfl rfl
  simp only [State.setServicePermit]
  repeat' split
  · simp only [State.permit]
    repeat' split
    · exact hset _ (h.endSession k _) _
    · exact hset _ (h.dropOverrides k _) _
    · exact hset _ k _
  · exact k
  · exact k

theorem readTimer {s : State} (k : P s) (x : Timer) : P (s.readTimer x).2 := by
  cases x
  · exact k
  · exact h.frame s _ k rfl rfl

theorem readLineState {s : State} (k : P s) (b : Byte) : P (s.readLineState b).2 := by
  simp only [State.readLineState]; split
  · exact k
  · exact h.readTimer (h.readTimer k _) _

theorem readSession {s : State} (k : P s) : P s.readSession.2 := h.readTimer k _

theorem removeStationOverrides {s : State} (k : P s) (b : Byte) : P (s.removeStationOverrides b).2 := by
  simp only [State.removeStationOverrides]
  repeat' split
  · exact k
  · exact h.dropOverrides k _
  · exact k

theorem endSessionRequest {s : State} (k : P s) : P s.endSessionRequest.2 := by
  simp only [State.endSessionRequest]; split
  · exact k
  · exact h.endSession k _

theorem acceptTransaction {s : State} (k : P s) (t : Byte) (q : TransactionKind) (a b c : Byte) (d : List Byte) :
    P (s.acceptTransaction t q a b c d).2 := by
  simp only [State.acceptTransaction]
  repeat' split
  all_goals first
    | exact k
    | (cases q <;> exact h.frame s _ k rfl rfl)

theorem cancelTransaction {s : State} (k : P s) (a b : Byte) : P (s.cancelTransaction a b).2 := by
  simp only [State.cancelTransaction]
  repeat' split
  all_goals exact h.frame s _ k rfl rfl

/-! ## Window accesses -/

theorem submit {s : State} (k : P s) : P s.submit := by
  simp only [State.submit]; split <;> exact h.frame s _ k rfl rfl

theorem outputCommit {s : State} (k : P s) : P s.outputCommit := by
  have hf : ∀ u : State, P u → P u.finishOutputsSafe := by
    intro u hu
    simp only [State.finishOutputsSafe]; split
    · exact h.finishes _ _ (h.frame u _ hu (by rfl) (by rfl))
    · exact hu
  simp only [State.outputCommit]
  refine h.endGroup (hf _ ?_)
  split <;> exact h.frame s _ k rfl rfl

theorem responseTaken {s : State} (k : P s) : P s.responseTaken := h.frame s _ k rfl rfl

theorem storeOctets {s : State} (k : P s) (o : Nat) (bs : List Byte) : P (s.storeOctets o bs) := by
  induction bs generalizing s o with
  | nil => exact k
  | cons b bs ih =>
    refine ih ?_ _
    simp only [State.storeOctet]
    repeat' split
    all_goals exact h.frame s _ k rfl rfl

omit h in
/-- The rows that change the mode to SCANNING, restart the part, or act on the condition unit itself. -/
def special : Instr → Bool
  | .powerOnReset | .restartLine | .restart | .start | .resume | .setAction | .ackCondition | .ackAll | .clearOverflow =>
    true
  | _ => false

/-- Every row but those nine keeps such a property. -/
theorem exec_next {s t : State} (k : P s) {i : Instr} (hi : special i = false) (e : exec i s = .next t) : P t := by
  have hp : P s.popRequest := h.frame s _ k rfl rfl
  cases i <;> simp only [special, Bool.true_eq_false] at hi <;>
    simp only [exec, execSubmit, execOutputCommit, execResponseTaken, execWindowWrite, execStop, execStageBegin,
      execStageStation, execStageRemove, execStageCommit, execStageAbort, execReadStaged, execSetLineSetup,
      execReadLineSetup, execSetProfile, execReadProfile, execReadAction, execSetOutputRefresh,
      execSetServicePermit, execReadEntry, execReadLineState, execReadCondition, execReadConditionRef,
      execReadTableState, execSetOverride, execRemoveOverride, execRemoveStationOverrides, execRemoveAllOverrides,
      execReadOverride, execStationRead, execStationWrite, execCancelTransaction, execReadSession, execEndSession,
      execUnknownRequest, execFrameReceived, execReply, execIdentity, execParamAnswer, execParamRefuse, execOpenRequest,
      execKeepalive, execClose, execServiceReadEntry, execServiceReadCondition, execServiceSetOverride,
      execServiceRemoveOverride, execFrameSent, execReplyWindowExpiry, execCycleEnd, execCyclePeriodExpiry,
      execOutputRefreshTimerExpiry, execErrorWindowExpiry, execWithdrawalTimerExpiry, execStagingGapTimerExpiry,
      execSessionTimerExpiry, execRestartLineRelease, execFrameFirstOctet, Host.Outcome.next.injEq] at e
  case submit => exact e ▸ h.submit k
  case outputCommit => exact e ▸ h.outputCommit k
  case responseTaken => exact e ▸ h.responseTaken k
  case windowWrite o d =>
    have k1 := h.storeOctets k o d
    have k2 : P (if touches o d.length 0x802 then (s.storeOctets o d).outputCommit else s.storeOctets o d) := by
      split
      · exact h.outputCommit k1
      · exact k1
    subst e
    split
    · refine h.responseTaken ?_
      split
      · exact h.submit k2
      · exact k2
    · split
      · exact h.submit k2
      · exact k2
  case stop => exact e ▸ h.runRequest k _ _ (fun _ => h.stopRequest hp _)
  case stageBegin => exact e ▸ h.runRequest k _ _ (fun _ => h.stageBegin hp _)
  case stageStation => exact e ▸ h.runRequest k _ _ (fun _ => h.whileOpen hp _ (fun _ _ hu => h.stageStation hu _ _ _))
  case stageRemove => exact e ▸ h.runRequest k _ _ (fun _ => h.whileOpen hp _ (fun _ _ hu => h.stageRemove hu _ _))
  case stageCommit => exact e ▸ h.runRequest k _ _ (fun _ => h.whileOpen hp _ (fun _ _ hu => h.stageCommit hu _ _))
  case stageAbort =>
    exact e ▸ h.runRequest k _ _ (fun _ => h.whileOpen hp _ (fun _ u hu => h.frame u _ hu (by rfl) (by rfl)))
  case readStaged => exact e ▸ h.runRequest k _ _ (fun _ => h.whileOpen hp _ (fun _ _ hu => readStaged hu _ _))
  case setLineSetup => exact e ▸ h.runRequest k _ _ (fun _ => h.setLineSetup hp _)
  case setProfile => exact e ▸ h.runRequest k _ _ (fun _ => h.setProfileRequest hp _ _)
  case setOutputRefresh => exact e ▸ h.runRequest k _ _ (fun _ => h.setOutputRefresh hp _)
  case setServicePermit => exact e ▸ h.runRequest k _ _ (fun _ => h.setServicePermit hp _ _ _)
  case readLineState => exact e ▸ h.runRequest k _ _ (fun _ => h.readLineState hp _)
  case setOverride => exact e ▸ h.runRequest k _ _ (fun _ => h.setOverride hp _ _ _ _ _)
  case removeOverride => exact e ▸ h.runRequest k _ _ (fun _ => h.removeOverride hp _ _ _ _)
  case removeStationOverrides => exact e ▸ h.runRequest k _ _ (fun _ => h.removeStationOverrides hp _)
  case removeAllOverrides => exact e ▸ h.runRequest k _ _ (fun _ => h.dropOverrides hp _)
  case stationRead => exact e ▸ h.runRequest k _ _ (fun _ => h.acceptTransaction hp _ _ _ _ _ _)
  case stationWrite => exact e ▸ h.runRequest k _ _ (fun _ => h.acceptTransaction hp _ _ _ _ _ _)
  case cancelTransaction => exact e ▸ h.runRequest k _ _ (fun _ => h.cancelTransaction hp _ _)
  case readSession => exact e ▸ h.runRequest k _ _ (fun _ => h.readSession hp)
  case endSession => exact e ▸ h.runRequest k _ _ (fun _ => h.endSessionRequest hp)
  case readLineSetup | readProfile | readAction | readEntry | readCondition | readConditionRef | readTableState |
      readOverride =>
    exact e ▸ h.runRequest k _ _ (fun _ => hp)
  case unknownRequest =>
    subst e; split
    · exact h.endGroup (h.post hp _ _ _ _)
    · exact k
  case frameReceived | reply | identity | paramAnswer | paramRefuse | openRequest | keepalive | close |
      serviceReadEntry | serviceReadCondition | serviceSetOverride | serviceRemoveOverride =>
    exact e ▸ h.receive k _ _
  case frameSent =>
    split at e <;> cases e
    · exact h.sent k _
    · exact k
  case replyWindowExpiry =>
    split at e <;> cases e
    · exact h.windowEnds k _ _
    · exact k
  case cycleEnd =>
    subst e; split
    · exact h.cycleEnds k
    · exact k
  case cyclePeriodExpiry =>
    subst e; split
    · exact h.scanOn (h.beginCycle k)
    · exact k
  case outputRefreshTimerExpiry =>
    subst e; split
    · simp only [State.refreshExpired]; split
      · exact h.frame s _ k rfl rfl
      · exact h.endGroup (h.begins _ _ (h.frame s _ k (by rfl) (by rfl)))
    · exact k
  case errorWindowExpiry =>
    subst e; split
    · exact h.setLine k _ _
    · exact k
  case withdrawalTimerExpiry =>
    subst e; split
    · exact h.returnLine k _
    · exact k
  case stagingGapTimerExpiry =>
    subst e; split
    · simp only [State.gapExpired]; split
      · exact h.frame s _ k rfl rfl
      · exact h.endGroup (h.begins _ _ (h.frame s _ k (by rfl) (by rfl)))
    · exact k
  case sessionTimerExpiry => exact e ▸ h.endGroup (h.endSession k _)
  case restartLineRelease => subst e; exact h.frame s _ k rfl rfl
  case frameFirstOctet => exact e ▸ h.firstOctet k _

end CondKept

/-! ## Three such properties -/

/-- R77 is such a property. -/
theorem fatalSafe_kept : CondKept FatalSafe where
  frame := by intro s t h hc hm; simp only [FatalSafe, hc, hm]; exact h
  begins _ c h := fatalSafe_beginCause h c
  finishes _ k h := fatalSafe_finishCause h k
  refreshes _ c h := fatalSafe_refreshCause h c
  removes _ r h := fatalSafe_removeRecord h r
  sweeps _ h := fatalSafe_sweep h
  modes s m h hm := fun _ => hm

/-- The condition table: at most 64 records, one for a key and one in a slot. -/
def Distinct (s : State) : Prop :=
  s.cond.records.length ≤ 64 ∧ (s.cond.records.map ConditionRecord.key).Nodup ∧ (s.cond.records.map ConditionRecord.slot).Nodup

theorem freeSlot_some {rs : List ConditionRecord} {i} (h : freeSlot rs = some i) : ∀ q ∈ rs, q.slot ≠ i := by
  have := List.find?_some h
  simpa using this

theorem findRecord_none {s : State} {k : Key} (h : s.findRecord k = none) : ∀ q ∈ s.cond.records, q.key ≠ k := by
  simpa [State.findRecord] using h

theorem distinct_createRecord {s : State} (h : Distinct s) (c : Cause) (hl : s.cond.records.length < 64)
    (hk : ∀ q ∈ s.cond.records, q.key ≠ c.key) : Distinct (s.createRecord c) := by
  simp only [State.createRecord]
  split
  · exact h
  · rename_i i hi
    have hs := freeSlot_some hi
    simp only [Distinct, noticeOf_cond]
    refine ⟨by simp; omega, ?_, ?_⟩
    · simp only [setRecords_cond, List.map_append, List.nodup_append]
      refine ⟨h.2.1, by simp, ?_⟩
      intro a ha b hb e
      simp at hb; subst hb; subst e
      obtain ⟨q, hq, he⟩ := List.mem_map.1 ha
      exact hk q hq he
    · simp only [setRecords_cond, List.map_append, List.nodup_append]
      refine ⟨h.2.2, by simp, ?_⟩
      intro a ha b hb e
      simp at hb; subst hb; subst e
      obtain ⟨q, hq, he⟩ := List.mem_map.1 ha
      exact hs q hq he

theorem distinct_changeRecord {s : State} (h : Distinct s) (i : Fin 64) (f : ConditionRecord → ConditionRecord)
    (hf : ∀ q, (f q).key = q.key ∧ (f q).slot = q.slot) : Distinct (s.changeRecord i f) := by
  have e1 : (s.changeRecord i f).cond.records.map ConditionRecord.key = s.cond.records.map ConditionRecord.key := by
    simp only [State.changeRecord, setRecords_cond, List.map_map]
    refine List.map_congr_left fun q _ => ?_
    simp only [Function.comp]; split
    · exact (hf q).1
    · rfl
  have e2 : (s.changeRecord i f).cond.records.map ConditionRecord.slot = s.cond.records.map ConditionRecord.slot := by
    simp only [State.changeRecord, setRecords_cond, List.map_map]
    refine List.map_congr_left fun q _ => ?_
    simp only [Function.comp]; split
    · exact (hf q).2
    · rfl
  refine ⟨?_, e1 ▸ h.2.1, e2 ▸ h.2.2⟩
  simpa [State.changeRecord] using h.1

theorem distinct_removeRecord {s : State} (h : Distinct s) (r : ConditionRecord) : Distinct (s.removeRecord r) := by
  have hs : (s.cond.records.eraseP (fun q => decide (q.slot = r.slot))).Sublist s.cond.records := List.eraseP_sublist
  exact ⟨hs.length_le.trans h.1, h.2.1.sublist (hs.map _), h.2.2.sublist (hs.map _)⟩

theorem distinct_noticeOf {s : State} (h : Distinct s) (c : ActionClass) : Distinct (s.noticeOf c) := by
  simp only [Distinct, noticeOf_cond]; exact h

/-- The bounds and the keys of the condition table are such a property (R45, R47, R48). -/
theorem distinct_kept : CondKept Distinct where
  frame := by intro s t h hc hm; simp only [Distinct, hc]; exact h
  begins s c h := by
    simp only [State.beginCause]; split
    · simp only [State.restand]; split
      · refine distinct_noticeOf (distinct_changeRecord h _ _ ?_) _
        exact fun _ => ⟨rfl, rfl⟩
      · exact h
    · rename_i hn
      have hk := findRecord_none hn
      split
      · exact distinct_createRecord h c ‹_› hk
      · simp only [State.beginFull]
        repeat' split
        · rename_i v hv
          have hl := length_removeRecord (victim_mem hv)
          have hd := distinct_removeRecord h v
          refine distinct_createRecord (s := (s.removeRecord v).countOverflow) hd c ?_ ?_
          · have := h.1; simp only [countOverflow_cond]; omega
          · intro q hq; exact hk q (List.mem_of_mem_eraseP hq)
        · exact h
        · exact h
  finishes s k h := by
    simp only [State.finishCause]
    repeat' split
    all_goals first
      | exact h
      | exact distinct_removeRecord h _
      | exact distinct_changeRecord h _ _ (fun _ => ⟨rfl, rfl⟩)
  refreshes s c h := by
    simp only [State.refreshCause]; split
    · exact h
    · exact distinct_changeRecord h _ _ (fun _ => ⟨rfl, rfl⟩)
  removes s r h := distinct_removeRecord h r
  sweeps s h := by
    refine keeps_foldl (P := Distinct) State.sweepOne (fun t c ht => ?_) s.standingCauses h
    simp only [State.sweepOne]; split
    · rename_i hc
      exact distinct_createRecord ht c hc.1 (findRecord_none (by simpa using hc.2))
    · exact ht
  modes s m h _ := h

theorem actionMap_createRecord (s : State) (c : Cause) : (s.createRecord c).cond.actionMap = s.cond.actionMap := by
  simp only [State.createRecord]; split
  · rfl
  · rw [noticeOf_cond]; rfl

/-- No operation but SET ACTION and a reset changes the action map (R74). -/
theorem actionMap_kept (m : Vector Action 12) : CondKept (fun s => s.cond.actionMap = m) where
  frame := by intro s t h hc hm; rw [hc]; exact h
  begins s c h := by
    simp only [State.beginCause]; split
    · simp only [State.restand]; split
      · rw [noticeOf_cond]; exact h
      · exact h
    · split
      · rw [actionMap_createRecord]; exact h
      · simp only [State.beginFull]; repeat' split
        all_goals first
          | exact h
          | (rw [actionMap_createRecord]; exact h)
  finishes s k h := by
    simp only [State.finishCause]
    repeat' split
    all_goals exact h
  refreshes s c h := by
    simp only [State.refreshCause]; split <;> exact h
  removes s r h := h
  sweeps s h := by
    refine keeps_foldl (P := fun s => s.cond.actionMap = m) State.sweepOne (fun t c ht => ?_) s.standingCauses h
    simp only [State.sweepOne]; split
    · rw [actionMap_createRecord]; exact ht
    · exact ht
  modes s m h _ := h

/-- What a step that answers has done: idled, or taken the front command. -/
theorem step_cases {s t : State} (h : step s = .next t) : (s = t ∧ s.pending = []) ∨ ∃ c rest, s.pending = c :: rest ∧ exec c { s with pending := rest } = .next t := by
  simp only [step] at h
  split at h
  · cases h; exact Or.inl ⟨rfl, ‹_›⟩
  · exact Or.inr ⟨_, _, ‹_›, h⟩

end Sys2Proof.Laws
end

