-- ==== Sys2Proof/Laws/Ends.lean ====
section
/-! SUPPORT. Records that leave the condition table together, and what the ends of a STOP and of a commit leave in the
condition unit: `OnlyEnds`, and the exact causes of a commit. -/

namespace Sys2Proof.Laws

open Sys2Proof.Machine Sys2Proof.Safety

/-- The slots in use are distinct (R47). -/
abbrev SlotsDistinct (s : State) : Prop := (s.cond.records.map ConditionRecord.slot).Nodup

/-! ## Records that leave together (R58, R59) -/

theorem slot_inj {s : State} (hn : SlotsDistinct s) {q r : ConditionRecord} (hq : q ∈ s.cond.records)
    (hr : r ∈ s.cond.records) (h : q.slot = r.slot) : q = r := List.inj_on_of_nodup_map hn hq hr h

theorem any_congr_mem {α : Type} {l : List α} {p q : α → Bool} (h : ∀ x ∈ l, p x = q x) : l.any p = l.any q := by
  induction l with
  | nil => rfl
  | cons x xs ih => simp [h x, ih fun y hy => h y (List.mem_cons_of_mem _ hy)]

theorem withoutRecords_congr {s : State} {p q : ConditionRecord → Bool} (h : ∀ r ∈ s.cond.records, p r = q r) :
    withoutRecords s p = withoutRecords s q := by
  have hf : s.cond.records.filter (fun r => !p r) = s.cond.records.filter (fun r => !q r) :=
    List.filter_congr fun r hr => by rw [h r hr]
  have ha : s.cond.records.any p = s.cond.records.any q := any_congr_mem h
  have hs : ∀ i : Fin 64, s.cond.records.any (fun r => p r && decide (r.slot = i)) =
      s.cond.records.any (fun r => q r && decide (r.slot = i)) := fun i => any_congr_mem fun r hr => by rw [h r hr]
  simp only [withoutRecords, hf, ha, hs]

theorem withoutRecords_none (s : State) {p : ConditionRecord → Bool} (h : ∀ q ∈ s.cond.records, p q = false) :
    withoutRecords s p = s := by
  rw [withoutRecords_congr (q := fun _ => false) h]
  have hg : Vector.ofFn (fun i : Fin 64 => s.cond.generations[i.val]) = s.cond.generations := by
    ext i hi; simp
  have ha : ∀ l : List ConditionRecord, l.any (fun _ => false) = false := any_const_false
  simp [withoutRecords, ha, hg]

/-- Of the records in one slot, a later lot holds none where an earlier one held one. -/
theorem any_slot_or {rs : List ConditionRecord} (hn : (rs.map ConditionRecord.slot).Nodup) (p q : ConditionRecord → Bool)
    (i : Fin 64) :
    rs.any (fun r => (p r || q r) && decide (r.slot = i)) =
        (rs.any (fun r => p r && decide (r.slot = i)) || (rs.filter (fun r => !p r)).any (fun r => q r && decide (r.slot = i))) ∧
      (rs.any (fun r => p r && decide (r.slot = i)) = true →
        (rs.filter (fun r => !p r)).any (fun r => q r && decide (r.slot = i)) = false) := by
  induction rs with
  | nil => exact ⟨rfl, fun _ => rfl⟩
  | cons x xs ih =>
    have hx := List.nodup_cons.1 hn
    obtain ⟨h1, h2⟩ := ih hx.2
    by_cases e : x.slot = i
    · have hno : ∀ f : ConditionRecord → Bool, xs.any (fun r => f r && decide (r.slot = i)) = false := by
        intro f
        rw [List.any_eq_false]
        intro r hr h
        simp only [Bool.and_eq_true, decide_eq_true_eq] at h
        exact hx.1 (e.trans h.2.symm ▸ List.mem_map_of_mem hr)
      have hnof : (xs.filter (fun r => !p r)).any (fun r => q r && decide (r.slot = i)) = false := by
        rw [List.any_eq_false]
        intro r hr h
        simp only [Bool.and_eq_true, decide_eq_true_eq] at h
        exact hx.1 (e.trans h.2.symm ▸ List.mem_map_of_mem (List.mem_filter.1 hr).1)
      cases hp : p x <;> simp only [List.any_cons, List.filter_cons, hp, Bool.not_true, Bool.not_false, if_true,
        Bool.false_eq_true, if_false, hno, hnof, e, decide_true] <;> simp
    · have e' : decide (x.slot = i) = false := by simpa using e
      cases hp : p x <;> simp only [List.any_cons, List.filter_cons, hp, Bool.not_true, Bool.not_false, if_true,
        Bool.false_eq_true, if_false, e', Bool.and_false, Bool.false_or] <;> exact ⟨h1, h2⟩

/-- Records that leave in two lots leave as one lot. -/
theorem withoutRecords_or {s : State} (hn : SlotsDistinct s) (p q : ConditionRecord → Bool) :
    withoutRecords (withoutRecords s p) q = withoutRecords s (fun r => p r || q r) := by
  have hf : (s.cond.records.filter (fun r => !p r)).filter (fun r => !q r) =
      s.cond.records.filter (fun r => !(p r || q r)) := by
    rw [List.filter_filter]; exact List.filter_congr fun r _ => by cases p r <;> cases q r <;> rfl
  have ha : (s.cond.sweepOwed || s.cond.records.any p || (s.cond.records.filter (fun r => !p r)).any q) =
      (s.cond.sweepOwed || s.cond.records.any (fun r => p r || q r)) := by
    rw [Bool.or_assoc]; congr 1
    generalize s.cond.records = rs
    induction rs with
    | nil => rfl
    | cons x xs ih => cases hp : p x <;> cases hq : q x <;> simp_all
  have hg : ∀ g : Vector Byte 64, Vector.ofFn (fun i : Fin 64 =>
      if (s.cond.records.filter (fun r => !p r)).any (fun r => q r && decide (r.slot = i)) = true then
        (Vector.ofFn (fun i : Fin 64 => if s.cond.records.any (fun r => p r && decide (r.slot = i)) = true then
          g[i.val] + 1 else g[i.val]))[i.val] + 1
      else (Vector.ofFn (fun i : Fin 64 => if s.cond.records.any (fun r => p r && decide (r.slot = i)) = true then
          g[i.val] + 1 else g[i.val]))[i.val]) =
      Vector.ofFn (fun i : Fin 64 => if s.cond.records.any (fun r => (p r || q r) && decide (r.slot = i)) = true then
          g[i.val] + 1 else g[i.val]) := by
    intro g
    refine Vector.ext fun i hi => ?_
    obtain ⟨h1, h2⟩ := any_slot_or hn p q ⟨i, hi⟩
    simp only [Vector.getElem_ofFn, h1]
    generalize (s.cond.records.any fun r => p r && decide (r.slot = ⟨i, hi⟩)) = x at h2 ⊢
    generalize ((s.cond.records.filter fun r => !p r).any fun r => q r && decide (r.slot = ⟨i, hi⟩)) = y at h2 ⊢
    cases x
    · cases y <;> rfl
    · rw [h2 rfl]; rfl
  simp only [withoutRecords, hf, ha]
  exact congrArg (fun g => ({ s with cond := { s.cond with
    records := s.cond.records.filter (fun r => !(p r || q r)), generations := g
    sweepOwed := s.cond.sweepOwed || s.cond.records.any (fun r => p r || q r) } } : State)) (hg _)

theorem slotsDistinct_withoutRecords {s : State} (hn : SlotsDistinct s) (p : ConditionRecord → Bool) :
    SlotsDistinct (withoutRecords s p) := hn.sublist (List.filter_sublist.map _)

theorem eraseP_slot {rs : List ConditionRecord} (hn : (rs.map ConditionRecord.slot).Nodup) (i : Fin 64) :
    rs.eraseP (fun q => decide (q.slot = i)) = rs.filter (fun q => !decide (q.slot = i)) := by
  induction rs with
  | nil => rfl
  | cons x xs ih =>
    have hx := List.nodup_cons.1 hn
    by_cases h : x.slot = i
    · rw [List.eraseP_cons_of_pos (p := fun q : ConditionRecord => decide (q.slot = i)) (by simpa using h),
        List.filter_cons_of_neg (by simpa using h)]
      refine (List.filter_eq_self.2 fun q hq => ?_).symm
      have : q.slot ≠ i := fun e => hx.1 (h.trans e.symm ▸ List.mem_map_of_mem hq)
      simpa using this
    · rw [List.eraseP_cons_of_neg (p := fun q : ConditionRecord => decide (q.slot = i)) (by simpa using h), ih hx.2,
        List.filter_cons_of_pos (by simpa using h)]

/-- One record that leaves (R58). -/
theorem removeRecord_eq {s : State} (hn : SlotsDistinct s) {r : ConditionRecord} (hr : r ∈ s.cond.records) :
    s.removeRecord r = withoutRecords s (fun q => decide (q.slot = r.slot)) := by
  have ha : s.cond.records.any (fun q => decide (q.slot = r.slot)) = true :=
    List.any_eq_true.2 ⟨r, hr, by simp⟩
  have hg : s.cond.generations.set r.slot.val (s.cond.generations[r.slot.val] + 1) =
      Vector.ofFn (fun i : Fin 64 => if s.cond.records.any (fun q => decide (q.slot = r.slot) && decide (q.slot = i)) then
        s.cond.generations[i.val] + 1 else s.cond.generations[i.val]) := by
    refine Vector.ext fun i hi => ?_
    rw [Vector.getElem_set, Vector.getElem_ofFn]
    by_cases e : r.slot.val = i
    · have hi' : (⟨i, hi⟩ : Fin 64) = r.slot := Fin.ext e.symm
      have : s.cond.records.any (fun q => decide (q.slot = r.slot) && decide (q.slot = ⟨i, hi⟩)) = true := by
        rw [hi']; simpa only [Bool.and_self] using ha
      rw [if_pos e, if_pos this]; subst e; rfl
    · have : ¬ s.cond.records.any (fun q => decide (q.slot = r.slot) && decide (q.slot = ⟨i, hi⟩)) = true := by
        rw [List.any_eq_true]
        rintro ⟨q, -, h⟩
        simp only [Bool.and_eq_true, decide_eq_true_eq] at h
        exact e (by rw [← h.1, h.2])
      rw [if_neg e, if_neg this]
  simp only [State.removeRecord, withoutRecords, eraseP_slot hn, ha, hg, Bool.or_true]

/-- Records held that leave one after the other leave as one lot (R59). -/
theorem removeRecords_go (l : List ConditionRecord) : ∀ {s : State}, SlotsDistinct s → (l.map ConditionRecord.slot).Nodup →
    (∀ r ∈ l, r ∈ s.cond.records) →
    l.foldl State.removeRecord s = withoutRecords s (fun q => decide (q.slot ∈ l.map ConditionRecord.slot)) := by
  induction l with
  | nil => intro s _ _ _; exact (withoutRecords_none s fun q _ => by simp).symm
  | cons r l ih =>
    intro s hn hl hs
    have hx := List.nodup_cons.1 hl
    rw [List.foldl_cons, removeRecord_eq hn (hs r List.mem_cons_self),
      ih (slotsDistinct_withoutRecords hn _) hx.2, withoutRecords_or hn]
    · exact withoutRecords_congr fun q _ => by simp [Bool.decide_or]
    · intro q hq
      refine List.mem_filter.2 ⟨hs q (List.mem_cons_of_mem _ hq), ?_⟩
      have : q.slot ≠ r.slot := fun e => hx.1 (e ▸ List.mem_map_of_mem hq)
      simpa using this

theorem removeRecords_eq {s : State} (hn : SlotsDistinct s) (p : ConditionRecord → Bool) :
    (s.cond.records.filter p).foldl State.removeRecord s = withoutRecords s p := by
  rw [removeRecords_go _ hn (hn.sublist (List.filter_sublist.map _)) fun r hr => (List.mem_filter.1 hr).1]
  refine withoutRecords_congr fun q hq => ?_
  rw [Bool.eq_iff_iff, decide_eq_true_eq, List.mem_map]
  constructor
  · rintro ⟨r, hr, e⟩
    obtain ⟨h1, h2⟩ := List.mem_filter.1 hr
    rwa [← slot_inj hn h1 hq e]
  · exact fun h => ⟨q, List.mem_filter.2 ⟨hq, h⟩, rfl⟩

/-- The records of a station retired (R59). -/
theorem retireStation_eq {s : State} (hn : SlotsDistinct s) (a : Addr) :
    s.retireStation a = withoutRecords s (fun q => decide (q.key.origin = .station a)) := removeRecords_eq hn _

/-! ## Ends and retirements alone -/

/-- `OnlyEnds`, with the scan number kept. -/
def EndsOnly (s t : State) : Prop := OnlyEnds s t ∧ t.scan.number = s.scan.number

theorem EndsOnly.frame {s t : State} (hc : t.cond = s.cond) (hn : t.scan.number = s.scan.number) : EndsOnly s t := by
  refine ⟨?_, hn⟩
  unfold OnlyEnds
  rw [hc]
  refine ⟨rfl, rfl, rfl, List.Sublist.refl _, fun p hp => ⟨p, hp, .inl rfl⟩, fun i => (if_neg ?_).symm, by simp⟩
  rintro ⟨⟨q, hq, e⟩, h⟩
  exact h q hq e

theorem EndsOnly.trans {s t u : State} (h : EndsOnly s t) (k : EndsOnly t u) : EndsOnly s u := by
  obtain ⟨⟨h1, h2, h3, h4, h5, h6, h7⟩, hn⟩ := h
  obtain ⟨⟨k1, k2, k3, k4, k5, k6, k7⟩, kn⟩ := k
  refine ⟨⟨k1.trans h1, k2.trans h2, k3.trans h3, k4.trans h4, fun p hp => ?_, fun i => ?_, ?_⟩, kn.trans hn⟩
  · obtain ⟨q, hq, e⟩ := k5 p hp
    obtain ⟨r, hr, f⟩ := h5 q hq
    refine ⟨r, hr, ?_⟩
    rcases e with rfl | ⟨e1, e2, rfl⟩
    · exact f
    · rcases f with rfl | ⟨-, -, rfl⟩
      · exact .inr ⟨e1, e2, by rw [hn]⟩
      · cases e1
  · have hts : ∀ p ∈ t.cond.records, ∃ q ∈ s.cond.records, q.slot = p.slot := fun p hp => by
      obtain ⟨q, hq, e⟩ := List.mem_map.1 (h4.subset (List.mem_map_of_mem hp)); exact ⟨q, hq, e⟩
    have hut : ∀ p ∈ u.cond.records, ∃ q ∈ t.cond.records, q.slot = p.slot := fun p hp => by
      obtain ⟨q, hq, e⟩ := List.mem_map.1 (k4.subset (List.mem_map_of_mem hp)); exact ⟨q, hq, e⟩
    rw [k6, h6]
    by_cases ht : ∃ q ∈ t.cond.records, q.slot = i
    · obtain ⟨q, hq, e⟩ := ht
      have hs : ∃ q ∈ s.cond.records, q.slot = i := by
        obtain ⟨r, hr, f⟩ := hts q hq; exact ⟨r, hr, f.trans e⟩
      rw [if_neg (fun x => x.2 q hq e : ¬ ((∃ q ∈ s.cond.records, q.slot = i) ∧ ∀ p ∈ t.cond.records, p.slot ≠ i))]
      simp only [hs, show ∃ q ∈ t.cond.records, q.slot = i from ⟨q, hq, e⟩, true_and]
    · have hu : ∀ p ∈ u.cond.records, p.slot ≠ i := fun p hp e => by
        obtain ⟨q, hq, f⟩ := hut p hp; exact ht ⟨q, hq, f.trans e⟩
      have htn : ∀ p ∈ t.cond.records, p.slot ≠ i := fun p hp e => ht ⟨p, hp, e⟩
      rw [if_neg (fun x => ht x.1 : ¬ ((∃ q ∈ t.cond.records, q.slot = i) ∧ ∀ p ∈ u.cond.records, p.slot ≠ i))]
      simp only [and_iff_left hu, and_iff_left htn]
  · have hl := h4.length_le
    have kl := k4.length_le
    rw [List.length_map, List.length_map] at hl kl
    rw [k7, h7, Bool.or_assoc]
    congr 1
    rw [Bool.eq_iff_iff]
    simp only [Bool.or_eq_true, decide_eq_true_eq]
    omega

theorem EndsOnly.slots {s t : State} (h : EndsOnly s t) (hn : SlotsDistinct s) : SlotsDistinct t := hn.sublist h.1.2.2.2.1

theorem EndsOnly.foldl {α : Type} (f : State → α → State) (hf : ∀ s x, SlotsDistinct s → EndsOnly s (f s x)) (xs : List α) :
    ∀ s, SlotsDistinct s → EndsOnly s (xs.foldl f s) := by
  induction xs with
  | nil => intro s _; exact .frame rfl rfl
  | cons x xs ih =>
    intro s hn
    exact (hf s x hn).trans (ih _ ((hf s x hn).slots hn))

theorem endsOnly_withoutRecords {s : State} (hn : SlotsDistinct s) (p : ConditionRecord → Bool) :
    EndsOnly s (withoutRecords s p) := by
  refine ⟨⟨rfl, rfl, rfl, List.filter_sublist.map _, fun q hq => ⟨q, (List.mem_filter.1 hq).1, .inl rfl⟩, fun i => ?_, ?_⟩, rfl⟩
  · show (Vector.ofFn _)[i.val] = _
    rw [Vector.getElem_ofFn]
    refine ite_congr ?_ (fun _ => rfl) (fun _ => rfl)
    rw [eq_iff_iff, List.any_eq_true]
    constructor
    · rintro ⟨q, hq, h⟩
      simp only [Bool.and_eq_true, decide_eq_true_eq] at h
      refine ⟨⟨q, hq, h.2⟩, fun r hr e => ?_⟩
      obtain ⟨h1, h2⟩ := List.mem_filter.1 hr
      rw [slot_inj hn h1 hq (e.trans h.2.symm), h.1] at h2
      cases h2
    · rintro ⟨⟨q, hq, e⟩, h⟩
      refine ⟨q, hq, ?_⟩
      cases hp : p q
      · exact absurd e (h q (List.mem_filter.2 ⟨hq, by simp [hp]⟩))
      · simp [e]
  · show (s.cond.sweepOwed || s.cond.records.any p) = _
    congr 1
    rw [Bool.eq_iff_iff, decide_eq_true_eq, List.any_eq_true]
    show _ ↔ (s.cond.records.filter (fun q => !p q)).length < _
    rw [List.length_filter_lt_length_iff_exists]
    simp

theorem endsOnly_finishCause {s : State} (hn : SlotsDistinct s) (k : Key) : EndsOnly s (s.finishCause k) := by
  have hrem : ∀ r, s.findRecord k = some r → EndsOnly s (s.removeRecord r) := fun r h => by
    rw [removeRecord_eq hn (List.mem_of_find?_eq_some h)]; exact endsOnly_withoutRecords hn _
  simp only [State.finishCause]
  split
  · exact .frame rfl rfl
  · rename_i r hr
    split
    · exact .frame rfl rfl
    · exact hrem r hr
    · rename_i hst
      split
      · rename_i hl
        have hm := List.mem_of_find?_eq_some hr
        have hs : (s.changeRecord r.slot (fun q => { q with state := .ended, changedAt := s.scan.number })).cond.records.map
            ConditionRecord.slot = s.cond.records.map ConditionRecord.slot := by
          show (s.cond.records.map _).map _ = _
          rw [List.map_map]
          refine List.map_congr_left fun q _ => ?_
          simp only [Function.comp_apply]; split <;> rfl
        refine ⟨⟨rfl, rfl, rfl, by rw [hs], fun p hp => ?_, fun i => (if_neg ?_).symm, ?_⟩, rfl⟩
        · obtain ⟨q, hq, e⟩ := List.mem_map.1 hp
          refine ⟨q, hq, ?_⟩
          split at e
          · rename_i h
            obtain rfl := slot_inj hn hq hm h
            exact .inr ⟨hst, hl, e.symm⟩
          · exact .inl e.symm
        · rintro ⟨⟨q, hq, e⟩, h⟩
          have : i ∈ s.cond.records.map ConditionRecord.slot := e ▸ List.mem_map_of_mem hq
          rw [← hs] at this
          obtain ⟨p, hp, f⟩ := List.mem_map.1 this
          exact h p hp f
        · show s.cond.sweepOwed = (s.cond.sweepOwed || decide ((s.cond.records.map _).length < s.cond.records.length))
          simp
      · exact hrem r hr

theorem endsOnly_dropOverride {s : State} (hn : SlotsDistinct s) (r : OverrideRecord) : EndsOnly s (s.dropOverride r) := by
  simp only [State.dropOverride, State.finishForced]
  split
  · exact (EndsOnly.frame rfl rfl).trans (endsOnly_finishCause (by exact hn) _)
  · exact .frame rfl rfl

theorem endsOnly_dropOverrides {s : State} (hn : SlotsDistinct s) (p : OverrideRecord → Bool) :
    EndsOnly s (s.dropOverrides p) :=
  EndsOnly.foldl _ (fun _ r h => endsOnly_dropOverride h r) _ _ hn

/-! ## An entry that no presence cause stands at (R1) -/

/-- The presence causes that end as an entry becomes ABSENT (R51). -/
def clearedKeys (s : State) (a : Addr) : List Key :=
  let e := s.entry a
  (causeIf e.lostCause (.station a) .stationLost [] ++
    causeIf (decide (e.presence = .mismatch)) (.station a) .stationMismatch (reportedExtra e.identity) ++
    causeIf (decide (e.presence = .conflict)) (.station a) .addressConflict (conflictExtra (s.supervision a).conflictTags) ++
    causeIf (decide (e.presence = .extra)) (.station a) .stationExtra (reportedExtra e.identity) ++
    causeIf (e.alternateLine s.config.setup) (.station a) .alternateLine [lineCode e.activeLine]).map Cause.key

/-- An entry that becomes ABSENT hands ends alone. -/
theorem updateStation_absent (s : State) (a : Addr) (e : Entry) (he : e.presence = .absent) :
    s.updateStation a e (s.supervision a) = (clearedKeys s a).foldl State.finishCause (s.setEntry a e) := by
  have hset : (s.setEntry a e).setSupervision a (s.supervision a) = s.setEntry a e := by
    simp [State.setEntry, State.setSupervision, State.supervision]
  have h1 : e.lostCause = false := by simp [Entry.lostCause, he]
  have h2 : e.alternateLine s.config.setup = false := by
    simp only [Entry.alternateLine, Entry.dataValid, he]; split <;> simp
  simp only [State.updateStation, State.handChanges, hset, State.causesOfStation, stationCauses_eq, h1, h2,
    causeList_missing_same_faults, causeList_refreshes_same_faults, he, clearedKeys]
  simp [causeIf]

theorem endsOnly_absent {s : State} (hn : SlotsDistinct s) (a : Addr) (e : Entry) (he : e.presence = .absent) :
    EndsOnly s (s.updateStation a e (s.supervision a)) := by
  rw [updateStation_absent s a e he]
  exact (EndsOnly.frame rfl rfl).trans (EndsOnly.foldl _ (fun _ k h => endsOnly_finishCause h k) _ _ (by exact hn))

theorem endsOnly_endSession {s : State} (hn : SlotsDistinct s) (reason : EndReason) : EndsOnly s (s.endSession reason) := by
  simp only [State.endSession]
  split
  · exact .frame rfl rfl
  · have h := endsOnly_dropOverrides hn OverrideRecord.ofSession
    exact (h.trans (endsOnly_absent (h.slots hn) _ _ rfl)).trans (.frame rfl rfl)

theorem endsOnly_transOnly {s t : State} (h : TransOnly s t) : EndsOnly s t := by
  unfold TransOnly at h
  exact .frame (by rw [h]) (by rw [h])

/-- What a STOP does in the condition unit (R116). -/
theorem endsOnly_stopEnds {s : State} (hn : SlotsDistinct s) : EndsOnly s s.stopEnds := by
  have h1 := endsOnly_transOnly (transOnly_completeWhere s (fun _ => true) .stopped)
  have h2 := h1.trans (endsOnly_endSession (h1.slots hn) .stopped)
  refine h2.trans ?_
  simp only [State.stopEnds, State.finishOwnAddress]
  split
  · exact .frame rfl rfl
  · exact (EndsOnly.frame rfl rfl).trans (endsOnly_finishCause (by exact h2.slots hn) _)

/-! ## A commit applied (R167) -/

theorem endsOnly_takeOut {s : State} (hn : SlotsDistinct s) (a : Addr) : EndsOnly s (s.takeOut a) := by
  have h : EndsOnly s (s.retireStation a) := by rw [retireStation_eq hn]; exact endsOnly_withoutRecords hn _
  exact (h.trans (endsOnly_dropOverrides (h.slots hn) _)).trans (.frame rfl rfl)

theorem endsOnly_setUp {s : State} (hn : SlotsDistinct s) (c : StagingCopy) (a : Addr) : EndsOnly s (s.setUp c a) := by
  have h := endsOnly_absent hn a .unconfigured rfl
  simp only [State.setUp]
  generalize s.updateStation a .unconfigured (s.supervision a) = u at h
  split
  · exact h.trans (.frame rfl rfl)
  · exact .frame rfl rfl

theorem endsOnly_clearIncomplete {s : State} (hn : SlotsDistinct s) : EndsOnly s s.clearIncomplete := by
  simp only [State.clearIncomplete]
  split
  · exact (EndsOnly.frame rfl rfl).trans (endsOnly_finishCause (by exact hn) _)
  · exact .frame rfl rfl

/-- What a commit does in the condition unit, whatever the state (R167). -/
theorem endsOnly_applyCommit {s : State} (hn : SlotsDistinct s) (c : StagingCopy) : EndsOnly s (s.applyCommit c) := by
  have h1 : EndsOnly s (s.commitSession c) := by
    simp only [State.commitSession]
    repeat' split
    · exact .frame rfl rfl
    · exact endsOnly_endSession hn _
    · exact .frame rfl rfl
  have h2 := h1.trans (EndsOnly.foldl State.takeOut (fun _ a h => endsOnly_takeOut h a)
    (allAddrs.filter (fun a => (s.compare c a).takesOut)) _ (h1.slots hn))
  have h3 := h2.trans (endsOnly_transOnly (transOnly_completeWhere _
    (fun t => decide (t.station ∈ allAddrs.filter (fun a => (s.compare c a).takesOut))) .reconfigured))
  have h4 := h3.trans (EndsOnly.foldl (fun u a => u.setUp c a) (fun _ a h => endsOnly_setUp h c a)
    (allAddrs.filter (fun a => (s.compare c a).moves)) _ (h3.slots hn))
  have h5 : ∀ (x : Bool) (kept : List (Placement × Placement)) (u : State), EndsOnly s u →
      EndsOnly s ((if x then u else u.rebuild kept).place c).clearIncomplete := by
    intro x kept u hu
    have : EndsOnly s ((if x then u else u.rebuild kept).place c) := hu.trans (by cases x <;> exact .frame rfl rfl)
    exact this.trans (endsOnly_clearIncomplete (this.slots hn))
  exact (h5 _ _ _ h4).trans (.frame rfl rfl)

theorem Agree.refl (s : State) : Agree s s := ⟨rfl, rfl, rfl⟩

theorem Agree.trans {s t u : State} (h : Agree s t) (k : Agree t u) : Agree s u :=
  ⟨k.1.trans h.1, k.2.1.trans h.2.1, k.2.2.trans h.2.2⟩

theorem agree_withoutRecords {s u : State} (h : Agree s u) (p : ConditionRecord → Bool) :
    Agree (withoutRecords s p) (withoutRecords u p) :=
  ⟨by simp only [withoutRecords, h.1], h.2.1, h.2.2⟩

/-- A station whose records are retired hands no end of FORCED that finds one. -/
theorem agree_takeOut {s : State} (hn : SlotsDistinct s) (a : Addr) :
    Agree (withoutRecords s (fun q => decide (q.key.origin = .station a))) (s.takeOut a) := by
  rw [← retireStation_eq hn]
  simp only [State.takeOut]
  have hno : ∀ q ∈ (s.retireStation a).cond.records, q.key.origin ≠ .station a := by
    rw [retireStation_eq hn]
    intro q hq e
    have := (List.mem_filter.1 hq).2
    simp [e] at this
  generalize s.retireStation a = w at hno
  have hdrop : Agree w (w.dropOverrides (OverrideRecord.ofStation a)) := by
    have : ∀ rs : List OverrideRecord, (∀ r ∈ rs, r.station = a) → ∀ u, Agree w u → Agree w (rs.foldl State.dropOverride u) := by
      intro rs
      induction rs with
      | nil => intro _ u h; exact h
      | cons r rs ih =>
        intro hr u hu
        refine ih (fun x hx => hr x (List.mem_cons_of_mem _ hx)) _ (hu.trans ?_)
        simp only [State.dropOverride, State.finishForced]
        split
        · have hnone : State.findRecord { u with overrides := u.overrides.eraseP (fun q => q.hasKey r.station r.direction r.circuit) }
              (plainKey (.station r.station) .forced) = none := by
            refine List.find?_eq_none.2 fun q hq => ?_
            have hq' : q ∈ w.cond.records := hu.1 ▸ hq
            simp only [decide_eq_true_eq]
            intro e
            exact hno q hq' (by rw [e, hr r List.mem_cons_self]; rfl)
          simp only [State.finishCause, hnone]
          exact ⟨rfl, rfl, rfl⟩
        · exact ⟨rfl, rfl, rfl⟩
    exact this _ (fun r hr => by simpa [OverrideRecord.ofStation] using (List.mem_filter.1 hr).2) w (.refl w)
  exact hdrop.trans ⟨rfl, rfl, rfl⟩

theorem agree_takeOuts (as : List Addr) : ∀ {s : State}, SlotsDistinct s →
    Agree (withoutRecords s (fun q => as.any (fun a => decide (q.key.origin = .station a)))) (as.foldl State.takeOut s) := by
  induction as with
  | nil => intro s _; rw [withoutRecords_none s fun _ _ => by rfl]; exact .refl s
  | cons a as ih =>
    intro s hn
    have h1 := agree_withoutRecords (agree_takeOut hn a) (fun q => as.any (fun b => decide (q.key.origin = .station b)))
    rw [withoutRecords_or hn] at h1
    exact h1.trans (ih ((endsOnly_takeOut hn a).slots hn))

/-- The set-up of an unconfigured address hands the end of STATION EXTRA where the entry is EXTRA, and nothing else. -/
theorem agree_setUp (s : State) (c : StagingCopy) (a : Addr) (hd : (s.entry a).descriptor = none)
    (hp : (s.entry a).presence ∈ [Presence.absent, .extra, .own, .service])
    (hc : copyAt c a = none → (s.entry a).presence ≠ .extra) :
    Agree (if (s.entry a).presence = .extra then s.finishCause (plainKey (.station a) .stationExtra) else s) (s.setUp c a) := by
  simp only [State.setUp]
  cases h : copyAt c a with
  | some d =>
    have hk : clearedKeys s a = if (s.entry a).presence = .extra then [plainKey (.station a) .stationExtra] else [] := by
      simp only [clearedKeys, Entry.lostCause, Entry.alternateLine, hd]
      simp only [List.mem_cons, List.not_mem_nil, or_false] at hp
      rcases hp with h | h | h | h <;> simp [h, causeIf]
    simp only [updateStation_absent s a .unconfigured rfl, hk]
    split
    · have := agree_finishCause (s := s) (u := s.setEntry a .unconfigured) ⟨rfl, rfl, rfl⟩
        (plainKey (.station a) .stationExtra)
      simp only [List.foldl_cons, List.foldl_nil]
      generalize (s.setEntry a .unconfigured).finishCause (plainKey (.station a) .stationExtra) = w at this
      exact this.trans ⟨rfl, rfl, rfl⟩
    · exact ⟨rfl, rfl, rfl⟩
  | none =>
    rw [if_neg (hc h)]
    exact ⟨rfl, rfl, rfl⟩

theorem agree_setUps (c : StagingCopy) (as : List Addr) (hn : as.Nodup) : ∀ {s u : State}, Agree u s →
    (∀ a ∈ as, (s.entry a).descriptor = none ∧ (s.entry a).presence ∈ [Presence.absent, .extra, .own, .service] ∧
      (copyAt c a = none → (s.entry a).presence ≠ .extra)) →
    Agree ((as.filter (fun a => decide ((s.entry a).presence = .extra))).foldl
      (fun w a => w.finishCause (plainKey (.station a) .stationExtra)) u) (as.foldl (fun w a => w.setUp c a) s) := by
  induction as with
  | nil => intro s u h _; exact h
  | cons a as ih =>
    intro s u h hall
    obtain ⟨h1, h2, h3⟩ := hall a List.mem_cons_self
    have hx := List.nodup_cons.1 hn
    have hent : ∀ b ∈ as, (s.setUp c a).entry b = s.entry b := fun b hb => by
      rw [setUp_entry, if_neg]; rintro rfl; exact hx.1 hb
    have hf : as.filter (fun b => decide ((s.entry b).presence = .extra)) =
        as.filter (fun b => decide (((s.setUp c a).entry b).presence = .extra)) :=
      List.filter_congr fun b hb => by rw [hent b hb]
    have hstep : Agree (if (s.entry a).presence = .extra then u.finishCause (plainKey (.station a) .stationExtra) else u)
        (s.setUp c a) := by
      refine Agree.trans ?_ (agree_setUp s c a h1 h2 h3)
      split
      · exact agree_finishCause h _
      · exact h
    have hih := ih hx.2 hstep (fun b hb => by rw [hent b hb]; exact hall b (List.mem_cons_of_mem _ hb))
    rw [← hf] at hih
    rw [List.foldl_cons, List.filter_cons]
    by_cases e : (s.entry a).presence = .extra
    · simpa only [e, decide_true, if_true, List.foldl_cons] using hih
    · simpa only [e, decide_false, Bool.false_eq_true, if_false] using hih

theorem leaves_eq (s : State) (c : StagingCopy) (a : Addr) : (s.compare c a).takesOut = leaves s c a := by
  simp only [State.compare, leaves]
  cases (s.entry a).descriptor <;> cases copyAt c a <;> simp [comparisonOf, Comparison.takesOut]
  rename_i d e
  by_cases h : d = e <;> simp [h]

theorem touched_eq (s : State) (c : StagingCopy) (a : Addr) : (s.compare c a).moves = touched s c a := by
  simp only [State.compare, touched, Comparison.moves]
  cases (s.entry a).descriptor <;> cases copyAt c a <;> simp [comparisonOf, Comparison.takesOut, Comparison.setsUp]
  rename_i d e
  by_cases h : d = e <;> simp [h]

theorem commitSession_eq {s : State} {c : StagingCopy} (ho : (s.overrides.map overrideKey).Nodup)
    (he : evicts s c = true → ∀ o, s.session.current = some o → (s.entry o.tool).presence = .service) :
    s.commitSession c = (match s.session.current with
      | none => s
      | some o => if (copyAt c o.tool).isSome then sessionEnded s o .reconfigured else s) := by
  simp only [State.commitSession]
  cases h : s.session.current with
  | none => rfl
  | some o =>
    simp only
    split
    · rename_i hc
      exact endSession_eq .reconfigured ho h (he (by simp only [evicts, h]; exact hc) o h)
    · rfl

/-- The entry of an address after the session that a commit evicts has ended. -/
theorem commitSession_entry (s : State) (c : StagingCopy) (a : Addr) :
    (s.commitSession c).entry a = s.entry a ∨ ∃ o, s.session.current = some o ∧ evicts s c = true ∧ a = o.tool ∧
      (s.commitSession c).entry a = { s.entry a with presence := .absent, identity := none } := by
  simp only [State.commitSession]
  cases h : s.session.current with
  | none => exact .inl rfl
  | some o =>
    simp only
    split
    · rename_i hc
      have hr := (endSession_some (reason := .reconfigured) h).2.1
      by_cases e : a = o.tool
      · subst e
        exact .inr ⟨o, rfl, by simp only [evicts, h]; exact hc, rfl, by simp [State.entry, hr]⟩
      · refine .inl ?_
        have : o.tool.val ≠ a.val := fun x => e (Fin.ext x.symm)
        simp [State.entry, hr, this]
    · exact .inl rfl

theorem config_takeOuts (as : List Addr) (s : State) : (as.foldl State.takeOut s).config = s.config := by
  refine keeps_foldl (P := fun t : State => t.config = s.config) _ (fun t a h => ?_) as rfl
  have : (t.takeOut a).config = t.config := by
    show (State.dropOverrides _ _).config = _
    rw [(overrideOnly_dropOverrides _ _).1, (condOnly_retireStation t a).1]
  exact this.trans h

theorem config_setUps (c : StagingCopy) (as : List Addr) (s : State) :
    (as.foldl (fun u a => u.setUp c a) s).config = s.config := by
  refine keeps_foldl (P := fun t : State => t.config = s.config) _ (fun t a h => ?_) as rfl
  have hu : (t.updateStation a .unconfigured (t.supervision a)).config = t.config := by
    rw [(sessionOnly_updateStation t a .unconfigured (t.supervision a)).1]
  refine Eq.trans ?_ h
  simp only [State.setUp]
  generalize t.updateStation a .unconfigured (t.supervision a) = u at hu
  split
  · exact hu
  · rfl

/-- The causes that a commit ends, exactly (R40, R59, R104, R164, R167, R177). -/
theorem applyCommit_cond {s : State} {c : StagingCopy} (hn : SlotsDistinct s) (ho : (s.overrides.map overrideKey).Nodup)
    (hp : ∀ a, touched s c a = true → (s.entry a).descriptor = none →
      (s.entry a).presence ∈ [Presence.absent, .extra, .own, .service])
    (he : evicts s c = true → ∀ o, s.session.current = some o → (s.entry o.tool).presence = .service) :
    (s.applyCommit c).cond = (commitCauses s c).cond := by
  have hs1 : EndsOnly s (s.commitSession c) := by
    simp only [State.commitSession]
    repeat' split
    · exact .frame rfl rfl
    · exact endsOnly_endSession hn _
    · exact .frame rfl rfl
  have hn1 := hs1.slots hn
  have heq := commitSession_eq ho he
  generalize hs2 : (allAddrs.filter (fun a => (s.compare c a).takesOut)).foldl State.takeOut (s.commitSession c) = s2
  have hA : Agree (withoutRecords (s.commitSession c)
      (fun q => allAddrs.any (fun a => decide (q.key.origin = .station a) && leaves s c a))) s2 := by
    have h := agree_takeOuts (allAddrs.filter (fun a => (s.compare c a).takesOut)) hn1
    rw [hs2] at h
    have hc : withoutRecords (s.commitSession c) (fun q =>
        (allAddrs.filter (fun a => (s.compare c a).takesOut)).any (fun a => decide (q.key.origin = .station a))) =
        withoutRecords (s.commitSession c)
          (fun q => allAddrs.any (fun a => decide (q.key.origin = .station a) && leaves s c a)) := by
      refine withoutRecords_congr fun q _ => ?_
      rw [List.any_filter]
      exact any_congr_mem fun a _ => by rw [leaves_eq, Bool.and_comm]
    rwa [hc] at h
  have hent2 : ∀ a, s2.entry a = if (s.compare c a).takesOut then .unconfigured else (s.commitSession c).entry a := by
    intro a; rw [← hs2, takeOut_foldl_entry]; simp [allAddrs]
  have hcfg2 : s2.config = s.config := by
    rw [← hs2, config_takeOuts]
    simp only [State.commitSession]
    repeat' split
    · rfl
    · rw [(sessionOnly_endSession s _).1]
    · rfl
  have ht := transOnly_completeWhere s2
    (fun t => decide (t.station ∈ allAddrs.filter (fun a => (s.compare c a).takesOut))) .reconfigured
  unfold TransOnly at ht
  generalize hs3 : s2.completeWhere (fun t => decide (t.station ∈ allAddrs.filter (fun a => (s.compare c a).takesOut)))
    .reconfigured = s3 at ht
  have hA3 := hA.trans (show Agree s2 s3 by rw [ht]; exact ⟨rfl, rfl, rfl⟩)
  have hent3 : ∀ a, s3.entry a = s2.entry a := fun a => by rw [ht]; rfl
  have hcfg3 : s3.config = s.config := by rw [← hcfg2, ht]
  have hextra : ∀ a, (s.compare c a).moves = true →
      ((s3.entry a).descriptor = none ∧ (s3.entry a).presence ∈ [Presence.absent, .extra, .own, .service] ∧
        (copyAt c a = none → (s3.entry a).presence ≠ .extra)) ∧
      decide ((s3.entry a).presence = .extra) =
        ((s.entry a).descriptor.isNone && decide ((s.entry a).presence = .extra)) := by
    intro a ha
    rw [hent3, hent2]
    rw [touched_eq] at ha
    rcases Bool.eq_false_or_eq_true (s.compare c a).takesOut with h | h
    · rw [leaves_eq] at h
      have hd : (s.entry a).descriptor.isNone = false := by
        simp only [leaves, Bool.and_eq_true] at h
        rw [Option.isNone_eq_false_iff]; exact h.1
      rw [leaves_eq, h, hd, if_pos rfl]
      exact ⟨⟨rfl, by decide, fun _ => by decide⟩, rfl⟩
    · rw [leaves_eq] at h
      have hd : (s.entry a).descriptor = none := by
        cases hx : (s.entry a).descriptor with
        | none => rfl
        | some d => simp [leaves, touched, hx] at h ha; exact absurd h ha
      have hcopy : copyAt c a ≠ none := fun x => by simp [touched, hd, x] at ha
      rw [leaves_eq, h, if_neg (by simp)]
      rcases commitSession_entry s c a with e | ⟨o, ho, hev, rfl, e⟩
      · rw [e]
        exact ⟨⟨hd, hp a ha hd, fun x => absurd x hcopy⟩, by simp [hd]⟩
      · rw [e]
        refine ⟨⟨hd, by simp, fun _ => by simp⟩, ?_⟩
        simp [he hev o ho]
  generalize hs4 : (allAddrs.filter (fun a => (s.compare c a).moves)).foldl (fun u a => u.setUp c a) s3 = s4
  have hA4 : Agree ((allAddrs.filter (fun a => touched s c a && (s.entry a).descriptor.isNone &&
      decide ((s.entry a).presence = .extra))).foldl (fun w a => w.finishCause (plainKey (.station a) .stationExtra))
      (withoutRecords (s.commitSession c)
        (fun q => allAddrs.any (fun a => decide (q.key.origin = .station a) && leaves s c a)))) s4 := by
    have h := agree_setUps c (allAddrs.filter (fun a => (s.compare c a).moves))
      ((List.nodup_finRange 32).filter _) hA3 (fun a ha => (hextra a (List.mem_filter.1 ha).2).1)
    rw [hs4] at h
    have hf : (allAddrs.filter (fun a => (s.compare c a).moves)).filter (fun a => decide ((s3.entry a).presence = .extra)) =
        allAddrs.filter (fun a => touched s c a && (s.entry a).descriptor.isNone &&
          decide ((s.entry a).presence = .extra)) := by
      rw [List.filter_filter]
      refine List.filter_congr fun a _ => ?_
      rw [← touched_eq, Bool.and_assoc]
      rcases Bool.eq_false_or_eq_true (s.compare c a).moves with hm | hm
      · rw [(hextra a hm).2, hm, Bool.and_true, Bool.true_and]
      · simp [hm]
    rwa [hf] at h
  have hcfg4 : s4.config = s.config := by rw [← hs4, config_setUps]; exact hcfg3
  have hlast : ∀ (x : Bool) (kept : List (Placement × Placement)) (w : State), Agree w s4 →
      ((if x then s4 else s4.rebuild kept).place c).clearIncomplete.cond =
        (if s.config.incomplete then w.finishCause (plainKey .part .configIncomplete) else w).cond := by
    intro x kept w hw
    have hw' : Agree w ((if x then s4 else s4.rebuild kept).place c) := hw.trans (by cases x <;> exact ⟨rfl, rfl, rfl⟩)
    have hcfg : ((if x then s4 else s4.rebuild kept).place c).config = s.config := by rw [← hcfg4]; cases x <;> rfl
    generalize (if x then s4 else s4.rebuild kept).place c = y at hw' hcfg
    simp only [State.clearIncomplete, hcfg]
    split
    · exact (agree_finishCause (s := w) (u := { y with config := { s.config with incomplete := false } }) hw' _).1
    · exact hw'.1
  have happ : (s.applyCommit c).cond =
      ((if (allAddrs.filter (fun a => (s.compare c a).moves)).isEmpty then s4 else s4.rebuild (s.keptSlices c)).place
        c).clearIncomplete.cond := by
    subst hs4 hs3 hs2; rfl
  rw [happ, hlast _ _ _ hA4, heq]
  rfl

end Sys2Proof.Laws
end

