-- ==== Sys2Proof/Laws/Frames.lean ====
section
/-! SUPPORT. Frames: a GOOD frame ends the window it answers, the payloads of stations read back as they were built, and a
row of a frame kind is received as the octets of its frame. -/

namespace Sys2Proof.Laws

open Sys2Proof.Machine Sys2Proof.Safety

theorem receive_good {s : State} {l : LineId} {f : Flight} {src : Byte} {k : FrameKind} {tg : Byte} {pl : List Byte}
    (h : Awaits s l f) (hs : FromTarget s f src) (hk : receivedKindOf k.code = some k) (ha : k ∈ f.awaited)
    (hp : payloadOk k pl = true) (ht : k = .paramAnswer → tg.toNat ≤ 1) (hc : s.contentsOk f k pl = true) :
    s.receive l (.ok (s.frameFrom src k tg pl)) = (s.received l).windowEnds f (some (s.frameFrom src k tg pl)) := by
  obtain ⟨h1, h2, h3, h4⟩ := h
  obtain ⟨g1, g2, g3⟩ := hs
  have how : s.openWindow l = some f := by
    simp only [State.openWindow, h2, h3, if_true]
    rcases h4 with h4 | ⟨h4, h5⟩
    · simp [h4]
    · simp [h4, h5]
  have hcl : s.classify l (.ok (s.frameFrom src k tg pl)) = .good k (s.frameFrom src k tg pl) := by
    simp only [State.classify]
    rw [if_neg (by exact g3)]
    have : fieldsOf s.ownAddress (s.frameFrom src k tg pl) = some k := by
      simp only [fieldsOf, State.frameFrom, hk]
      rw [if_pos ⟨trivial, g2, hp, ht⟩]
    simp only [State.classifyFields, this, how]
    rw [if_pos ⟨g1, ha⟩, if_pos (by exact hc)]
  simp only [State.receive, h1, how, hcl, State.takeClass]

theorem identityOf_octets (i : Identity) : identityOf ([octet i.inputCount.val, i.inputWidth.code, octet i.outputCount.val, i.outputWidth.code, i.revision] ++ wordOctets i.tag) = some i := by
  simp [identityOf, wordOctets, below_octet (show 33 ≤ 256 by omega) i.inputCount.isLt, below_octet (show 33 ≤ 256 by omega) i.outputCount.isLt, widthOf_code, wordOf_octets]

theorem faultItemOf_octets (x : FaultItem) : faultItemOf (octet ((match x.direction with | .input => 0 | .output => 128) + x.circuit.val)) x.code x.detail = x := by
  obtain ⟨d, c, co, de⟩ := x
  simp only [faultItemOf]
  have : ∀ (d : Direction) (c : Fin 32), (if (octet ((match d with | .input => 0 | .output => 128) + c.val)).getLsbD 7 then Direction.output else .input) = d ∧ (octet ((match d with | .input => 0 | .output => 128) + c.val)).toNat % 32 = c.val := by
    intro d; cases d <;> decide
  obtain ⟨t1, t2⟩ := this d c
  congr 1
  · exact Fin.ext t2

theorem faultItemsOf_octets (xs : List FaultItem) : faultItemsOf (xs.flatMap faultItemOctets) = xs := by
  induction xs with
  | nil => rfl
  | cons x xs ih => simp [faultItemOctets, faultItemsOf, ih]; exact faultItemOf_octets x

theorem length_faultItemOctets (xs : List FaultItem) : (xs.flatMap faultItemOctets).length = 3 * xs.length := by
  induction xs with
  | nil => rfl
  | cons x xs ih => simp [faultItemOctets, ih]; omega

theorem faultRank_nodup (xs : List FaultItem) (h : (xs.map (fun x => (x.direction, x.circuit, x.code))).Nodup) : (xs.map faultRank).Nodup := by
  have hi : ∀ x y : FaultItem, faultRank x = faultRank y → (x.direction, x.circuit, x.code) = (y.direction, y.circuit, y.code) := by
    rintro ⟨d, c, co, de⟩ ⟨d', c', co', de'⟩ hxy
    simp only [faultRank] at hxy
    have h1 := co.isLt; have h2 := co'.isLt; have h3 := c.isLt; have h4 := c'.isLt
    have : d = d' := by cases d <;> cases d' <;> simp_all <;> omega
    subst this
    have h5 : c.val = c'.val := by omega
    have h6 : co.toNat = co'.toNat := by omega
    simp [Fin.ext h5, BitVec.eq_of_toNat_eq h6]
  rw [List.nodup_map_iff_inj_on (List.Nodup.of_map _ h)]
  intro x hx y hy hxy
  exact List.inj_on_of_nodup_map h hx hy (hi x y hxy)

theorem replyOf_octets (d : Descriptor) (tag : Word) (inputs : List Byte) (code : Byte) (more : Bool) (items : List FaultItem)
   (h1 : inputs.length = d.inputSize) (h2 : items.length ≤ 4) (h3 : ∀ x ∈ items, x.code ≠ 0 ∧ x.circuit.val < d.count x.direction)
   (h4 : (items.map (fun x => (x.direction, x.circuit, x.code))).Nodup) :
   replyOf d (wordOctets tag ++ inputs ++ [code, itemOctet items.length more] ++ items.flatMap faultItemOctets) =
     some { tag := tag, inputs := inputs, status := { faultCode := code, items := items, more := more } } := by
  have hio : (itemOctet items.length more).toNat % 128 = items.length ∧ (itemOctet items.length more).getLsbD 7 = more := by
    generalize items.length = n at h2
    have : n = 0 ∨ n = 1 ∨ n = 2 ∨ n = 3 ∨ n = 4 := by omega
    rcases this with rfl | rfl | rfl | rfl | rfl <;> cases more <;> decide
  have hdrop : (wordOctets tag ++ inputs ++ [code, itemOctet items.length more] ++ items.flatMap faultItemOctets).drop (4 + d.inputSize) = items.flatMap faultItemOctets := by
    rw [List.drop_append_of_le_length (by simp [wordOctets]; omega)]
    rw [List.drop_eq_nil_of_le (by simp [wordOctets]; omega)]; rfl
  have hg : ∀ k, (wordOctets tag ++ inputs ++ [code, itemOctet items.length more] ++ items.flatMap faultItemOctets).getD (2 + d.inputSize + k) 0 = ([code, itemOctet items.length more] ++ items.flatMap faultItemOctets).getD k 0 := by
    intro k
    rw [List.append_assoc, List.getD_append_right _ _ _ _ (by simp [wordOctets]; omega)]
    congr 1; simp [wordOctets]; omega
  have g0 := hg 0; have g1 := hg 1
  have e1 : 3 + d.inputSize = 2 + d.inputSize + 1 := by omega
  simp only [replyOf]
  rw [e1, g1, hdrop, show 2 + d.inputSize = 2 + d.inputSize + 0 from rfl, g0]
  simp only [List.cons_append, List.nil_append, List.getD_cons_zero, List.getD_cons_succ, faultItemsOf_octets, hio.1, hio.2]
  rw [if_pos ?_]
  · congr 2
    · simp [wordOctets, wordOf_octets]
    · simp [wordOctets, ← h1]
  · refine ⟨by simp only [List.length_append, length_faultItemOctets]; simp [wordOctets]; omega, ?_⟩
    simp only [faultListOk, Bool.and_eq_true, decide_eq_true_eq, List.all_eq_true]
    exact ⟨⟨h2, fun x hx => by simpa using h3 x hx⟩, faultRank_nodup items h4⟩

/-! ## A row of a frame kind is a frame received (R131, R193) -/

/-- The octets of a frame of at most 80 payload octets are received as that frame (R131 tests 1 to 3). -/
theorem receiveOctets_checked (dest source kind toggle : Byte) (payload : List Byte) (h : payload.length ≤ 80) :
    receiveOctets false (checked dest source kind toggle payload) = .ok ⟨dest, source, kind, toggle, payload⟩ := by
  have hl : (octet payload.length).toNat = payload.length := by simp [octet]; omega
  generalize hb : [dest, source, kind, toggle, octet payload.length] ++ payload = body
  have hlen : body.length = 5 + payload.length := by subst hb; simp; omega
  have hget : ∀ i, i < body.length → (checked dest source kind toggle payload).getD i 0 = body.getD i 0 := fun i hi => by
    subst hb; exact List.getD_append _ _ _ _ hi
  have hc : checked dest source kind toggle payload = body ++ wordOctets (frameCheck body) := by subst hb; rfl
  have h4 : ((checked dest source kind toggle payload).getD 4 0).toNat = payload.length := by subst hb; exact hl
  have hw : (wordOctets (frameCheck body)).length = 2 := rfl
  simp only [receiveOctets, h4, Bool.false_eq_true, if_false]
  rw [if_neg (by rw [hc, List.length_append, hlen, hw]; omega)]
  rw [hc, List.drop_left' hlen, List.take_left' hlen, if_neg (by simp)]
  subst hb
  simp [frameOf, hl]

/-- Two frames of one source are received alike where tests 5 to 7 read them alike and the window that they answer takes
them alike (R131, R132). -/
theorem receive_same {s : State} {l : LineId} {f g : Frame} (hs : g.source = f.source)
    (hf : fieldsOf s.ownAddress g = fieldsOf s.ownAddress f)
    (hc : ∀ w k, s.openWindow l = some w → fieldsOf s.ownAddress f = some k → k ∈ w.awaited →
      s.contentsOk w k g.payload = s.contentsOk w k f.payload ∧
      (s.received l).windowEnds w (some g) = (s.received l).windowEnds w (some f)) :
    s.receive l (.ok g) = s.receive l (.ok f) := by
  have hown : (s.classify l (.ok g) = .ownAddress) = (s.classify l (.ok f) = .ownAddress) := by
    simp only [State.classify, hs]
    split
    · rfl
    · have : ∀ x : Frame, s.classifyFields l x ≠ .ownAddress := by
        intro x h
        simp only [State.classifyFields] at h
        repeat' split at h
        all_goals cases h
      exact propext ⟨fun h => absurd h (this g), fun h => absurd h (this f)⟩
  simp only [State.receive]
  split
  · rfl
  · rfl
  · simp only [State.classify, hs]
    split
    · rfl
    · simp only [State.classifyFields, hf, hs]
      cases hk : fieldsOf s.ownAddress f with
      | none => rfl
      | some k =>
        cases hw : s.openWindow l with
        | none => rfl
        | some w =>
          simp only
          split
          · rename_i ha
            obtain ⟨h1, h2⟩ := hc w k hw hk ha.2
            rw [h1]
            split
            · exact h2
            · rfl
          · rfl
  · split
    · by_cases h : s.classify l (.ok f) = .ownAddress
      · rw [h, hown.mpr h]
      · have h' : ¬ s.classify l (.ok g) = .ownAddress := fun x => h (hown.mp x)
        generalize s.classify l (.ok g) = x at h'
        generalize s.classify l (.ok f) = y at h
        cases x <;> cases y <;> first | rfl | exact absurd rfl h | exact absurd rfl h'
    · rfl

/-- The toggle of a frame other than a PARAM ANSWER is ignored (R128). -/
theorem receive_toggle (s : State) (l : LineId) (f : Frame) (toggle : Byte) (hk : f.kind = 7 → toggle = f.toggle) :
    s.receive l (.ok { f with toggle := toggle }) = s.receive l (.ok f) := by
  by_cases h7 : f.kind = 7
  · rw [hk h7]
  have hrk : receivedKindOf f.kind ≠ some .paramAnswer := fun h => by
    have := List.find?_some h
    simp only [decide_eq_true_eq] at this
    exact h7 this.symm
  have hff : fieldsOf s.ownAddress { f with toggle := toggle } = fieldsOf s.ownAddress f := by
    simp only [fieldsOf]
    split
    · rfl
    · rename_i k hk'
      have : k ≠ .paramAnswer := fun e => hrk (e ▸ hk')
      simp [this]
  refine receive_same rfl hff fun w k hw hf ha => ⟨rfl, ?_⟩
  have hkind : receivedKindOf f.kind = some k := by
    simp only [fieldsOf] at hf
    split at hf
    · cases hf
    · rename_i k' h'
      split at hf
      · cases hf; exact h'
      · cases hf
  have hx : ∀ (u : State) i, u.exchangeEnded i (some { f with toggle := toggle }) = u.exchangeEnded i (some f) ∨ k ≠ .paramRefuse := by
    intro u i
    by_cases e : k = .paramRefuse
    · left
      subst e
      have : f.kind = FrameKind.paramRefuse.code := by
        have := List.find?_some hkind
        simpa using (of_decide_eq_true this).symm
      simp only [State.exchangeEnded]
      cases u.slot i with
      | none => rfl
      | some t => simp only; rw [if_pos this, if_pos this]
    · exact .inr e
  simp only [State.windowEnds]
  cases hj : w.job with
  | attempt v => rfl
  | exchange i a =>
    simp only [Flight.awaited, hj, List.mem_cons, List.not_mem_nil, or_false] at ha
    rcases ha with rfl | rfl
    · exact absurd hkind hrk
    · simp only
      rcases hx ((s.received l).setFlight none) i with e | e
      · rw [e]
      · exact absurd rfl e
  | servicePoll => rfl
  | probe d => rfl
  | sessionFrame d fin => rfl

theorem replyPayload_zero (tag : Word) (inputs : List Byte) (code : Byte) (more : Bool) (items : List FaultItem)
    (h : items.length < 128) :
    wordOctets tag ++ inputs ++ [code, itemOctet items.length more] ++ items.flatMap faultItemOctets =
      replyPayload tag inputs code more items (List.replicate items.length 0) := by
  have h1 : itemOctet items.length more = octet (items.length + if more then 128 else 0) := by
    rw [itemOctet, Nat.mod_eq_of_lt h]
  have h2 : (items.zip (List.replicate items.length (0 : Byte))).flatMap (fun x => replyItem x.1 x.2) = items.flatMap faultItemOctets := by
    clear h h1
    induction items with
    | nil => rfl
    | cons x xs ih =>
      have : replyItem x 0 = faultItemOctets x := by
        obtain ⟨d, c, co, de⟩ := x
        cases d <;> simp [replyItem, faultItemOctets]
      simp only [List.length_cons, List.replicate_succ, List.zip_cons_cons, List.flatMap_cons, ih, this]
  simp only [replyPayload, h1, h2]

theorem length_replyPayload (tag : Word) (inputs : List Byte) (code : Byte) (more : Bool) (items : List FaultItem)
    (pads : List Byte) (h : pads.length = items.length) :
    (replyPayload tag inputs code more items pads).length = 4 + inputs.length + 3 * items.length := by
  have : ∀ (xs : List FaultItem) (ps : List Byte), ps.length = xs.length → ((xs.zip ps).flatMap (fun x => replyItem x.1 x.2)).length = 3 * xs.length := by
    intro xs
    induction xs with
    | nil => intro ps _; rfl
    | cons x xs ih =>
      intro ps hp
      cases ps with
      | nil => cases hp
      | cons p ps =>
        have := ih ps (by simpa using hp)
        simp only [List.zip_cons_cons, List.flatMap_cons, List.length_append, this, List.length_cons]
        have : (replyItem x p).length = 3 := rfl
        omega
  simp only [replyPayload, List.length_append, this items pads h, List.length_cons, List.length_nil]
  simp [wordOctets]; omega

/-- A fault item reads the same whatever its unassigned bits carry (R193). -/
theorem faultItemOf_pad (x code detail pad : Byte) : faultItemOf (x ||| (pad &&& 0x60)) code detail = faultItemOf x code detail := by
  have h1 : (x ||| (pad &&& 0x60)).getLsbD 7 = x.getLsbD 7 := by simp
  have h2 : (x ||| (pad &&& 0x60)).toNat % 32 = x.toNat % 32 := by
    have : (x ||| (pad &&& 0x60)) &&& 0x1F = x &&& 0x1F := by
      ext i hi
      have : i = 0 ∨ i = 1 ∨ i = 2 ∨ i = 3 ∨ i = 4 ∨ i = 5 ∨ i = 6 ∨ i = 7 := by omega
      rcases this with rfl | rfl | rfl | rfl | rfl | rfl | rfl | rfl <;> simp
    have e := congrArg BitVec.toNat this
    have h31 : ∀ n : Nat, n &&& 31 = n % 32 := fun n => Nat.and_two_pow_sub_one_eq_mod n 5
    simpa [BitVec.toNat_and, h31] using e
  simp only [faultItemOf, h1, h2]

theorem faultItemsOf_pads (items : List FaultItem) : ∀ pads : List Byte, pads.length = items.length →
    faultItemsOf ((items.zip pads).flatMap (fun x => replyItem x.1 x.2)) = items := by
  induction items with
  | nil => intro pads _; rfl
  | cons x xs ih =>
    intro pads hp
    cases pads with
    | nil => cases hp
    | cons p ps =>
      have := ih ps (by simpa using hp)
      simp only [List.zip_cons_cons, List.flatMap_cons, replyItem, List.cons_append, List.nil_append, faultItemsOf,
        faultItemOf_pad]
      congr 1
      exact faultItemOf_octets x

/-- A REPLY reads the same for a station of its size whatever the unassigned bits of its items carry (R193). -/
theorem replyOf_pads (d : Descriptor) (tag : Word) (inputs : List Byte) (code : Byte) (more : Bool) (items : List FaultItem)
    (pads pads' : List Byte) (h : pads.length = items.length) (h' : pads'.length = items.length)
    (hd : inputs.length = d.inputSize) :
    replyOf d (replyPayload tag inputs code more items pads) = replyOf d (replyPayload tag inputs code more items pads') := by
  generalize hp : wordOctets tag ++ inputs ++ [code, octet (items.length + if more then 128 else 0)] = head
  have hl : head.length = 4 + d.inputSize := by subst hp; simp [wordOctets]; omega
  have hpay : ∀ ps, replyPayload tag inputs code more items ps = head ++ (items.zip ps).flatMap (fun x => replyItem x.1 x.2) :=
    fun ps => by subst hp; rfl
  have hget : ∀ ps i, i < head.length → (replyPayload tag inputs code more items ps).getD i 0 = head.getD i 0 :=
    fun ps i hi => by rw [hpay]; exact List.getD_append _ _ _ _ hi
  have hdrop : ∀ ps, (replyPayload tag inputs code more items ps).drop (4 + d.inputSize) =
      (items.zip ps).flatMap (fun x => replyItem x.1 x.2) := fun ps => by rw [hpay, List.drop_left' hl]
  have hin : ∀ ps, ((replyPayload tag inputs code more items ps).drop 2).take d.inputSize = (head.drop 2).take d.inputSize :=
    fun ps => by
      rw [hpay, List.drop_append_of_le_length (by omega), List.take_append_of_le_length (by simp; omega)]
  have e1 := hget pads (3 + d.inputSize) (by omega)
  have e2 := hget pads' (3 + d.inputSize) (by omega)
  have e3 := hget pads (2 + d.inputSize) (by omega)
  have e4 := hget pads' (2 + d.inputSize) (by omega)
  simp only [replyOf, e1, e2, e3, e4, hdrop, hin, faultItemsOf_pads items pads h, faultItemsOf_pads items pads' h',
    length_replyPayload _ _ _ _ _ _ h, length_replyPayload _ _ _ _ _ _ h', hget pads 0 (by omega),
    hget pads' 0 (by omega), hget pads 1 (by omega), hget pads' 1 (by omega)]

/-- A REPLY is received the same whatever the unassigned bits of its items carry (R193). -/
theorem receive_pads (s : State) (l : LineId) (dest source toggle : Byte) (tag : Word) (inputs : List Byte) (code : Byte)
    (more : Bool) (items : List FaultItem) (pads pads' : List Byte) (h : pads.length = items.length)
    (h' : pads'.length = items.length)
    (hd : ∀ w v d, s.scan.flight = some w → w.job = .attempt v → (s.entry v.address).descriptor = some d →
      inputs.length = d.inputSize) :
    s.receive l (.ok ⟨dest, source, 2, toggle, replyPayload tag inputs code more items pads⟩) =
      s.receive l (.ok ⟨dest, source, 2, toggle, replyPayload tag inputs code more items pads'⟩) := by
  have hk : receivedKindOf 2 = some .reply := by decide
  have hlen := (length_replyPayload tag inputs code more items pads h).trans
    (length_replyPayload tag inputs code more items pads' h').symm
  have hok : payloadOk .reply (replyPayload tag inputs code more items pads) =
      payloadOk .reply (replyPayload tag inputs code more items pads') := by simp [payloadOk, hlen]
  refine receive_same rfl (by simp only [fieldsOf, hk, hok]) fun w k hw hf ha => ?_
  have hkr : k = .reply := by
    simp only [fieldsOf, hk] at hf
    split at hf
    · cases hf; rfl
    · cases hf
  subst hkr
  have hfl : s.scan.flight = some w := by
    simp only [State.openWindow] at hw
    split at hw
    · cases hw
    · rename_i f hf'
      rw [hf']
      repeat' split at hw
      all_goals first | exact hw | cases hw
  cases hj : w.job with
  | attempt v =>
    cases hde : (s.entry v.address).descriptor with
    | none =>
      have : ∀ x, (s.received l).windowEnds w x = (((s.received l).setFlight none)).scanOn := by
        intro x
        simp only [State.windowEnds, hj, State.attemptEnded]
        rw [show (((s.received l).setFlight none).entry v.address).descriptor = none from by
          cases l <;> exact hde]
      exact ⟨by simp only [State.contentsOk, hj, hde], by rw [this, this]⟩
    | some d =>
      have hr := replyOf_pads d tag inputs code more items pads pads' h h' (hd w v d hfl hj hde)
      refine ⟨by simp only [State.contentsOk, hj, hde, hr], ?_⟩
      simp only [State.windowEnds, hj, State.attemptEnded]
      rw [show (((s.received l).setFlight none).entry v.address).descriptor = some d from by
        cases l <;> exact hde]
      simp only [State.takeGood, hr]
      rfl
  | exchange i a => simp [Flight.awaited, hj] at ha
  | servicePoll => simp [Flight.awaited, hj] at ha
  | probe d => simp [Flight.awaited, hj] at ha
  | sessionFrame d fin => simp [Flight.awaited, hj] at ha

/-- A row of a frame kind is received as its frame (notes/assumptions/28.md, 29.md). -/
theorem exec_rowFrame {s : State} {c : Instr} {l : LineId} {f : Frame} (h : rowFrame (octet s.ownAddress.val) c = some (l, f))
    (hl : f.payload.length ≤ 80) : exec c s = .next (s.receive l (.ok f)) := by
  cases c <;> simp only [rowFrame, reduceCtorEq, Option.some.injEq, Prod.mk.injEq] at h <;> obtain ⟨rfl, rfl⟩ := h <;>
    try rfl
  rename_i l source tag inputs code more items
  have : items.length < 128 := by
    rw [length_replyPayload _ _ _ _ _ _ (by simp)] at hl; omega
  show Host.Outcome.next _ = _
  rw [← replyPayload_zero tag inputs code more items this]
  rfl

end Sys2Proof.Laws
end

