-- ==== Sys2Proof/Laws/Memory.lean ====
section
/-! SUPPORT. Octet areas: what a write reads back as, and that every operation keeps the canonical form. -/

namespace Sys2Proof.Laws

open Sys2Proof.Machine

theorem wf_nil : Memory.wf [] := ⟨List.Pairwise.nil, by simp⟩

theorem wf_tail {c : Host.Cell} {m : Memory} (h : Memory.wf (c :: m)) : Memory.wf m :=
  ⟨(List.pairwise_cons.1 h.1).2, fun x hx => h.2 x (List.mem_cons_of_mem _ hx)⟩

/-- Every offset that a write lists was listed before or is the offset written. -/
theorem mem_write {m : Memory} {a : Nat} {b : Byte} {c : Host.Cell} (h : c ∈ m.write a b) : c ∈ m ∨ c = (a, b) := by
  induction m with
  | nil =>
    simp only [Memory.write] at h
    split at h <;> simp_all
  | cons x m ih =>
    obtain ⟨k, v⟩ := x
    simp only [Memory.write] at h
    split_ifs at h <;> simp only [List.mem_cons] at h ⊢ <;> tauto

/-- A write keeps the canonical form. -/
theorem write_wf {m : Memory} (h : Memory.wf m) (a : Nat) (b : Byte) : Memory.wf (m.write a b) := by
  induction m with
  | nil =>
    simp only [Memory.write]
    split
    · exact wf_nil
    · exact ⟨by simp, by simp_all⟩
  | cons x m ih =>
    obtain ⟨k, v⟩ := x
    have hp := List.pairwise_cons.1 h.1
    have ht := wf_tail h
    simp only [Memory.write]
    split_ifs with h1 h2 h3 h4
    · exact h
    · refine ⟨List.pairwise_cons.2 ⟨?_, h.1⟩, ?_⟩
      · intro c hc
        rcases List.mem_cons.1 hc with rfl | hc
        · exact h1
        · exact lt_trans h1 (hp.1 c hc)
      · intro c hc
        rcases List.mem_cons.1 hc with rfl | hc
        · exact h2
        · exact h.2 c hc
    · exact ht
    · refine ⟨List.pairwise_cons.2 ⟨?_, ht.1⟩, ?_⟩
      · intro c hc
        have := hp.1 c hc
        simp only at this ⊢
        omega
      · intro c hc
        rcases List.mem_cons.1 hc with rfl | hc
        · exact h4
        · exact ht.2 c hc
    · refine ⟨List.pairwise_cons.2 ⟨?_, (ih ht).1⟩, ?_⟩
      · intro c hc
        rcases mem_write hc with hc | rfl
        · exact hp.1 c hc
        · simp only; omega
      · intro c hc
        rcases List.mem_cons.1 hc with rfl | hc
        · exact h.2 _ List.mem_cons_self
        · exact (ih ht).2 c hc

theorem read_of_lt_all {m : Memory} {a : Nat} (h : ∀ c ∈ m, a < c.1) : m.read a = 0 := by
  induction m with
  | nil => rfl
  | cons x m ih =>
    obtain ⟨k, v⟩ := x
    have hk : a < k := h (k, v) List.mem_cons_self
    have : k ≠ a := by omega
    simp only [Memory.read, this, if_false]
    exact ih (fun c hc => h c (List.mem_cons_of_mem _ hc))

/-- What a write reads back as: the octet written at its offset, every other octet as before. -/
theorem read_write {m : Memory} (h : Memory.wf m) (a x : Nat) (b : Byte) :
    (m.write a b).read x = if x = a then b else m.read x := by
  induction m with
  | nil =>
    simp only [Memory.write]
    by_cases hb : b = 0
    · rw [if_pos hb, hb]; split <;> rfl
    · rw [if_neg hb]
      simp only [Memory.read]
      by_cases hx : x = a
      · rw [if_pos hx.symm, if_pos hx]
      · rw [if_neg (fun e => hx e.symm), if_neg hx]
  | cons c m ih =>
    obtain ⟨k, v⟩ := c
    have hp := List.pairwise_cons.1 h.1
    have ht := wf_tail h
    have hlt : ∀ c ∈ m, k < c.1 := fun c hc => hp.1 c hc
    simp only [Memory.write]
    by_cases h1 : a < k
    · rw [if_pos h1]
      by_cases hb : b = 0
      · rw [if_pos hb]
        by_cases hx : x = a
        · rw [if_pos hx, hb]
          refine read_of_lt_all (fun c hc => ?_)
          rcases List.mem_cons.1 hc with rfl | hc
          · simp only; omega
          · have := hlt c hc; omega
        · rw [if_neg hx]
      · rw [if_neg hb]
        simp only [Memory.read]
        by_cases hx : x = a
        · rw [if_pos hx.symm, if_pos hx]
        · rw [if_neg (fun e => hx e.symm), if_neg hx]
    · rw [if_neg h1]
      by_cases h2 : a = k
      · rw [if_pos h2]
        by_cases hb : b = 0
        · rw [if_pos hb]
          simp only [Memory.read]
          by_cases hx : x = a
          · rw [if_pos hx, hb]
            exact read_of_lt_all (fun c hc => by have := hlt c hc; omega)
          · rw [if_neg hx, if_neg (by omega)]
        · rw [if_neg hb]
          simp only [Memory.read]
          by_cases hx : x = a
          · rw [if_pos hx.symm, if_pos hx]
          · rw [if_neg (fun e => hx e.symm), if_neg hx, if_neg (by omega)]
      · rw [if_neg h2]
        simp only [Memory.read, ih ht]
        by_cases hk : k = x
        · rw [if_pos hk, if_neg (by omega), if_pos hk]
        · rw [if_neg hk, if_neg hk]

theorem writeList_wf {m : Memory} (h : Memory.wf m) (a : Nat) (bs : List Byte) : Memory.wf (m.writeList a bs) := by
  induction bs generalizing m a with
  | nil => exact h
  | cons b bs ih => exact ih (write_wf h a b) (a + 1)

/-- What a run of octets reads back as. -/
theorem read_writeList {m : Memory} (h : Memory.wf m) (a x : Nat) (bs : List Byte) :
    (m.writeList a bs).read x = if a ≤ x ∧ x < a + bs.length then bs.getD (x - a) 0 else m.read x := by
  induction bs generalizing m a with
  | nil =>
    simp only [Memory.writeList, List.length_nil]
    rw [if_neg (by omega)]
  | cons b bs ih =>
    simp only [Memory.writeList, List.length_cons]
    rw [ih (write_wf h a b), read_write h]
    by_cases hx : x = a
    · subst hx; simp
    · by_cases hr : a + 1 ≤ x ∧ x < a + 1 + bs.length
      · have h2 : a ≤ x ∧ x < a + (bs.length + 1) := by omega
        have h3 : x - a = (x - (a + 1)) + 1 := by omega
        simp [hr, h2, h3]
      · have h2 : ¬ (a ≤ x ∧ x < a + (bs.length + 1)) := by omega
        rw [if_neg hr, if_neg h2, if_neg hx]

theorem writeCircuit_wf {m : Memory} (h : Memory.wf m) (off : Nat) (w : Width) (n : Nat) (v : Word) :
    Memory.wf (m.writeCircuit off w n v) := by
  cases w
  · exact write_wf h _ _
  · exact write_wf (write_wf h _ _) _ _

theorem foldl_wf {α : Type} (f : Memory → α → Memory) (hf : ∀ m x, Memory.wf m → Memory.wf (f m x)) (xs : List α)
    {m : Memory} (h : Memory.wf m) : Memory.wf (xs.foldl f m) := by
  induction xs generalizing m with
  | nil => exact h
  | cons x xs ih => exact ih (hf m x h)

theorem rebuildArea_wf (m : Memory) (moves : List (Nat × Nat × Nat)) : Memory.wf (rebuildArea m moves) :=
  foldl_wf _ (fun _ _ h => writeList_wf h _ _) moves wf_nil

theorem publishSlice_wf (s : State) (m : Memory) (a : Addr) (h : Memory.wf m) : Memory.wf (s.publishSlice m a) := by
  simp only [State.publishSlice]
  split
  · exact h
  · exact writeList_wf h _ _

theorem publishOverride_wf (s : State) (m : Memory) (r : OverrideRecord) (h : Memory.wf m) :
    Memory.wf (s.publishOverride m r) := by
  simp only [State.publishOverride]
  split
  · exact writeCircuit_wf h _ _ _ _
  · exact h

theorem publication_wf (s : State) : Memory.wf s.publication :=
  foldl_wf _ (publishOverride_wf s) _ (foldl_wf _ (publishSlice_wf s) _ wf_nil)

theorem reset_published_wf : Memory.wf State.reset.scan.published := wf_nil

theorem reset_live_wf : Memory.wf State.reset.scan.live := wf_nil

theorem reset_outputArea_wf : Memory.wf State.reset.port.outputArea := wf_nil

theorem reset_entryArea_wf : Memory.wf State.reset.port.entryArea := wf_nil

end Sys2Proof.Laws
end

