-- ==== Sys2Proof/Laws/Images.lean ====
section
/-! SUPPORT. Placement as running offsets (R18, R120), and the published input area bit by bit: the slices, and the input
overrides over them (R100, R114). -/

namespace Sys2Proof.Laws

open Sys2Proof.Machine Sys2Proof.Safety

/-! ## Placement (R18, R120) -/

theorem placeFrom_get (l : List (Option Descriptor)) : ∀ (i o n : Nat),
    (placeFrom l i o)[n]? = l[n]?.map (fun x => x.map (fun d =>
      ⟨i + ((l.take n).map (fun y => (y.map Descriptor.inputSize).getD 0)).sum, d.inputSize,
        o + ((l.take n).map (fun y => (y.map Descriptor.outputSize).getD 0)).sum, d.outputSize⟩)) := by
  induction l with
  | nil => intro i o n; simp [placeFrom]
  | cons x l ih =>
    intro i o n
    cases x with
    | none => cases n <;> simp [placeFrom, ih]
    | some d =>
      cases n with
      | zero => simp [placeFrom]
      | succ n => simp [placeFrom, ih, Nat.add_assoc]

theorem toList_eq_copyAt (c : StagingCopy) : c.toList = (List.finRange 32).map (copyAt c) := by
  refine List.ext_getElem (by simp) fun i h1 h2 => ?_
  simp [copyAt, Vector.get]

theorem inputOctets_eq (c : Addr → Option Descriptor) (a : Addr) :
    inputOctets c a = ((c a).map Descriptor.inputSize).getD 0 := by
  unfold inputOctets; cases c a <;> rfl

theorem outputOctets_eq (c : Addr → Option Descriptor) (a : Addr) :
    outputOctets c a = ((c a).map Descriptor.outputSize).getD 0 := by
  unfold outputOctets; cases c a <;> rfl

/-- The running offsets of R120, spelled as sums over the addresses below. -/
theorem placementIn_eq (c : StagingCopy) (a : Addr) : placementIn c a = placed (copyAt c) a := by
  have h1 : ((c.toList.take a.val).map (fun y => (y.map Descriptor.inputSize).getD 0)).sum =
      octetsBelow (inputOctets (copyAt c)) a.val := by
    rw [toList_eq_copyAt, ← List.map_take, List.map_map]; unfold octetsBelow
    congr 1; exact List.map_congr_left fun b _ => (inputOctets_eq _ _).symm
  have h2 : ((c.toList.take a.val).map (fun y => (y.map Descriptor.outputSize).getD 0)).sum =
      octetsBelow (outputOctets (copyAt c)) a.val := by
    rw [toList_eq_copyAt, ← List.map_take, List.map_map]; unfold octetsBelow
    congr 1; exact List.map_congr_left fun b _ => (outputOctets_eq _ _).symm
  have hg : c.toList[a.val]? = some (copyAt c a) := by simp [copyAt, Vector.get]
  unfold placementIn placed
  rw [placeFrom_get, h1, h2, hg]
  simp only [Option.map_some, Option.join_some]
  cases h : copyAt c a with
  | none => rfl
  | some d => simp [inputOctets, outputOctets, h, Descriptor.inputSize, Descriptor.outputSize, sliceSize, circuitOctets] <;>
      exact ⟨rfl, rfl⟩

theorem inputTotal_eq (c : StagingCopy) : inputTotal c = octetsBelow (inputOctets (copyAt c)) 32 := by
  unfold inputTotal octetsBelow
  rw [toList_eq_copyAt, List.map_map, List.take_of_length_le (by simp)]
  congr 1; exact List.map_congr_left fun b _ => (inputOctets_eq _ _).symm

theorem outputTotal_eq (c : StagingCopy) : outputTotal c = octetsBelow (outputOctets (copyAt c)) 32 := by
  unfold outputTotal octetsBelow
  rw [toList_eq_copyAt, List.map_map, List.take_of_length_le (by simp)]
  congr 1; exact List.map_congr_left fun b _ => (outputOctets_eq _ _).symm

/-! ## Running offsets are disjoint (R120) -/

theorem octetsBelow_succ (size : Addr → Nat) (a : Addr) : octetsBelow size (a.val + 1) = octetsBelow size a.val + size a := by
  unfold octetsBelow
  have h : (List.finRange 32)[a.val]? = some a := by simp
  rw [List.take_add_one, h]; simp

theorem octetsBelow_mono (size : Addr → Nat) {m n : Nat} (h : m ≤ n) : octetsBelow size m ≤ octetsBelow size n := by
  unfold octetsBelow
  obtain ⟨k, rfl⟩ := Nat.exists_eq_add_of_le h
  rw [List.take_add, List.map_append, List.sum_append]; omega

/-- The slices of two addresses in one area have no octet in common. -/
theorem octetsBelow_disjoint (size : Addr → Nat) {a b : Addr} (h : a < b) :
    octetsBelow size a.val + size a ≤ octetsBelow size b.val := by
  rw [← octetsBelow_succ]; exact octetsBelow_mono size h

/-- What a placement of R120 says of the input area: an octet lies in the slice of one station at most. -/
theorem inputSlices_disjoint {s : State} (h : RosterKept s) {a b : Addr} {p q : Placement}
    (hp : (s.entry a).placement = some p) (hq : (s.entry b).placement = some q) {x : Nat}
    (hx : p.inputOffset ≤ x ∧ x < p.inputOffset + p.inputSize) (hy : q.inputOffset ≤ x ∧ x < q.inputOffset + q.inputSize) :
    a = b := by
  have e := h.1 a; have f := h.1 b
  rw [hp] at e; rw [hq] at f
  simp only [placed] at e f
  obtain ⟨_, _, rfl⟩ := Option.map_eq_some_iff.1 e.symm
  obtain ⟨_, _, rfl⟩ := Option.map_eq_some_iff.1 f.symm
  rcases lt_trichotomy a b with k | k | k
  · have := octetsBelow_disjoint (inputOctets fun b => (s.entry b).descriptor) k; simp only at hx hy; omega
  · exact k
  · have := octetsBelow_disjoint (inputOctets fun b => (s.entry b).descriptor) k; simp only at hx hy; omega

theorem placement_sizes {s : State} (h : RosterKept s) {a : Addr} {p : Placement} {d : Descriptor}
    (hp : (s.entry a).placement = some p) (hd : (s.entry a).descriptor = some d) :
    p.inputSize = circuitOctets d.inputWidth d.inputCount.val := by
  have e := h.1 a
  rw [hp] at e
  simp only [placed, hd, Option.map_some, Option.some.injEq] at e
  rw [e]; simp [inputOctets, hd]

theorem placement_isSome {s : State} (h : RosterKept s) {a : Addr} {d : Descriptor}
    (hd : (s.entry a).descriptor = some d) : ∃ p, (s.entry a).placement = some p := by
  rw [h.1 a]; simp [placed, hd]

/-! ## A circuit written (R18, R192) -/

theorem octetOfBits_bit (f : Nat → Bool) (i : Nat) (hi : i < 8) : (octetOfBits f).getLsbD i = f i := by
  have ev : octetOfBits f = octetOfBits (fun i => [f 0, f 1, f 2, f 3, f 4, f 5, f 6, f 7].getD i false) := rfl
  have all : ∀ b0 b1 b2 b3 b4 b5 b6 b7 : Bool, ∀ i : Fin 8,
      (octetOfBits (fun i => [b0, b1, b2, b3, b4, b5, b6, b7].getD i false)).getLsbD i.val =
        [b0, b1, b2, b3, b4, b5, b6, b7].getD i.val false := by decide
  have := all (f 0) (f 1) (f 2) (f 3) (f 4) (f 5) (f 6) (f 7) ⟨i, hi⟩
  rw [ev]
  simp only at this
  rw [this]
  rcases i with _ | _ | _ | _ | _ | _ | _ | _ | i <;> first | rfl | omega

/-- The bit of a value that lies in bit `i` of the octet `x`, where a circuit of a slice covers it. -/
def circuitBit (w : Width) (off n : Nat) (v : Word) (x i : Nat) : Option Bool :=
  match w with
  | .bit => if x = off + n / 8 ∧ i = n % 8 then some (v.getLsbD 0) else none
  | .word =>
    if x = off + 2 * n then some ((lowOctet v).getLsbD i)
    else if x = off + 2 * n + 1 then some ((highOctet v).getLsbD i) else none

theorem writeCircuit_bit {m : Memory} (h : Memory.wf m) (w : Width) (off n : Nat) (v : Word) (x i : Nat) (hi : i < 8) :
    ((m.writeCircuit off w n v).read x).getLsbD i = (circuitBit w off n v x i).getD ((m.read x).getLsbD i) := by
  cases w
  · simp only [Memory.writeCircuit, circuitBit]
    rw [read_write h]
    by_cases hx : x = off + n / 8
    · subst hx
      rw [if_pos rfl, octetOfBits_bit _ _ hi]
      by_cases hn : i = n % 8 <;> simp [hn]
    · rw [if_neg hx]; simp [hx]
  · simp only [Memory.writeCircuit, circuitBit]
    rw [read_write (write_wf h _ _), read_write h]
    by_cases h1 : x = off + 2 * n + 1
    · subst h1; simp
    · by_cases h2 : x = off + 2 * n
      · subst h2; simp
      · simp [h1, h2]

/-- The bit that an override puts into bit `i` of the octet `x` of the published input area, if it covers it (R100). -/
def overrideBit (s : State) (r : OverrideRecord) (x i : Nat) : Option Bool :=
  match r.direction, (s.entry r.station).descriptor, (s.entry r.station).placement with
  | .input, some d, some p => circuitBit d.inputWidth p.inputOffset r.circuit.val r.value x i
  | _, _, _ => none

theorem publishOverride_bit (s : State) {m : Memory} (h : Memory.wf m) (r : OverrideRecord) (x i : Nat) (hi : i < 8) :
    ((s.publishOverride m r).read x).getLsbD i = (overrideBit s r x i).getD ((m.read x).getLsbD i) := by
  simp only [State.publishOverride, overrideBit]
  generalize (s.entry r.station).descriptor = d, (s.entry r.station).placement = p
  rcases r.direction <;> rcases d with _ | d <;> rcases p with _ | p <;>
    first
      | rfl
      | exact writeCircuit_bit h _ _ _ _ _ _ hi

/-- The overrides that do not cover a bit leave it. -/
theorem publishOverrides_bit (s : State) (x i : Nat) (hi : i < 8) : ∀ (os : List OverrideRecord) (m : Memory),
    Memory.wf m → (∀ r ∈ os, overrideBit s r x i = none) →
    ((os.foldl s.publishOverride m).read x).getLsbD i = (m.read x).getLsbD i
  | [], _, _, _ => rfl
  | r :: os, m, h, hn => by
    rw [List.foldl_cons, publishOverrides_bit s x i hi os _ (publishOverride_wf s m r h)
      (fun q hq => hn q (List.mem_cons_of_mem _ hq)), publishOverride_bit s h r x i hi, hn r List.mem_cons_self]
    rfl

/-- The one override that covers a bit gives it. -/
theorem publishOverrides_hit (s : State) (x i : Nat) (hi : i < 8) (q : OverrideRecord) (b : Bool)
    (hb : overrideBit s q x i = some b) : ∀ (os : List OverrideRecord) (m : Memory), Memory.wf m → q ∈ os →
    (∀ r ∈ os, overrideBit s r x i ≠ none → r = q) → os.Nodup →
    ((os.foldl s.publishOverride m).read x).getLsbD i = b
  | [], _, _, hq, _, _ => by simp at hq
  | r :: os, m, h, hq, hu, hn => by
    have hw := publishOverride_wf s m r h
    have hc := List.nodup_cons.1 hn
    rw [List.foldl_cons]
    by_cases e : r = q
    · subst e
      rw [publishOverrides_bit s x i hi os _ hw, publishOverride_bit s h r x i hi, hb]
      · rfl
      · intro p hp
        by_contra hne
        exact hc.1 (hu p (List.mem_cons_of_mem _ hp) hne ▸ hp)
    · refine publishOverrides_hit s x i hi q b hb os _ hw ?_ (fun p hp => hu p (List.mem_cons_of_mem _ hp)) hc.2
      rcases List.mem_cons.1 hq with k | k
      · exact absurd k.symm e
      · exact k

/-- The slices published, before the overrides (R114). -/
theorem publishSlices_read {s : State} (h : RosterKept s) (x : Nat) : ∀ (as : List Addr) (m : Memory), Memory.wf m → as.Nodup →
    (∀ a ∈ as, ∀ p, (s.entry a).placement = some p → p.inputOffset ≤ x → x < p.inputOffset + p.inputSize →
      m.read x = 0 → ((as.foldl s.publishSlice m).read x) = (s.slice a).getD (x - p.inputOffset) 0) ∧
    ((∀ a ∈ as, ∀ p, (s.entry a).placement = some p → x < p.inputOffset ∨ p.inputOffset + p.inputSize ≤ x) →
      (as.foldl s.publishSlice m).read x = m.read x)
  | [], _, _, _ => by simp
  | b :: as, m, hm, hn => by
    have hc := List.nodup_cons.1 hn
    have ih := publishSlices_read h x as _ (publishSlice_wf s m b hm) hc.2
    have one : ∀ p, (s.entry b).placement = some p →
        (s.publishSlice m b).read x = if p.inputOffset ≤ x ∧ x < p.inputOffset + ((s.slice b).take p.inputSize).length then
          ((s.slice b).take p.inputSize).getD (x - p.inputOffset) 0 else m.read x := by
      intro p hp
      simp only [State.publishSlice, hp]
      exact read_writeList hm _ _ _
    have none' : (s.entry b).placement = none → (s.publishSlice m b).read x = m.read x := by
      intro hp; simp only [State.publishSlice, hp]
    have skip : (∀ p, (s.entry b).placement = some p → x < p.inputOffset ∨ p.inputOffset + p.inputSize ≤ x) →
        (s.publishSlice m b).read x = m.read x := by
      intro hb
      cases hp : (s.entry b).placement with
      | none => exact none' hp
      | some p =>
        rw [one p hp, if_neg]
        have := hb p hp
        simp only [List.length_take]; omega
    refine ⟨?_, ?_⟩
    · intro a ha p hp h1 h2 h0
      rw [List.foldl_cons]
      rcases List.mem_cons.1 ha with rfl | ha
      · rw [ih.2, one p hp]
        · split
          · rename_i hr
            simp only [List.length_take] at hr
            simp only [List.getD_eq_getElem?_getD, List.getElem?_take]
            rw [if_pos (by omega)]
          · rename_i hr
            simp only [List.length_take] at hr
            rw [h0, List.getD_eq_getElem?_getD, List.getElem?_eq_none (by omega)]; rfl
        · intro c hc' q hq
          by_contra hne
          have := inputSlices_disjoint h hp hq ⟨h1, h2⟩ ⟨by omega, by omega⟩
          exact hc.1 (this ▸ hc')
      · refine ih.1 a ha p hp h1 h2 ?_
        rw [skip, h0]
        intro q hq
        by_contra hne
        have := inputSlices_disjoint h hp hq ⟨h1, h2⟩ ⟨by omega, by omega⟩
        exact hc.1 (this ▸ ha)
    · intro hall
      rw [List.foldl_cons, ih.2 (fun a ha => hall a (List.mem_cons_of_mem _ ha)), skip (hall b List.mem_cons_self)]

/-- Where an override's bit lies: in its own station's slice, which covers it by its circuit. -/
theorem overrideBit_some {s : State} {r : OverrideRecord} {x i : Nat} (h : overrideBit s r x i ≠ none) :
    ∃ d p, r.direction = .input ∧ (s.entry r.station).descriptor = some d ∧ (s.entry r.station).placement = some p ∧
      overrideBit s r x i = circuitBit d.inputWidth p.inputOffset r.circuit.val r.value x i := by
  simp only [overrideBit] at h ⊢
  split at h
  · rename_i d p hdir hd hp
    exact ⟨d, p, hdir, hd, hp, rfl⟩
  · exact absurd rfl h

theorem circuitBit_in {w : Width} {off n : Nat} {v : Word} {x i count : Nat} (hn : n < count)
    (h : circuitBit w off n v x i ≠ none) : off ≤ x ∧ x < off + circuitOctets w count := by
  cases w <;> simp only [circuitBit, circuitOctets] at h ⊢
  · split at h
    · omega
    · exact absurd rfl h
  · split at h
    · omega
    · split at h
      · omega
      · exact absurd rfl h


/-- A bit of the published input area that a circuit of a station covers, and which no other circuit covers. -/
theorem publication_bit {s : State} (ht : TablesKept s) (h : RosterKept s) {a : Addr} {d : Descriptor} {p : Placement}
    (hd : (s.entry a).descriptor = some d) (hp : (s.entry a).placement = some p) (x i : Nat) (hi : i < 8)
    (h1 : p.inputOffset ≤ x) (h2 : x < p.inputOffset + p.inputSize) :
    (∀ n : Fin 32, (∀ v, circuitBit d.inputWidth p.inputOffset n.val v x i ≠ none) →
      (∀ m v, m ≠ n.val → circuitBit d.inputWidth p.inputOffset m v x i = none) →
      some ((s.publication.read x).getLsbD i) = (match s.findOverride a .input n with
        | some q => circuitBit d.inputWidth p.inputOffset n.val q.value x i
        | none => some (((s.slice a).getD (x - p.inputOffset) 0).getLsbD i))) ∧
    ((∀ (m : Nat) v, m < d.inputCount.val → circuitBit d.inputWidth p.inputOffset m v x i = none) →
      (s.publication.read x).getLsbD i = ((s.slice a).getD (x - p.inputOffset) 0).getLsbD i) := by
  have hbase : (allAddrs.foldl s.publishSlice []).read x = (s.slice a).getD (x - p.inputOffset) 0 :=
    (publishSlices_read h x allAddrs [] wf_nil (List.nodup_finRange 32)).1 a (List.mem_finRange a) p hp h1 h2 rfl
  have hwf : Memory.wf (allAddrs.foldl s.publishSlice []) := foldl_wf _ (publishSlice_wf s) _ wf_nil
  -- an override that covers the bit is one of this station
  have mine : ∀ r ∈ s.overrides, overrideBit s r x i ≠ none → r.station = a ∧ r.direction = .input ∧
      r.circuit.val < d.inputCount.val ∧
      overrideBit s r x i = circuitBit d.inputWidth p.inputOffset r.circuit.val r.value x i := by
    intro r hr hb
    obtain ⟨e, q, hdir, he, hq, hbit⟩ := overrideBit_some hb
    obtain ⟨e', he', hc⟩ := h.2.2.2.1 r hr
    rw [he] at he'; obtain rfl := Option.some.inj he'
    rw [hdir] at hc
    have hin := circuitBit_in hc (hbit ▸ hb)
    have hsz := placement_sizes h hq he
    have ha : a = r.station := inputSlices_disjoint h hp hq ⟨h1, h2⟩ ⟨hin.1, by rw [hsz]; exact hin.2⟩
    subst ha
    rw [hd] at he; obtain rfl := Option.some.inj he
    rw [hp] at hq; obtain rfl := Option.some.inj hq
    exact ⟨rfl, hdir, hc, hbit⟩
  have hnd : s.overrides.Nodup := List.Nodup.of_map _ ht.2.2.2.2.1
  unfold State.publication
  constructor
  · intro n hn hu
    cases hf : s.findOverride a .input n with
    | none =>
      simp only
      rw [publishOverrides_bit s x i hi s.overrides _ hwf, hbase]
      intro r hr
      by_contra hb
      obtain ⟨rs, rd, rc, rb⟩ := mine r hr hb
      have hk := List.find?_eq_none.1 hf r hr
      have : r.circuit.val ≠ n.val := by
        intro e
        apply hk
        simp [OverrideRecord.hasKey, rs, rd, Fin.ext e]
      exact hb (rb.trans (hu _ _ this))
    | some q =>
      simp only
      have hq := List.mem_of_find?_eq_some hf
      have hk : q.station = a ∧ q.direction = .input ∧ q.circuit = n := by
        have := List.find?_some hf
        simpa [OverrideRecord.hasKey, and_assoc] using this
      have hb : overrideBit s q x i = circuitBit d.inputWidth p.inputOffset n.val q.value x i := by
        simp [overrideBit, hk.1, hk.2.1, hk.2.2, hd, hp]
      obtain ⟨b, hv⟩ := Option.ne_none_iff_exists'.1 (hn q.value)
      rw [hv] at hb ⊢
      rw [publishOverrides_hit s x i hi q b hb s.overrides _ hwf hq _ hnd]
      intro r hr hne
      obtain ⟨rs, rd, rc, rb⟩ := mine r hr hne
      have hc : r.circuit = n := by
        by_contra e
        exact hne (rb.trans (hu _ _ (fun k => e (Fin.ext k))))
      have hinj := List.inj_on_of_nodup_map ht.2.2.2.2.1 hr hq
      exact hinj (by simp [rs, rd, hc, hk.1, hk.2.1, hk.2.2])
  · intro hn
    rw [publishOverrides_bit s x i hi s.overrides _ hwf, hbase]
    intro r hr
    by_contra hb
    obtain ⟨_, _, rc, rb⟩ := mine r hr hb
    exact hb (rb.trans (hn _ _ rc))

end Sys2Proof.Laws
end

