-- ==== Sys2Proof/Laws/Order.lean ====
section
/-! SUPPORT. The order of R66: the faults of a station are kept in it, and the standing causes come in it; the fields of a
condition record, octet by octet. -/

namespace Sys2Proof.Laws

open Sys2Proof.Machine Sys2Proof.Safety

theorem recordFields_eq (q : ConditionRecord) : conditionRecordOctets q = recordFields q := by
  have h : extraOctets q.extra = (List.range 6).map (fun i => q.extra.getD i 0) := by
    refine List.ext_getElem (by simp [extraOctets]) fun i h1 h2 => ?_
    simp only [extraOctets, List.getElem_take, List.getElem_map, List.getElem_range]
    by_cases hi : i < q.extra.length
    · rw [List.getElem_append_left hi]; simp [hi]
    · rw [List.getElem_append_right (by omega), List.getElem_replicate]; simp [hi]
  unfold conditionRecordOctets recordFields
  rw [h]
  congr 1; congr 1; congr 1
  rcases q with ⟨_, _, ⟨o, c, k, x⟩, cls, _, st, _, _, _, _⟩
  rcases o with _ | (_ | _) | _ <;> rcases c with _ | ⟨_ | _, n⟩ <;> cases cls <;> cases st <;> rfl

/-! ## The order of R66 -/

theorem sweepRank_fault (a : Addr) (x : FaultItem) :
    sweepRank (circuitFaultKey a x) = ((12 * (3 + a.val) + 6) * 65 + 1) * 256 + faultRank x := by
  rcases x with ⟨_ | _, n, c, _⟩
  · show ((12 * (3 + a.val) + 6) * 65 + (1 + n.val)) * 256 + c.toNat = _ + (0 + 256 * n.val + c.toNat)
    omega
  · show ((12 * (3 + a.val) + 6) * 65 + (33 + n.val)) * 256 + c.toNat = _ + (8192 + 256 * n.val + c.toNat)
    omega

theorem sweepRank_fault_lt (a : Addr) (x y : FaultItem) :
    sweepRank (circuitFaultKey a x) < sweepRank (circuitFaultKey a y) ↔ faultRank x < faultRank y := by
  rw [sweepRank_fault, sweepRank_fault]; omega

/-- A set of faults in order stays in order when one is put into it. -/
theorem insertFault_ordered (i : FaultItem) : ∀ l : List FaultItem, l.Pairwise (fun x y => faultRank x < faultRank y) →
    (insertFault i l).Pairwise (fun x y => faultRank x < faultRank y) ∧
      ∀ z ∈ insertFault i l, faultRank z = faultRank i ∨ z ∈ l
  | [], _ => ⟨by simp [insertFault], by simp [insertFault]⟩
  | j :: js, h => by
    have hj := List.pairwise_cons.1 h
    have ih := insertFault_ordered i js hj.2
    simp only [insertFault]
    split
    · rename_i hi
      refine ⟨List.pairwise_cons.2 ⟨?_, h⟩, ?_⟩
      · intro z hz
        rcases List.mem_cons.1 hz with rfl | hz
        · exact hi
        · have := hj.1 z hz; omega
      · intro z hz
        rcases List.mem_cons.1 hz with rfl | hz
        · exact Or.inl rfl
        · exact Or.inr hz
    · split
      · rename_i hi
        refine ⟨List.pairwise_cons.2 ⟨fun z hz => by rw [hi]; exact hj.1 z hz, hj.2⟩, ?_⟩
        intro z hz
        rcases List.mem_cons.1 hz with rfl | hz
        · exact Or.inl rfl
        · exact Or.inr (List.mem_cons_of_mem _ hz)
      · refine ⟨List.pairwise_cons.2 ⟨?_, ih.1⟩, ?_⟩
        · intro z hz
          rcases ih.2 z hz with e | e
          · omega
          · exact hj.1 z e
        · intro z hz
          rcases List.mem_cons.1 hz with rfl | hz
          · exact Or.inr List.mem_cons_self
          · rcases ih.2 z hz with e | e
            · exact Or.inl e
            · exact Or.inr (List.mem_cons_of_mem _ e)

theorem standingFaults_ordered (old items : List FaultItem) (more : Bool)
    (h : old.Pairwise (fun x y => faultRank x < faultRank y)) :
    (standingFaults old items more).Pairwise (fun x y => faultRank x < faultRank y) := by
  have go : ∀ (is l : List FaultItem), l.Pairwise (fun x y => faultRank x < faultRank y) →
      (is.foldl (fun m i => insertFault i m) l).Pairwise (fun x y => faultRank x < faultRank y) := by
    intro is
    induction is with
    | nil => exact fun _ hl => hl
    | cons i is ih => exact fun l hl => ih _ (insertFault_ordered i l hl).1
  refine go _ _ ?_
  split
  · exact h.filter _
  · exact .nil

theorem standingCodes_ordered (code : Byte) (more : Bool) :
    (standingCodes code more).Pairwise (fun b c => b.toNat < c.toNat) := by
  unfold standingCodes
  have h := code.isLt
  have hn : code ≠ 255 → code.toNat < 255 := fun e => by
    have : code.toNat ≠ 255 := fun k => e (BitVec.eq_of_toNat_eq k)
    omega
  split <;> split <;> simp
  exact hn (And.right ‹_›)

/-- What a station's faults are kept as. -/
def Ordered (v : Supervision) : Prop :=
  v.stationFaults.Pairwise (fun b c => b.toNat < c.toNat) ∧
    v.circuitFaults.Pairwise (fun x y => faultRank x < faultRank y)

theorem ordered_reported {v : Supervision} (h : Ordered v) (r : ReportedStatus) : Ordered (v.reported r) :=
  ⟨standingCodes_ordered _ _, standingFaults_ordered _ _ _ h.2⟩

theorem rosterKept_ordered {s : State} (h : RosterKept s) (a : Addr) : Ordered (s.supervision a) :=
  ⟨(h.2.2.2.2 a).1, (h.2.2.2.2 a).2.imp (fun {_ _} k => (sweepRank_fault_lt a _ _).1 k)⟩

/-! ## standing causes -/

theorem pairwise_causeIf (b : Bool) (o : Origin) (c : Category) (x : List Byte) (R : Cause → Cause → Prop) :
    (causeIf b o c x).Pairwise R := by cases b <;> simp [causeIf]

theorem mem_causeIf {b : Bool} {o : Origin} {c : Category} {x : List Byte} {z : Cause} (h : z ∈ causeIf b o c x) :
    z.key = plainKey o c := by
  cases b <;> simp [causeIf] at h; rw [h]

theorem circuitRank_lt (c : Option (Direction × Fin 32)) : circuitRank c < 65 := by
  rcases c with _ | ⟨_ | _, n⟩ <;> simp only [circuitRank] <;> omega

/-- Origin and category come before circuit and code in the order of R66. -/
theorem sweepRank_lt {j k : Key}
    (h : 12 * originRank j.origin + j.category.index.val < 12 * originRank k.origin + k.category.index.val) :
    sweepRank j < sweepRank k := by
  have := circuitRank_lt j.circuit
  have := j.code.isLt
  simp only [sweepRank]; omega

/-- A run of causes of one origin in the order of R66, of categories from a number on. -/
def Run (o : Origin) (i : Nat) (x : List Cause) : Prop :=
  x.Pairwise (fun b c => sweepRank b.key < sweepRank c.key) ∧ ∀ z ∈ x, z.key.origin = o ∧ i ≤ z.key.category.index.val

theorem Run.append {o : Origin} {i : Nat} {x y : List Cause}
    (hx : x.Pairwise (fun b c => sweepRank b.key < sweepRank c.key))
    (kx : ∀ z ∈ x, z.key.origin = o ∧ z.key.category.index.val = i) (hy : Run o (i + 1) y) : Run o i (x ++ y) := by
  refine ⟨List.pairwise_append.2 ⟨hx, hy.1, fun z hz w hw => sweepRank_lt ?_⟩, fun z hz => ?_⟩
  · rw [(kx z hz).1, (kx z hz).2, (hy.2 w hw).1]
    have := (hy.2 w hw).2; omega
  · rcases List.mem_append.1 hz with h | h
    · exact ⟨(kx z h).1, (kx z h).2.ge⟩
    · exact ⟨(hy.2 z h).1, by have := (hy.2 z h).2; omega⟩

theorem Run.causeIf (b : Bool) (o : Origin) (c : Category) (e : List Byte) {y : List Cause}
    (hy : Run o (c.index.val + 1) y) : Run o c.index.val (causeIf b o c e ++ y) :=
  .append (by cases b <;> simp [Machine.causeIf]) (fun z hz => by
    cases b <;> simp [Machine.causeIf] at hz; rw [hz]; exact ⟨rfl, rfl⟩) hy

theorem Run.nil (o : Origin) (i : Nat) : Run o i [] := ⟨.nil, by simp⟩

theorem Run.mono {o : Origin} {i j : Nat} {x : List Cause} (h : Run o j x) (hij : i ≤ j) : Run o i x :=
  ⟨h.1, fun z hz => ⟨(h.2 z hz).1, hij.trans (h.2 z hz).2⟩⟩

theorem run_station (c : LineSetup) (a : Addr) (e : Entry) (v : Supervision) (n : Nat) (h : Ordered v) :
    Run (.station a) 0 (stationCauses c a e v n) := by
  simp only [stationCauses, List.append_assoc]
  refine .causeIf _ _ .stationLost _ (.causeIf _ _ .stationMismatch _ (.causeIf _ _ .addressConflict _
    (.causeIf _ _ .stationExtra _ (.causeIf _ _ .alternateLine _ (.append (i := 5) ?_ ?_ (.append (i := 6) ?_ ?_ ?_))))))
  · refine List.pairwise_map.2 (h.1.imp ?_)
    intro x y hxy; simp only [sweepRank]; omega
  · intro z hz; obtain ⟨_, _, rfl⟩ := List.mem_map.1 hz; exact ⟨rfl, rfl⟩
  · refine List.pairwise_map.2 (h.2.imp ?_)
    intro x y hxy; exact (sweepRank_fault_lt a x y).2 hxy
  · intro z hz; obtain ⟨_, _, rfl⟩ := List.mem_map.1 hz; exact ⟨rfl, rfl⟩
  · have := Run.causeIf (decide (1 ≤ n)) (.station a) .forced [octet n] (.nil _ _)
    rwa [List.append_nil] at this

theorem run_line (s : State) (l : LineId) : Run (.line l) 0 (s.causesOfLine l) := by
  have := Run.causeIf (decide ((s.line l).state = .withdrawn)) (.line l) .lineWithdrawn
    (match (s.line l).figures with
     | none => []
     | some (n, c) => [octet n, c.code]) (.nil _ _)
  rw [List.append_nil] at this
  exact this.mono (Nat.zero_le _)

theorem run_part (s : State) : Run .part 0 s.causesOfPart := by
  have := Run.causeIf s.own.standing.isSome .part .ownAddressConflict [lineCode s.own.standing] (.nil _ _)
  rw [List.append_nil] at this
  simp only [State.causesOfPart, List.append_assoc]
  exact (Run.causeIf _ _ .outputsSafe _ (.causeIf _ _ .configIncomplete _ this)).mono (Nat.zero_le _)

/-- The standing causes are in the order of R66 where each station's faults are. -/
theorem standingCauses_ordered {s : State} (h : ∀ a, Ordered (s.supervision a)) :
    s.standingCauses.Pairwise (fun b c => sweepRank b.key < sweepRank c.key) := by
  have across : ∀ {x y : List Cause} {n : Nat}, (∀ z ∈ x, originRank z.key.origin ≤ n) →
      (∀ z ∈ y, n < originRank z.key.origin) → ∀ z ∈ x, ∀ w ∈ y, sweepRank z.key < sweepRank w.key := by
    intro x y n hx hy z hz w hw
    have := hx z hz; have := hy w hw
    exact sweepRank_lt (by omega)
  have hp := run_part s; have ha := run_line s .a; have hb := run_line s .b
  have hs := fun a => run_station s.config.setup a (s.entry a) (s.supervision a) (s.overrideCount a) (h a)
  simp only [State.standingCauses, List.append_assoc]
  have hlast : (allAddrs.flatMap s.causesOfStation).Pairwise (fun b c => sweepRank b.key < sweepRank c.key) := by
    rw [List.pairwise_flatMap]
    refine ⟨fun a _ => (hs a).1, (List.pairwise_lt_finRange 32).imp ?_⟩
    intro a b hab z hz w hw
    refine sweepRank_lt ?_
    rw [((hs a).2 z hz).1, ((hs b).2 w hw).1]
    simp only [originRank]; have : a.val < b.val := hab; omega
  have olast : ∀ z ∈ allAddrs.flatMap s.causesOfStation, 2 < originRank z.key.origin := by
    intro z hz
    obtain ⟨a, _, hz⟩ := List.mem_flatMap.1 hz
    rw [((hs a).2 z hz).1]; simp only [originRank]; omega
  have ob : ∀ z ∈ s.causesOfLine .b, originRank z.key.origin = 2 := fun z hz => by rw [(hb.2 z hz).1]; rfl
  have oa : ∀ z ∈ s.causesOfLine .a, originRank z.key.origin = 1 := fun z hz => by rw [(ha.2 z hz).1]; rfl
  have op : ∀ z ∈ s.causesOfPart, originRank z.key.origin = 0 := fun z hz => by rw [(hp.2 z hz).1]; rfl
  have h2 := List.pairwise_append.2 ⟨hb.1, hlast, across (n := 2) (fun z hz => (ob z hz).le) olast⟩
  have o2 : ∀ z ∈ s.causesOfLine .b ++ allAddrs.flatMap s.causesOfStation, 1 < originRank z.key.origin := by
    intro z hz
    rcases List.mem_append.1 hz with hz | hz
    · rw [ob z hz]; omega
    · have := olast z hz; omega
  have h1 := List.pairwise_append.2 ⟨ha.1, h2, across (n := 1) (fun z hz => (oa z hz).le) o2⟩
  refine List.pairwise_append.2 ⟨hp.1, h1, across (n := 0) (fun z hz => (op z hz).le) fun z hz => ?_⟩
  rcases List.mem_append.1 hz with hz | hz
  · rw [oa z hz]; omega
  · have := o2 z hz; omega

end Sys2Proof.Laws
end

