-- ==== Sys2Proof/Laws/Roster.lean ====
section
/-! SUPPORT. Every operation of the part keeps `RosterKept`: placements as R120 gives them, the own address never configured,
every override on a circuit of a configured station, the faults in order. -/

namespace Sys2Proof.Laws

open Sys2Proof.Machine Sys2Proof.Safety

/-! ## What every operation keeps of the roster -/

/-- What `RosterKept` and the keys of the override table look at. -/
def rosterView (s : State) : Vector Entry 32 × Vector Supervision 32 × List OverrideRecord × Staging × Addr × Bool × CycleState :=
  (s.roster, s.supervised, s.overrides, s.config.staging, s.config.setup.ownAddress, s.mode.scans, s.scan.cycle)

/-- `RosterKept`, with one override record for a key (R89). -/
@[irreducible] def RosterSafe (s : State) : Prop := RosterKept s ∧ (s.overrides.map overrideKey).Nodup

theorem rosterSafe_iff (s : State) : RosterSafe s ↔ RosterKept s ∧ (s.overrides.map overrideKey).Nodup := by
  unfold RosterSafe; exact Iff.rfl

/-- What `t` may change of `s` for the roster to be kept. -/
structure Settled (s t : State) : Prop where
  entries : ∀ a, (t.entry a).descriptor = (s.entry a).descriptor ∧ (t.entry a).placement = (s.entry a).placement
  own : t.ownAddress = s.ownAddress
  staging : t.config.staging = s.config.staging ∨ t.config.staging = .closed
  scans : t.mode.scans = s.mode.scans
  cycle : t.scan.cycle = s.scan.cycle ∨ t.scan.cycle ≠ .waiting
  overrides : (t.overrides.map overrideKey).Sublist (s.overrides.map overrideKey)
  ordered : ∀ a, Ordered (s.supervision a) → Ordered (t.supervision a)

theorem RosterSafe.settled {s t : State} (k : RosterSafe s) (h : Settled s t) : RosterSafe t := by
  obtain ⟨⟨k1, k2, k3, k4, k5⟩, k6⟩ := (rosterSafe_iff _).1 k
  have hd : (fun b => (t.entry b).descriptor) = fun b => (s.entry b).descriptor := funext fun a => (h.entries a).1
  refine (rosterSafe_iff _).2 ⟨⟨fun a => ?_, ?_, ?_, ?_, fun a => ?_⟩, k6.sublist h.overrides⟩
  · rw [(h.entries a).2, hd]; exact k1 a
  · rw [h.own, (h.entries _).1]; exact k2
  · rw [h.own, h.scans]
    rcases h.staging with e | e
    · rw [e]
      revert k3
      split
      · exact id
      · exact id
      · rintro ⟨x, y, z⟩
        refine ⟨x, y, ?_⟩
        rcases h.cycle with c | c
        · rw [c]; exact z
        · exact c
    · rw [e]; trivial
  · intro q hq
    obtain ⟨r, hr, e⟩ := List.mem_map.1 (h.overrides.subset (List.mem_map_of_mem (f := overrideKey) hq))
    simp only [overrideKey, Prod.mk.injEq] at e
    obtain ⟨d, hd, hc⟩ := k4 r hr
    exact ⟨d, by rw [(h.entries _).1, ← e.1]; exact hd, by rw [← e.2.1, ← e.2.2]; exact hc⟩
  · have := h.ordered a ⟨(k5 a).1, (k5 a).2.imp (fun {_ _} z => (sweepRank_fault_lt a _ _).1 z)⟩
    exact ⟨this.1, this.2.imp (fun {_ _} z => (sweepRank_fault_lt a _ _).2 z)⟩

theorem settled_view {s t : State} (h : rosterView t = rosterView s) : Settled s t := by
  simp only [rosterView, Prod.mk.injEq] at h
  obtain ⟨h1, h2, h3, h4, h5, h6, h7⟩ := h
  have he : ∀ a, t.entry a = s.entry a := fun a => by simp only [State.entry, h1]
  exact ⟨fun a => ⟨by rw [he], by rw [he]⟩, h5, .inl h4, h6, .inl h7, by rw [h3],
    fun a k => by simpa only [State.supervision, h2] using k⟩

namespace RosterSafe

theorem frame {s t : State} (k : RosterSafe s) (h : rosterView t = rosterView s) : RosterSafe t := k.settled (settled_view h)

theorem condOnly {s t : State} (k : RosterSafe s) (h : CondOnly s t) : RosterSafe t := by
  refine k.frame ?_
  have hm : t.mode.scans = s.mode.scans := by
    rcases h.2 with e | ⟨e1, e2⟩
    · rw [e]
    · rw [e1, e2]; rfl
  have := h.1
  generalize t.cond = c, t.mode = m at this hm
  subst this
  simp only [rosterView, hm]

theorem transOnly {s t : State} (k : RosterSafe s) (h : TransOnly s t) : RosterSafe t := by
  unfold TransOnly at h; rw [h]; exact k.frame (by rfl)

/-- An entry and a supervision put in place of a station's. -/
theorem station {s t : State} (k : RosterSafe s) (a : Addr) (e : Entry) (v : Supervision)
    (he : e.descriptor = (s.entry a).descriptor ∧ e.placement = (s.entry a).placement)
    (hv : Ordered (s.supervision a) → Ordered v)
    (h : rosterView t = rosterView ((s.setEntry a e).setSupervision a v)) : RosterSafe t := by
  refine RosterSafe.frame (s := (s.setEntry a e).setSupervision a v) (k.settled ?_) h
  refine ⟨fun b => ?_, rfl, .inl rfl, rfl, .inl rfl, List.Sublist.refl _, fun b hb => ?_⟩
  · have : ((s.setEntry a e).setSupervision a v).entry b = (s.setEntry a e).entry b := rfl
    rw [this, entry_setEntry]; split
    · rename_i e'; subst e'; exact he
    · exact ⟨rfl, rfl⟩
  · rw [supervision_setSupervision]; split
    · rename_i e'; subst e'; exact hv hb
    · exact hb

theorem updateStation {s : State} (k : RosterSafe s) (a : Addr) (e : Entry) (v : Supervision)
    (he : e.descriptor = (s.entry a).descriptor ∧ e.placement = (s.entry a).placement)
    (hv : Ordered (s.supervision a) → Ordered v) : RosterSafe (s.updateStation a e v) :=
  RosterSafe.condOnly (k.station a e v he hv rfl) (condOnly_handChanges _ _ _)

theorem endGroup {s : State} (k : RosterSafe s) : RosterSafe s.endGroup := k.condOnly (condOnly_endGroup s)

theorem setFlight {s : State} (k : RosterSafe s) (f : Option Flight) : RosterSafe (s.setFlight f) := k.frame (by rfl)

theorem send {s : State} (k : RosterSafe s) (j : Job) (l : LineId) (f : Frame) (w : Option Nat) : RosterSafe (s.send j l f w) :=
  k.frame (by rfl)

theorem setCycle {s : State} (k : RosterSafe s) (c : CycleState) (hc : c ≠ .waiting) : RosterSafe (s.setCycle c) :=
  k.settled ⟨fun _ => ⟨rfl, rfl⟩, rfl, .inl rfl, rfl, .inr hc, List.Sublist.refl _, fun _ h => h⟩

theorem beginCycle {s : State} (k : RosterSafe s) : RosterSafe s.beginCycle :=
  k.settled ⟨fun _ => ⟨rfl, rfl⟩, rfl, .inl rfl, rfl, .inr (by simp [State.beginCycle]), List.Sublist.refl _, fun _ h => h⟩

/-! ### The presence supervisor and the scan engine -/

theorem heardOn_same (e : Entry) (l : LineId) : (e.heardOn l).descriptor = e.descriptor ∧ (e.heardOn l).placement = e.placement := by
  simp only [Entry.heardOn]
  split
  · exact ⟨rfl, rfl⟩
  · split <;> exact ⟨rfl, rfl⟩

theorem takeIdentity_same (e : Entry) (d : Descriptor) (p : Profile) (i : Identity) :
    (e.takeIdentity d p i).1.descriptor = e.descriptor ∧ (e.takeIdentity d p i).1.placement = e.placement := by
  simp only [Entry.takeIdentity, Entry.identified, Entry.joined, Entry.beginJoin, Entry.qualify, Entry.mismatched,
    Entry.conflicted]
  repeat' split
  all_goals exact ⟨rfl, rfl⟩

theorem enterLost {s : State} (k : RosterSafe s) (a : Addr) (d : Descriptor) : RosterSafe (s.enterLost a d) := by
  simp only [State.enterLost]
  refine RosterSafe.condOnly (RosterSafe.transOnly ?_ (transOnly_completeWhere _ _ _)) (condOnly_handChanges _ _ _)
  exact k.station a ((s.entry a).lose (s.profile d.profile))
    { s.supervision a with stationFaults := [], circuitFaults := [] } ⟨rfl, rfl⟩ (fun _ => ⟨.nil, .nil⟩) rfl

theorem lossRule {s : State} (k : RosterSafe s) (a : Addr) (d : Descriptor) (m : Nat) (p : Presence) :
    RosterSafe (s.lossRule a d m p) := by
  simp only [State.lossRule]; split
  · exact k.enterLost _ _
  · exact k.updateStation _ _ _ ⟨by rfl, by rfl⟩ id

theorem takeMiss {s : State} (k : RosterSafe s) (a : Addr) : RosterSafe (s.takeMiss a) := by
  simp only [State.takeMiss]; split
  · exact k
  · split <;> first
      | exact k
      | exact k.lossRule _ _ _ _
      | exact k.updateStation _ _ _ ⟨by rfl, by rfl⟩ id

theorem takeIdentity {s : State} (k : RosterSafe s) (a : Addr) (l : LineId) (i : Identity) : RosterSafe (s.takeIdentity a l i) := by
  simp only [State.takeIdentity]; split
  · exact k
  · refine k.updateStation _ _ _ ?_ ?_
    · exact ⟨(takeIdentity_same _ _ _ _).1.trans (heardOn_same _ _).1, (takeIdentity_same _ _ _ _).2.trans (heardOn_same _ _).2⟩
    · intro h; simp only [Supervision.withTags]; split <;> exact h

theorem takeReply {s : State} (k : RosterSafe s) (a : Addr) (l : LineId) (r : ReplyContents) : RosterSafe (s.takeReply a l r) := by
  simp only [State.takeReply]
  repeat' split
  · exact k
  · exact (k.frame (t := s.setSlice a r.inputs) (by rfl)).updateStation _ _ _ (heardOn_same _ _) (fun h => ordered_reported h _)
  · exact k.updateStation _ _ _ (heardOn_same _ _) (fun h => h)

theorem issue {s : State} (k : RosterSafe s) (i : Fin 4) (t : Transaction) (e : Entry) (d : Descriptor) :
    RosterSafe (s.issue i t e d) := by
  simp only [State.issue]; split
  · exact k.transOnly (transOnly_failAttempt _ _ _)
  · exact k.frame (by rfl)

theorem afterVisit {s : State} (k : RosterSafe s) (a : Addr) : RosterSafe (s.afterVisit a) := by
  simp only [State.afterVisit]
  repeat' split
  all_goals first
    | exact k.endGroup.issue _ _ _ _
    | exact k.endGroup

theorem nextAttempt {s : State} (k : RosterSafe s) (a : Addr) (d : Descriptor) (last : Option LineId) (n : Nat) :
    RosterSafe (s.nextAttempt a d last n) := by
  simp only [State.nextAttempt]; split
  · rename_i e
    obtain ⟨j, l, f, w, rfl⟩ := makeAttempt_eq_send e
    exact k.send j l f w
  · exact (k.takeMiss a).afterVisit a

theorem visitAt {s : State} (k : RosterSafe s) (a : Addr) : RosterSafe (s.visitAt a) := by
  simp only [State.visitAt, State.startVisit]
  repeat' split
  all_goals first
    | exact k
    | exact k.frame (by rfl)
    | exact (k.frame (t := { s with scan := { s.scan with nextAddress := a.val + 1 } }) (by rfl)).nextAttempt _ _ _ _

theorem visitRest {s : State} (k : RosterSafe s) : RosterSafe s.visitRest :=
  keeps_foldl (P := RosterSafe) _ (fun _ a ht => ht.visitAt a) _ k

theorem judge {s : State} (k : RosterSafe s) (d : Discovery) : RosterSafe (s.judge d) := by
  simp only [State.judge]
  repeat' split
  all_goals first
    | exact k
    | exact (k.updateStation _ _ _ ⟨by rfl, by rfl⟩ id).endGroup

theorem probeNext {s : State} (k : RosterSafe s) (d : Discovery) : RosterSafe (s.probeNext d) := by
  simp only [State.probeNext, State.probe]
  repeat' split
  all_goals first
    | exact k.judge _
    | exact k.send _ _ _ _

theorem enterSessionSlot {s : State} (k : RosterSafe s) : RosterSafe s.enterSessionSlot := by
  have hc := k.setCycle .sessionSlot (by decide)
  simp only [State.enterSessionSlot]
  repeat' split
  all_goals exact hc.frame (by rfl)

theorem enterDiscovery {s : State} (k : RosterSafe s) : RosterSafe s.enterDiscovery := by
  have hc := k.setCycle .discoverySlot (by decide)
  simp only [State.enterDiscovery]
  split
  · split
    · exact RosterSafe.probeNext (hc.frame (by rfl)) _
    · exact hc
  · exact hc

theorem scanOn {s : State} (k : RosterSafe s) : RosterSafe s.scanOn :=
  CondKept.inPart (CondKept.inPart (CondKept.inPart (CondKept.inPart k _ _ fun _ e => e.visitRest) _ _ fun _ e => e.enterSessionSlot)
    _ _ fun _ e => e.enterDiscovery) _ _ fun t e => e.setCycle _ (by decide)

/-! ### Lines -/

theorem setLine {s : State} (k : RosterSafe s) (l : LineId) (e : LineEngine) : RosterSafe (s.setLine l e) := by
  cases l <;> exact k.frame (by rfl)

theorem withdrawLine {s : State} (k : RosterSafe s) (l : LineId) (c : ErrorClass) : RosterSafe (s.withdrawLine l c) := by
  simp only [State.withdrawLine]
  exact RosterSafe.endGroup (RosterSafe.condOnly ((k.setLine l _).setFlight _) (condOnly_handChanges _ _ _))

theorem lineError {s : State} (k : RosterSafe s) (l : LineId) (c : ErrorClass) : RosterSafe (s.lineError l c) := by
  simp only [State.lineError]; split
  · exact (k.setLine _ _).withdrawLine l c
  · exact k.setLine _ _

theorem returnLine {s : State} (k : RosterSafe s) (l : LineId) : RosterSafe (s.returnLine l) :=
  RosterSafe.endGroup (RosterSafe.condOnly (k.setLine _ _) (condOnly_handChanges _ _ _))

theorem begins {s : State} (k : RosterSafe s) (c : Cause) : RosterSafe (s.beginCause c) := k.condOnly (condOnly_beginCause s c)

theorem finishes {s : State} (k : RosterSafe s) (c : Key) : RosterSafe (s.finishCause c) := k.condOnly (condOnly_finishCause s c)

theorem seeOwnAddress {s : State} (k : RosterSafe s) (l : LineId) : RosterSafe (s.seeOwnAddress l) := by
  simp only [State.seeOwnAddress]; split
  · exact k.frame (by rfl)
  · exact RosterSafe.endGroup (RosterSafe.begins (k.frame (by rfl)) _)

theorem finishOwnAddress {s : State} (k : RosterSafe s) : RosterSafe s.finishOwnAddress := by
  simp only [State.finishOwnAddress]; split
  · exact k
  · exact RosterSafe.finishes (k.frame (by rfl)) _

/-! ### Overrides and the session -/

theorem fewer {s : State} (k : RosterSafe s) (os : List OverrideRecord) (h : (os.map overrideKey).Sublist (s.overrides.map overrideKey)) :
    RosterSafe { s with overrides := os } :=
  k.settled ⟨fun _ => ⟨rfl, rfl⟩, rfl, .inl rfl, rfl, .inl rfl, h, fun _ h => h⟩

theorem dropOverride {s : State} (k : RosterSafe s) (r : OverrideRecord) : RosterSafe (s.dropOverride r) := by
  have hf := k.fewer (s.overrides.eraseP (fun q => q.hasKey r.station r.direction r.circuit)) (List.eraseP_sublist.map _)
  simp only [State.dropOverride, State.finishForced]; split
  · exact hf.finishes _
  · exact hf

theorem dropOverrides {s : State} (k : RosterSafe s) (p : OverrideRecord → Bool) : RosterSafe (s.dropOverrides p) :=
  keeps_foldl (P := RosterSafe) _ (fun _ r ht => ht.dropOverride r) _ k

theorem setOverride {s : State} (k : RosterSafe s) (w : Owner) (st d c : Byte) (v : Word) :
    RosterSafe (s.setOverride w st d c v).2 := by
  simp only [State.setOverride]
  split
  · rename_i a dir _ _
    split
    · exact k
    · rename_i desc hdesc
      split
      · exact k
      · rename_i n _
        split
        · rename_i hn
          split
          · exact k
          · cases hf : s.findOverride a dir n with
            | none =>
              simp only [State.applyOverride, State.createOverride, State.beginForced]
              have hk : RosterSafe { s with overrides := s.overrides ++ [⟨a, dir, n, v, w, s.scan.number⟩] } := by
                obtain ⟨⟨k1, k2, k3, k4, k5⟩, k6⟩ := (rosterSafe_iff _).1 k
                refine (rosterSafe_iff _).2 ⟨⟨k1, k2, k3, ?_, k5⟩, ?_⟩
                · intro q hq
                  rcases List.mem_append.1 hq with hq | hq
                  · exact k4 q hq
                  · rw [List.mem_singleton.1 hq]; exact ⟨desc, hdesc, hn.1⟩
                · rw [List.map_append, List.nodup_append]
                  refine ⟨k6, by simp, ?_⟩
                  intro x hx y hy e
                  obtain ⟨q, hq, rfl⟩ := List.mem_map.1 hx
                  simp at hy; subst hy
                  have := List.find?_eq_none.1 hf q hq
                  apply this
                  simp only [overrideKey, Prod.mk.injEq] at e
                  simp [OverrideRecord.hasKey, e.1, e.2.1, e.2.2]
              split
              · exact hk.begins _
              · exact hk
            | some q =>
              refine k.fewer _ ?_
              rw [List.map_map]
              have : s.overrides.map (overrideKey ∘ fun r => if r.hasKey a dir n then
                  { r with value := v, owner := ownerAfter w r.owner, enteredAt := s.scan.number } else r) =
                  s.overrides.map overrideKey := by
                refine List.map_congr_left fun r _ => ?_
                simp only [Function.comp]; split <;> rfl
              rw [this]
        · exact k
  · exact k

theorem removeOverride {s : State} (k : RosterSafe s) (w : Owner) (st d c : Byte) : RosterSafe (s.removeOverride w st d c).2 := by
  simp only [State.removeOverride]
  repeat' split
  all_goals first
    | exact k
    | exact k.dropOverride _

theorem session {s : State} (k : RosterSafe s) (x : SessionUnit) : RosterSafe { s with session := x } := k.frame rfl

theorem endSession {s : State} (k : RosterSafe s) (reason : EndReason) : RosterSafe (s.endSession reason) := by
  simp only [State.endSession]; split
  · exact k
  · exact RosterSafe.session (RosterSafe.updateStation (k.dropOverrides _) _ _ _ ⟨by rfl, by rfl⟩ id) _

theorem openSession {s : State} (k : RosterSafe s) (a : Addr) (l : LineId) (t : Word) : RosterSafe (s.openSession a l t) :=
  RosterSafe.session (k.updateStation _ _ _ ⟨by rfl, by rfl⟩ id) _

theorem takeRequest {s : State} (k : RosterSafe s) (n : Byte) (q : RequestKind) (run : State → Answer × State)
    (hr : RosterSafe (run s).2) : RosterSafe (s.takeRequest n q run) := by
  simp only [State.takeRequest]; split
  · exact k
  · split
    · exact k.frame (by rfl)
    · exact hr.frame (by rfl)

theorem takeContents {s : State} (k : RosterSafe s) (p : List Byte) : RosterSafe (s.takeContents p) := by
  simp only [State.takeContents]; split
  · exact k
  · exact k.endSession _
  · exact k.takeRequest _ _ _ k
  · exact k.takeRequest _ _ _ k
  · exact k.takeRequest _ _ _ (k.setOverride _ _ _ _ _)
  · exact k.takeRequest _ _ _ (k.removeOverride _ _ _ _)
  · exact k

theorem takeServiceAnswer {s : State} (k : RosterSafe s) (p : List Byte) : RosterSafe (s.takeServiceAnswer p) := by
  simp only [State.takeServiceAnswer]; split
  · exact k
  · exact RosterSafe.takeContents (k.frame (by rfl)) p

/-! ### The end of a reply window, and frames -/

theorem attemptEnded {s : State} (k : RosterSafe s) (v : Visit) (l : LineId) (f : Option Frame) : RosterSafe (s.attemptEnded v l f) := by
  simp only [State.attemptEnded]
  repeat' split
  · exact k
  · simp only [State.takeGood]
    repeat' split
    · exact (k.takeReply _ _ _).afterVisit _
    · exact k.afterVisit _
    · exact (k.takeIdentity _ _ _).afterVisit _
    · exact k.afterVisit _
  · exact k.nextAttempt _ _ _ _

theorem exchangeEnded {s : State} (k : RosterSafe s) (i : Fin 4) (f : Option Frame) : RosterSafe (s.exchangeEnded i f) := by
  simp only [State.exchangeEnded]
  repeat' split
  all_goals first
    | exact k
    | exact k.transOnly (transOnly_failAttempt _ _ _)
    | exact k.transOnly (transOnly_completeAnswered _ _ _ _ _)

theorem pollEnded {s : State} (k : RosterSafe s) (f : Option Frame) : RosterSafe (s.pollEnded f) := by
  simp only [State.pollEnded]; split
  · exact k
  · exact (k.takeServiceAnswer _).endGroup

theorem refuseSession {s : State} (k : RosterSafe s) (d : Discovery) (l : LineId) (b : Byte) : RosterSafe (s.refuseSession d l b) := by
  simp only [State.refuseSession]; split
  · exact (k.judge _).send _ _ _ _
  · exact k.send _ _ _ _

theorem probeEnded {s : State} (k : RosterSafe s) (d : Discovery) (l : LineId) (f : Option Frame) : RosterSafe (s.probeEnded d l f) := by
  simp only [State.probeEnded, State.openRequested]
  repeat' split
  all_goals first
    | exact k.probeNext _
    | exact k.refuseSession _ _ _
    | exact (k.openSession _ _ _).endGroup.send _ _ _ _

theorem windowEnds {s : State} (k : RosterSafe s) (f : Flight) (x : Option Frame) : RosterSafe (s.windowEnds f x) := by
  have k' := k.setFlight none
  simp only [State.windowEnds]
  refine RosterSafe.scanOn ?_
  split
  · exact k'.attemptEnded _ _ _
  · exact k'.exchangeEnded _ _
  · exact k'.pollEnded _
  · exact k'.probeEnded _ _ _
  · exact k'

theorem sent {s : State} (k : RosterSafe s) (f : Flight) : RosterSafe (s.sent f) := by
  have k' := k.setFlight none
  simp only [State.sent]
  split
  · exact k.frame (by rfl)
  · refine RosterSafe.scanOn ?_
    split
    · exact k'.probeNext _
    · exact k'

theorem takeClass {s : State} (k : RosterSafe s) (l : LineId) (w : Option Flight) (r : Received) : RosterSafe (s.takeClass l w r) := by
  cases r with
  | error c =>
    have kc := k.lineError l c
    simp only [State.takeClass]; split
    · exact kc.windowEnds _ _
    · exact kc
  | ownAddress =>
    have ko := k.seeOwnAddress l
    simp only [State.takeClass]; split
    · exact ko.setFlight _
    · exact ko
  | good q f =>
    simp only [State.takeClass]; split
    · exact k.windowEnds _ _
    · exact k

theorem receive {s : State} (k : RosterSafe s) (l : LineId) (r : Except ErrorClass Frame) : RosterSafe (s.receive l r) := by
  have k' : RosterSafe (s.received l) := k.setLine _ _
  simp only [State.receive]
  repeat' split
  all_goals first
    | exact k
    | exact k'
    | exact k'.takeClass _ _ _
    | exact k'.seeOwnAddress _

theorem firstOctet {s : State} (k : RosterSafe s) (l : LineId) : RosterSafe (s.firstOctet l) := by
  simp only [State.firstOctet]
  repeat' split
  all_goals first
    | exact k
    | exact k.setLine _ _
    | exact (k.setLine _ _).setFlight _

end RosterSafe

/-! ## A commit -/

/-- `t` holds no override that `s` does not, and keeps the order of the faults. -/
structure Thins (s t : State) : Prop where
  overrides : t.overrides.Sublist s.overrides
  ordered : ∀ a, Ordered (s.supervision a) → Ordered (t.supervision a)

theorem Thins.trans {s t u : State} (h : Thins s t) (k : Thins t u) : Thins s u :=
  ⟨k.overrides.trans h.overrides, fun a x => k.ordered a (h.ordered a x)⟩

theorem thins_same {s t : State} (ho : t.overrides = s.overrides) (hs : t.supervised = s.supervised) : Thins s t :=
  ⟨by rw [ho], fun a x => by simpa only [State.supervision, hs] using x⟩

theorem CondOnly.thins {s t : State} (h : CondOnly s t) : Thins s t := by
  have := h.1
  exact thins_same (by rw [this]) (by rw [this])

theorem TransOnly.thins {s t : State} (h : TransOnly s t) : Thins s t := by
  unfold TransOnly at h
  exact thins_same (by rw [h]) (by rw [h])

theorem Thins.foldl {α : Type} (f : State → α → State) (hf : ∀ s x, Thins s (f s x)) (xs : List α) (s : State) :
    Thins s (xs.foldl f s) := by
  induction xs generalizing s with
  | nil => exact thins_same rfl rfl
  | cons x xs ih => exact (hf s x).trans (ih (f s x))

theorem thins_dropOverride (s : State) (r : OverrideRecord) : Thins s (s.dropOverride r) := by
  have h := overrideOnly_dropOverride s r
  refine ⟨?_, fun a x => ?_⟩
  · rw [dropOverride_overrides]; exact List.eraseP_sublist
  · have e := h.1
    have : (s.dropOverride r).supervised = s.supervised := by rw [e]
    simpa only [State.supervision, this] using x

theorem thins_dropOverrides (s : State) (p : OverrideRecord → Bool) : Thins s (s.dropOverrides p) :=
  Thins.foldl _ thins_dropOverride _ s

theorem thins_station (s : State) (a : Addr) (e : Entry) (v : Supervision) (hv : Ordered (s.supervision a) → Ordered v) :
    Thins s ((s.setEntry a e).setSupervision a v) := by
  refine ⟨List.Sublist.refl _, fun b x => ?_⟩
  rw [supervision_setSupervision]; split
  · rename_i h; subst h; exact hv x
  · exact x

theorem thins_updateStation (s : State) (a : Addr) (e : Entry) : Thins s (s.updateStation a e (s.supervision a)) :=
  (thins_station s a e _ id).trans (condOnly_handChanges _ _ _).thins

theorem thins_endSession (s : State) (reason : EndReason) : Thins s (s.endSession reason) := by
  simp only [State.endSession]; split
  · exact thins_same rfl rfl
  · have hset : ∀ (u : State) x, Thins u { u with session := x } := fun u x => thins_same rfl rfl
    exact ((thins_dropOverrides s _).trans (thins_updateStation _ _ _)).trans (hset _ _)

theorem thins_takeOut (s : State) (a : Addr) : Thins s (s.takeOut a) :=
  ((condOnly_retireStation s a).thins.trans (thins_dropOverrides _ _)).trans
    (thins_station _ a .unconfigured {} (fun _ => ⟨.nil, .nil⟩))

theorem thins_setUp (s : State) (c : StagingCopy) (a : Addr) : Thins s (s.setUp c a) := by
  have hset : ∀ (u : State) e b, Thins u (((u.setEntry a e).setSlice a b).setToggle a false) :=
    fun u e b => thins_same rfl rfl
  simp only [State.setUp]; split
  · exact (thins_updateStation s a .unconfigured).trans (hset _ _ _)
  · exact thins_same rfl rfl

/-- What the stations taken out leave of the override table. -/
theorem takeOuts_overrides (as : List Addr) : ∀ (s : State), (s.overrides.map overrideKey).Nodup →
    ∀ q ∈ (as.foldl State.takeOut s).overrides, q ∈ s.overrides ∧ q.station ∉ as := by
  induction as with
  | nil => intro s _ q hq; exact ⟨hq, by simp⟩
  | cons a as ih =>
    intro s hn q hq
    have ho : (s.takeOut a).overrides = s.overrides.filter (fun q => !OverrideRecord.ofStation a q) := by
      have hr : (s.retireStation a).overrides = s.overrides := by rw [(condOnly_retireStation s a).1]
      have : (s.takeOut a).overrides = ((s.retireStation a).dropOverrides (OverrideRecord.ofStation a)).overrides := rfl
      rw [this, dropOverrides_overrides _ _ (by rw [hr]; exact hn), hr]
    have hn' : ((s.takeOut a).overrides.map overrideKey).Nodup := by
      rw [ho]; exact hn.sublist (List.filter_sublist.map _)
    obtain ⟨h1, h2⟩ := ih _ hn' q hq
    rw [ho] at h1
    have := List.mem_filter.1 h1
    refine ⟨this.1, ?_⟩
    simp only [List.mem_cons, not_or]
    exact ⟨by simpa [OverrideRecord.ofStation] using this.2, h2⟩

theorem applyCommit_thins (s : State) (c : StagingCopy) : Thins (((allAddrs.filter (fun a => (s.compare c a).takesOut)).foldl
    State.takeOut (s.commitSession c))) (s.applyCommit c) := by
  have hclear : ∀ u : State, Thins u u.clearIncomplete := by
    intro u
    simp only [State.clearIncomplete]; split
    · exact (show Thins u { u with config := { u.config with incomplete := false } } from thins_same rfl rfl).trans
        (condOnly_finishCause _ _).thins
    · exact thins_same rfl rfl
  have hclose : ∀ (u : State) (w : Word) (m : State → Mode), Thins u (let t : State := { u with
      scan := { u.scan with layout := w }
      config := { u.config with staging := .closed, gapTimer := none } }
      { t with mode := m t }) := fun u w m => thins_same rfl rfl
  refine Thins.trans ?_ (hclose _ _ (fun t => modeAfterCommit t.mode (copyHolds c)))
  refine Thins.trans ?_ (hclear _)
  have hplace : ∀ u : State, Thins u (u.place c) := fun u => thins_same rfl rfl
  have hrebuild : ∀ (u : State) l, Thins u (u.rebuild l) := fun u l => thins_same rfl rfl
  refine Thins.trans ?_ (hplace _)
  have h3 := (transOnly_completeWhere ((allAddrs.filter (fun a => (s.compare c a).takesOut)).foldl State.takeOut (s.commitSession c))
      (fun t => decide (t.station ∈ allAddrs.filter (fun a => (s.compare c a).takesOut))) .reconfigured).thins.trans
    (Thins.foldl (fun u a => u.setUp c a) (fun u a => thins_setUp u c a) (allAddrs.filter (fun a => (s.compare c a).moves)) _)
  split
  · exact h3
  · exact h3.trans (hrebuild _ _)

theorem thins_commitSession (s : State) (c : StagingCopy) : Thins s (s.commitSession c) := by
  simp only [State.commitSession]
  repeat' split
  · exact thins_same rfl rfl
  · exact thins_endSession _ _
  · exact thins_same rfl rfl

theorem applyCommit_staging (s : State) (c : StagingCopy) : (s.applyCommit c).config.staging = .closed := rfl

theorem applyCommit_descriptor (s : State) (c : StagingCopy) (a : Addr) :
    ((s.applyCommit c).entry a).descriptor = copyAt c a := by
  rw [applyCommit_entry]
  simp only
  split
  · cases copyAt c a <;> rfl
  · rename_i h
    have hs : ((s.commitSession c).entry a).descriptor = (s.entry a).descriptor := by
      simp only [State.commitSession]
      split
      · rfl
      · split
        · rename_i o ho _
          rw [entry_set (s.endSession .reconfigured) _ _ a _ (endSession_some ho).2.1]
          split
          · rename_i e; rw [e]
          · rfl
        · rfl
    rw [hs]
    simp only [State.compare, comparisonOf] at h
    revert h
    cases (s.entry a).descriptor <;> cases copyAt c a <;> simp [Comparison.moves, Comparison.takesOut, Comparison.setsUp]
    split <;> simp_all

namespace RosterSafe

/-- What a commit is applied to: `RosterSafe`, but for a pending commit outside a running cycle, as a STOP leaves it. -/
def Base (s : State) (c : StagingCopy) : Prop :=
  copyAt c s.ownAddress = none ∧
    (∀ q ∈ s.overrides, ∃ d, (s.entry q.station).descriptor = some d ∧ q.circuit.val < d.count q.direction) ∧
    (∀ a, Ordered (s.supervision a)) ∧ (s.overrides.map overrideKey).Nodup

theorem applyCommit {s : State} {c : StagingCopy} (h : Base s c) : RosterSafe (s.applyCommit c) := by
  obtain ⟨h1, h2, h3, h4⟩ := h
  have hd : (fun b => ((s.applyCommit c).entry b).descriptor) = copyAt c := funext (applyCommit_descriptor s c)
  have hown : (s.applyCommit c).ownAddress = s.ownAddress := by
    have := commitOnly_applyCommit s c
    unfold CommitOnly at this
    simp only [State.ownAddress]; rw [this]
  have ht := applyCommit_thins s c
  have hc := thins_commitSession s c
  have hout := takeOuts_overrides (allAddrs.filter (fun a => (s.compare c a).takesOut)) (s.commitSession c)
    (h4.sublist (hc.overrides.map _))
  have hsub : ∀ q ∈ (s.applyCommit c).overrides, q ∈ s.overrides ∧ (s.compare c q.station).takesOut = false := by
    intro q hq
    obtain ⟨x, y⟩ := hout q (ht.overrides.subset hq)
    refine ⟨hc.overrides.subset x, ?_⟩
    simpa [allAddrs] using y
  have hfold : Thins (s.commitSession c) ((allAddrs.filter (fun a => (s.compare c a).takesOut)).foldl State.takeOut (s.commitSession c)) :=
    Thins.foldl _ thins_takeOut _ _
  have hall := (hc.trans hfold).trans ht
  refine (rosterSafe_iff _).2 ⟨⟨fun a => ?_, ?_, ?_, ?_, fun a => ?_⟩, h4.sublist (hall.overrides.map _)⟩
  · rw [hd, applyCommit_entry]; exact placementIn_eq c a
  · rw [hown]; exact (applyCommit_descriptor s c _).trans h1
  · rw [applyCommit_staging]; trivial
  · intro q hq
    obtain ⟨x, y⟩ := hsub q hq
    obtain ⟨d, e, f⟩ := h2 q x
    refine ⟨d, ?_, f⟩
    rw [applyCommit_descriptor]
    simp only [State.compare, comparisonOf, e] at y
    revert y
    cases copyAt c q.station with
    | none => simp [Comparison.takesOut]
    | some z =>
      simp only
      split
      · rename_i k; intro _; rw [k]
      · simp [Comparison.takesOut]
  · have := hall.ordered a (h3 a)
    exact ⟨this.1, this.2.imp (fun {_ _} z => (sweepRank_fault_lt a _ _).2 z)⟩

end RosterSafe

namespace RosterSafe

/-! ### A STOP and the cycle end -/

theorem parts {s : State} (k : RosterSafe s) :
    (∀ a, (s.entry a).placement = placed (fun b => (s.entry b).descriptor) a) ∧ (s.entry s.ownAddress).descriptor = none ∧
    (∀ q ∈ s.overrides, ∃ d, (s.entry q.station).descriptor = some d ∧ q.circuit.val < d.count q.direction) ∧
    (∀ a, Ordered (s.supervision a)) ∧ (s.overrides.map overrideKey).Nodup :=
  have h := (rosterSafe_iff s).1 k
  ⟨h.1.1, h.1.2.1, h.1.2.2.2.1, fun a => rosterKept_ordered h.1 a, h.2⟩

/-- What `RosterKept` says of the staging, in a state `s` with the staging `g`. -/
def Gate (s : State) (g : Staging) : Prop :=
  match g with
  | .closed => True
  | .opened c => copyAt c s.ownAddress = none
  | .commitPending _ c => copyAt c s.ownAddress = none ∧ s.mode.scans = true ∧ s.scan.cycle ≠ .waiting

theorem gate {s : State} (k : RosterSafe s) : Gate s s.config.staging := ((rosterSafe_iff s).1 k).1.2.2.1

theorem base {s : State} (k : RosterSafe s) {c : StagingCopy}
    (h : s.config.staging = .opened c ∨ ∃ tag, s.config.staging = .commitPending tag c) : Base s c := by
  have p := k.parts
  refine ⟨?_, p.2.2.1, p.2.2.2.1, p.2.2.2.2⟩
  have q := k.gate
  rcases h with e | ⟨tag, e⟩ <;> rw [e] at q
  · exact q
  · exact q.1

/-- A change of the staging, the mode or the cycle state alone. -/
theorem regate {s t : State} (k : RosterSafe s) (h : (t.roster, t.supervised, t.overrides, t.config.setup.ownAddress) =
      (s.roster, s.supervised, s.overrides, s.config.setup.ownAddress)) (hg : Gate t t.config.staging) : RosterSafe t := by
  simp only [Prod.mk.injEq] at h
  obtain ⟨hr, hs, ho, hw⟩ := h
  obtain ⟨⟨k1, k2, k3, k4, k5⟩, k6⟩ := (rosterSafe_iff s).1 k
  have he : ∀ a, t.entry a = s.entry a := fun a => by simp only [State.entry, hr]
  have hown : t.ownAddress = s.ownAddress := hw
  refine (rosterSafe_iff t).2 ⟨⟨fun a => ?_, ?_, hg, fun q hq => ?_, fun a => ?_⟩, by rw [ho]; exact k6⟩
  · simp only [he]; exact k1 a
  · rw [he, hown]; exact k2
  · simp only [he]; rw [ho] at hq; exact k4 q hq
  · have : t.supervision a = s.supervision a := by simp only [State.supervision, hs]
    rw [this]; exact k5 a

/-- No commit is pending. -/
def Still (s : State) : Prop := ∀ tag c, s.config.staging ≠ .commitPending tag c

theorem gate_still {s t : State} (k : RosterSafe s) (h : Still s) (hg : t.config.staging = s.config.staging)
    (hw : t.config.setup.ownAddress = s.config.setup.ownAddress) : Gate t t.config.staging := by
  have q := k.gate
  rw [hg]
  have hown : t.ownAddress = s.ownAddress := hw
  revert q
  simp only [Gate]
  split
  · exact id
  · rw [hown]; exact id
  · rename_i tag c e; exact absurd e (h tag c)

theorem still_of {s : State} (k : RosterSafe s) (h : s.mode.scans = false ∨ s.scan.cycle = .waiting) : Still s := by
  intro tag c e
  have q := k.gate
  rw [e] at q
  rcases h with h | h
  · have := q.2.1; rw [h] at this; exact Bool.noConfusion this
  · exact q.2.2 h

theorem stopHalt {s : State} (k : RosterSafe s) (h : Still s) : RosterSafe s.stopHalt := by
  rw [stopHalt_eq]
  exact k.regate rfl (k.gate_still h rfl rfl)

theorem stopEnds {s : State} (k : RosterSafe s) : RosterSafe s.stopEnds :=
  RosterSafe.finishOwnAddress (RosterSafe.endSession (k.transOnly (transOnly_completeWhere _ _ _)) _)

theorem postDeferred {s : State} (k : RosterSafe s) (t c : Byte) (st : Status) (r : List Byte) :
    RosterSafe (s.postDeferred t c st r) := k.frame rfl

/-- A pending commit, applied or not, leaves none pending. -/
theorem commitPart {s : State} (hp : ∀ tag c, s.config.staging = .commitPending tag c → Base s c) (hs : Still s → RosterSafe s) :
    RosterSafe s.commitPart ∧ Still s.commitPart := by
  simp only [State.commitPart]
  cases e : s.config.staging with
  | closed =>
    have : Still s := fun tag c h => by rw [e] at h; cases h
    simp only [State.pendingCommit, e]; exact ⟨hs this, this⟩
  | opened c =>
    have : Still s := fun tag c h => by rw [e] at h; cases h
    simp only [State.pendingCommit, e]; exact ⟨hs this, this⟩
  | commitPending tag c =>
    simp only [State.pendingCommit, e]
    exact ⟨(applyCommit (hp tag c e)).postDeferred _ _ _ _, fun _ _ h => by cases h⟩

theorem deferredWork {s : State} (k : RosterSafe s) : RosterSafe s.deferredWork ∧ Still s.deferredWork := by
  simp only [State.deferredWork]; split
  · exact commitPart (fun tag c h => k.base (.inr ⟨tag, h⟩)) (fun _ => k)
  · have h := stopHalt_eq s
    have hc : s.stopHalt.config = s.config := by rw [h]
    obtain ⟨x, y⟩ := commitPart (s := s.stopHalt)
      (fun tag c e => by
        have b := k.base (c := c) (.inr ⟨tag, hc ▸ e⟩)
        rw [h]; exact b)
      (fun hst => k.stopHalt (fun tag c e => hst tag c (hc ▸ e)))
    refine ⟨x.stopEnds.postDeferred _ _ _ _, fun tag c e => y tag c ?_⟩
    have := (stopOnly_stopEnds s.stopHalt.commitPart).1
    rw [← e, postDeferred_config, this]

theorem countDown {s : State} (k : RosterSafe s) : RosterSafe s.countDown := by
  refine k.settled ⟨fun a => ?_, rfl, .inl rfl, rfl, .inl rfl, List.Sublist.refl _, fun _ h => h⟩
  simp only [State.countDown, State.entry, Vector.getElem_mk, List.getElem_toArray, List.getElem_map, Vector.getElem_toList]
  split <;> exact ⟨rfl, rfl⟩

theorem ownCheck {s : State} (k : RosterSafe s) : RosterSafe s.ownCheck := by
  have hset : ∀ (u : State) x, RosterSafe u → RosterSafe { u with own := x } := fun u x h => h.frame rfl
  simp only [State.ownCheck]
  refine hset _ _ ?_
  split
  · exact k
  · exact k.finishOwnAddress

theorem closeCycle {s : State} (k : RosterSafe s) : RosterSafe s.closeCycle ∧ Still s.closeCycle := by
  have hn : ∀ u : State, RosterSafe u → RosterSafe { u with scan := { u.scan with number := u.scan.number + 1 } } :=
    fun u hu => hu.frame rfl
  obtain ⟨x, y⟩ := RosterSafe.deferredWork (s := s.publish) (k.frame rfl)
  refine ⟨hn _ (RosterSafe.condOnly x.countDown.ownCheck (condOnly_sweep _)), fun tag c e => y tag c ?_⟩
  rw [← e]
  have h1 : s.closeCycle.config = s.publish.deferredWork.countDown.ownCheck.sweep.config := rfl
  have h2 : ∀ u : State, u.sweep.config = u.config := fun u => by rw [(condOnly_sweep u).1]
  have h3 : ∀ u : State, u.ownCheck.config = u.config := by
    intro u
    have : u.ownCheck.config = (if u.own.seen then u else u.finishOwnAddress).config := rfl
    rw [this]; split
    · rfl
    · rw [(stopOnly_finishOwnAddress u).1]
  rw [h1, h2, h3]; rfl

theorem drawn {s : State} (k : RosterSafe s) : RosterSafe s.drawn := k.frame rfl

theorem setCycle_still {s : State} (k : RosterSafe s) (h : Still s) (c : CycleState) : RosterSafe (s.setCycle c) :=
  k.regate rfl (k.gate_still h rfl rfl)

theorem cycleEnds {s : State} (k : RosterSafe s) : RosterSafe s.cycleEnds := by
  obtain ⟨hc, hs⟩ := k.closeCycle
  have hd : RosterSafe s.closeCycle.drawn := hc.drawn
  simp only [State.cycleEnds, State.afterClose]
  repeat' split
  · exact hc.setCycle _ (by decide)
  · exact hc.beginCycle.scanOn
  · exact hd.beginCycle.scanOn
  · exact hd.setCycle_still (fun tag c e => hs tag c e) _

/-! ### Requests -/

theorem runRequest {s : State} (k : RosterSafe s) (q : RequestKind) (body : Memory → State → Option Answer × State)
    (hb : ∀ r, RosterSafe (body r s.popRequest).2) : RosterSafe (s.runRequest q body) := by
  have hpost : ∀ (u : State), RosterSafe u → ∀ t c st r, RosterSafe (u.post t c st r) := fun u hu _ _ _ _ => hu.frame rfl
  simp only [State.runRequest]; split
  · refine RosterSafe.endGroup ?_
    simp only [answered]; split
    · exact hb _
    · exact hpost _ (hb _) _ _ _ _
  · exact k

theorem whileOpen {s : State} (k : RosterSafe s) (f : StagingCopy → State → Option Answer × State)
    (hf : ∀ c u, RosterSafe u → u.config.staging = .opened c → RosterSafe (f c u).2) : RosterSafe (s.whileOpen f).2 := by
  simp only [State.whileOpen]; split
  · exact k
  · exact k
  · rename_i c e; exact hf c _ (k.frame (by rfl)) e

theorem setCopy {s : State} (k : RosterSafe s) (c : StagingCopy) (h : copyAt c s.ownAddress = none) : RosterSafe (s.setCopy c) :=
  k.regate rfl h

theorem copyAt_eq (g : StagingCopy) (a : Addr) : copyAt g a = g[a.val] := rfl

theorem copyAt_committed (s : State) (a : Addr) : copyAt s.committed a = (s.entry a).descriptor := by
  rw [copyAt_eq]; simp [State.committed, State.entry]

theorem copyAt_set (c : StagingCopy) (a b : Addr) (x : Option Descriptor) :
    copyAt (c.set a.val x) b = if a = b then x else copyAt c b := by
  rw [copyAt_eq, copyAt_eq]
  by_cases h : a = b
  · subst h; simp
  · simp [h, ne_val h]

theorem stageBegin {s : State} (k : RosterSafe s) (n : Nat) : RosterSafe (s.stageBegin n).2 := by
  have hr : ∀ u : State, RosterSafe u → RosterSafe u.restartGap := fun u hu => hu.frame rfl
  simp only [State.stageBegin]
  split
  · exact k
  · exact hr _ k
  · split
    · refine hr _ ?_
      refine RosterSafe.setCopy (k.frame (by rfl)) _ ?_
      rw [copyAt_committed]; exact k.parts.2.1
    · exact k

theorem opened_own {s : State} (k : RosterSafe s) {c : StagingCopy} (h : s.config.staging = .opened c) :
    copyAt c s.ownAddress = none := (k.base (.inl h)).1

theorem stageStation {s : State} (k : RosterSafe s) {c : StagingCopy} (h : s.config.staging = .opened c) (b : Byte)
    (d : Option Descriptor) : RosterSafe (s.stageStation c b d).2 := by
  simp only [State.stageStation]
  repeat' split
  · exact k
  · exact k
  · exact k
  · rename_i a _ hne _ _
    refine k.setCopy _ ?_
    rw [copyAt_set, if_neg hne]; exact k.opened_own h

theorem stageRemove {s : State} (k : RosterSafe s) {c : StagingCopy} (h : s.config.staging = .opened c) (b : Byte) :
    RosterSafe (s.stageRemove c b).2 := by
  simp only [State.stageRemove]
  repeat' split
  · exact k
  · refine k.setCopy _ ?_
    rw [copyAt_set]; split
    · rfl
    · exact k.opened_own h
  · exact k

theorem readStaged {s : State} (k : RosterSafe s) (c : StagingCopy) (b : Byte) : RosterSafe (s.readStaged c b).2 := by
  simp only [State.readStaged]
  split <;> exact k

theorem closeStaging {s : State} (k : RosterSafe s) : RosterSafe s.closeStaging := k.regate rfl trivial

theorem stageCommit {s : State} (k : RosterSafe s) {c : StagingCopy} (h : s.config.staging = .opened c) (b : Byte) :
    RosterSafe (s.stageCommit b c).2 := by
  simp only [State.stageCommit]
  repeat' split
  · exact k
  · rename_i hc
    refine k.regate rfl ?_
    exact ⟨k.opened_own h, hc.1, hc.2⟩
  · exact applyCommit (k.base (.inl h))

theorem stopRequest {s : State} (k : RosterSafe s) (b : Byte) : RosterSafe (s.stopRequest b).2 := by
  simp only [State.stopRequest]
  repeat' split
  · exact k
  · exact k
  · rename_i hw
    exact RosterSafe.setCycle (k.stopHalt (k.still_of (.inr hw))).stopEnds _ (by decide)
  · exact k.frame rfl

theorem startLine {s : State} (k : RosterSafe s) (l : LineId) : RosterSafe (s.startLine l) := by
  simp only [State.startLine]; split
  · exact k.setLine _ _
  · exact k

theorem startRequest {s : State} (k : RosterSafe s) : RosterSafe s.startRequest.2 := by
  have hr : ∀ u : State, RosterSafe u → RosterSafe u.startRefresh := fun u hu => hu.frame rfl
  simp only [State.startRequest]
  split
  · exact k
  · rename_i hm
    simp only [ne_eq, not_not] at hm
    repeat' split
    · exact k
    · exact k
    · have hs : Still s := k.still_of (.inl (by rw [hm]; rfl))
      simp only [State.startScanning]
      have hm : RosterSafe { s with mode := .scanning } := k.regate rfl (k.gate_still hs rfl rfl)
      exact (hr _ ((hm.startLine .a).startLine .b)).beginCycle

theorem resumeRequest {s : State} (k : RosterSafe s) : RosterSafe s.resumeRequest.2 := by
  simp only [State.resumeRequest]
  split
  · exact k
  · rename_i hm
    simp only [ne_eq, not_not] at hm
    split
    · exact k
    · exact k.frame (by simp [rosterView, State.startRefresh, Mode.scans, hm])

theorem setLineSetup {s : State} (k : RosterSafe s) (c : Option LineSetup) : RosterSafe (s.setLineSetup c).2 := by
  simp only [State.setLineSetup]
  split
  · exact k
  · rename_i hsc
    split
    · exact k
    · rename_i n
      split
      · exact k
      · rename_i hin
        split
        · exact k
        · refine RosterSafe.condOnly ?_ (condOnly_handChanges _ _ _)
          have p := k.parts
          have hst : Still s := k.still_of (.inl (by simpa using hsc))
          have hno : ∀ a, (s.entry a).descriptor = none → (s.entry a).placement = none := by
            intro a h; rw [p.1 a]; simp [placed, h]
          have hnew : (s.entry n.ownAddress).descriptor = none := by
            by_cases h : n.ownAddress = s.ownAddress
            · rw [h]; exact p.2.1
            · by_contra hne
              apply hin
              refine ⟨h, ?_⟩
              simp [Entry.configured, Option.isSome_iff_ne_none.2 hne]
          generalize ht : ({ s with
            config := { s.config with setup := n }
            profiles := profilesAtRate s.profiles s.config.setup.rate n.rate
            roster := ⟨⟨(List.finRange 32).map (fun a => setupEntry s.config.setup n a (s.entry a))⟩, by simp⟩
            lineA := s.lineA.setEnable s.config.setup.enableA n.enableA
            lineB := s.lineB.setEnable s.config.setup.enableB n.enableB } : State) = t
          have he : ∀ a, t.entry a = setupEntry s.config.setup n a (s.entry a) := by
            intro a; subst ht; simp [State.entry]
          have hsame : ∀ a, (t.entry a).descriptor = (s.entry a).descriptor ∧ (t.entry a).placement = (s.entry a).placement := by
            intro a
            rw [he]; simp only [setupEntry]
            repeat' split
            · rename_i h; rw [h.2]; exact ⟨hnew.symm, (hno _ hnew).symm⟩
            · rename_i h
              have e : a = s.ownAddress := h.2
              rw [e]; exact ⟨p.2.1.symm, (hno _ p.2.1).symm⟩
            · exact ⟨rfl, rfl⟩
            · exact ⟨rfl, rfl⟩
          have hd : (fun b => (t.entry b).descriptor) = fun b => (s.entry b).descriptor := funext fun a => (hsame a).1
          have hown : t.ownAddress = n.ownAddress := by subst ht; rfl
          have hg : t.config.staging = s.config.staging := by subst ht; rfl
          have ho : t.overrides = s.overrides := by subst ht; rfl
          have hv : ∀ a, t.supervision a = s.supervision a := by intro a; subst ht; rfl
          obtain ⟨⟨k1, k2, k3, k4, k5⟩, k6⟩ := (rosterSafe_iff s).1 k
          refine (rosterSafe_iff t).2 ⟨⟨fun a => ?_, ?_, ?_, fun q hq => ?_, fun a => ?_⟩, by rw [ho]; exact k6⟩
          · rw [hd, (hsame a).2]; exact k1 a
          · rw [hown, (hsame _).1]; exact hnew
          · rw [hg, hown]
            by_cases h : n.ownAddress = s.ownAddress
            · rw [h]
              cases e : s.config.staging with
              | closed => trivial
              | opened c => exact k.opened_own e
              | commitPending tag c => exact absurd e (hst tag c)
            · cases e : s.config.staging with
              | closed => trivial
              | opened c =>
                simp only
                by_contra hne
                apply hin
                refine ⟨h, ?_⟩
                simp [Staging.holds, e, Option.isSome_iff_ne_none.2 hne]
              | commitPending tag c => exact absurd e (hst tag c)
          · rw [(hsame _).1]; rw [ho] at hq; exact k4 q hq
          · rw [hv]; exact k5 a

theorem setProfileRequest {s : State} (k : RosterSafe s) (b : Byte) (p : Option Profile) : RosterSafe (s.setProfileRequest b p).2 := by
  simp only [State.setProfileRequest]
  split
  · refine k.settled ⟨fun a => ?_, rfl, .inl rfl, rfl, .inl rfl, List.Sublist.refl _, fun _ h => h⟩
    simp only [reply, State.setProfile, State.entry, Vector.getElem_mk, List.getElem_toArray, List.getElem_map,
      Vector.getElem_toList]
    repeat' split
    all_goals exact ⟨rfl, rfl⟩
  · exact k

theorem setAction {s : State} (k : RosterSafe s) (a b c : Byte) : RosterSafe (s.setAction a b c).2 := by
  simp only [State.setAction]
  repeat' split
  all_goals exact k.frame rfl

theorem setOutputRefresh {s : State} (k : RosterSafe s) (n : Nat) : RosterSafe (s.setOutputRefresh n).2 := by
  simp only [State.setOutputRefresh]
  split <;> exact k.frame rfl

theorem setServicePermit {s : State} (k : RosterSafe s) (a b : Byte) (n : Nat) : RosterSafe (s.setServicePermit a b n).2 := by
  simp only [State.setServicePermit]
  repeat' split
  · simp only [State.permit]
    repeat' split
    · exact (k.endSession _).session _
    · exact RosterSafe.session (k.dropOverrides _) _
    · exact k.session _
  · exact k
  · exact k

theorem readTimer {s : State} (k : RosterSafe s) (x : Timer) : RosterSafe (s.readTimer x).2 := by
  cases x
  · exact k
  · exact k.frame rfl

theorem readLineState {s : State} (k : RosterSafe s) (b : Byte) : RosterSafe (s.readLineState b).2 := by
  simp only [State.readLineState]; split
  · exact k
  · exact (k.readTimer _).readTimer _

theorem readSession {s : State} (k : RosterSafe s) : RosterSafe s.readSession.2 := k.readTimer _

theorem removeStationOverrides {s : State} (k : RosterSafe s) (b : Byte) : RosterSafe (s.removeStationOverrides b).2 := by
  simp only [State.removeStationOverrides]
  repeat' split
  · exact k
  · exact k.dropOverrides _
  · exact k

theorem endSessionRequest {s : State} (k : RosterSafe s) : RosterSafe s.endSessionRequest.2 := by
  simp only [State.endSessionRequest]; split
  · exact k
  · exact k.endSession _

theorem acceptTransaction {s : State} (k : RosterSafe s) (t : Byte) (q : TransactionKind) (a b c : Byte) (d : List Byte) :
    RosterSafe (s.acceptTransaction t q a b c d).2 := by
  simp only [State.acceptTransaction]
  repeat' split
  all_goals first
    | exact k
    | (cases q <;> exact k.frame rfl)

theorem cancelTransaction {s : State} (k : RosterSafe s) (a b : Byte) : RosterSafe (s.cancelTransaction a b).2 := by
  simp only [State.cancelTransaction]
  repeat' split
  all_goals exact k.frame rfl

theorem ackRecord {s : State} (k : RosterSafe s) (r : ConditionRecord) : RosterSafe (s.ackRecord r) :=
  k.condOnly (condOnly_ackRecord s r)

theorem cond {s : State} (k : RosterSafe s) (c : ConditionUnit) : RosterSafe { s with cond := c } := k.frame rfl

theorem ackAll {s : State} (k : RosterSafe s) : RosterSafe s.ackAll.2 :=
  RosterSafe.cond (keeps_foldl (P := RosterSafe) _ (fun _ r ht => ht.ackRecord r) s.cond.records k) _

theorem ackCondition {s : State} (k : RosterSafe s) (a b : Byte) : RosterSafe (s.ackCondition a b).2 := by
  simp only [State.ackCondition]
  split
  · exact k
  · split
    · exact k
    · exact k.ackRecord _

/-! ### Restart and reset -/

theorem restart {s : State} (k : RosterSafe s) : RosterSafe s.restart := by
  have p := k.parts
  have hno : ∀ a, (s.entry a).descriptor = none → (s.entry a).placement = none := by
    intro a h; rw [p.1 a]; simp [placed, h]
  simp only [State.restart]
  refine RosterSafe.condOnly ?_ (condOnly_sweep _)
  have hsame : ∀ a, (restartEntry s.ownAddress a (s.entry a)).descriptor = (s.entry a).descriptor ∧
      (restartEntry s.ownAddress a (s.entry a)).placement = (s.entry a).placement := by
    intro a
    simp only [restartEntry]
    split
    · rename_i e; exact ⟨e.symm, rfl⟩
    · rename_i e
      rw [e, hno a e]
      split <;> exact ⟨rfl, rfl⟩
  generalize ht : ({ s with
      mode := if s.anyConfigured then .standby else .offline
      stopPending := none
      roster := ⟨⟨(List.finRange 32).map (fun a => restartEntry s.ownAddress a (s.entry a))⟩, by simp⟩
      supervised := Vector.replicate 32 {}
      cond := s.restartConditions
      overrides := []
      scan := s.restartScan
      lineA := s.lineA.restart
      lineB := s.lineB.restart
      own := {}
      safety := { limit := s.safety.limit }
      trans := { nextStamp := s.trans.nextStamp }
      config := { s.config with staging := .closed, gapTimer := none }
      session := s.session.restart
      port := s.port.restart } : State) = t
  have he : ∀ a, t.entry a = restartEntry s.ownAddress a (s.entry a) := by intro a; subst ht; simp [State.entry]
  have hd : (fun b => (t.entry b).descriptor) = fun b => (s.entry b).descriptor :=
    funext fun a => by rw [he]; exact (hsame a).1
  have hown : t.ownAddress = s.ownAddress := by subst ht; rfl
  have hg : t.config.staging = .closed := by subst ht; rfl
  have ho : t.overrides = [] := by subst ht; rfl
  have hv : ∀ a, t.supervision a = {} := by intro a; subst ht; simp [State.supervision]
  refine (rosterSafe_iff t).2 ⟨⟨fun a => ?_, ?_, by rw [hg]; trivial, by rw [ho]; simp, fun a => ?_⟩, by rw [ho]; simp⟩
  · rw [hd, he, (hsame a).2]; exact p.1 a
  · rw [hown, he, (hsame _).1]; exact p.2.1
  · rw [hv]; exact ⟨.nil, .nil⟩

theorem reset : RosterSafe State.reset := by
  have he : ∀ a, (State.reset.entry a).descriptor = none ∧ (State.reset.entry a).placement = none := by decide
  refine (rosterSafe_iff _).2 ⟨⟨fun a => ?_, (he _).1, trivial, by simp [State.reset], fun a => ?_⟩, by simp [State.reset]⟩
  · rw [(he a).2]; simp only [placed, (he a).1]; rfl
  · have : State.reset.supervision a = {} := by simp [State.reset, State.supervision]
    rw [this]; exact ⟨.nil, .nil⟩

/-! ### Window accesses -/

theorem submit {s : State} (k : RosterSafe s) : RosterSafe s.submit := by
  simp only [State.submit]; split <;> exact k.frame rfl

theorem outputCommit {s : State} (k : RosterSafe s) : RosterSafe s.outputCommit := by
  have hf : ∀ u : State, RosterSafe u → RosterSafe u.finishOutputsSafe := by
    intro u hu
    simp only [State.finishOutputsSafe]; split
    · exact RosterSafe.finishes (hu.frame (by rfl)) _
    · exact hu
  simp only [State.outputCommit]
  refine RosterSafe.endGroup (hf _ ?_)
  split <;> exact k.frame rfl

theorem responseTaken {s : State} (k : RosterSafe s) : RosterSafe s.responseTaken := k.frame rfl

theorem storeOctets {s : State} (k : RosterSafe s) (o : Nat) (bs : List Byte) : RosterSafe (s.storeOctets o bs) := by
  induction bs generalizing s o with
  | nil => exact k
  | cons b bs ih =>
    refine ih ?_ _
    simp only [State.storeOctet]
    repeat' split
    all_goals exact k.frame rfl

/-- Every row but the nine of `CondKept.special` keeps it by the lemmas above. -/
theorem exec_next {s t : State} (k : RosterSafe s) {i : Instr} (hi : CondKept.special i = false)
    (e : exec i s = .next t) : RosterSafe t := by
  have hp : RosterSafe s.popRequest := k.frame rfl
  cases i <;> simp only [CondKept.special, Bool.true_eq_false] at hi <;>
    simp only [exec, execSubmit, execOutputCommit, execResponseTaken, execWindowWrite, execStop, execStageBegin,
      execStageStation, execStageRemove, execStageCommit, execStageAbort, execReadStaged, execSetLineSetup,
      execReadLineSetup, execSetProfile, execReadProfile, execReadAction, execSetOutputRefresh,
      execSetServicePermit, execReadEntry, execReadLineState, execReadCondition, execReadConditionRef,
      execReadTableState, execSetOverride, execRemoveOverride, execRemoveStationOverrides, execRemoveAllOverrides,
      execReadOverride, execStationRead, execStationWrite, execCancelTransaction, execReadSession, execEndSession,
      execUnknownRequest, execFrameReceived, execReply, execIdentity, execParamAnswer, execParamRefuse, execOpenRequest,
      execKeepalive, execClose, execServiceReadEntry, execServiceReadCondition, execServiceSetOverride,
      execServiceRemoveOverride, execFrameSent, execReplyWindowExpiry, execCycleEnd, execCyclePeriodExpiry,
      execOutputRefreshTimerExpiry, execErrorWindowExpiry, execWithdrawalTimerExpiry, execStagingGapTimerExpiry,
      execSessionTimerExpiry, execRestartLineRelease, execFrameFirstOctet, Host.Outcome.next.injEq] at e
  case submit => exact e ▸ k.submit
  case outputCommit => exact e ▸ k.outputCommit
  case responseTaken => exact e ▸ k.responseTaken
  case windowWrite o d =>
    have k1 := k.storeOctets o d
    have k2 : RosterSafe (if touches o d.length 0x802 then (s.storeOctets o d).outputCommit else s.storeOctets o d) := by
      split
      · exact k1.outputCommit
      · exact k1
    subst e
    split
    · refine RosterSafe.responseTaken ?_
      split
      · exact k2.submit
      · exact k2
    · split
      · exact k2.submit
      · exact k2
  case stop => exact e ▸ k.runRequest _ _ (fun _ => hp.stopRequest _)
  case stageBegin => exact e ▸ k.runRequest _ _ (fun _ => hp.stageBegin _)
  case stageStation => exact e ▸ k.runRequest _ _ (fun _ => hp.whileOpen _ (fun _ _ hu e => hu.stageStation e _ _))
  case stageRemove => exact e ▸ k.runRequest _ _ (fun _ => hp.whileOpen _ (fun _ _ hu e => hu.stageRemove e _))
  case stageCommit => exact e ▸ k.runRequest _ _ (fun _ => hp.whileOpen _ (fun _ _ hu e => hu.stageCommit e _))
  case stageAbort =>
    exact e ▸ k.runRequest _ _ (fun _ => hp.whileOpen _ (fun _ _ hu _ => hu.closeStaging))
  case readStaged => exact e ▸ k.runRequest _ _ (fun _ => hp.whileOpen _ (fun _ _ hu _ => hu.readStaged _ _))
  case setLineSetup => exact e ▸ k.runRequest _ _ (fun _ => hp.setLineSetup _)
  case setProfile => exact e ▸ k.runRequest _ _ (fun _ => hp.setProfileRequest _ _)
  case setOutputRefresh => exact e ▸ k.runRequest _ _ (fun _ => hp.setOutputRefresh _)
  case setServicePermit => exact e ▸ k.runRequest _ _ (fun _ => hp.setServicePermit _ _ _)
  case readLineState => exact e ▸ k.runRequest _ _ (fun _ => hp.readLineState _)
  case setOverride => exact e ▸ k.runRequest _ _ (fun _ => hp.setOverride _ _ _ _ _)
  case removeOverride => exact e ▸ k.runRequest _ _ (fun _ => hp.removeOverride _ _ _ _)
  case removeStationOverrides => exact e ▸ k.runRequest _ _ (fun _ => hp.removeStationOverrides _)
  case removeAllOverrides => exact e ▸ k.runRequest _ _ (fun _ => hp.dropOverrides _)
  case stationRead => exact e ▸ k.runRequest _ _ (fun _ => hp.acceptTransaction _ _ _ _ _ _)
  case stationWrite => exact e ▸ k.runRequest _ _ (fun _ => hp.acceptTransaction _ _ _ _ _ _)
  case cancelTransaction => exact e ▸ k.runRequest _ _ (fun _ => hp.cancelTransaction _ _)
  case readSession => exact e ▸ k.runRequest _ _ (fun _ => hp.readSession)
  case endSession => exact e ▸ k.runRequest _ _ (fun _ => hp.endSessionRequest)
  case readLineSetup | readProfile | readAction | readEntry | readCondition | readConditionRef | readTableState |
      readOverride =>
    exact e ▸ k.runRequest _ _ (fun _ => hp)
  case unknownRequest =>
    subst e; split
    · exact RosterSafe.endGroup (hp.frame rfl)
    · exact k
  case frameReceived | reply | identity | paramAnswer | paramRefuse | openRequest | keepalive | close |
      serviceReadEntry | serviceReadCondition | serviceSetOverride | serviceRemoveOverride =>
    exact e ▸ k.receive _ _
  case frameSent =>
    split at e <;> cases e
    · exact k.sent _
    · exact k
  case replyWindowExpiry =>
    split at e <;> cases e
    · exact k.windowEnds _ _
    · exact k
  case cycleEnd =>
    subst e; split
    · exact k.cycleEnds
    · exact k
  case cyclePeriodExpiry =>
    subst e; split
    · exact k.beginCycle.scanOn
    · exact k
  case outputRefreshTimerExpiry =>
    subst e; split
    · simp only [State.refreshExpired]; split
      · exact k.frame rfl
      · exact RosterSafe.endGroup (RosterSafe.begins (k.frame (by rfl)) _)
    · exact k
  case errorWindowExpiry =>
    subst e; split
    · exact k.setLine _ _
    · exact k
  case withdrawalTimerExpiry =>
    subst e; split
    · exact k.returnLine _
    · exact k
  case stagingGapTimerExpiry =>
    have hc : RosterSafe { s.closeStaging with config := { s.closeStaging.config with incomplete := true } } :=
      k.closeStaging.frame rfl
    subst e; split
    · simp only [State.gapExpired]; split
      · exact hc
      · exact (hc.begins _).endGroup
    · exact k
  case sessionTimerExpiry => exact e ▸ (k.endSession _).endGroup
  case restartLineRelease => subst e; exact k.frame rfl
  case frameFirstOctet => exact e ▸ k.firstOctet _

end RosterSafe

end Sys2Proof.Laws
end

