-- ==== Sys2Proof/Tests/Slice0.lean ====
section
/-! SUPPORT. Tests of the author's own: the checks of WellFormed on ill-formed commands, one step of some commands on small
states, and for each statement a state and operands that meet its hypotheses, at the boundary values of their ranges. -/

namespace Sys2Proof.Tests

open Sys2Proof.Machine Sys2Proof.Safety

set_option Elab.async false

/-! ## WellFormed refuses -/

theorem test_window_write_of_two_octets_at_odd_offset : (Instr.windowWrite 0x401 [1, 2]).wellFormed = false := by decide
theorem test_window_write_of_no_octet : (Instr.windowWrite 0x400 []).wellFormed = false := by decide
theorem test_window_write_of_three_octets : (Instr.windowWrite 0x400 [1, 2, 3]).wellFormed = false := by decide
theorem test_window_write_of_a_word : (Instr.windowWrite 0x400 [1, 2]).wellFormed = true := by decide
theorem test_reply_from_address_32 : (Instr.reply .a 32 0 [] 0 false []).wellFormed = false := by decide
theorem test_reply_too_long : (Instr.reply .a 1 0 (List.replicate 77 0) 0 false []).wellFormed = false := by decide
theorem test_reply_of_80_octets : (Instr.reply .a 1 0 (List.replicate 64 0) 0 false
    (List.replicate 4 ⟨.input, 0, 1, 0⟩)).wellFormed = true := by decide
theorem test_identity_from_address_32 : (Instr.identity .a 32 0 0 0 0 0 0).wellFormed = false := by decide
theorem test_param_answer_toggle_2 : (Instr.paramAnswer .a 1 2 []).wellFormed = false := by decide
theorem test_param_answer_too_long : (Instr.paramAnswer .a 1 0 (List.replicate 81 0)).wellFormed = false := by decide
theorem test_param_answer_from_address_32 : (Instr.paramAnswer .a 32 0 []).wellFormed = false := by decide
theorem test_param_refuse_from_address_32 : (Instr.paramRefuse .a 32 1).wellFormed = false := by decide
theorem test_open_request_from_address_32 : (Instr.openRequest .a 32 0).wellFormed = false := by decide
theorem test_keepalive_from_address_32 : (Instr.keepalive .a 32).wellFormed = false := by decide
theorem test_close_from_address_32 : (Instr.close .a 32).wellFormed = false := by decide
theorem test_service_read_entry_from_address_32 : (Instr.serviceReadEntry .a 32 0 0).wellFormed = false := by decide
theorem test_service_read_condition_from_address_32 : (Instr.serviceReadCondition .a 32 0 0).wellFormed = false := by
  decide
theorem test_service_set_override_from_address_32 : (Instr.serviceSetOverride .a 32 0 0 0 0 0).wellFormed = false := by
  decide
theorem test_service_remove_override_from_address_32 : (Instr.serviceRemoveOverride .a 32 0 0 0 0).wellFormed = false := by
  decide

/-! ## Small states -/

/-- A request record of a kind with operand octets, tag 7. -/
def record (k : RequestKind) (ops : List Byte) : Memory := Memory.writeList [] 0 ([7, k.code] ++ ops)

/-- A state with that record alone in the request queue. -/
def headed (s : State) (k : RequestKind) (ops : List Byte) : State :=
  { s with port := { s.port with requests := [record k ops] } }

/-- A station of 8 BIT inputs and 2 WORD outputs on line A. -/
def station : Descriptor :=
  { inputCount := 8, inputWidth := .bit, outputCount := 2, outputWidth := .word, attachment := .lineA, preferred := .a,
    profile := 0, lossPolicy := .zero }

/-- An identity that agrees with it. -/
def own : Identity :=
  { inputCount := 8, inputWidth := .bit, outputCount := 2, outputWidth := .word, revision := 1, tag := 0x1234 }

/-- The part in STANDBY with that station at address 0, in a presence state. -/
def standby (p : Presence) : State :=
  { State.reset with
    mode := .standby
    roster := State.reset.roster.set 0
      { descriptor := some station, presence := p, activeLine := some .a, recordedTag := some 0x1234
        identity := some own, placement := some ⟨0, 1, 0, 4⟩ } }

/-- The same part in a mode, with line A ACTIVE and a cycle in a state. -/
def cycling (m : Mode) (p : Presence) (c : CycleState) : State :=
  { standby p with
    mode := m
    lineA := { state := .active, errorWindow := some 10000 }
    scan := { (standby p).scan with cycle := c } }

/-- A FATAL record, in slot 0. -/
def fatal (st : RecordState) : ConditionRecord :=
  { slot := 0, generation := 0, key := plainKey .part .ownAddressConflict, cls := .fatal, latching := true, state := st,
    occurrences := 1, raisedAt := 0, changedAt := 0, extra := [1] }

/-- A state with condition records. -/
def recorded (s : State) (rs : List ConditionRecord) : State := { s with cond := { s.cond with records := rs } }

/-- A staging copy that holds that station at address 0. -/
def copy : StagingCopy := (Vector.replicate 32 none).set 0 (some station)

/-- A state with the staging OPEN on a copy. -/
def opened (s : State) (c : StagingCopy) : State :=
  { s with config := { s.config with staging := .opened c, gapTimer := some 5000 } }

/-- An override record on output 0 of station 0. -/
def overridden (w : Owner) : OverrideRecord :=
  { station := 0, direction := .output, circuit := 0, value := 5, owner := w, enteredAt := 0 }

/-- An open session of the tool at address 9 on line A. -/
def session : OpenSession :=
  { tool := 9, line := .a, toolTag := 3, openedAt := 0, lastNumber := some 1, result := none, timer := 2000 }

/-- A transaction of station 0. -/
def transaction (k : TransactionKind) (st : TransactionState) (cancel : Option Byte) : Transaction :=
  { tag := 4, station := 0, kind := k, index := 2, length := 1, data := [], attempts := 1, toggle := false, state := st,
    cancel := cancel, accepted := 0 }

/-- A state with that transaction in slot 0. -/
def transacting (s : State) (t : Transaction) : State :=
  { s with trans := { s.trans with slots := s.trans.slots.set 0 (some t) } }

/-- A frame in flight to an address, on line A. -/
def flight (j : Job) (dest kind : Byte) (p : Phase) : Flight :=
  { job := j, line := .a, frame := ⟨dest, 31, kind, 0, []⟩, window := some 200, phase := p }

/-- A state with that frame in flight. -/
def flying (s : State) (f : Flight) : State := { s with scan := { s.scan with flight := some f, nextAddress := 1 } }

/-! ## Requests that are ready, and operands read -/

theorem test_operand (k : RequestKind) (ops : List Byte) (i : Nat) (h : i < ops.length) :
    operand (record k ops) i = ops.getD i 0 := by
  rw [operand, record, Laws.read_writeList Laws.wf_nil]
  simp [h, Nat.add_comm 2 i]

/-- Every request kind is ready with any operands, in any state with room. -/
theorem test_ready (s : State) (k : RequestKind) (ops : List Byte) (room : s.port.responses.length + s.port.deferred < 12)
    (owed : s.cond.sweepOwed = false) : Ready (headed s k ops) k (record k ops) [] := by
  refine ⟨rfl, ?_, room, owed⟩
  rw [requestKindOctet, record, Laws.read_writeList Laws.wf_nil]
  simp

/-- The record of a request stands alone in the queue, ready. -/
abbrev Queued (s : State) (k : RequestKind) (ops : List Byte) : Prop := Ready (headed s k ops) k (record k ops) []

/-- Such a record is ready in every state with room (by evaluation on a small state). -/
theorem by_room {s : State} {k : RequestKind} {ops : List Byte}
    (room : s.port.responses.length + s.port.deferred < 12 := by decide) (owed : s.cond.sweepOwed = false := by rfl) :
    Queued s k ops := test_ready s k ops room owed

/-- An operand octet of that record. -/
def arg (k : RequestKind) (ops : List Byte) (i : Nat) : Byte := operand (record k ops) i

/-- The same as a number. -/
def argNat (k : RequestKind) (ops : List Byte) (i : Nat) : Nat := (arg k ops i).toNat

/-- An operand word of that record, as a number. -/
def argWord (k : RequestKind) (ops : List Byte) (i : Nat) : Nat := (operandWord (record k ops) i).toNat

/-! ## One step -/

/-- The next state of an outcome. -/
def next? : Host.Outcome State Fault Refusal → Option State
  | .next s => some s
  | _ => none

/-- A test on the next state of a command. -/
def after (c : Instr) (s : State) (p : State → Bool) : Bool := ((next? (exec c s)).map p).getD false

theorem test_start_sends_identify : after .start (headed (standby .expected) .start []) (fun t =>
    decide (t.mode = .scanning) && decide ((t.scan.flight.map (fun f => f.frame.kind)) = some 3) &&
    decide (t.port.responses.map (fun r => (r.tag, r.kind, r.status, r.mode)) = [(7, 1, .ok, .scanning)])) = true := by
  decide +kernel

theorem test_start_refused_in_offline : after .start (headed State.reset .start []) (fun t =>
    decide (t.port.responses = [⟨7, 1, .wrongMode, .offline, []⟩])) = true := by decide +kernel

theorem test_read_action_of_forced : after .readAction (headed State.reset .readAction [8]) (fun t =>
    decide (t.port.responses = [⟨7, RequestKind.readAction.code, .ok, .offline, [0, 0,
    0]⟩])) = true := by decide +kernel

theorem test_window_write_submits : after (.windowWrite 0x804 [1, 0]) State.reset (fun t =>
    decide (t.port.requests = [[]])) = true := by decide +kernel

theorem test_window_write_of_a_read_only_area : exec (.windowWrite 0x3FF [9]) State.reset = .next State.reset := rfl

theorem test_window_write_of_the_output_area : after (.windowWrite 0x7FF [9]) State.reset (fun t =>
    decide (t.port.outputArea = [(0x3FF, 9)]) && decide (t.windowOctet 0x7FF = 9)) = true := by decide +kernel

theorem test_identity_begins_a_join : after (.identity .a 0 8 0 2 1 1 0x1234)
    (flying (cycling .scanning .expected .visiting) (flight (.attempt ⟨0, 1, some .a⟩) 0 3 .waiting))
    (fun t => decide ((t.entry 0).presence = .joining) && decide (t.scan.cycle = .discoverySlot)) = true := by
  decide +kernel

theorem test_reply_stages_inputs : after (.reply .a 0 0x1234 [0xA5] 0 false [])
    (flying (cycling .scanning .present .visiting) (flight (.attempt ⟨0, 1, some .a⟩) 0 1 .waiting))
    (fun t => decide (t.slice 0 = [0xA5]) && decide ((t.entry 0).presence = .present)) = true := by decide +kernel

theorem test_reply_window_expiry_makes_the_next_attempt : after .replyWindowExpiry
    (flying (cycling .scanning .present .visiting) (flight (.attempt ⟨0, 1, some .a⟩) 0 1 .waiting))
    (fun t => decide (t.scan.flight.map (fun f => f.job) = some (.attempt ⟨0, 0, some .a⟩))) = true := by decide +kernel

theorem test_cycle_end_publishes_and_advances : after .cycleEnd
    { cycling .held .present .closing with stopPending := some 3, port := { State.reset.port with deferred := 1 } }
    (fun t => decide (t.scan.number = 1) && decide (t.scan.sequence = 0) && decide (t.mode = .standby) &&
      decide (t.port.responses = [⟨3, 2, .ok, .standby, []⟩])) = true := by decide +kernel

theorem test_check_of_the_nine_digits : frameCheck [0x31, 0x32, 0x33, 0x34, 0x35, 0x36, 0x37, 0x38, 0x39] = 0x906E := by
  decide +kernel


/-! ## Statements met

For each statement that has hypotheses, states and operands that meet those of each clause, at the boundary values. -/

/-- A busy part with something in each table, and a command that waits. -/
def busy : State :=
  { transacting (recorded (cycling .held .present .visiting) [fatal .standing]) (transaction .read .waiting none) with
    pending := [.submit]
    overrides := [overridden .session]
    port := { State.reset.port with deferred := 1, entryArea := [(1, 1)], requests := [[(1, 1)]] } }

theorem test_met_step :
    ({ State.reset with pending := [.submit] } : State).pending = .submit :: [] ∧ State.reset.pending = [] := ⟨rfl, rfl⟩

/-- `RosterKept` as a test that can be evaluated. -/
def rosterTest (s : State) : Bool :=
  decide (∀ a, (s.entry a).placement = placed (fun b => (s.entry b).descriptor) a) &&
    decide ((s.entry s.ownAddress).descriptor = none) &&
    (match s.config.staging with
     | .closed => true
     | .opened c => decide (copyAt c s.ownAddress = none)
     | .commitPending _ c => decide (copyAt c s.ownAddress = none) && s.mode.scans && decide (s.scan.cycle ≠ .waiting)) &&
    s.overrides.all (fun q => (s.entry q.station).descriptor.any (fun d => decide (q.circuit.val < d.count q.direction))) &&
    decide (∀ a, (s.supervision a).stationFaults.Pairwise (fun b c => b.toNat < c.toNat) ∧
      (s.supervision a).circuitFaults.Pairwise (fun x y =>
        sweepRank (circuitFaultKey a x) < sweepRank (circuitFaultKey a y)))

theorem rosterKept_of_test {s : State} (h : rosterTest s = true) : RosterKept s := by
  simp only [rosterTest, Bool.and_eq_true, decide_eq_true_eq, List.all_eq_true, Option.any_eq_true] at h
  obtain ⟨⟨⟨⟨h1, h2⟩, h3⟩, h4⟩, h5⟩ := h
  refine ⟨h1, h2, ?_, h4, h5⟩
  revert h3
  cases s.config.staging <;> simp [and_assoc]

theorem test_met_invariants :
    MemoryCanonical busy ∧ FatalNotScanning busy ∧ (TablesKept busy ∧ RosterKept busy) ∧ FixedActionsKept busy ∧
      SweepNotOwed busy ∧ PromisesKept busy ∧ ∃ t, step busy = .next t := by
  refine ⟨?_, fun _ => by decide, ⟨?_, rosterKept_of_test (by decide +kernel)⟩, ?_, rfl, ?_, ⟨_, rfl⟩⟩
  · unfold MemoryCanonical; decide +kernel
  · unfold TablesKept; decide +kernel
  · unfold FixedActionsKept; decide +kernel
  · refine ⟨by decide +kernel, by decide, fun i t h _ => ?_⟩
    fin_cases i <;> cases h
    rfl

theorem test_met_restart :
    State.reset.port.restartAsserted = false ∧
      ({ State.reset with port := { State.reset.port with restartAsserted := true } } : State).port.restartAsserted = true ∧
      Queued busy .restart [] := ⟨rfl, rfl, by_room⟩

/-- A request waits on an empty queue, at a record of another kind, and without room. -/
theorem test_met_request_waits : State.reset.port.requests = [] ∧
    requestKindOctet (record .stop []) ≠ RequestKind.start.code ∧
    12 < (List.replicate 12 (0 : Nat)).length + 0 + 1 := by decide +kernel

theorem test_met_unknown_request : (∀ k ∈ allRequestKinds, requestKindOctet [(1, 255)] ≠ k.code) ∧
    State.reset.port.responses.length + State.reset.port.deferred + 1 ≤ 12 ∧ SweepNotOwed State.reset :=
  ⟨by decide +kernel, by decide, rfl⟩

theorem test_met_queue_triggers : (List.replicate 7 (record .start [])).length < 8 ∧
    8 ≤ (List.replicate 8 (record .start [])).length ∧ State.reset.port.responses = [] ∧
    ∃ s : State, s.port.requests = [record .start []] ∧ requestKindOctet (record .start []) = RequestKind.start.code ∧
      SweepNotOwed s ∧ s.port.responses = ⟨1, 1, .ok, .held, []⟩ :: [] ∧
      s.port.responses.length + s.port.deferred = 12 :=
  ⟨by decide, by decide, rfl,
    { headed State.reset .start [] with
      port := { (headed State.reset .start []).port with responses := [⟨1, 1, .ok, .held, []⟩], deferred := 11 } },
    rfl, by decide +kernel, rfl, rfl, rfl⟩

/-- The busy part with its outputs SAFE. -/
def unsafeOutputs : State := { busy with safety := { busy.safety with standing := true } }

theorem test_met_output_commit : SweepNotOwed busy ∧ busy.safety.standing = false ∧ SweepNotOwed unsafeOutputs ∧
    unsafeOutputs.safety.standing = true := ⟨rfl, rfl, rfl, rfl⟩

/-- The ranges of a window write, at their ends: they share no offset. -/
theorem test_met_window_write : (0x801 : Nat) < 0x802 ∧ (0x808 : Nat) ≤ 0x808 ∧
    ¬ ((0x802 : Nat) < 0x802 ∨ 0x808 ≤ 0x802) ∧
    ¬ ((0x807 : Nat) < 0x802 ∨ 0x808 ≤ 0x807) ∧ ([1] : List Byte).length = 1 ∧
    (([1, 2] : List Byte).length = 2 ∧ 0x802 % 2 = 0) := by decide

theorem test_met_window_reads_back : MemoryCanonical State.reset ∧ ([1, 2] : List Byte).length = 2 ∧
    ((0x400 : Nat) ≤ 0x7FE ∧ 0x7FE < 0x800) ∧ ((0x900 : Nat) ≤ 0x9FE ∧ 0x9FE < 0xA00) ∧
    (∃ t, exec (.windowWrite 0x7FE [1, 2]) State.reset = .next t) ∧
    ∃ t, exec (.windowWrite 0x9FE [1, 2]) State.reset = .next t :=
  ⟨by unfold MemoryCanonical; decide +kernel, rfl, by decide, by decide, ⟨_, rfl⟩, ⟨_, rfl⟩⟩

theorem test_met_start : Queued State.reset .start [] ∧ State.reset.mode ≠ .standby ∧
    Queued (standby .expected) .start [] ∧
    Queued (recorded (standby .expected) [fatal .ended]) .start [] ∧
    0 < (recorded (standby .expected) [fatal .ended]).fatalCount ∧ (standby .expected).fatalCount = 0 ∧
    (standby .expected).config.incomplete = false ∧
    ({ standby .expected with config := { incomplete := true } } : State).config.incomplete = true ∧ (standby .expected).scan.cycle = .stopped :=
  ⟨by_room, by decide, by_room, by_room, by decide +kernel, by decide +kernel, rfl, rfl, rfl⟩

theorem test_met_stop : Queued (cycling .scanning .present .visiting) .stop [] ∧
    (cycling .scanning .present .visiting).stopPending = none ∧
    Queued (cycling .held .present .waiting) .stop [] ∧ (cycling .held .present .waiting).scan.cycle = .waiting ∧
    TablesKept (headed (cycling .held .present .waiting) .stop []) ∧
    ({ busy with stopPending := some 3 } : State).stopPending.isSome = true ∧ State.reset.mode = .offline ∧
    (standby .expected).mode = .standby :=
  ⟨by_room, rfl, by_room, rfl, by unfold TablesKept; decide +kernel, rfl, rfl, rfl⟩

theorem test_met_resume : Queued busy .resume [] ∧ busy.mode = .held ∧ 0 < busy.fatalCount ∧
    Queued (cycling .held .present .visiting) .resume [] ∧ (cycling .held .present .visiting).fatalCount = 0 ∧
    State.reset.mode ≠ .held :=
  ⟨by_room, rfl, by decide +kernel, by_room, by decide +kernel, by decide⟩

theorem test_met_staging_tested : State.reset.config.staging = .closed ∧
    ({ State.reset with config := { State.reset.config with staging := .commitPending 3 copy } } : State).config.staging =
      .commitPending 3 copy ∧
    Queued State.reset .stageStation [] ∧ Queued State.reset .stageRemove [] ∧
    Queued State.reset .stageCommit [] ∧ Queued State.reset .stageAbort [] ∧
    Queued State.reset .readStaged [] :=
  ⟨rfl, rfl, by_room, by_room,
    by_room, by_room, by_room⟩

theorem test_met_stage_begin_499 : Queued State.reset .stageBegin [243, 1] ∧
    argWord .stageBegin [243, 1] 0 = 499 :=
  ⟨by_room, by decide +kernel⟩

theorem test_met_stage_begin_500 : Queued State.reset .stageBegin [244, 1] ∧
    argWord .stageBegin [244, 1] 0 = 500 :=
  ⟨by_room, by decide +kernel⟩

theorem test_met_stage_begin_60000 : Queued State.reset .stageBegin [96, 234] ∧
    argWord .stageBegin [96, 234] 0 = 60000 :=
  ⟨by_room, by decide +kernel⟩

theorem test_met_stage_begin_0 : Queued State.reset .stageBegin [0, 0] ∧
    argWord .stageBegin [0, 0] 0 = 0 ∧ State.reset.config.staging = .closed :=
  ⟨by_room, by decide +kernel⟩

theorem test_met_stage_begin_open : Queued (opened State.reset copy) .stageBegin [1, 0] ∧
    (opened State.reset copy).config.staging = .opened copy := ⟨by_room, rfl⟩

theorem test_met_stage_station_32 : Queued (opened State.reset copy) .stageStation [32] ∧
    31 < argNat .stageStation [32] 0 :=
  ⟨by_room, by decide +kernel⟩

theorem test_met_stage_station_own : Queued (opened State.reset copy) .stageStation [31] ∧
    arg .stageStation [31] 0 = octet State.reset.ownAddress.val :=
  ⟨by_room, by decide +kernel⟩

/-- Each way in which the eight octets of a descriptor can fail, one past the range of its field. -/
theorem test_met_stage_station_bad : Queued (opened State.reset copy) .stageStation [30, 33] ∧
    arg .stageStation [30, 33] 0 = octet (30 : Addr).val ∧ 32 < argNat .stageStation [30, 33] 1 ∧
    1 < argNat .stageStation [30, 1, 2] 2 ∧ 32 < argNat .stageStation [30, 1, 0, 33] 3 ∧
    1 < argNat .stageStation [30, 1, 0, 1, 2] 4 ∧ arg .stageStation [30, 1, 0, 1, 0, 0] 5 = 0 ∧
    3 < argNat .stageStation [30, 1, 0, 1, 0, 4] 5 ∧ arg .stageStation [30, 1, 0, 1, 0, 3, 0] 6 = 0 ∧
    2 < argNat .stageStation [30, 1, 0, 1, 0, 3, 3] 6 ∧ 3 < argNat .stageStation [30, 1, 0, 1, 0, 3, 1, 4] 7 ∧
    1 < argNat .stageStation [30, 1, 0, 1, 0, 3, 1, 3, 2] 8 ∧
    (arg .stageStation [30, 0, 0, 0, 0, 3, 1, 3, 1] 1 = 0 ∧ arg .stageStation [30, 0, 0, 0, 0, 3, 1, 3, 1] 3 = 0) ∧
    (arg .stageStation [30, 1, 0, 1, 0, 1, 2, 3, 1] 5 = 1 ∧ arg .stageStation [30, 1, 0, 1, 0, 1, 2, 3, 1] 6 ≠ 1) ∧
    (arg .stageStation [30, 1, 0, 1, 0, 2, 1, 3, 1] 5 = 2 ∧ arg .stageStation [30, 1, 0, 1, 0, 2, 1, 3, 1] 6 ≠ 2) :=
  ⟨by_room, by decide +kernel⟩

theorem test_met_stage_station : Queued (opened State.reset copy) .stageStation (0 :: descriptorOctets station) ∧
    (∀ i < 8, operand (record .stageStation (0 :: descriptorOctets station)) (1 + i) = (descriptorOctets station).getD i 0) ∧
    station.inputCount.val ≠ 0 ∧ station.attachment.single = some station.preferred :=
  ⟨by_room, by decide +kernel⟩

theorem test_met_stage_remove : Queued (opened State.reset copy) .stageRemove [0] ∧
    arg .stageRemove [0] 0 = octet (0 : Addr).val ∧ (copyAt copy 0).isSome = true ∧ copyAt copy 31 = none ∧
    ((standby .expected).entry 0).descriptor = some station :=
  ⟨by_room, by decide +kernel⟩

theorem test_met_stage_abort_and_read : Queued (opened State.reset copy) .stageAbort [] ∧
    Queued (opened State.reset copy) .readStaged [31] ∧ arg .readStaged [31] 0 = octet (31 : Addr).val ∧
    31 < argNat .readStaged [32] 0 :=
  ⟨by_room, by_room, by decide +kernel, by decide +kernel⟩

/-- Two stations at addresses 0 and 2: 9 BIT inputs with one WORD output, and 3 WORD inputs alone. -/
def mixed : StagingCopy :=
  (copy.set 0 (some { station with inputCount := 9, outputCount := 1 })).set 2
    (some { station with inputCount := 3, inputWidth := .word, outputCount := 0 })

/-- Their placements: a width whose last octet is not full, a WORD width, a count of 0, and an empty place. -/
theorem test_placement_of_two_stations : placementIn mixed 0 = some ⟨0, 2, 0, 2⟩ ∧ placementIn mixed 1 = none ∧
    placementIn mixed 2 = some ⟨2, 6, 2, 0⟩ ∧ placed (copyAt mixed) 2 = some ⟨2, 6, 2, 0⟩ ∧ inputTotal mixed = 8 ∧
    octetsBelow (outputOctets (copyAt mixed)) 32 = 2 := by decide +kernel

/-- A commit is pending inside a cycle alone, and the roster is kept. -/
theorem test_met_roster_while_a_commit_waits : RosterKept { cycling .scanning .present .visiting with
    config := { State.reset.config with staging := .commitPending 3 mixed } } ∧ RosterKept (opened (standby .lost) mixed) :=
  ⟨rosterKept_of_test (by decide +kernel), rosterKept_of_test (by decide +kernel)⟩

/-- Thirty-two places of 64 octets each overflow the image. -/
def large : StagingCopy := Vector.replicate 32 (some { station with inputCount := 32, inputWidth := .word })

theorem test_met_stage_commit_refused : Queued (opened State.reset large) .stageCommit [] ∧
    1024 < octetsBelow (inputOctets (copyAt large)) 32 ∧ octetsBelow (inputOctets (copyAt copy)) 32 ≤ 1024 ∧
    octetsBelow (outputOctets (copyAt copy)) 32 ≤ 1024 ∧
    ({ enableA := false } : LineSetup).serves station.attachment = false :=
  ⟨by_room, by decide +kernel, by decide +kernel, by decide +kernel, rfl⟩

theorem test_met_stage_commit_empty : Queued (opened (cycling .scanning .present .visiting) (Vector.replicate 32 none)) .stageCommit [] ∧
    (∀ a, copyAt (Vector.replicate 32 none) a = none) ∧ Mode.scanning.scans = true :=
  ⟨by_room, by decide +kernel, rfl⟩

theorem test_met_stage_commit_pending : Queued (opened (cycling .scanning .present .visiting) copy) .stageCommit [] ∧
    (∀ a, ∀ d ∈ copyAt copy a, State.reset.config.setup.serves d.attachment = true) ∧ copyAt copy 0 ≠ none ∧
    (cycling .scanning .present .visiting).scan.cycle ≠ .waiting :=
  ⟨by_room, by decide +kernel, by decide +kernel, by decide⟩

/-- A commit applied at once: in STANDBY, and in WAITING, with the staging OPEN and no session. -/
theorem test_met_commit_applied : Queued (opened State.reset copy) .stageCommit [] ∧
    TablesKept (headed (opened State.reset copy) .stageCommit []) ∧
    State.reset.mode.scans = false ∧ State.reset.session.current = none ∧
    (State.reset.entry 0).descriptor ≠ some station ∧
    Queued (opened (cycling .held .present .waiting) copy) .stageCommit [] ∧
    (copyAt copy 0).isSome = true ∧ (cycling .held .present .waiting).scan.cycle = .waiting ∧
    ((cycling .held .present .waiting).entry 0).descriptor = some station :=
  ⟨by_room, by unfold TablesKept; decide +kernel, rfl, rfl, by decide +kernel, by_room, by decide +kernel, rfl,
    by decide +kernel⟩

theorem test_met_set_profile : Queued (standby .lost) .setProfile [3, 7, 15, 208, 7, 3, 255] ∧
    arg .setProfile [3, 7, 15, 208, 7, 3, 255] 0 = octet (3 : Fin 4).val ∧
    argWord .setProfile [3, 7, 15, 208, 7, 3, 255] 3 = 2000 ∧
    3 < argNat .setProfile [4] 0 ∧ ((standby .lost).entry 0).descriptor.map Descriptor.profile = some 0 :=
  ⟨by_room, by decide +kernel⟩

theorem test_met_read_profile : Queued State.reset .readProfile [3] ∧
    arg .readProfile [3] 0 = octet (3 : Fin 4).val ∧ 3 < argNat .readProfile [4] 0 :=
  ⟨by_room, by decide +kernel⟩

theorem test_met_set_action_refused : Queued State.reset .setAction [0] ∧
    arg .setAction [0] 0 = 0 ∧ 12 < argNat .setAction [13] 0 ∧
    2 < argNat .setAction [1, 3] 1 ∧ 1 < argNat .setAction [1, 0, 2] 2 ∧
    Category.ownAddressConflict ∈ fixedCategories ∧
    arg .setAction [12] 0 = Category.ownAddressConflict.code :=
  ⟨by_room, by decide +kernel⟩

theorem test_met_set_action : Queued State.reset .setAction [1, 2, 1] ∧
    arg .setAction [1, 2, 1] 0 = Category.stationLost.code ∧ Category.stationLost ∉ fixedCategories ∧
    arg .setAction [1, 2, 1] 1 = ActionClass.fatal.code ∧
    arg .setAction [1, 2, 1] 2 = flagCode true :=
  ⟨by_room, by decide +kernel⟩

theorem test_met_read_action : Queued State.reset .readAction [12] ∧
    arg .readAction [12] 0 = Category.ownAddressConflict.code ∧
    arg .readAction [1] 0 = Category.stationLost.code ∧
    arg .readAction [0] 0 = 0 ∧ 12 < argNat .readAction [13] 0 :=
  ⟨by_room, by decide +kernel⟩

theorem test_met_set_output_refresh : Queued State.reset .setOutputRefresh [10, 0] ∧
    argWord .setOutputRefresh [0, 0] 0 = 0 ∧ argWord .setOutputRefresh [9, 0] 0 = 9 ∧
    argWord .setOutputRefresh [10, 0] 0 = 10 ∧ argWord .setOutputRefresh [136, 19] 0 = 5000 ∧
    argWord .setOutputRefresh [137, 19] 0 = 5001 :=
  ⟨by_room, by decide +kernel⟩

/-- Ten settings: 1000 kbit/s, own address 30, both lines on, and each number at an end of its range. -/
def settings : List Byte := [2, 30, 1, 1, 60, 0, 255, 64, 31, 1, 0, 255, 0]

/-- Those settings as values. -/
def setup : LineSetup :=
  { rate := .kbit1000, ownAddress := 30, errorWindow := 60, errorLimit := 255, withdrawalTime := 8000
    returnInterval := 1, discovery := false, cyclePeriod := 255 }

theorem test_met_set_line_setup : Queued (standby .expected) .setLineSetup settings ∧
    (arg .setLineSetup settings 0 = setup.rate.code ∧ arg .setLineSetup settings 1 = octet setup.ownAddress.val ∧
      arg .setLineSetup settings 2 = flagCode setup.enableA ∧ arg .setLineSetup settings 3 = flagCode setup.enableB ∧
      argWord .setLineSetup settings 4 = setup.errorWindow ∧ argNat .setLineSetup settings 6 = setup.errorLimit ∧
      argWord .setLineSetup settings 7 = setup.withdrawalTime ∧ argNat .setLineSetup settings 9 = setup.returnInterval ∧
      arg .setLineSetup settings 10 = flagCode setup.discovery ∧
      argWord .setLineSetup settings 11 = setup.cyclePeriod) ∧
    setup.errorWindow ≤ 60 ∧ setup.withdrawalTime ≤ 8000 ∧ setup.cyclePeriod ≤ 255 ∧
    (standby .expected).mode.scans = false ∧ ((standby .expected).entry 30).descriptor.isSome = false ∧
    setup.serves station.attachment = true ∧ ({ setup with enableA := false } : LineSetup).serves station.attachment = false ∧
    ((standby .expected).entry 0).descriptor.isSome = true ∧ (copyAt copy 0).isSome = true ∧
    (cycling .held .present .visiting).mode.scans = true :=
  ⟨by_room, by decide +kernel⟩

/-- Each field of line setup one past its range. -/
theorem test_met_set_line_setup_refused : Queued State.reset .setLineSetup [3] ∧ 2 < argNat .setLineSetup [3] 0 ∧
    31 < argNat .setLineSetup [2, 32] 1 ∧ 1 < argNat .setLineSetup [2, 31, 2] 2 ∧ 1 < argNat .setLineSetup [2, 31, 1, 2] 3 ∧
    argWord .setLineSetup [2, 31, 1, 1, 0, 0] 4 = 0 ∧ argWord .setLineSetup [2, 31, 1, 1, 61, 0] 4 = 61 ∧
    argNat .setLineSetup [2, 31, 1, 1, 60, 0, 0] 6 = 0 ∧ argWord .setLineSetup [2, 31, 1, 1, 60, 0, 1, 243, 1] 7 = 499 ∧
    argWord .setLineSetup [2, 31, 1, 1, 60, 0, 1, 65, 31] 7 = 8001 ∧
    arg .setLineSetup [2, 31, 1, 1, 60, 0, 1, 64, 31, 0] 9 = 0 ∧
    1 < argNat .setLineSetup [2, 31, 1, 1, 60, 0, 1, 64, 31, 1, 2] 10 ∧
    argWord .setLineSetup [2, 31, 1, 1, 60, 0, 1, 64, 31, 1, 1, 0, 1] 11 = 256 :=
  ⟨by_room, by decide +kernel⟩

theorem test_met_read_line_setup : Queued State.reset .readLineSetup [] := by_room

/-- A part with an open session that owns an override. -/
def sessioned : State :=
  { cycling .scanning .present .sessionSlot with
    overrides := [overridden .session]
    session := { State.reset.session with current := some session, permitOverrides := true } }

theorem test_met_set_service_permit : Queued sessioned .setServicePermit [0, 0, 250, 0] ∧
    argWord .setServicePermit [0, 0, 250, 0] 2 = 250 ∧ argWord .setServicePermit [1, 1, 128, 62] 2 = 16000 ∧
    argWord .setServicePermit [1, 1, 249, 0] 2 = 249 ∧ argWord .setServicePermit [1, 1, 129, 62] 2 = 16001 ∧
    1 < argNat .setServicePermit [2] 0 ∧ 1 < argNat .setServicePermit [1, 2] 1 ∧
    arg .setServicePermit [0, 0, 250, 0] 0 = flagCode false ∧
    arg .setServicePermit [1, 1, 128, 62] 1 = flagCode true ∧
    sessioned.session.permitSessions = true ∧ sessioned.session.permitOverrides = true ∧
    sessioned.session.current.isSome = true :=
  ⟨by_room, by decide +kernel⟩

theorem test_met_tables_of_a_session : TablesKept sessioned := by unfold TablesKept; decide +kernel

/-- The same part with the tool's entry SERVICE. -/
def served : State := { sessioned with roster := sessioned.roster.set 9 { presence := .service } }

/-- A session whose tool's entry is SERVICE, for the requests and the timer that end it and for a commit that evicts it. -/
theorem test_met_served : served.session.current = some session ∧ (served.entry session.tool).presence = .service ∧
    TablesKept served ∧ TablesKept (headed served .endSession []) ∧
    TablesKept (headed served .setServicePermit [0, 0, 250, 0]) ∧ Queued served .endSession [] ∧
    Queued served .setServicePermit [0, 0, 250, 0] ∧ (served.entry session.tool).descriptor = none ∧
    evicts served (copy.set 9 (some station)) = true ∧ evicts served copy = false :=
  ⟨rfl, by decide +kernel, by unfold TablesKept; decide +kernel, by unfold TablesKept; decide +kernel,
    by unfold TablesKept; decide +kernel, by_room, by_room, by decide +kernel, by decide +kernel, by decide +kernel⟩

/-- A commit that removes the station of that part, adds the tool's address and an EXTRA one, with a record of each. -/
def committing : State :=
  recorded { served with roster := served.roster.set 5 { presence := .extra, identity := some own } }
    [{ fatal .standing with slot := 0, latching := false, key := plainKey (.station 0) .forced },
      { fatal .standing with slot := 63, key := plainKey (.station 0) .alternateLine },
      { fatal .standing with slot := 3, key := plainKey (.station 5) .stationExtra },
      { fatal .standing with slot := 4, latching := false, key := plainKey .part .configIncomplete }]

/-- What it holds is what the clause on the condition unit asks, and what that clause then says: the removed station's
records go, the latching STATION EXTRA stays ENDED, and CONFIG INCOMPLETE, which does not stand, is not touched. -/
theorem test_met_commit_causes :
    let c : StagingCopy := ((Vector.replicate 32 none).set 9 (some station)).set 5 (some station)
    TablesKept committing ∧ RosterKept committing ∧ evicts committing c = true ∧
      leaves committing c 0 = true ∧
      (∀ a, touched committing c a = true → (committing.entry a).descriptor = none →
        (committing.entry a).presence ∈ [Presence.absent, .extra, .own, .service]) ∧
      (∀ o ∈ committing.session.current, (committing.entry o.tool).presence = .service) ∧
      (commitCauses committing c).cond.records.map (fun q => (q.slot.val, q.state)) = [(3, .ended), (4, .standing)] ∧
      ([0, 3, 63] : List (Fin 64)).map (fun i => (commitCauses committing c).cond.generations[i.val]) = [1, 0, 1] ∧
      (commitCauses committing c).cond.sweepOwed = true :=
  ⟨by unfold TablesKept; decide +kernel, rosterKept_of_test (by decide +kernel), by decide +kernel, by decide +kernel,
    by decide +kernel, by decide +kernel, by decide +kernel, by decide +kernel, by decide +kernel⟩

theorem test_met_read_entry : Queued State.reset .readEntry [31] ∧
    arg .readEntry [31] 0 = octet (31 : Addr).val ∧ 31 < argNat .readEntry [32] 0 :=
  ⟨by_room, by decide +kernel⟩

theorem test_met_read_line_state : Queued State.reset .readLineState [2] ∧
    arg .readLineState [2] 0 = lineCode (some .b) ∧
    arg .readLineState [1] 0 = lineCode (some .a) ∧
    arg .readLineState [0] 0 = 0 ∧ 2 < argNat .readLineState [3] 0 :=
  ⟨by_room, by decide +kernel⟩

theorem test_met_read_condition : Queued busy .readCondition [0] ∧
    busy.cond.records[argNat .readCondition [0] 0]? = some (fatal .standing) ∧
    63 < argNat .readCondition [64] 0 ∧
    argNat .readCondition [63] 0 ≤ 63 ∧ busy.cond.records.length ≤ argNat .readCondition [1] 0 :=
  ⟨by_room, by decide +kernel⟩

theorem test_met_read_override : Queued busy .readOverride [0] ∧
    busy.overrides[argNat .readOverride [0] 0]? = some (overridden .session) ∧
    47 < argNat .readOverride [48] 0 ∧
    argNat .readOverride [47] 0 ≤ 47 ∧ busy.overrides.length ≤ argNat .readOverride [1] 0 :=
  ⟨by_room, by decide +kernel⟩

theorem test_met_read_condition_ref : Queued busy .readConditionRef [0, 0] ∧
    arg .readConditionRef [0, 0] 0 = octet (0 : Fin 64).val ∧
    (fatal .standing).generation = arg .readConditionRef [0, 0] 1 ∧
    (fatal .standing).generation ≠ arg .readConditionRef [0, 1] 1 ∧
    63 < argNat .readConditionRef [64] 0 ∧ arg .readConditionRef [63] 0 = octet (63 : Fin 64).val :=
  ⟨by_room, by decide +kernel⟩

theorem test_met_read_table_state : Queued busy .readTableState [] := by_room

theorem test_met_session_requests : Queued sessioned .readSession [] ∧ Queued sessioned .endSession [] ∧
    sessioned.session.current = some session ∧ Queued State.reset .endSession [] ∧
    Queued State.reset .readSession [] ∧ State.reset.session.current = none :=
  ⟨by_room, by_room, rfl, by_room,
    by_room, rfl⟩

theorem test_met_ack_condition_standing : Queued (recorded busy [fatal .standing]) .ackCondition [0, 0] ∧
    fatal .standing ∈ (recorded busy [fatal .standing]).cond.records ∧
    (fatal .standing).generation = arg .ackCondition [0, 0] 1 ∧ (fatal .standing).state = .standing :=
  ⟨by_room, by decide +kernel⟩

theorem test_met_ack_condition_standingacked : Queued (recorded busy [fatal .standingAcked]) .ackCondition [0, 0] ∧
    fatal .standingAcked ∈ (recorded busy [fatal .standingAcked]).cond.records ∧
    (fatal .standingAcked).generation = arg .ackCondition [0, 0] 1 ∧ (fatal .standingAcked).state = .standingAcked :=
  ⟨by_room, by decide +kernel⟩

theorem test_met_ack_condition_ended : Queued (recorded busy [fatal .ended]) .ackCondition [0, 0] ∧
    fatal .ended ∈ (recorded busy [fatal .ended]).cond.records ∧
    (fatal .ended).generation = arg .ackCondition [0, 0] 1 ∧ (fatal .ended).state = .ended :=
  ⟨by_room, by decide +kernel⟩

theorem test_met_ack_condition_refused : 63 < argNat .ackCondition [64, 0] 0 ∧
    (fatal .ended).generation ≠ arg .ackCondition [0, 1] 1 ∧ arg .ackCondition [63, 0] 0 = octet (63 : Fin 64).val := by
  decide +kernel

/-- A STANDING record, and an ENDED one. -/
theorem test_met_ack_all (st : RecordState) : Queued (recorded busy [fatal st]) .ackAll [] ∧
    TablesKept (headed (recorded busy [fatal st]) .ackAll []) :=
  ⟨test_ready _ _ _ (by show 0 + 1 < 12; decide) rfl, by unfold TablesKept; cases st <;> decide +kernel⟩

theorem test_met_clear_overflow : Queued busy .clearOverflow [] := by_room

theorem test_met_tables_with_a_record (st : RecordState) : TablesKept (recorded busy [fatal st]) := by
  unfold TablesKept; cases st <;> decide +kernel

/-- Beginnings that find a record, standing or ended, and one that finds none with room. -/
theorem test_met_cause_begins : (fatal .standing).key = plainKey .part .ownAddressConflict ∧
    (fatal .ended).state = .ended ∧ (fatal .standing).state ≠ .ended ∧
    (∀ q ∈ busy.cond.records, q.key ≠ plainKey .part .outputsSafe) ∧ busy.cond.records.length < 64 := by decide +kernel

/-- A full table: one record in each slot, of a class, none of origin PART. -/
def full (c : ActionClass) : State :=
  recorded (standby .expected) ((List.finRange 64).map (fun i =>
    { fatal .standing with slot := i, cls := c, key := ⟨.station 0, none, .stationFault, octet i.val⟩ }))

theorem test_met_full_table (c : ActionClass) : TablesKept (full c) ∧ (full c).cond.records.length = 64 ∧
    (∀ q ∈ (full c).cond.records, q.key ≠ plainKey .part .ownAddressConflict ∧ q.cls = c) ∧
    ((full c).action .ownAddressConflict).cls = .fatal ∧ ((full c).action .outputsSafe).cls ≠ .fatal := by
  unfold TablesKept; cases c <;> decide +kernel

theorem test_met_eviction : (((full .informational).cond.records.find? (fun q => decide (q.cls = .informational))).or
    ((full .informational).cond.records.find? (fun q => decide (q.cls = .diagnostic)))).isSome = true := by decide +kernel

theorem test_met_cause_ends : fatal .standing ∈ busy.cond.records ∧ (fatal .standing).latching = true ∧
    (fatal .ended).state = .ended ∧ (fatal .standingAcked).state = .standingAcked ∧
    ({ fatal .standing with latching := false } : ConditionRecord).latching = false ∧
    (∀ q ∈ busy.cond.records, q.key ≠ plainKey .part .outputsSafe) ∧ TablesKept busy :=
  ⟨by decide, rfl, rfl, rfl, rfl, by decide +kernel, by unfold TablesKept; decide +kernel⟩

/-- The sweep of a part with two standing causes: one whose key an earlier one does not have, and room for both. -/
theorem test_met_sweep : ({ unsafeOutputs with config := { incomplete := true } } : State).standingCauses.map
      (fun c => c.key.category) = [.outputsSafe, .configIncomplete, .forced] ∧ unsafeOutputs.cond.records.length < 64 := by
  decide +kernel

/-- Station faults and circuit faults of one station, and what follows them in the order of R66. -/
theorem test_met_sweep_order :
    let s : State := { busy with
      supervised := busy.supervised.set 0
        { stationFaults := [1, 200], circuitFaults := [⟨.input, 7, 1, 0⟩, ⟨.input, 7, 9, 0⟩, ⟨.output, 0, 1, 0⟩] } }
    RosterKept s ∧ s.standingCauses.map (fun c => (c.key.category, c.key.code)) =
      [(.stationFault, 1), (.stationFault, 200), (.circuitFault, 1), (.circuitFault, 9), (.circuitFault, 1), (.forced, 0)] :=
  ⟨rosterKept_of_test (by decide +kernel), by decide +kernel⟩

theorem test_met_set_override_refused : Queued (standby .present) .setOverride [32] ∧
    31 < argNat .setOverride [32] 0 ∧ 1 < argNat .setOverride [0, 2] 1 ∧
    arg .setOverride [1, 0] 0 = octet (1 : Addr).val ∧ ((standby .present).entry 1).descriptor = none ∧
    station.count .output ≤ argNat .setOverride [0, 1, 2] 2 ∧
    1 < argWord .setOverride [0, 0, 7, 2] 3 ∧ station.width .input = .bit :=
  ⟨by_room, by decide +kernel⟩

theorem test_met_set_override : Queued (standby .present) .setOverride [0, 1, 1, 255, 255] ∧
    arg .setOverride [0, 1, 1, 255, 255] 0 = octet (0 : Addr).val ∧
    arg .setOverride [0, 1, 1, 255, 255] 1 = directionCode .output ∧
    arg .setOverride [0, 1, 1, 255, 255] 2 = octet (1 : Fin 32).val ∧ (1 : Nat) < station.count .output ∧
    station.width .output ≠ .bit ∧ ((standby .present).entry 0).descriptor = some station ∧
    (standby .present).findOverride 0 .output 1 = none ∧ (standby .present).overrides.length < 48 ∧
    busy.findOverride 0 .output 0 = some (overridden .session) ∧
    48 ≤ (List.replicate 48 (overridden .controller)).length :=
  ⟨by_room, by decide +kernel⟩

/-- The session's settings: a record of each owner, no record, and each limit reached. -/
theorem test_met_session_override : (sessioned.entry 0).descriptor = some station ∧ 1 < station.count .output ∧
    sessioned.findOverride 0 .output 0 = some (overridden .session) ∧ sessioned.findOverride 0 .output 1 = none ∧
    sessioned.session.permitOverrides = true ∧ busy.session.permitOverrides = false ∧
    busy.findOverride 0 .output 0 = some (overridden .session) ∧ busy.findOverride 0 .output 1 = none ∧
    ({ busy with overrides := [overridden .controller] } : State).findOverride 0 .output 0 = some (overridden .controller) ∧
    16 ≤ ({ sessioned with overrides := List.replicate 16 (overridden .session) } : State).sessionShare ∧
    ¬ (48 ≤ sessioned.overrides.length ∨ 16 ≤ sessioned.sessionShare) := by decide +kernel

/-- The checks of an override's octets, one past each range and at each end, and what a session's setting then answers. -/
theorem test_met_session_override_refused : 31 < (32 : Byte).toNat ∧ ¬ 31 < (31 : Byte).toNat ∧ 1 < (2 : Byte).toNat ∧
    (31 : Byte) = octet (31 : Addr).val ∧ (1 : Byte) = directionCode .output ∧ (sessioned.entry 31).descriptor = none ∧
    station.count .output ≤ (2 : Byte).toNat ∧ station.width .input = .bit ∧ 1 < (2 : Word).toNat ∧
    (sessioned.setOverride .session 31 2 0 0).1 = ⟨.badOperand, []⟩ ∧
    (sessioned.setOverride .session 31 1 0 0).1 = ⟨.notConfigured, []⟩ ∧
    (sessioned.setOverride .session 0 1 2 0).1 = ⟨.badOperand, []⟩ ∧
    (sessioned.setOverride .session 0 0 7 2).1 = ⟨.badOperand, []⟩ ∧
    (sessioned.setOverride .session 0 0 7 1).1 = ⟨.ok, [1, 1, 1, 2]⟩ := by decide +kernel

/-- A session's removals: an octet out of range, no record, a CONTROLLER record, and its own. -/
theorem test_met_session_removals : 31 < (32 : Byte).toNat ∧ 1 < (2 : Byte).toNat ∧
    sessioned.findOverride 31 .input 31 = none ∧ sessioned.findOverride 0 .output 0 = some (overridden .session) ∧
    (overridden .session).owner = .session ∧ sessioned.overrideCount 0 = 1 ∧
    ({ busy with overrides := [overridden .controller] } : State).findOverride 0 .output 0 = some (overridden .controller) ∧
    (sessioned.removeOverride .session 0 1 32).1 = ⟨.badOperand, []⟩ ∧
    (sessioned.removeOverride .session 31 0 31).1 = ⟨.notFound, []⟩ ∧
    (sessioned.removeOverride .session 0 1 0).1 = ⟨.ok, [0]⟩ ∧
    (sessioned.removeOverride .session 0 1 0).2.overrides = [] := by decide +kernel

theorem test_met_remove_override : Queued busy .removeOverride [0, 1, 0] ∧
    arg .removeOverride [0, 1, 0] 0 = octet (0 : Addr).val ∧ arg .removeOverride [0, 1, 0] 1 = directionCode .output ∧
    arg .removeOverride [0, 1, 0] 2 = octet (0 : Fin 32).val ∧
    busy.findOverride 0 .output 0 = some (overridden .session) ∧
    busy.findOverride 31 .input 31 = none ∧ 31 < argNat .removeOverride [32] 0 ∧
    1 < argNat .removeOverride [0, 2] 1 ∧ 31 < argNat .removeOverride [0, 1, 32] 2 ∧
    (overridden .controller).owner = .controller :=
  ⟨by_room, by decide +kernel⟩

theorem test_met_remove_station_overrides : Queued sessioned .removeStationOverrides [0] ∧
    arg .removeStationOverrides [0] 0 = octet (0 : Addr).val ∧ (sessioned.entry 0).descriptor.isSome = true ∧
    TablesKept (headed sessioned .removeStationOverrides [0]) ∧ (sessioned.entry 31).descriptor = none ∧ 31 < argNat .removeStationOverrides [32] 0 :=
  ⟨by_room, by decide +kernel, by decide +kernel, by unfold TablesKept; decide +kernel, by decide +kernel⟩

theorem test_met_remove_all : Queued sessioned .removeAllOverrides [] ∧
    TablesKept (headed sessioned .removeAllOverrides []) := ⟨by_room, by unfold TablesKept; decide +kernel⟩

theorem test_met_station_read : Queued (cycling .scanning .present .visiting) .stationRead [0, 2, 32] ∧
    arg .stationRead [0, 2, 32] 0 = octet (0 : Addr).val ∧ argNat .stationRead [0, 2, 32] 2 = 32 ∧
    argNat .stationRead [0, 2, 1] 2 = 1 ∧ argNat .stationRead [0, 2, 0] 2 = 0 ∧
    32 < argNat .stationRead [0, 2, 33] 2 ∧ 31 < argNat .stationRead [32] 0 :=
  ⟨by_room, by decide +kernel⟩

theorem test_met_station_write : Queued (cycling .scanning .present .visiting) .stationWrite [0, 2, 32] ∧
    arg .stationWrite [0, 2, 32] 0 = octet (0 : Addr).val ∧ argNat .stationWrite [0, 2, 32] 2 = 32 ∧
    argNat .stationWrite [0, 2, 1] 2 = 1 ∧ argNat .stationWrite [0, 2, 0] 2 = 0 ∧
    32 < argNat .stationWrite [0, 2, 33] 2 ∧ 31 < argNat .stationWrite [32] 0 :=
  ⟨by_room, by decide +kernel⟩

/-- A station with no transaction and a free slot, in each mode; a busy station; no free slot. -/
theorem test_met_transaction_state : ((cycling .scanning .present .visiting).entry 0).descriptor.isSome = true ∧
    ((cycling .scanning .present .visiting).entry 31).descriptor = none ∧
    (∀ i, (cycling .scanning .present .visiting).slot i = none) ∧
    (cycling .scanning .present .visiting).mode.scans = true ∧
    (standby .present).mode.scans = false ∧ busy.slot 0 = some (transaction .read .waiting none) ∧ busy.slot 1 = none ∧
    ∀ i, (({ busy with trans := { busy.trans with
      slots := Vector.replicate 4 (some (transaction .read .sent none)) } } : State).slot i).isSome = true := by
  decide +kernel

theorem test_met_cancel : Queued busy .cancelTransaction [4] ∧
    busy.slot 0 = some (transaction .read .waiting none) ∧ (∀ i, i ≠ 0 → busy.slot i = none) ∧
    (transaction .read .waiting none).tag = arg .cancelTransaction [4] 0 ∧
    (transaction .read .waiting none).tag ≠ arg .cancelTransaction [5] 0 ∧
    (transaction .read .sent none).state = .sent ∧ (transaction .read .sent (some 9)).cancel.isSome = true :=
  ⟨by_room, by decide +kernel⟩

theorem test_met_visit_reply : ((standby .present).entry 0).descriptor = some station ∧
    ((standby .present).entry 0).presence = .present ∧ ((standby .silent).entry 0).presence = .silent ∧
    ((standby .present).entry 0).recordedTag = some 0x1234 ∧ (0x1235 : Word) ≠ 0x1234 ∧
    (([⟨.input, 0, 1, 5⟩, ⟨.output, 0, 1, 5⟩, ⟨.input, 7, 1, 5⟩, ⟨.input, 0, 255, 5⟩] : List FaultItem).map
      (circuitFaultKey 0)).Nodup := by decide +kernel

/-- The roster kept in the states of a visit. -/
theorem test_met_visit_roster (p : Presence) : RosterKept (standby p) ∧ RosterKept sessioned ∧ RosterKept served :=
  ⟨rosterKept_of_test (by cases p <;> decide +kernel), rosterKept_of_test (by decide +kernel),
    rosterKept_of_test (by decide +kernel)⟩

/-- A DUAL station: ALTERNATE LINE stands on the line not preferred while the preferred one is enabled, and on no other. -/
theorem test_met_alternate_line : alternateOn State.reset { station with attachment := .dual } (some .b) = true ∧
    alternateOn State.reset { station with attachment := .dual } (some .a) = false ∧
    alternateOn State.reset station (some .b) = false := by decide

theorem test_met_visit_identity : ((standby .expected).entry 0).presence = .expected ∧
    ((standby .lost).entry 0).presence = .lost ∧ ((standby .mismatch).entry 0).presence = .mismatch ∧
    ((standby .joining).entry 0).presence = .joining ∧ ((standby .joining).entry 0).identity = some own ∧
    (own.inputCount = station.inputCount ∧ own.outputCount = station.outputCount ∧
      own.inputWidth = station.inputWidth ∧ own.outputWidth = station.outputWidth) ∧
    ({ own with outputCount := 3 } : Identity).outputCount ≠ station.outputCount ∧
    ({ own with tag := 1 } : Identity).tag ≠ own.tag ∧
    ((standby .joining).entry 0).joinCount + 1 < ((standby .joining).profile station.profile).joinThreshold ∧
    ({ joinThreshold := 1 } : Profile).joinThreshold ≤ ((standby .joining).entry 0).joinCount + 1 := by decide +kernel

theorem test_met_visit_miss (p : Presence) : ((standby p).entry 0).presence = p ∧
    ((standby p).entry 0).descriptor = some station ∧ ((standby .joining).entry 0).joinOrigin ≠ some .lost ∧
    ({ (standby .joining).entry 0 with joinOrigin := some .lost } : Entry).joinOrigin = some .lost ∧
    2 < ((standby p).profile station.profile).lossThreshold ∧
    ((standby p).profile station.profile).lossThreshold ≤ 3 := by cases p <;> decide +kernel

/-- A MISS of a MISMATCH entry that still holds a tag, from LOST, leaves an EXPECTED entry no tag after a join. -/
theorem test_a_missed_join_forgets_the_tag :
    (((standby .joining).takeMiss 0).entry 0).recordedTag = none ∧
      (((standby .joining).takeMiss 0).entry 0).presence = .expected ∧
      (((standby .present).takeMiss 0).entry 0).recordedTag = some 0x1234 := by decide +kernel

/-- A frame of a job in flight to address 0 on an ACTIVE line A, its window running. -/
def awaiting (j : Job) (kind : Byte) : State := flying sessioned (flight j 0 kind .waiting)

/-- A discovery slot at address 9. -/
def slot : Discovery := { address := 9, rest := [], found := none, refused := false }

theorem test_met_awaits (j : Job) (kind : Byte) : Awaits (awaiting j kind) .a (flight j 0 kind .waiting) ∧
    FromTarget (awaiting j kind) (flight j 0 kind .waiting) 0 ∧ SweepNotOwed (awaiting j kind) :=
  ⟨⟨rfl, rfl, rfl, Or.inr ⟨rfl, rfl⟩⟩, ⟨rfl, by decide, show (0 : Byte) ≠ octet 31 by decide⟩, rfl⟩

/-- A window held open by the frame that now completes. -/
theorem test_met_awaits_held_open (j : Job) : Awaits (flying sessioned (flight j 0 1 .heldOpen)) .a (flight j 0 1 .heldOpen) :=
  ⟨rfl, rfl, rfl, Or.inl rfl⟩

theorem test_met_station_frames : ((awaiting (.attempt ⟨0, 1, some .a⟩) 1).entry 0).descriptor = some station ∧
    ([0xA5] : List Byte).length = station.inputSize ∧
    ((List.range 4).map (fun i => (i, (0 : Fin 32), (1 : Byte)))).Nodup ∧ (7 : Nat) < station.count .input ∧
    (flight (.attempt ⟨0, 1, some .a⟩) 0 1 .waiting).frame.kind = 1 ∧
    (flight (.attempt ⟨0, 1, some .a⟩) 0 3 .waiting).frame.kind ≠ 1 ∧
    (flight (.probe slot) 9 3 .waiting).job = .probe slot := by decide +kernel

theorem test_met_parameter_frames :
    (transacting (awaiting (.exchange 0 0) 5) (transaction .read .sent (some 9))).slot 0 =
      some (transaction .read .sent (some 9)) ∧
    (transaction .read .sent none).length = 1 ∧ ([5] : List Byte).length = 1 ∧ (1 : Byte).toNat ≤ 1 ∧ (1 : Byte) ≠ 0 ∧
    (transaction .write .sent none).attempts < 3 ∧
    3 ≤ ({ transaction .write .sent none with attempts := 3 } : Transaction).attempts ∧
    (transaction .write .sent (some 9)).cancel.isSome = true := by decide +kernel

theorem test_met_open_request : sessioned.session.permitSessions = true ∧ sessioned.session.current.isSome = true ∧
    busy.session.current = none ∧
    ({ busy with session := { busy.session with permitSessions := false } } : State).session.permitSessions = false ∧
    slot.rest = [] ∧ ({ slot with rest := [.b] } : Discovery).rest ≠ [] := by
  decide

/-- An OPEN REQUEST of a discovery slot at address 9 that opens, with the entry ABSENT and with the entry EXTRA. -/
theorem test_met_open_request_opens :
    let s : State := flying (cycling .scanning .present .discoverySlot) (flight (.probe slot) 9 3 .waiting)
    let extra : State := { s with roster := s.roster.set 9 { presence := .extra, identity := some own } }
    Awaits s .a (flight (.probe slot) 9 3 .waiting) ∧ FromTarget s (flight (.probe slot) 9 3 .waiting) 9 ∧
      s.session.permitSessions = true ∧ s.session.current = none ∧ (s.entry slot.address).descriptor = none ∧
      (s.entry slot.address).presence = .absent ∧ (extra.entry slot.address).descriptor = none ∧
      (extra.entry slot.address).presence = .extra :=
  ⟨⟨rfl, rfl, rfl, Or.inr ⟨rfl, rfl⟩⟩, ⟨rfl, by decide, show (9 : Byte) ≠ octet 31 by decide⟩, rfl, rfl, by decide +kernel,
    by decide +kernel, by decide +kernel, by decide +kernel⟩

theorem test_met_service_answers : (awaiting .servicePoll 12).session.current = some session ∧
    session.lastNumber = some 1 ∧ session.lastNumber ≠ some 2 := by decide

/-- A frame in octets, its check correct. -/
def sentFrame (source kind : Byte) (payload : List Byte) : List Byte := Frame.octets ⟨31, source, kind, 0, payload⟩

/-- An error below the limit and at it, in a window and in none, on a line of each state. -/
theorem test_met_frames_and_errors : (sessioned.line .a).state = .active ∧ (sessioned.line .b).state = .quiet ∧
    sessioned.openWindow .a = none ∧
    (awaiting .servicePoll 12).openWindow .a = some (flight .servicePoll 0 12 .waiting) ∧
    (sessioned.line .a).errorCount + 1 < sessioned.config.setup.errorLimit ∧
    sessioned.config.setup.errorLimit ≤ 11 + 1 ∧ receiveOctets true [] = .error .aborted ∧
    receiveOctets false [0, 0, 0, 0] = .error .malformed ∧
    (List.replicate 80 (0 : Byte)).length ≤ 80 ∧
    (({ sessioned with lineB := { state := .disabled } } : State).line .b).state = .disabled ∧
    (({ sessioned with lineB := { state := .withdrawn } } : State).line .b).state = .withdrawn ∧
    sessioned.mode = .scanning := by decide +kernel

/-- Frame lengths at their limits, and a wrong check. -/
theorem test_met_frame_lengths : ([1, 2, 3, 0] : List Byte).length < 5 ∧ 80 < (([0, 0, 0, 0, 81] : List Byte).getD 4 0).toNat ∧
    ([31, 0, 1, 0, 0, 0] : List Byte).length ≠ frameLength [31, 0, 1, 0, 0, 0] ∧
    ([31, 0, 1, 0, 0, 0, 0] : List Byte).length = frameLength [31, 0, 1, 0, 0, 0, 0] ∧
    ([0, 0] : List Byte) ≠ wordOctets (frameCheck [31, 0, 1, 0, 0]) := by decide +kernel

/-- A frame of the own address, on a line that is ACTIVE; one of another address. -/
theorem test_met_own_address : receiveOctets false (sentFrame 31 1 []) = .ok ⟨31, 31, 1, 0, []⟩ ∧
    octet sessioned.ownAddress.val = 31 ∧ sessioned.own.standing = none ∧
    ({ sessioned with own := { seen := false, standing := some .a } } : State).own.standing = some .a ∧
    receiveOctets false (sentFrame 0 1 []) = .ok ⟨31, 0, 1, 0, []⟩ ∧ (0 : Byte) ≠ octet sessioned.ownAddress.val := by
  decide +kernel

/-- The errors by tests 5, 6 and 7: a REPLY of 3 octets, an IDENTITY where no window is open, and a SERVICE ANSWER of no
contents in the window of a SERVICE POLL. -/
theorem test_met_errors_by_contents :
    ErrorOn sessioned .a false (sentFrame 0 1 [1, 2, 3]) .malformed ∧
    ErrorOn sessioned .a false (sentFrame 0 13 [0]) .unsolicited ∧
    ErrorOn (awaiting .servicePoll 12) .a false (sentFrame 0 13 []) .malformed := by
  have own : ∀ s : State, s.ownAddress = 31 → (0 : Byte) ≠ octet s.ownAddress.val := fun s h => by rw [h]; decide
  refine ⟨Or.inr ⟨⟨31, 0, 1, 0, [1, 2, 3]⟩, by decide +kernel, own _ rfl, Or.inl ⟨rfl, ?_⟩⟩,
    Or.inr ⟨⟨31, 0, 13, 0, [0]⟩, by decide +kernel, own _ rfl, Or.inr (Or.inl ⟨rfl, .serviceAnswer, ?_, ?_⟩)⟩,
    Or.inr ⟨⟨31, 0, 13, 0, []⟩, by decide +kernel, own _ rfl,
      Or.inr (Or.inr ⟨rfl, .serviceAnswer, flight .servicePoll 0 12 .waiting, ?_, by decide +kernel, rfl, rfl, ?_⟩)⟩⟩
  · rintro k ⟨h, -, -, g⟩
    cases k <;> simp_all [FrameKind.code]
  · exact ⟨rfl, rfl, by decide, trivial⟩
  · intro w h
    rw [show sessioned.openWindow .a = none from rfl] at h
    cases h
  · exact ⟨rfl, rfl, by decide, trivial⟩
  · show ¬ ServiceGood []
    unfold ServiceGood
    decide

theorem test_met_own_traffic : (flight .servicePoll 0 12 .sending).window.isSome = true ∧
    (flight .servicePoll 0 12 .waiting).phase = .waiting ∧ State.reset.scan.flight = none ∧
    (sessioned.attemptLine (sessioned.entry 0) station (some .a)) = some .a ∧
    ((standby .present).attemptLine ((standby .present).entry 0) station (some .a)) = none ∧
    (transaction .read .sent none).attempts < 3 ∧
    3 ≤ ({ transaction .read .sent none with attempts := 3 } : Transaction).attempts ∧
    (transaction .read .sent (some 9)).cancel = some 9 := by decide +kernel

/-- A cycle at an address that is due, at one that is not, and past the last; in each slot. -/
theorem test_met_cycle_goes_on : (cycling .scanning .present .visiting).scan.flight = none ∧
    (cycling .scanning .present .visiting).scan.nextAddress = (0 : Addr).val ∧
    ((cycling .scanning .present .visiting).entry 0).presence ∈
      [Presence.expected, .joining, .present, .silent, .mismatch] ∧
    ((cycling .scanning .lost .visiting).entry 0).countdown = 0 ∧
    ((cycling .scanning .conflict .visiting).entry 0).presence = .conflict ∧ (32 : Nat) ≤ 32 ∧
    sessioned.session.current = some session ∧ (sessioned.line session.line).state = .active ∧
    ((standby .present).line session.line).state ≠ .active ∧ sessioned.config.setup.discovery = true ∧
    ((sessioned.entry 1).descriptor = none ∧ (sessioned.entry 1).presence = .absent) ∧
    (1 + 63 - (sessioned.scan.pointer.map Fin.val).getD 31) % 32 = 1 ∧
    (0 + 63 - ((some (0 : Addr)).map Fin.val).getD 31) % 32 = 31 := by decide +kernel

/-- A visit with a return probe due, without one, and with no line; a WAITING transaction at each number of attempts. -/
theorem test_met_visits_sent :
    (let d : Descriptor := { station with attachment := .dual }
     d.attachment = .dual ∧ (some LineId.b) ≠ some d.preferred ∧
      sessioned.scan.number.toNat % sessioned.config.setup.returnInterval = 0 ∧
      (sessioned.line d.preferred).state = .active) ∧
    sessioned.attemptLine (sessioned.entry 0) station none = some .a ∧
    (standby .present).attemptLine ((standby .present).entry 0) station none = none ∧ SweepNotOwed busy ∧
    busy.slot 0 = some (transaction .read .waiting none) ∧ (∀ i, i ≠ 0 → busy.slot i = none) ∧
    (busy.entry 0).presence = .present ∧ (transaction .read .waiting none).attempts + 1 < 3 ∧
    3 ≤ ({ transaction .read .waiting none with attempts := 2 } : Transaction).attempts + 1 := by
  unfold SweepNotOwed; decide +kernel

/-- A slot with each number of lines left, and an entry in each state that discovery probes. -/
theorem test_met_discovery_judged : ([.a, .b] : List LineId) = [.a] ++ .b :: [] ∧ ([.b] : List LineId) = [] ++ .b :: [] ∧
    ((standby .present).line .a).state ≠ .active ∧ (sessioned.line .a).state = .active ∧
    ((sessioned.entry 9).descriptor = none ∧ (sessioned.entry 9).presence = .absent) ∧
    ({ presence := .extra, identity := some own } : Entry).presence = .extra ∧
    (sessioned.entry 0).descriptor ≠ none ∧ slot.found = none ∧ slot.refused = false ∧
    ({ slot with refused := true } : Discovery).refused = true ∧
    ({ slot with found := some own } : Discovery).found = some own := by decide +kernel

theorem test_met_polls : busy.mode = .held ∧ sessioned.mode ≠ .held ∧ sessioned.safety.standing = false ∧
    (sessioned.entry 0).placement = some ⟨0, 1, 0, 4⟩ ∧ (1 : Fin 32).val < station.outputCount.val ∧
    station.outputWidth = .word := by decide +kernel

theorem test_met_cycles : (cycling .scanning .present .closing).scan.cycle = .closing ∧
    (cycling .scanning .present .closing).scan.flight = none ∧ TablesKept (cycling .scanning .present .closing) ∧
    (cycling .scanning .present .closing).session.current = none ∧
    (cycling .scanning .present .waiting).scan.cycle = .waiting ∧
    State.reset.scan.cycle ≠ .waiting ∧ ¬ (State.reset.scan.cycle = .closing ∧
    State.reset.scan.flight = none) :=
  ⟨rfl, rfl, by unfold TablesKept; decide +kernel, rfl, rfl, by decide, by decide⟩

/-- Two stations with fresh slices: 9 BIT inputs of which 7 bits of the last octet name no circuit, and 3 WORD inputs, each
with an input override. -/
def published : State :=
  { standby .present with
    roster := (State.reset.roster.set 0 { descriptor := copyAt mixed 0, placement := placementIn mixed 0 }).set 2
      { descriptor := copyAt mixed 2, placement := placementIn mixed 2 }
    scan := { State.reset.scan with
      buffer := (State.reset.scan.buffer.set 0 [0xFF, 0xFE]).set 2 [1, 2, 3, 4, 5, 6] }
    overrides := [{ overridden .controller with direction := .input, circuit := 8, value := 1 },
      { overridden .controller with direction := .input, circuit := 0, value := 0 },
      { overridden .controller with station := 2, direction := .input, circuit := 1, value := 0xABCD }] }

/-- What they publish: an override of each width, the padding bits as they came, and 0 past the last slice. -/
theorem test_met_publication : TablesKept published ∧ RosterKept published ∧
    (published.entry 0).descriptor.map Descriptor.inputWidth = some .bit ∧
    (published.entry 2).descriptor.map Descriptor.inputWidth = some .word ∧
    (List.range 10).map published.publication.read = [0xFE, 0xFF, 1, 2, 0xCD, 0xAB, 5, 6, 0, 0] ∧
    ∀ a p, (published.entry a).placement = some p → 8 < p.inputOffset ∨ p.inputOffset + p.inputSize ≤ 8 := by
  refine ⟨by unfold TablesKept; decide +kernel, rosterKept_of_test (by decide +kernel), by decide +kernel, by decide +kernel,
    by decide +kernel, ?_⟩
  have h : ∀ a, ∀ p ∈ (published.entry a).placement, 8 < p.inputOffset ∨ p.inputOffset + p.inputSize ≤ 8 := by
    decide +kernel
  exact fun a p e => h a p e

/-- A cycle end with a COMMIT and a STOP pending, and with a session. -/
theorem test_met_cycle_end_work :
    let s : State := { served with
      stopPending := some 3
      scan := { served.scan with cycle := .closing }
      config := { served.config with staging := .commitPending 4 copy, setup := { served.config.setup with cyclePeriod := 20 } } }
    s.scan.cycle = .closing ∧ TablesKept s ∧ s.session.current = some session ∧ (s.entry session.tool).descriptor = none ∧
      s.stopPending = some 3 ∧ s.config.staging = .commitPending 4 copy ∧ s.config.setup.cyclePeriod ≠ 0 :=
  ⟨rfl, by unfold TablesKept; decide +kernel, rfl, by decide +kernel, rfl, rfl, by decide⟩

/-- Rows of the frame kinds, with payloads of 0, 1 and 80 octets, and one that is of no frame kind. -/
theorem test_met_row_frames : rowFrame 31 (.paramAnswer .b 32 1 []) = some (.b, ⟨31, 32, 7, 1, []⟩) ∧
    rowFrame 31 (.keepalive .a 255) = some (.a, ⟨31, 255, 13, 0, [0]⟩) ∧
    rowFrame 31 (.reply .a 0 0x1234 [255] 200 true [⟨.output, 31, 9, 7⟩]) =
      some (.a, ⟨31, 0, 2, 0, [0x34, 0x12, 255, 200, 129, 159, 9, 7]⟩) ∧
    (rowFrame 31 (.reply .a 0 0 (List.replicate 64 0) 0 false (List.replicate 4 ⟨.input, 0, 1, 0⟩))).map
      (fun x => x.2.payload.length) = some 80 ∧
    rowFrame 31 .submit = none ∧
    replyPayload 0x1234 [255] 200 true [⟨.output, 31, 9, 7⟩] [255] = [0x34, 0x12, 255, 200, 129, 255, 9, 7] ∧
    (checked 31 0 4 5 [8, 0, 2, 1, 1, 0x34, 0x12]).take 5 = [31, 0, 4, 5, 7] := by decide +kernel

/-- The pads of a REPLY: no frame in flight, and an attempt of a station whose slice has the size sent. -/
theorem test_met_reply_pads :
    let s := flying (cycling .scanning .present .visiting) (flight (.attempt ⟨0, 1, some .a⟩) 0 1 .waiting)
    (standby .present).scan.flight = none ∧ (s.scan.flight).isSome = true ∧
      ((s.entry 0).descriptor.map Descriptor.inputSize) = some [0xFF].length := by decide +kernel

/-- A visit's outcome that retired a record owes a sweep, which its group's end runs. -/
theorem test_met_visit_group :
    let s : State := { busy with cond := { busy.cond with sweepOwed := true } }
    ¬ SweepNotOwed s ∧ SweepNotOwed s.endGroup ∧ s.endGroup.cond.records.length = busy.cond.records.length + 1 := by
  unfold SweepNotOwed; decide +kernel

theorem test_met_timers : SweepNotOwed busy ∧ State.reset.safety.timer = none ∧
    (busy.line .a).errorWindow.isSome = true ∧ (busy.line .b).errorWindow = none ∧ (busy.line .a).state ≠ .withdrawn ∧
    (opened busy copy).config.staging = .opened copy ∧ (opened busy copy).config.gapTimer.isSome = true ∧
    sessioned.session.current = some session ∧ busy.session.current = none ∧
    ({ limit := 250, timer := some 250, standing := false } : OutputSafety).timer.isSome = true ∧
    ({ state := .withdrawn, withdrawal := some 2000 } : LineEngine).state = .withdrawn :=
  ⟨rfl, rfl, rfl, rfl, by decide, rfl, rfl, rfl, rfl, rfl, rfl⟩

end Sys2Proof.Tests
end

section
/-! PROOFS. The requests on the condition table that are answered at once: READ CONDITION REF (R70), READ TABLE STATE (R71)
and CLEAR OVERFLOW (R64). -/

namespace Sys2Proof.Proofs

open Sys2Proof.Machine Sys2Proof.Safety Sys2Proof.Laws

/-! ## A request answered at once -/

theorem sweepOwed_of_ready {s : State} {k : RequestKind} {r : Memory} {rest : List Memory} (h : Ready s k r rest) :
    s.cond.sweepOwed = false := by
  obtain ⟨-, -, -, howed⟩ := h
  exact howed

/-- What a ready record's row answers, from what its unit answers: `u` is the state the unit leaves, the record taken (R184). -/
theorem next_runRequest_eq_answers {s u : State} {k : RequestKind} {r : Memory} {rest : List Memory} (h : Ready s k r rest)
    {body : Memory → State → Option Answer × State} {x : Answer} (hb : body r (taken s rest) = (some x, taken u rest))
    (ho : u.cond.sweepOwed = false) :
    Host.Outcome.next (s.runRequest k body) = answers u r rest x.status x.result :=
  congrArg Host.Outcome.next (run_reply h hb ho)

/-! ## READ CONDITION REF (R70) -/

theorem exec_readConditionRef {s : State} {r : Memory} {rest : List Memory} (h : Ready s .readConditionRef r rest) :
    exec .readConditionRef s = answers s r rest (s.readConditionRef (operand r 0) (operand r 1)).status
      (s.readConditionRef (operand r 0) (operand r 1)).result :=
  next_runRequest_eq_answers h rfl (sweepOwed_of_ready h)

theorem readConditionRef_of_slot_above {s : State} {slot generation : Byte} (h : 63 < slot.toNat) :
    s.readConditionRef slot generation = ⟨.badOperand, []⟩ := by
  simp only [State.readConditionRef, below_none (show 64 ≤ slot.toNat from h)]

theorem readConditionRef_of_no_record {s : State} {i : Fin 64} {generation : Byte}
    (h : s.recordOfReference i generation = none) :
    s.readConditionRef (octet i.val) generation = ⟨.stale, []⟩ := by
  simp only [State.readConditionRef, below_octet (show 64 ≤ 256 by decide) i.isLt, h]

theorem readConditionRef_of_record {s : State} {i : Fin 64} {generation : Byte} {q : ConditionRecord}
    (h : s.recordOfReference i generation = some q) :
    s.readConditionRef (octet i.val) generation = ⟨.ok, recordFields q ++ [octet (s.positionOfRecord q)]⟩ := by
  simp only [State.readConditionRef, below_octet (show 64 ≤ 256 by decide) i.isLt, h, recordFields_eq]

/-- Where slots are distinct, the first record with the slot of the record at `n` is that record itself (R46, R47). -/
theorem positionOfRecord_of_getElem? {s : State} (hn : (s.cond.records.map ConditionRecord.slot).Nodup) {n : Nat}
    {q : ConditionRecord} (hq : s.cond.records[n]? = some q) : s.positionOfRecord q = n := by
  obtain ⟨hlt, hget⟩ := List.getElem?_eq_some_iff.1 hq
  refine (List.findIdx_eq hlt).2 ⟨by simp [hget], fun j hj => decide_eq_false fun hslot => ?_⟩
  have hjn : j = n := (hn.getElem_inj_iff (hi := by simpa using hj.trans hlt) (hj := by simpa using hlt)).1
    (by simpa [hget] using hslot)
  exact hj.ne hjn

/-- Settles O34: the reference's slot operand decides BAD OPERAND, the search for its record STALE or OK, and distinct
slots make the record found, and its position, the ones named. -/
theorem readConditionRef : Obligations.ReadConditionRef := by
  intro s r rest hready hkept
  obtain ⟨-, -, hslots, -⟩ := hkept
  rw [exec_readConditionRef hready]
  refine ⟨fun habove => ?badOperand, fun i hi => ⟨fun hnone => ?stale, fun n q hq hslot hgen => ?ok⟩⟩
  case badOperand => rw [readConditionRef_of_slot_above habove]
  case stale => rw [hi, readConditionRef_of_no_record (recordOf_none hnone)]
  case ok =>
    have hfound := recordOf_some hslots (List.mem_of_getElem? hq) hslot hgen
    rw [hi, readConditionRef_of_record hfound, positionOfRecord_of_getElem? hslots hq]

/-! ## READ TABLE STATE (R71) -/

theorem exec_readTableState {s : State} {r : Memory} {rest : List Memory} (h : Ready s .readTableState r rest) :
    exec .readTableState s = answers s r rest s.readTableState.status s.readTableState.result :=
  next_runRequest_eq_answers h rfl (sweepOwed_of_ready h)

/-- Every record is in exactly one of the three states (R71). -/
theorem recordsIn_add_recordsIn_add_recordsIn (s : State) :
    s.recordsIn .standing + s.recordsIn .standingAcked + s.recordsIn .ended = s.cond.records.length := by
  simp only [State.recordsIn]
  induction s.cond.records with
  | nil => rfl
  | cons q qs ih =>
    simp only [List.countP_cons, List.length_cons]
    cases q.state <;> simp <;> omega

/-- The model's test of an urgent record, in the words of R67. -/
theorem urgent_eq_decide (q : ConditionRecord) : q.urgent = decide ((q.cls = .diagnostic ∨ q.cls = .fatal) ∧
    (q.state = .standing ∨ q.state = .ended)) := by
  unfold ConditionRecord.urgent
  cases q.cls <;> cases q.state <;> rfl

theorem urgentCount_eq_countP (s : State) : s.urgentCount = s.cond.records.countP (fun q =>
    decide ((q.cls = .diagnostic ∨ q.cls = .fatal) ∧ (q.state = .standing ∨ q.state = .ended))) :=
  List.countP_congr fun q _ => by rw [urgent_eq_decide]

/-- The condition reason holds while an urgent record is held or the overflow flag is set (R67). -/
theorem conditionReason_iff (s : State) : s.conditionReason = true ↔ 0 < s.urgentCount ∨ s.cond.overflowFlag = true := by
  rw [State.conditionReason, Bool.or_eq_true, List.any_eq_true, State.urgentCount, List.countP_pos_iff]

/-- Settles O35: the model's counts are those of R71, and the reason is that of R67. -/
theorem readTableState : Obligations.ReadTableState := by
  intro s r rest hready held standing acked ended fatal urgent
  have hurgent : s.urgentCount = urgent := urgentCount_eq_countP s
  refine ⟨?answer, recordsIn_add_recordsIn_add_recordsIn s, hurgent ▸ conditionReason_iff s⟩
  case answer =>
    rw [exec_readTableState hready, ← hurgent]
    rfl

/-! ## CLEAR OVERFLOW (R64) -/

theorem exec_clearOverflow {s : State} {r : Memory} {rest : List Memory} (h : Ready s .clearOverflow r rest) :
    exec .clearOverflow s = answers { s with cond := { s.cond with overflowCount := 0 } } r rest .ok
      (numberOctets s.cond.overflowCount) :=
  next_runRequest_eq_answers (u := { s with cond := { s.cond with overflowCount := 0 } })
    (x := ⟨.ok, numberOctets s.cond.overflowCount⟩) h rfl (sweepOwed_of_ready h)

/-- Counting an overflow touches neither the queues nor the sweep (R63). -/
theorem ready_countOverflow {s : State} {k : RequestKind} {r : Memory} {rest : List Memory} (h : Ready s k r rest) :
    Ready s.countOverflow k r rest := h

/-- The overflow count stops at 65535 (R63). -/
theorem overflowCount_countOverflow (s : State) : s.countOverflow.cond.overflowCount =
    if s.cond.overflowCount < 65535 then s.cond.overflowCount + 1 else 65535 := by
  simp only [countOverflow_cond]
  split <;> omega

/-- Settles O38: the count is answered and cleared, and a beginning refused before or after counts one and sets the flag. -/
theorem clearOverflow : Obligations.ClearOverflow := by
  intro s r rest hready
  refine ⟨exec_clearOverflow hready, ?refusedBefore, fun t ht => ?refusedAfter, rfl⟩
  case refusedBefore => rw [exec_clearOverflow (ready_countOverflow hready), overflowCount_countOverflow]
  case refusedAfter =>
    rw [exec_clearOverflow hready] at ht
    obtain rfl := Host.Outcome.next.inj ht
    exact ⟨rfl, rfl⟩

end Sys2Proof.Proofs
end

section
/-! PROOFS. The request on the action map that is answered at once: READ ACTION (R76). -/

namespace Sys2Proof.Proofs

open Sys2Proof.Machine Sys2Proof.Safety Sys2Proof.Laws

/-! ## The category numbers (Table 3-2) -/

theorem toNat_category_code (c : Category) : c.code.toNat = c.index.val + 1 := by
  have := c.index.isLt
  simp only [Category.code, BitVec.toNat_ofNat]
  omega

/-- The categories' numbers are all within 1-12 (Table 3-2). -/
theorem categoryOf_none {b : Byte} (h : b = 0 ∨ 12 < b.toNat) : categoryOf b = none := by
  simp only [categoryOf, List.find?_eq_none, decide_eq_true_eq]
  rintro c - rfl
  have hcode := toNat_category_code c
  have hindex := c.index.isLt
  rcases h with hzero | habove
  · rw [hzero] at hcode
    cases hcode
  · omega

/-- SET ACTION may change exactly the categories that are not fixed (Table 3-2). -/
theorem configurable_eq_decide (c : Category) : c.configurable = decide (c ∉ fixedCategories) := by
  cases c <;> rfl

/-! ## READ ACTION (R76) -/

theorem exec_readAction {s : State} {r : Memory} {rest : List Memory} (h : Ready s .readAction r rest) :
    exec .readAction s = answers s r rest (s.readAction (operand r 0)).status (s.readAction (operand r 0)).result :=
  next_runRequest_eq_answers h rfl (sweepOwed_of_ready h)

theorem readAction_of_categoryOf_none {s : State} {b : Byte} (h : categoryOf b = none) :
    s.readAction b = ⟨.badOperand, []⟩ := by
  simp only [State.readAction, h]

theorem readAction_code (s : State) (c : Category) : s.readAction c.code =
    ⟨.ok, [(s.action c).cls.code, flagCode (s.action c).latching, flagCode (decide (c ∉ fixedCategories))]⟩ := by
  simp only [State.readAction, categoryOf_code, configurable_eq_decide]

/-- Settles O28: the category operand alone decides between BAD OPERAND and the entry of its category. -/
theorem readAction : Obligations.ReadAction := by
  intro s r rest hready
  rw [exec_readAction hready]
  refine ⟨fun houtside => ?badOperand, fun c hc => ?ok⟩
  case badOperand => rw [readAction_of_categoryOf_none (categoryOf_none houtside)]
  case ok => rw [hc, readAction_code]

end Sys2Proof.Proofs
end

section
/-! PROOFS. The requests on an open staging copy that hand no change to the condition unit: STAGE REMOVE (R161) and
STAGE ABORT (R163). -/

namespace Sys2Proof.Proofs

open Sys2Proof.Machine Sys2Proof.Safety Sys2Proof.Laws

/-! ## A request on the open copy (R158) -/

theorem whileOpen_of_opened {s : State} {c : StagingCopy} (h : s.config.staging = .opened c)
    (edit : StagingCopy → State → Option Answer × State) : s.whileOpen edit = edit c s.restartGap := by
  simp only [State.whileOpen, h]

/-- What a ready record's row answers in OPEN, from what its work on the copy answers: `u` is the state that work leaves of
the one with the gap timer restarted, the record taken (R158, R184). -/
theorem next_whileOpen_eq_answers {s u : State} {k : RequestKind} {r : Memory} {rest : List Memory} {c : StagingCopy}
    (h : Ready s k r rest) (hc : s.config.staging = .opened c)
    {edit : Memory → StagingCopy → State → Option Answer × State} {x : Answer}
    (hedit : edit r c (taken s.restartGap rest) = (some x, taken u rest)) (ho : u.cond.sweepOwed = false) :
    Host.Outcome.next (s.runRequest k (fun r t => t.whileOpen (edit r))) = answers u r rest x.status x.result :=
  next_runRequest_eq_answers h ((whileOpen_of_opened (s := taken s rest) hc (edit r)).trans hedit) ho

/-! ## STAGE REMOVE (R161) -/

theorem stageRemove_of_address_above {s : State} {c : StagingCopy} {b : Byte} (h : 31 < b.toNat) :
    s.stageRemove c b = reply s .badOperand := by
  simp only [State.stageRemove, addrOf_none h]

theorem stageRemove_of_empty {s : State} {c : StagingCopy} {a : Addr} (h : copyAt c a = none) :
    s.stageRemove c (octet a.val) = reply s .notFound := by
  simp only [State.stageRemove, addrOf_octet, h, Option.isSome_none, Bool.false_eq_true, if_false]

theorem stageRemove_of_held {s : State} {c : StagingCopy} {a : Addr} (h : (copyAt c a).isSome = true) :
    s.stageRemove c (octet a.val) = reply (s.setCopy (c.set a.val none)) .ok := by
  simp only [State.stageRemove, addrOf_octet, h, if_true]

/-- What the row of a ready STAGE REMOVE answers in OPEN, from what the removal answers. -/
theorem exec_stageRemove {s u : State} {r : Memory} {rest : List Memory} {c : StagingCopy} {st : Status}
    (h : Ready s .stageRemove r rest) (hc : s.config.staging = .opened c)
    (hremove : (taken s.restartGap rest).stageRemove c (operand r 0) = reply (taken u rest) st)
    (ho : u.cond.sweepOwed = false) : exec .stageRemove s = answers u r rest st [] :=
  next_whileOpen_eq_answers h hc (edit := fun r c t => t.stageRemove c (operand r 0)) hremove ho

/-- A place emptied and then staged with a descriptor holds that descriptor (R160, R161). -/
theorem copyAt_set_none_set_some (c : StagingCopy) (a : Addr) (d : Descriptor) :
    copyAt ((c.set a.val none).set a.val (some d)) a = some d := by
  rw [RosterSafe.copyAt_set, if_pos rfl]

theorem comparisonOf_self (d : Descriptor) : comparisonOf (some d) (some d) = .unchanged :=
  if_pos rfl

/-- Settles O21: the address and then its place in the copy decide BAD OPERAND, NOT FOUND or the removal, and the committed
descriptor staged back into the place compares with itself. -/
theorem stageRemove : Obligations.StageRemove := by
  intro s r rest c hready hopen u
  have hsweep : s.cond.sweepOwed = false := sweepOwed_of_ready hready
  refine ⟨fun habove => ?badOperand, fun a ha => ⟨fun hempty => ?notFound, fun hheld => ?ok, fun d hd => ?unchanged⟩⟩
  case badOperand => exact exec_stageRemove hready hopen (stageRemove_of_address_above habove) hsweep
  case notFound => exact exec_stageRemove hready hopen (ha ▸ stageRemove_of_empty hempty) hsweep
  case ok => exact exec_stageRemove hready hopen (ha ▸ stageRemove_of_held hheld) hsweep
  case unchanged => rw [hd, copyAt_set_none_set_some, comparisonOf_self]

/-! ## STAGE ABORT (R163) -/

/-- Closing the staging undoes the restart of the gap timer that OPEN begins with (R158, R163). -/
theorem closeStaging_restartGap (s : State) : s.restartGap.closeStaging = s.closeStaging := rfl

/-- Settles O22: the work on the copy is to close the staging, which touches no other field. -/
theorem stageAbort : Obligations.StageAbort := by
  intro s r rest c hready hopen
  have hclose : reply (taken s.restartGap rest).closeStaging .ok = (some ⟨.ok, []⟩, taken s.closeStaging rest) :=
    congrArg (fun t => reply (taken t rest) .ok) (closeStaging_restartGap s)
  exact next_whileOpen_eq_answers hready hopen (edit := fun _ _ t => reply t.closeStaging .ok) hclose
    (sweepOwed_of_ready hready)

end Sys2Proof.Proofs
end

section
/-! PROOFS. The step and the reset (R184, R20), and the invariants of the condition unit and the mode that every step
keeps: R77, the fixed actions (R75), and what holds at reset. -/

namespace Sys2Proof.Proofs

open Sys2Proof.Machine Sys2Proof.Safety Sys2Proof.Laws

/-! ## The step and the reset -/

/-- Settles O1: both parts are the two equations of `step`. -/
theorem stepTakesFrontCommand : Obligations.StepTakesFrontCommand := by
  refine ⟨fun c rest s h => ?front, fun s h => ?idle⟩
  case front => simp only [step, h]
  case idle => simp only [step, h]

theorem entry_reset (a : Addr) : State.reset.entry a = { presence := if a.val = 31 then .own else .absent } := by
  revert a; decide

theorem line_reset (l : LineId) : State.reset.line l = {} := by
  cases l <;> rfl

/-- Settles O2: the reset state is a literal; its tables are read off address by address. -/
theorem powerOnReset : Obligations.PowerOnReset := by
  unfold Obligations.PowerOnReset
  intro s
  refine ⟨fun _ => rfl, rfl, rfl, entry_reset, ?profiles, rfl, ?generations, rfl, rfl, rfl, rfl, rfl, rfl, rfl, rfl, rfl,
    fun _ => ⟨rfl, rfl, rfl, rfl⟩, ?lines, rfl, rfl, ?slots, ?toggles, rfl, rfl, rfl, rfl, rfl, rfl, rfl, rfl, rfl, rfl, rfl⟩
  case profiles => decide
  case generations => intro i; exact Vector.getElem_replicate _
  case lines =>
    intro l
    rw [line_reset]
    exact ⟨rfl, rfl, rfl, rfl, rfl, rfl, rfl⟩
  case slots => decide
  case toggles => intro a; exact Vector.getElem_replicate _

/-- Settles O4: at reset every table is empty, the roster is that of `RosterSafe.reset`, and nothing is promised. -/
theorem invariantsAtReset : Obligations.InvariantsAtReset := by
  have hroster : RosterKept State.reset := ((rosterSafe_iff _).1 RosterSafe.reset).1
  refine ⟨⟨wf_nil, wf_nil, wf_nil, wf_nil, fun r hr => ?requests⟩, ?fatal, ⟨?tables, hroster⟩, ?actions, rfl, ?promises⟩
  case requests => cases hr
  case fatal => intro h; exact absurd h (by decide)
  case tables => exact ⟨Nat.zero_le _, .nil, .nil, Nat.zero_le _, .nil, Nat.zero_le _, Nat.zero_le _⟩
  case actions => unfold FixedActionsKept; decide
  case promises =>
    have hslots : ∀ i, State.reset.slot i = none := by decide
    refine ⟨by decide, by decide, fun i t ht => ?_⟩
    rw [hslots] at ht
    cases ht

/-! ## START and the conditions (R153) -/

theorem startLine_cond (s : State) (l : LineId) : (s.startLine l).cond = s.cond := by
  unfold State.startLine
  split
  · cases l <;> rfl
  · rfl

/-- A START touches no condition (R153). -/
theorem startScanning_cond (s : State) : s.startScanning.cond = s.cond := by
  simp only [State.startScanning, State.beginCycle, State.startRefresh, drawn_cond, startLine_cond]

/-! ## A property of the condition records and the mode -/

/-- What the rows set apart by `CondKept.special` ask of a property beside `CondKept`: an acknowledgement, a table emptied by
a restart, and an entry to SCANNING that finds no FATAL record keep it, and the overflow and the sweep's marker do not
matter. -/
structure RecordsKept (P : State → Prop) : Prop extends CondKept P where
  acks : ∀ s r, P s → P (s.ackRecord r)
  empties : ∀ s t : State, P s → t.cond.records = [] → t.cond.actionMap = s.cond.actionMap → P t
  scans : ∀ s t : State, P s → t.cond = s.cond → s.fatalCount = 0 → P t
  counts : ∀ s t : State, P s → t.cond.records = s.cond.records → t.cond.actionMap = s.cond.actionMap →
    t.mode = s.mode → P t

namespace RecordsKept

variable {P : State → Prop} (h : RecordsKept P)
include h

theorem restart {s : State} (k : P s) : P s.restart :=
  h.sweeps _ (h.empties s _ k rfl rfl)

theorem startRequest {s : State} (k : P s) : P s.startRequest.2 := by
  simp only [State.startRequest]
  split
  · exact k
  split
  · exact k
  split
  · exact k
  next hfatal => exact h.scans s _ k (startScanning_cond s) (Nat.eq_zero_of_not_pos hfatal)

theorem resumeRequest {s : State} (k : P s) : P s.resumeRequest.2 := by
  simp only [State.resumeRequest]
  split
  · exact k
  split
  · exact k
  next hfatal => exact h.scans s _ k rfl (Nat.eq_zero_of_not_pos hfatal)

theorem ackAll {s : State} (k : P s) : P s.ackAll.2 :=
  h.counts _ _ (keeps_foldl (P := P) State.ackRecord (fun t r ht => h.acks t r ht) s.cond.records k) rfl rfl rfl

theorem ackCondition {s : State} (k : P s) (slot generation : Byte) : P (s.ackCondition slot generation).2 := by
  simp only [State.ackCondition]
  split
  · exact k
  split
  · exact k
  · exact h.acks _ _ k

/-- The rows of `CondKept.special` but POWER ON RESET and SET ACTION keep such a property. -/
theorem exec_special {s t : State} (k : P s) {i : Instr} (hi : CondKept.special i = true) (hreset : i ≠ .powerOnReset)
    (haction : i ≠ .setAction) (e : exec i s = .next t) : P t := by
  have hp : P s.popRequest := h.frame s _ k rfl rfl
  cases i <;> simp only [CondKept.special, Bool.false_eq_true] at hi
  case powerOnReset => exact absurd rfl hreset
  case setAction => exact absurd rfl haction
  case restartLine =>
    obtain rfl := Host.Outcome.next.inj e
    split
    · exact k
    · exact h.restart (h.frame s _ k rfl rfl)
  case restart => exact Host.Outcome.next.inj e ▸ h.toCondKept.runRequest k _ _ (fun _ => h.restart hp)
  case start =>
    have hstart := h.toCondKept.runRequest k .start (fun _ u => u.startRequest) (fun _ => h.startRequest hp)
    obtain rfl := Host.Outcome.next.inj e
    split
    · exact h.toCondKept.scanOn hstart
    · exact hstart
  case resume => exact Host.Outcome.next.inj e ▸ h.toCondKept.runRequest k _ _ (fun _ => h.resumeRequest hp)
  case ackCondition => exact Host.Outcome.next.inj e ▸ h.toCondKept.runRequest k _ _ (fun _ => h.ackCondition hp _ _)
  case ackAll => exact Host.Outcome.next.inj e ▸ h.toCondKept.runRequest k _ _ (fun _ => h.ackAll hp)
  case clearOverflow =>
    exact Host.Outcome.next.inj e ▸ h.toCondKept.runRequest k _ _ (fun _ => h.counts _ _ hp rfl rfl rfl)

/-- Every step keeps such a property that POWER ON RESET makes true and SET ACTION keeps. -/
theorem step_keeps {s t : State} (k : P s) (hreset : ∀ u : State, P u.powerOn)
    (haction : ∀ u b c d, P u → P (u.setAction b c d).2) (e : step s = .next t) : P t := by
  rcases step_cases e with ⟨rfl, -⟩ | ⟨i, rest, -, he⟩
  · exact k
  have k' : P { s with pending := rest } := h.frame s _ k rfl rfl
  have hp : P { s with pending := rest }.popRequest := h.frame s _ k rfl rfl
  by_cases hi : CondKept.special i = false
  · exact h.toCondKept.exec_next k' hi he
  by_cases hr : i = .powerOnReset
  · subst hr
    exact Host.Outcome.next.inj he ▸ hreset _
  by_cases ha : i = .setAction
  · subst ha
    exact Host.Outcome.next.inj he ▸ h.toCondKept.runRequest k' _ _ (fun _ => haction _ _ _ _ hp)
  exact h.exec_special k' (by simpa using hi) hr ha he

end RecordsKept

/-- What SET ACTION may do (R75): nothing, or replace the entry of a category that is not fixed. -/
theorem setAction_cases (s : State) (b c d : Byte) : (s.setAction b c d).2 = s ∨
    ∃ k x, Category.configurable k = true ∧
      (s.setAction b c d).2 = { s with cond := { s.cond with actionMap := s.cond.actionMap.set k.index.val x } } := by
  simp only [State.setAction]
  split
  · split
    next hk => exact Or.inr ⟨_, _, hk, rfl⟩
    · exact Or.inl rfl
  · exact Or.inl rfl

/-! ## R77: no FATAL record while the mode is SCANNING -/

theorem fatalSafe_iff (s : State) : FatalNotScanning s ↔ FatalSafe s := by
  rw [FatalNotScanning, FatalSafe, fatalCount_pos]

theorem fatalSafe_ackRecord {s : State} (h : FatalSafe s) (r : ConditionRecord) : FatalSafe (s.ackRecord r) := by
  unfold State.ackRecord
  split
  · exact fatalSafe_changeRecord h _ _ (fun _ => rfl)
  · exact fatalSafe_removeRecord h r
  · exact h

theorem fatalSafe_of_no_records {t : State} (h : t.cond.records = []) : FatalSafe t := by
  rintro ⟨r, hr, -⟩
  rw [h] at hr
  cases hr

theorem fatalSafe_recordsKept : RecordsKept FatalSafe where
  toCondKept := fatalSafe_kept
  acks _ r h := fatalSafe_ackRecord h r
  empties _ _ _ hrecords _ := fatalSafe_of_no_records hrecords
  scans s t _ hcond hcount := by
    have hnone : ¬ ∃ r ∈ s.cond.records, r.cls = .fatal := fun hex => absurd (fatalCount_pos.2 hex) (by omega)
    intro hex
    rw [hcond] at hex
    exact absurd hex hnone
  counts s t h hrecords _ hmode := by
    unfold FatalSafe
    rw [hrecords, hmode]
    exact h

/-- Settles O6: R77 is `FatalSafe`, which every operation of the condition unit keeps, and only a START or RESUME that finds
no FATAL record enters SCANNING. -/
theorem fatalNotScanningKept : Obligations.FatalNotScanningKept := by
  intro s t hs hstep
  rw [fatalSafe_iff] at hs ⊢
  refine fatalSafe_recordsKept.step_keeps hs (fun _ => fatalSafe_of_no_records rfl) (fun u b c d hu => ?_) hstep
  rcases setAction_cases u b c d with e | ⟨k, x, -, e⟩
  · rwa [e]
  · rw [e]
    exact hu

/-! ## R75: the fixed actions -/

theorem actionMap_ackRecord (s : State) (r : ConditionRecord) : (s.ackRecord r).cond.actionMap = s.cond.actionMap := by
  unfold State.ackRecord
  split <;> rfl

theorem fixedActions_of_actionMap {s t : State} (h : FixedActionsKept s) (e : t.cond.actionMap = s.cond.actionMap) :
    FixedActionsKept t := by
  intro c hc
  rw [← h c hc, State.action, State.action]
  simp only [e]

theorem fixedActions_recordsKept : RecordsKept FixedActionsKept where
  frame _ _ h hcond _ := fixedActions_of_actionMap h (by rw [hcond])
  begins s c h := fixedActions_of_actionMap h ((actionMap_kept s.cond.actionMap).begins s c rfl)
  finishes s k h := fixedActions_of_actionMap h ((actionMap_kept s.cond.actionMap).finishes s k rfl)
  refreshes s c h := fixedActions_of_actionMap h ((actionMap_kept s.cond.actionMap).refreshes s c rfl)
  removes _ _ h := h
  sweeps s h := fixedActions_of_actionMap h ((actionMap_kept s.cond.actionMap).sweeps s rfl)
  modes _ _ h _ := h
  acks s r h := fixedActions_of_actionMap h (actionMap_ackRecord s r)
  empties _ _ h _ hmap := fixedActions_of_actionMap h hmap
  scans _ _ h hcond _ := fixedActions_of_actionMap h (by rw [hcond])
  counts _ _ h _ hmap _ := fixedActions_of_actionMap h hmap

theorem category_index_injective {j k : Category} (h : j.index.val = k.index.val) : j = k := by
  revert h
  cases j <;> cases k <;> decide

/-- Settles O8: no operation but SET ACTION and a reset touches the action map, SET ACTION refuses the fixed categories, and
the reset writes the default map. -/
theorem fixedActionsStay : Obligations.FixedActionsStay := by
  intro s t hs hstep
  refine fixedActions_recordsKept.step_keeps hs (fun _ c _ => rfl) (fun u b c d hu => ?_) hstep
  rcases setAction_cases u b c d with e | ⟨k, x, hk, e⟩
  · rwa [e]
  intro j hj
  have hne : k.index.val ≠ j.index.val := fun heq => by
    obtain rfl := category_index_injective heq
    rw [configurable_eq_decide] at hk
    exact absurd hj (of_decide_eq_true hk)
  rw [e, ← hu j hj]
  exact Vector.getElem_set_ne k.index.isLt j.index.isLt hne

end Sys2Proof.Proofs
end

section
/-! PROOFS. Every step ends its groups: no sweep stays owed (R51, R65; notes/assumptions/27.md). -/

namespace Sys2Proof.Proofs

open Sys2Proof.Machine Sys2Proof.Safety Sys2Proof.Laws

namespace SweepNotOwed

/-! ## What leaves the condition unit alone -/

theorem of_cond {s t : State} (h : SweepNotOwed s) (e : t.cond = s.cond) : SweepNotOwed t := by
  rw [SweepNotOwed, e]
  exact h

theorem of_transOnly {s t : State} (h : SweepNotOwed s) (r : TransOnly s t) : SweepNotOwed t := by
  rw [TransOnly] at r
  exact of_cond h (by rw [r])

theorem endGroup (s : State) : SweepNotOwed s.endGroup := sweepOwed_endGroup s

/-! ## The scan engine -/

theorem send {s : State} (h : SweepNotOwed s) (j : Job) (l : LineId) (f : Frame) (w : Option Nat) :
    SweepNotOwed (s.send j l f w) := h

theorem issue {s : State} (h : SweepNotOwed s) (i : Fin 4) (t : Transaction) (e : Entry) (d : Descriptor) :
    SweepNotOwed (s.issue i t e d) := by
  simp only [State.issue]
  split
  · exact of_transOnly h (transOnly_failAttempt s i _)
  · exact of_cond h rfl

theorem afterVisit (s : State) (a : Addr) : SweepNotOwed (s.afterVisit a) := by
  have h := endGroup s
  simp only [State.afterVisit]
  split
  · split
    · split
      · exact issue h _ _ _ _
      · exact h
    · exact h
  · exact h

theorem nextAttempt {s : State} (h : SweepNotOwed s) (a : Addr) (d : Descriptor) (last : Option LineId) (left : Nat) :
    SweepNotOwed (s.nextAttempt a d last left) := by
  simp only [State.nextAttempt]
  split
  next t ht =>
    obtain ⟨j, l, f, w, rfl⟩ := makeAttempt_eq_send ht
    exact of_cond h rfl
  · exact afterVisit _ a

theorem startVisit {s : State} (h : SweepNotOwed s) (a : Addr) : SweepNotOwed (s.startVisit a) := by
  simp only [State.startVisit]
  split
  · exact h
  · split
    · exact of_cond h rfl
    · exact nextAttempt h _ _ _ _

theorem visitAt {s : State} (h : SweepNotOwed s) (a : Addr) : SweepNotOwed (s.visitAt a) := by
  simp only [State.visitAt]
  split
  · exact h
  · split
    · exact startVisit (of_cond h (by rfl)) a
    · exact of_cond h rfl

theorem visitRest {s : State} (h : SweepNotOwed s) : SweepNotOwed s.visitRest :=
  keeps_foldl (P := SweepNotOwed) State.visitAt (fun _ a ht => visitAt ht a) _ h

theorem enterSessionSlot {s : State} (h : SweepNotOwed s) : SweepNotOwed s.enterSessionSlot := by
  simp only [State.enterSessionSlot]
  split
  · exact of_cond h rfl
  · split <;> exact of_cond h rfl

theorem judge {s : State} (h : SweepNotOwed s) (d : Discovery) : SweepNotOwed (s.judge d) := by
  simp only [State.judge]
  split
  · exact h
  · split
    · exact endGroup _
    · split
      · exact h
      · exact endGroup _

theorem probe {s : State} (h : SweepNotOwed s) (d : Discovery) (l : LineId) : SweepNotOwed (s.probe d l) := of_cond h rfl

theorem probeNext {s : State} (h : SweepNotOwed s) (d : Discovery) : SweepNotOwed (s.probeNext d) := by
  simp only [State.probeNext]
  split
  · exact judge h d
  · split
    · exact probe h _ _
    · split
      · exact judge h _
      · split
        · exact probe h _ _
        · exact judge h _

theorem enterDiscovery {s : State} (h : SweepNotOwed s) : SweepNotOwed s.enterDiscovery := by
  simp only [State.enterDiscovery]
  split
  · split
    · exact probeNext (of_cond h (by rfl)) _
    · exact of_cond h rfl
  · exact of_cond h rfl

theorem inPart {s : State} (h : SweepNotOwed s) (c : CycleState) (f : State → State)
    (hf : ∀ t, SweepNotOwed t → SweepNotOwed (f t)) : SweepNotOwed (s.inPart c f) := by
  simp only [State.inPart]
  split
  · exact hf s h
  · exact h

theorem scanOn {s : State} (h : SweepNotOwed s) : SweepNotOwed s.scanOn := by
  have h1 := inPart h .visiting _ (fun _ => visitRest)
  have h2 := inPart h1 .visiting _ (fun _ => enterSessionSlot)
  have h3 := inPart h2 .sessionSlot _ (fun _ => enterDiscovery)
  exact inPart h3 .discoverySlot _ (fun _ ht => of_cond ht rfl)

/-! ## The end of a reply window, and frames -/

theorem attemptEnded {s : State} (h : SweepNotOwed s) (v : Visit) (l : LineId) (answer : Option Frame) :
    SweepNotOwed (s.attemptEnded v l answer) := by
  simp only [State.attemptEnded]
  split
  · exact h
  · split
    · exact afterVisit _ _
    · exact nextAttempt h _ _ _ _

theorem exchangeEnded {s : State} (h : SweepNotOwed s) (i : Fin 4) (answer : Option Frame) :
    SweepNotOwed (s.exchangeEnded i answer) := by
  simp only [State.exchangeEnded]
  split
  · exact h
  · exact of_transOnly h (transOnly_failAttempt s i _)
  · split
    · exact of_transOnly h (transOnly_completeAnswered s i _ _ _)
    · split
      · exact of_transOnly h (transOnly_completeAnswered s i _ _ _)
      · split
        · exact of_transOnly h (transOnly_completeAnswered s i _ _ _)
        · exact of_transOnly h (transOnly_failAttempt s i _)

theorem pollEnded {s : State} (h : SweepNotOwed s) (answer : Option Frame) : SweepNotOwed (s.pollEnded answer) := by
  cases answer with
  | none => exact h
  | some f => exact endGroup _

theorem refuseSession {s : State} (h : SweepNotOwed s) (d : Discovery) (l : LineId) (reason : Byte) :
    SweepNotOwed (s.refuseSession d l reason) := by
  simp only [State.refuseSession]
  split
  · exact send (judge h _) _ _ _ _
  · exact send h _ _ _ _

theorem openRequested {s : State} (h : SweepNotOwed s) (d : Discovery) (l : LineId) (tag : Word) :
    SweepNotOwed (s.openRequested d l tag) := by
  simp only [State.openRequested]
  split
  · exact refuseSession h d l 2
  · split
    · exact refuseSession h d l 1
    · exact send (endGroup _) _ _ _ _

theorem probeEnded {s : State} (h : SweepNotOwed s) (d : Discovery) (l : LineId) (answer : Option Frame) :
    SweepNotOwed (s.probeEnded d l answer) := by
  simp only [State.probeEnded]
  split
  · exact probeNext h d
  · split
    · exact openRequested h _ _ _
    · split <;> exact probeNext h _

theorem windowEnds {s : State} (h : SweepNotOwed s) (f : Flight) (answer : Option Frame) :
    SweepNotOwed (s.windowEnds f answer) := by
  have h' : SweepNotOwed (s.setFlight none) := of_cond h rfl
  simp only [State.windowEnds]
  refine scanOn ?_
  split
  · exact attemptEnded h' _ _ _
  · exact exchangeEnded h' _ _
  · exact pollEnded h' _
  · exact probeEnded h' _ _ _
  · exact h'

theorem sent {s : State} (h : SweepNotOwed s) (f : Flight) : SweepNotOwed (s.sent f) := by
  have h' : SweepNotOwed (s.setFlight none) := of_cond h rfl
  simp only [State.sent]
  split
  · exact of_cond h rfl
  · refine scanOn ?_
    split
    · exact probeNext h' _
    · exact h'

theorem setLine {s : State} (h : SweepNotOwed s) (l : LineId) (e : LineEngine) : SweepNotOwed (s.setLine l e) := by
  cases l <;> exact h

theorem lineError {s : State} (h : SweepNotOwed s) (l : LineId) (c : ErrorClass) : SweepNotOwed (s.lineError l c) := by
  simp only [State.lineError]
  split
  · exact endGroup _
  · exact setLine h _ _

theorem seeOwnAddress {s : State} (h : SweepNotOwed s) (l : LineId) : SweepNotOwed (s.seeOwnAddress l) := by
  simp only [State.seeOwnAddress]
  split
  · exact of_cond h rfl
  · exact endGroup _

theorem takeClass {s : State} (h : SweepNotOwed s) (l : LineId) (w : Option Flight) (r : Received) :
    SweepNotOwed (s.takeClass l w r) := by
  cases r with
  | ownAddress =>
    simp only [State.takeClass]
    split
    · exact of_cond (seeOwnAddress h l) rfl
    · exact seeOwnAddress h l
  | error c =>
    simp only [State.takeClass]
    split
    · exact windowEnds (lineError h l c) _ _
    · exact lineError h l c
  | good k f =>
    simp only [State.takeClass]
    split
    · exact windowEnds h _ _
    · exact h

theorem receive {s : State} (h : SweepNotOwed s) (l : LineId) (r : Except ErrorClass Frame) :
    SweepNotOwed (s.receive l r) := by
  have h' : SweepNotOwed (s.received l) := setLine h l _
  simp only [State.receive]
  split
  · exact h
  · exact h'
  · exact takeClass h' _ _ _
  · split
    · split
      · exact seeOwnAddress h' l
      · exact h'
    · exact h'

theorem firstOctet {s : State} (h : SweepNotOwed s) (l : LineId) : SweepNotOwed (s.firstOctet l) := by
  simp only [State.firstOctet]
  split
  · exact h
  · split
    · split
      · exact of_cond (setLine h l _) rfl
      · exact setLine h l _
    · exact setLine h l _

/-! ## The cycle end, requests and window accesses -/

theorem afterClose {s : State} (h : SweepNotOwed s) : SweepNotOwed s.afterClose := by
  simp only [State.afterClose]
  split
  · exact scanOn (of_cond h rfl)
  · split
    · exact scanOn (of_cond h rfl)
    · exact of_cond h rfl

theorem cycleEnds (s : State) : SweepNotOwed s.cycleEnds := by
  have h : SweepNotOwed s.closeCycle := of_cond (sweepOwed_sweep _) rfl
  simp only [State.cycleEnds]
  split
  · exact of_cond h rfl
  · exact afterClose h

theorem runRequest {s : State} (h : SweepNotOwed s) (k : RequestKind) (body : Memory → State → Option Answer × State) :
    SweepNotOwed (s.runRequest k body) := by
  simp only [State.runRequest]
  split
  · exact endGroup _
  · exact h

theorem submit {s : State} (h : SweepNotOwed s) : SweepNotOwed s.submit := by
  unfold State.submit
  split <;> exact h

theorem storeOctets {s : State} (h : SweepNotOwed s) (o : Nat) (bs : List Byte) : SweepNotOwed (s.storeOctets o bs) := by
  induction bs generalizing s o with
  | nil => exact h
  | cons b bs ih =>
    refine ih ?_ _
    simp only [State.storeOctet]
    split
    · exact h
    · split <;> exact h

theorem windowWrite {s : State} (h : SweepNotOwed s) (o : Nat) (data : List Byte) :
    ∀ t, execWindowWrite o data s = .next t → SweepNotOwed t := by
  rintro t e
  have h1 := storeOctets h o data
  have h2 : SweepNotOwed (if touches o data.length 0x802 then (s.storeOctets o data).outputCommit
      else s.storeOctets o data) := by
    split
    · exact endGroup _
    · exact h1
  obtain rfl := Host.Outcome.next.inj e
  have h3 : ∀ u : State, SweepNotOwed u → SweepNotOwed (if touches o data.length 0x804 then u.submit else u) := by
    intro u hu
    split
    · exact submit hu
    · exact hu
  split
  · exact of_cond (h3 _ h2) rfl
  · exact h3 _ h2

/-- A row ends its groups, whatever it does. -/
theorem exec_next {s t : State} (h : SweepNotOwed s) {i : Instr} (e : exec i s = .next t) : SweepNotOwed t := by
  cases i
  case powerOnReset => exact Host.Outcome.next.inj e ▸ rfl
  case restartLine =>
    obtain rfl := Host.Outcome.next.inj e
    split
    · exact h
    · exact sweepOwed_sweep _
  case submit => exact Host.Outcome.next.inj e ▸ submit h
  case outputCommit => exact Host.Outcome.next.inj e ▸ endGroup _
  case responseTaken | restartLineRelease => exact Host.Outcome.next.inj e ▸ h
  case windowWrite o data => exact windowWrite h o data t e
  case start =>
    have hstart := runRequest h .start (fun _ u => u.startRequest)
    obtain rfl := Host.Outcome.next.inj e
    split
    · exact scanOn hstart
    · exact hstart
  case unknownRequest =>
    obtain rfl := Host.Outcome.next.inj e
    split
    · exact endGroup _
    · exact h
  case frameReceived | reply | identity | paramAnswer | paramRefuse | openRequest | keepalive | close |
      serviceReadEntry | serviceReadCondition | serviceSetOverride | serviceRemoveOverride =>
    exact Host.Outcome.next.inj e ▸ receive h _ _
  case frameSent =>
    simp only [exec, execFrameSent] at e
    split at e <;> obtain rfl := Host.Outcome.next.inj e
    · exact sent h _
    · exact h
  case replyWindowExpiry =>
    simp only [exec, execReplyWindowExpiry] at e
    split at e <;> obtain rfl := Host.Outcome.next.inj e
    · exact windowEnds h _ _
    · exact h
  case cycleEnd =>
    obtain rfl := Host.Outcome.next.inj e
    split
    · exact cycleEnds s
    · exact h
  case cyclePeriodExpiry =>
    obtain rfl := Host.Outcome.next.inj e
    split
    · exact scanOn (of_cond h rfl)
    · exact h
  case outputRefreshTimerExpiry =>
    obtain rfl := Host.Outcome.next.inj e
    split
    · simp only [State.refreshExpired]
      split
      · exact h
      · exact endGroup _
    · exact h
  case errorWindowExpiry =>
    obtain rfl := Host.Outcome.next.inj e
    split
    · exact setLine h _ _
    · exact h
  case withdrawalTimerExpiry =>
    obtain rfl := Host.Outcome.next.inj e
    split
    · exact endGroup _
    · exact h
  case stagingGapTimerExpiry =>
    obtain rfl := Host.Outcome.next.inj e
    split
    · simp only [State.gapExpired]
      split
      · exact h
      · exact endGroup _
    · exact h
  case sessionTimerExpiry => exact Host.Outcome.next.inj e ▸ endGroup _
  case frameFirstOctet => exact Host.Outcome.next.inj e ▸ firstOctet h _
  all_goals exact Host.Outcome.next.inj e ▸ runRequest h _ _

end SweepNotOwed

/-- Settles O9: every row that can retire or evict a record ends its group or sweeps last. -/
theorem noSweepStaysOwed : Obligations.NoSweepStaysOwed := by
  intro s t hs hstep
  rcases step_cases hstep with ⟨rfl, -⟩ | ⟨i, rest, -, he⟩
  · exact hs
  · exact SweepNotOwed.exec_next (s := { s with pending := rest }) hs he

end Sys2Proof.Proofs
end

section
/-! PROOFS. What every row keeps on the controller's side: the octet areas in their canonical form, the bounds of the override
table and of the request queue, and the law of the promised responses (R89, R91, R183, R185). One relation says it of each
operation, and the three invariants follow from it for every row at once. -/

namespace Sys2Proof.Proofs

open Sys2Proof.Machine Sys2Proof.Safety Sys2Proof.Laws

/-! ## The three properties, and the relation that keeps them -/

/-- The bounds of the override table and of the request queue, and one override record for a key (R89, R91, R183). -/
def PortTables (s : State) : Prop :=
  s.overrides.length ≤ 48 ∧ (s.overrides.map overrideKey).Nodup ∧ s.sessionShare ≤ 16 ∧ s.port.requests.length ≤ 8

/-- The response promised for a pending commit (R185). -/
def commitPromise : Staging → Nat
  | .commitPending _ _ => 1
  | _ => 0

/-- The response promised for a pending STOP (R185). -/
def stopPromise (tag : Option Byte) : Nat := if tag.isSome then 1 else 0

/-- The responses promised for the transactions (R185). -/
def slotPromises (s : State) : Nat := (allSlots.map (fun i => promisesOf (s.slot i))).sum

/-- The law of R185 inside a row: `reserved` places are kept free for responses still to be posted, and `owed` responses are
counted as deferred though what they were promised for is done. -/
structure Promised (reserved owed : Nat) (s : State) : Prop where
  count : s.port.deferred = slotPromises s + stopPromise s.stopPending + commitPromise s.config.staging + owed
  room : s.port.responses.length + s.port.deferred + reserved ≤ 12
  cancels : ∀ i t, s.slot i = some t → t.state = .waiting → t.cancel = none

theorem promises_eq (s : State) :
    promises s = slotPromises s + stopPromise s.stopPending + commitPromise s.config.staging := by
  unfold promises commitPromise
  cases s.config.staging <;> rfl

theorem promisesKept_iff (s : State) : PromisesKept s ↔ Promised 0 0 s := by
  rw [PromisesKept, promises_eq]
  exact ⟨fun ⟨hcount, hroom, hcancels⟩ => ⟨hcount, hroom, hcancels⟩,
    fun h => ⟨h.count, h.room, h.cancels⟩⟩

/-- From `s` to `t` the areas and the tables are kept, and the law of R185 goes from one number of places reserved and
responses owed to another. -/
structure Trades (a b a' b' : Nat) (s t : State) : Prop where
  areas : MemoryCanonical s → MemoryCanonical t
  tables : PortTables s → PortTables t
  promised : Promised a b s → Promised a' b' t

/-- All three are kept, whatever is reserved and owed. -/
def Keeps (s t : State) : Prop := ∀ a b, Trades a b a b s t

theorem Trades.trans {a b a' b' a'' b'' : Nat} {s t u : State} (h : Trades a b a' b' s t) (k : Trades a' b' a'' b'' t u) :
    Trades a b a'' b'' s u :=
  ⟨k.areas ∘ h.areas, k.tables ∘ h.tables, k.promised ∘ h.promised⟩

theorem Keeps.refl (s : State) : Keeps s s := fun _ _ => ⟨id, id, id⟩

theorem Keeps.trans {s t u : State} (h : Keeps s t) (k : Keeps t u) : Keeps s u := fun a b => (h a b).trans (k a b)

theorem keeps_foldl {α : Type} (f : State → α → State) (hf : ∀ s x, Keeps s (f s x)) (xs : List α) (s : State) :
    Keeps s (xs.foldl f s) :=
  Laws.keeps_foldl (P := Keeps s) f (fun t x h => h.trans (hf t x)) xs (Keeps.refl s)

/-- What the three properties read of a state. -/
def portView (s : State) : List OverrideRecord × Memory × Memory × Vector (Option Transaction) 4 × Option Byte × Nat ×
    Memory × Memory × List Memory × List Response × Nat :=
  (s.overrides, s.scan.published, s.scan.live, s.trans.slots, s.stopPending, commitPromise s.config.staging,
    s.port.entryArea, s.port.outputArea, s.port.requests, s.port.responses, s.port.deferred)

theorem keeps_of_view {s t : State} (h : portView t = portView s) : Keeps s t := by
  simp only [portView, Prod.mk.injEq] at h
  obtain ⟨hover, hpub, hlive, hslots, hstop, hstaging, hentry, hout, hreq, hresp, hdef⟩ := h
  have hslot : ∀ i, t.slot i = s.slot i := fun i => by rw [State.slot, State.slot]; simp only [hslots]
  intro a b
  refine ⟨fun h => ?areas, fun h => ?tables, fun h => ⟨?count, ?room, ?cancels⟩⟩
  case areas => rwa [MemoryCanonical, hpub, hlive, hout, hentry, hreq]
  case tables => rwa [PortTables, State.sessionShare, hover, hreq]
  case count =>
    have hsum : slotPromises t = slotPromises s := by simp only [slotPromises, hslot]
    rw [hdef, hsum, hstop, hstaging, h.count]
  case room => rw [hresp, hdef]; exact h.room
  case cancels => intro i u hu; rw [hslot] at hu; exact h.cancels i u hu

/-! ## Operations that touch none of it -/

theorem CondOnly.keeps {s t : State} (h : CondOnly s t) : Keeps s t := by
  have e := h.1
  exact keeps_of_view (by rw [e]; rfl)

theorem keeps_endGroup (s : State) : Keeps s s.endGroup := CondOnly.keeps (condOnly_endGroup s)

theorem keeps_updateStation (s : State) (a : Addr) (e : Entry) (v : Supervision) : Keeps s (s.updateStation a e v) :=
  (keeps_of_view (t := (s.setEntry a e).setSupervision a v) (by rfl)).trans (CondOnly.keeps (condOnly_handChanges _ _ _))

theorem keeps_setFlight (s : State) (f : Option Flight) : Keeps s (s.setFlight f) := keeps_of_view rfl

theorem keeps_send (s : State) (j : Job) (l : LineId) (f : Frame) (w : Option Nat) : Keeps s (s.send j l f w) :=
  keeps_of_view rfl

theorem keeps_pointer (s : State) (p : Option Addr) : Keeps s { s with scan := { s.scan with pointer := p } } :=
  keeps_of_view rfl

theorem keeps_session (s : State) (u : SessionUnit) : Keeps s { s with session := u } := keeps_of_view rfl

theorem keeps_setSession (s : State) (o : Option OpenSession) : Keeps s (s.setSession o) := keeps_of_view rfl

theorem keeps_setCycle (s : State) (c : CycleState) : Keeps s (s.setCycle c) := keeps_of_view rfl

theorem keeps_setLine (s : State) (l : LineId) (e : LineEngine) : Keeps s (s.setLine l e) := by
  cases l <;> exact keeps_of_view rfl

theorem keeps_beginCycle (s : State) : Keeps s s.beginCycle := keeps_of_view rfl

/-! ## Promises: slots, responses posted, responses promised (R145, R150, R185) -/

theorem slotPromises_eq (s : State) : slotPromises s =
    promisesOf (s.slot 0) + promisesOf (s.slot 1) + promisesOf (s.slot 2) + promisesOf (s.slot 3) := by
  have hslots : allSlots = [0, 1, 2, 3] := by decide
  simp only [slotPromises, hslots, List.map_cons, List.map_nil, List.sum_cons, List.sum_nil]
  omega

theorem slotPromises_setSlot (s : State) (i : Fin 4) (x : Option Transaction) :
    slotPromises (s.setSlot i x) + promisesOf (s.slot i) = slotPromises s + promisesOf x := by
  rw [slotPromises_eq, slotPromises_eq]
  simp only [slot_setSlot]
  match i with
  | 0 => simp; omega
  | 1 => simp; omega
  | 2 => simp; omega
  | 3 => simp; omega

theorem slotPromises_of_slots {s t : State} (h : ∀ i, t.slot i = s.slot i) : slotPromises t = slotPromises s := by
  simp only [slotPromises, h]

theorem cancels_setSlot {s : State} {i : Fin 4} {x : Option Transaction}
    (hs : ∀ j t, s.slot j = some t → t.state = .waiting → t.cancel = none)
    (hx : ∀ t, x = some t → t.state = .waiting → t.cancel = none) :
    ∀ j t, (s.setSlot i x).slot j = some t → t.state = .waiting → t.cancel = none := by
  intro j t ht
  rw [slot_setSlot] at ht
  split at ht
  · exact hx t ht
  · exact hs j t ht

theorem keeps_setSlot {s : State} {i : Fin 4} {x : Option Transaction} (h : promisesOf (s.slot i) = promisesOf x)
    (hx : ∀ t, x = some t → t.state = .waiting → t.cancel = none) : Keeps s (s.setSlot i x) := by
  have hsum := slotPromises_setSlot s i x
  intro a b
  refine ⟨id, id, fun hp => ⟨?_, hp.room, cancels_setSlot hp.cancels hx⟩⟩
  show s.port.deferred = slotPromises (s.setSlot i x) + stopPromise s.stopPending + commitPromise s.config.staging + b
  have := hp.count
  omega

theorem trades_post (s : State) (tag kind : Byte) (st : Status) (m : List Byte) (a b : Nat) :
    Trades (a + 1) b a b s (s.post tag kind st m) := by
  refine ⟨id, id, fun h => ⟨h.count, ?_, h.cancels⟩⟩
  have := h.room
  simp only [post_port, List.length_append, List.length_singleton]
  omega

theorem trades_postDeferred (s : State) (tag kind : Byte) (st : Status) (m : List Byte) (a b : Nat) :
    Trades a (b + 1) a b s (s.postDeferred tag kind st m) := by
  refine ⟨id, id, fun h => ⟨?_, ?_, h.cancels⟩⟩
  · have := h.count
    show s.port.deferred - 1 = slotPromises s + stopPromise s.stopPending + commitPromise s.config.staging + b
    omega
  · have := h.room
    have := h.count
    simp only [postDeferred_port, List.length_append, List.length_singleton]
    omega

/-- A slot freed owes the responses that were promised for it. -/
theorem trades_freeSlot (s : State) (i : Fin 4) (a b : Nat) :
    Trades a b a (b + promisesOf (s.slot i)) s (s.setSlot i none) := by
  have hsum := slotPromises_setSlot s i none
  refine ⟨id, id, fun h => ⟨?_, h.room, cancels_setSlot h.cancels (fun _ ht => by cases ht)⟩⟩
  show s.port.deferred = slotPromises (s.setSlot i none) + stopPromise s.stopPending + commitPromise s.config.staging +
    (b + promisesOf (s.slot i))
  have := h.count
  rw [show promisesOf none = 0 from rfl] at hsum
  omega

/-- A transaction completed, with its cancel answered, leaves nothing owed (R145, R150). -/
theorem keeps_completeAndAnswer {s : State} {i : Fin 4} {t : Transaction} (h : promisesOf (s.slot i) = promisesOf (some t))
    (st st' : Status) (m : List Byte) : Keeps s ((s.complete i t st m).answerCancel t st') := by
  intro a b
  have hfree := trades_freeSlot s i a b
  cases hc : t.cancel with
  | none =>
    rw [h, show promisesOf (some t) = 1 by simp [promisesOf, hc]] at hfree
    have hanswer : (s.complete i t st m).answerCancel t st' = s.complete i t st m := by
      simp only [State.answerCancel, hc]
    rw [hanswer]
    exact hfree.trans (trades_postDeferred _ _ _ _ _ a b)
  | some tag =>
    rw [h, show promisesOf (some t) = 1 + 1 by simp [promisesOf, hc]] at hfree
    have hanswer : (s.complete i t st m).answerCancel t st' =
        (s.complete i t st m).postDeferred tag RequestKind.cancelTransaction.code st' [] := by
      simp only [State.answerCancel, hc]
    rw [hanswer]
    exact (hfree.trans (trades_postDeferred _ _ _ _ _ a (b + 1))).trans (trades_postDeferred _ _ _ _ _ a b)

theorem answerCancel_of_none {t : Transaction} (h : t.cancel = none) (s : State) (st : Status) : s.answerCancel t st = s := by
  simp only [State.answerCancel, h]

theorem keeps_complete {s : State} {i : Fin 4} {t : Transaction} (h : promisesOf (s.slot i) = promisesOf (some t))
    (hc : t.cancel = none) (st : Status) (m : List Byte) : Keeps s (s.complete i t st m) := by
  have hk := keeps_completeAndAnswer h st .ok m
  rwa [answerCancel_of_none hc] at hk

theorem keeps_failAttempt {s : State} {i : Fin 4} {t : Transaction} (h : promisesOf (s.slot i) = promisesOf (some t)) :
    Keeps s (s.failAttempt i t) := by
  unfold State.failAttempt
  split
  · exact keeps_completeAndAnswer h _ _ _
  next hc =>
    split
    · exact keeps_complete h hc _ _
    · refine keeps_setSlot (h.trans rfl) ?_
      rintro u hu -
      obtain rfl := Option.some.inj hu
      exact hc

theorem keeps_completeWhere (s : State) (p : Transaction → Bool) (st : Status) : Keeps s (s.completeWhere p st) := by
  refine keeps_foldl _ (fun u i => ?_) allSlots s
  split
  · exact Keeps.refl u
  next t ht =>
    split
    · exact keeps_completeAndAnswer (by rw [ht]) _ _ _
    · exact Keeps.refl u

/-! ## The presence supervisor and the scan engine -/

theorem keeps_enterLost (s : State) (a : Addr) (d : Descriptor) : Keeps s (s.enterLost a d) := by
  refine Keeps.trans ?_ (CondOnly.keeps (condOnly_handChanges _ _ _))
  refine Keeps.trans (t := State.setSlice _ _ _) (keeps_of_view ?_) (keeps_completeWhere _ _ _)
  rfl

theorem keeps_lossRule (s : State) (a : Addr) (d : Descriptor) (misses : Nat) (kept : Presence) :
    Keeps s (s.lossRule a d misses kept) := by
  unfold State.lossRule
  split
  · exact keeps_enterLost s a d
  · exact keeps_updateStation s a _ _

theorem keeps_takeMiss (s : State) (a : Addr) : Keeps s (s.takeMiss a) := by
  simp only [State.takeMiss]
  split
  · exact Keeps.refl s
  · split
    case h_8 => exact Keeps.refl s
    case h_2 | h_7 => exact keeps_updateStation s a _ _
    all_goals exact keeps_lossRule s a _ _ _

theorem keeps_takeIdentity (s : State) (a : Addr) (l : LineId) (i : Identity) : Keeps s (s.takeIdentity a l i) := by
  simp only [State.takeIdentity]
  split
  · exact Keeps.refl s
  · exact keeps_updateStation s a _ _

theorem keeps_takeReply (s : State) (a : Addr) (l : LineId) (r : ReplyContents) : Keeps s (s.takeReply a l r) := by
  simp only [State.takeReply]
  split
  · exact Keeps.refl s
  · split
    · exact (keeps_of_view (t := s.setSlice a r.inputs) (by rfl)).trans (keeps_updateStation _ _ _ _)
    · exact keeps_updateStation s a _ _

theorem keeps_issue {s : State} {i : Fin 4} {t : Transaction} (h : s.slot i = some t) (e : Entry) (d : Descriptor) :
    Keeps s (s.issue i t e d) := by
  simp only [State.issue]
  split
  · exact keeps_failAttempt (by rw [h]; rfl)
  · refine (keeps_setSlot (x := some { t with attempts := t.attempts + 1, state := .sent }) (by rw [h]; rfl) ?_).trans
      (keeps_send _ _ _ _ _)
    rintro u hu hw
    obtain rfl := Option.some.inj hu
    cases hw

theorem keeps_afterVisit (s : State) (a : Addr) : Keeps s (s.afterVisit a) := by
  refine (keeps_endGroup s).trans ?_
  simp only [State.afterVisit]
  split
  · split
    next hslot =>
      split
      · exact keeps_issue hslot _ _
      · exact Keeps.refl _
    · exact Keeps.refl _
  · exact Keeps.refl _

theorem keeps_nextAttempt (s : State) (a : Addr) (d : Descriptor) (last : Option LineId) (left : Nat) :
    Keeps s (s.nextAttempt a d last left) := by
  simp only [State.nextAttempt]
  split
  next t ht =>
    obtain ⟨j, l, f, w, rfl⟩ := makeAttempt_eq_send ht
    exact keeps_send s _ _ _ _
  · exact (keeps_takeMiss s a).trans (keeps_afterVisit _ a)

theorem keeps_startVisit (s : State) (a : Addr) : Keeps s (s.startVisit a) := by
  simp only [State.startVisit]
  split
  · exact Keeps.refl s
  · split
    · exact keeps_send s _ _ _ _
    · exact keeps_nextAttempt s _ _ _ _

theorem keeps_visitAt (s : State) (a : Addr) : Keeps s (s.visitAt a) := by
  have hnext : Keeps s { s with scan := { s.scan with nextAddress := a.val + 1 } } := keeps_of_view rfl
  simp only [State.visitAt]
  split
  · exact Keeps.refl s
  · split
    · exact hnext.trans (keeps_startVisit _ a)
    · exact hnext

theorem keeps_enterSessionSlot (s : State) : Keeps s s.enterSessionSlot := by
  simp only [State.enterSessionSlot]
  split
  · exact keeps_setCycle s _
  · split
    · exact (keeps_setCycle s _).trans (keeps_send _ _ _ _ _)
    · exact keeps_setCycle s _

theorem keeps_judge (s : State) (d : Discovery) : Keeps s (s.judge d) := by
  simp only [State.judge]
  split
  · exact Keeps.refl s
  · split
    · exact (keeps_updateStation s _ _ _).trans (keeps_endGroup _)
    · split
      · exact Keeps.refl s
      · exact (keeps_updateStation s _ _ _).trans (keeps_endGroup _)

theorem keeps_probeNext (s : State) (d : Discovery) : Keeps s (s.probeNext d) := by
  simp only [State.probeNext]
  split
  · exact keeps_judge s d
  · split
    · exact keeps_send s _ _ _ _
    · split
      · exact keeps_judge s _
      · split
        · exact keeps_send s _ _ _ _
        · exact keeps_judge s _

theorem keeps_enterDiscovery (s : State) : Keeps s s.enterDiscovery := by
  have hcycle := keeps_setCycle s .discoverySlot
  simp only [State.enterDiscovery]
  split
  · split
    · exact (hcycle.trans (keeps_pointer _ _)).trans (keeps_probeNext _ _)
    · exact hcycle
  · exact hcycle

theorem keeps_inPart (s : State) (c : CycleState) (f : State → State) (hf : ∀ t, Keeps t (f t)) :
    Keeps s (s.inPart c f) := by
  simp only [State.inPart]
  split
  · exact hf s
  · exact Keeps.refl s

theorem keeps_scanOn (s : State) : Keeps s s.scanOn :=
  (((keeps_inPart s _ _ (fun t => keeps_foldl _ keeps_visitAt _ t)).trans
    (keeps_inPart _ _ _ keeps_enterSessionSlot)).trans (keeps_inPart _ _ _ keeps_enterDiscovery)).trans
    (keeps_inPart _ _ _ (fun t => keeps_setCycle t _))

/-! ## Lines -/

theorem keeps_withdrawLine (s : State) (l : LineId) (c : ErrorClass) : Keeps s (s.withdrawLine l c) := by
  have hline := keeps_setLine s l ((s.line l).withdraw s.config.setup.withdrawalTime c)
  exact ((hline.trans (keeps_setFlight _ _)).trans (CondOnly.keeps (condOnly_handChanges _ _ _))).trans (keeps_endGroup _)

theorem keeps_lineError (s : State) (l : LineId) (c : ErrorClass) : Keeps s (s.lineError l c) := by
  simp only [State.lineError]
  split
  · exact (keeps_setLine s l _).trans (keeps_withdrawLine _ l c)
  · exact keeps_setLine s l _

theorem keeps_returnLine (s : State) (l : LineId) : Keeps s (s.returnLine l) :=
  ((keeps_setLine s l _).trans (CondOnly.keeps (condOnly_handChanges _ _ _))).trans (keeps_endGroup _)

theorem keeps_seeOwnAddress (s : State) (l : LineId) : Keeps s (s.seeOwnAddress l) := by
  simp only [State.seeOwnAddress]
  split
  · exact keeps_of_view rfl
  · exact ((keeps_of_view (t := { s with own := { seen := true, standing := some l } }) (by rfl)).trans
      (CondOnly.keeps (condOnly_beginCause _ _))).trans (keeps_endGroup _)

theorem keeps_finishOwnAddress (s : State) : Keeps s s.finishOwnAddress := by
  simp only [State.finishOwnAddress]
  split
  · exact Keeps.refl s
  · exact (keeps_of_view (t := { s with own := { s.own with standing := none } }) (by rfl)).trans
      (CondOnly.keeps (condOnly_finishCause _ _))

/-! ## Overrides and the session -/

theorem keeps_fewerOverrides (s : State) {os : List OverrideRecord} (h : os.Sublist s.overrides) :
    Keeps s { s with overrides := os } := by
  refine fun a b => ⟨id, fun ⟨hlen, hkeys, hshare, hreq⟩ => ⟨?_, ?_, ?_, hreq⟩, fun hp => ⟨hp.count, hp.room, hp.cancels⟩⟩
  · exact h.length_le.trans hlen
  · exact hkeys.sublist (h.map overrideKey)
  · exact h.countP_le.trans hshare

theorem keeps_dropOverride (s : State) (r : OverrideRecord) : Keeps s (s.dropOverride r) := by
  refine (keeps_fewerOverrides s (List.eraseP_sublist (p := fun q => q.hasKey r.station r.direction r.circuit))).trans ?_
  unfold State.dropOverride State.finishForced
  split
  · exact CondOnly.keeps (condOnly_finishCause _ _)
  · exact Keeps.refl _

theorem keeps_dropOverrides (s : State) (p : OverrideRecord → Bool) : Keeps s (s.dropOverrides p) :=
  keeps_foldl State.dropOverride keeps_dropOverride _ s

theorem ownerAfter_session {setter owner : Owner} (h : ownerAfter setter owner = .session) : owner = .session := by
  cases setter
  · cases h
  · exact h

theorem overrideKey_of_hasKey {q : OverrideRecord} {a : Addr} {d : Direction} {c : Fin 32} :
    q.hasKey a d c = true ↔ overrideKey q = (a, d, c) := by
  simp only [OverrideRecord.hasKey, overrideKey, Bool.and_eq_true, decide_eq_true_eq, Prod.mk.injEq, and_assoc]

theorem keeps_changeOverride (s : State) (setter : Owner) (a : Addr) (d : Direction) (c : Fin 32) (v : Word) :
    Keeps s (s.changeOverride setter a d c v) := by
  refine fun _ _ => ⟨id, fun ⟨hlen, hkeys, hshare, hreq⟩ => ⟨?_, ?_, ?_, hreq⟩, fun hp => ⟨hp.count, hp.room, hp.cancels⟩⟩
  · simpa only [State.changeOverride, List.length_map] using hlen
  · have hsame : (s.changeOverride setter a d c v).overrides.map overrideKey = s.overrides.map overrideKey := by
      simp only [State.changeOverride, List.map_map]
      refine List.map_congr_left fun q _ => ?_
      simp only [Function.comp]
      split <;> rfl
    rw [hsame]
    exact hkeys
  · refine le_trans ?_ hshare
    simp only [State.sessionShare, State.changeOverride, List.countP_map]
    refine List.countP_mono_left fun q _ hq => ?_
    simp only [Function.comp, decide_eq_true_eq] at hq ⊢
    split at hq
    · exact ownerAfter_session hq
    · exact hq

/-- Where the checks of Table 5-2 pass without a record, there is room for one (R92). -/
theorem room_of_overrideRefusal {s : State} {setter : Owner} (h : s.overrideRefusal setter none = none) :
    s.overrides.length < 48 ∧ (setter = .session → s.sessionShare < 16) := by
  cases setter with
  | controller =>
    simp only [State.overrideRefusal] at h
    split at h
    next hlen => exact ⟨hlen, fun hs => by cases hs⟩
    · cases h
  | session =>
    simp only [State.overrideRefusal] at h
    split at h
    · cases h
    · split at h
      next hroom => exact ⟨hroom.1, fun _ => hroom.2⟩
      · cases h

theorem keeps_createOverride {s : State} {r : OverrideRecord} (hnew : s.findOverride r.station r.direction r.circuit = none)
    (hlen : s.overrides.length < 48) (hshare : r.owner = .session → s.sessionShare < 16) :
    Keeps s (s.createOverride r) := by
  have happend : Keeps s { s with overrides := s.overrides ++ [r] } := by
    refine fun _ _ => ⟨id, fun ⟨_, hkeys, hcount, hreq⟩ => ⟨?_, ?_, ?_, hreq⟩, fun hp => ⟨hp.count, hp.room, hp.cancels⟩⟩
    · simp only [List.length_append, List.length_singleton]
      omega
    · simp only [List.map_append, List.map_cons, List.map_nil]
      refine List.nodup_append.2 ⟨hkeys, List.nodup_singleton _, ?_⟩
      rintro k hk k' hk' rfl
      obtain ⟨q, hq, rfl⟩ := List.mem_map.1 hk
      have hmiss := List.find?_eq_none.1 hnew q hq
      exact hmiss (overrideKey_of_hasKey.2 (List.mem_singleton.1 hk'))
    · show (s.overrides ++ [r]).countP _ ≤ 16
      rw [List.countP_append, List.countP_singleton]
      unfold State.sessionShare at hcount hshare
      split
      next ho => have := hshare (of_decide_eq_true ho); omega
      · omega
  refine happend.trans ?_
  unfold State.createOverride State.beginForced
  split
  · exact CondOnly.keeps (condOnly_beginCause _ _)
  · exact Keeps.refl _

theorem keeps_setOverride (s : State) (w : Owner) (st d c : Byte) (v : Word) : Keeps s (s.setOverride w st d c v).2 := by
  unfold State.setOverride
  split
  case h_2 => exact Keeps.refl s
  split
  · exact Keeps.refl s
  split
  · exact Keeps.refl s
  split
  case isFalse => exact Keeps.refl s
  split
  · exact Keeps.refl s
  next hrefusal =>
    unfold State.applyOverride
    split
    · exact keeps_changeOverride s _ _ _ _ _
    next hnone =>
      rw [hnone] at hrefusal
      obtain ⟨hlen, hshare⟩ := room_of_overrideRefusal hrefusal
      exact keeps_createOverride hnone hlen hshare

theorem keeps_removeOverride (s : State) (w : Owner) (st d c : Byte) : Keeps s (s.removeOverride w st d c).2 := by
  unfold State.removeOverride
  split
  case h_2 => exact Keeps.refl s
  split
  · exact Keeps.refl s
  · split
    · exact Keeps.refl s
    · exact keeps_dropOverride s _

theorem keeps_endSession (s : State) (reason : EndReason) : Keeps s (s.endSession reason) := by
  simp only [State.endSession]
  split
  · exact Keeps.refl s
  · refine Keeps.trans ?_ (keeps_session _ _)
    exact (keeps_dropOverrides s _).trans (keeps_updateStation _ _ _ _)

theorem keeps_takeRequest {s : State} (n : Byte) (k : RequestKind) {run : State → Answer × State}
    (hr : Keeps s (run s).2) : Keeps s (s.takeRequest n k run) := by
  simp only [State.takeRequest]
  split
  · exact Keeps.refl s
  · split
    · exact keeps_setSession _ _
    · exact hr.trans (keeps_setSession _ _)

theorem keeps_takeContents (s : State) (p : List Byte) : Keeps s (s.takeContents p) := by
  unfold State.takeContents
  split
  · exact Keeps.refl s
  · exact keeps_endSession s _
  · exact keeps_takeRequest _ _ (Keeps.refl s)
  · exact keeps_takeRequest _ _ (Keeps.refl s)
  · exact keeps_takeRequest _ _ (keeps_setOverride s _ _ _ _ _)
  · exact keeps_takeRequest _ _ (keeps_removeOverride s _ _ _ _)
  · exact Keeps.refl s

theorem keeps_takeServiceAnswer (s : State) (p : List Byte) : Keeps s (s.takeServiceAnswer p) := by
  unfold State.takeServiceAnswer
  split
  · exact Keeps.refl s
  · exact (keeps_of_view (t := s.deliver) (by rfl)).trans (keeps_takeContents _ p)

/-! ## The end of a reply window, and frames -/

theorem keeps_takeGood (s : State) (a : Addr) (d : Descriptor) (l : LineId) (f : Frame) : Keeps s (s.takeGood a d l f) := by
  unfold State.takeGood
  split
  · split
    · exact keeps_takeReply s _ _ _
    · exact Keeps.refl s
  · split
    · exact keeps_takeIdentity s _ _ _
    · exact Keeps.refl s

theorem keeps_attemptEnded (s : State) (v : Visit) (l : LineId) (answer : Option Frame) :
    Keeps s (s.attemptEnded v l answer) := by
  unfold State.attemptEnded
  split
  · exact Keeps.refl s
  · split
    · exact (keeps_takeGood s _ _ _ _).trans (keeps_afterVisit _ _)
    · exact keeps_nextAttempt s _ _ _ _

theorem keeps_exchangeEnded (s : State) (i : Fin 4) (answer : Option Frame) : Keeps s (s.exchangeEnded i answer) := by
  unfold State.exchangeEnded
  split
  · exact Keeps.refl s
  next ht => exact keeps_failAttempt (by rw [ht])
  next t f ht =>
    have hanswered : ∀ st m, Keeps s (s.completeAnswered i t st m) :=
      fun st m => keeps_completeAndAnswer (by rw [ht]) st .tooLate m
    split
    · exact hanswered _ _
    · split
      · exact hanswered _ _
      · split
        · exact hanswered _ _
        · exact keeps_failAttempt (by rw [ht])

theorem keeps_pollEnded (s : State) (answer : Option Frame) : Keeps s (s.pollEnded answer) := by
  cases answer with
  | none => exact Keeps.refl s
  | some f => exact (keeps_takeServiceAnswer s _).trans (keeps_endGroup _)

theorem keeps_refuseSession (s : State) (d : Discovery) (l : LineId) (reason : Byte) :
    Keeps s (s.refuseSession d l reason) := by
  simp only [State.refuseSession]
  split
  · exact (keeps_judge s _).trans (keeps_send _ _ _ _ _)
  · exact keeps_send s _ _ _ _

theorem keeps_openRequested (s : State) (d : Discovery) (l : LineId) (tag : Word) : Keeps s (s.openRequested d l tag) := by
  simp only [State.openRequested]
  split
  · exact keeps_refuseSession s d l 2
  · split
    · exact keeps_refuseSession s d l 1
    · refine Keeps.trans ?_ (keeps_send _ _ _ _ _)
      refine Keeps.trans ?_ (keeps_endGroup _)
      exact (keeps_updateStation s _ _ _).trans (keeps_setSession _ _)

theorem keeps_probeEnded (s : State) (d : Discovery) (l : LineId) (answer : Option Frame) :
    Keeps s (s.probeEnded d l answer) := by
  simp only [State.probeEnded]
  split
  · exact keeps_probeNext s d
  · split
    · exact keeps_openRequested s _ _ _
    · split <;> exact keeps_probeNext s _

theorem keeps_windowEnds (s : State) (f : Flight) (answer : Option Frame) : Keeps s (s.windowEnds f answer) := by
  refine (keeps_setFlight s none).trans ?_
  unfold State.windowEnds
  refine Keeps.trans ?_ (keeps_scanOn _)
  split
  · exact keeps_attemptEnded _ _ _ _
  · exact keeps_exchangeEnded _ _ _
  · exact keeps_pollEnded _ _
  · exact keeps_probeEnded _ _ _ _
  · exact Keeps.refl _

theorem keeps_sent (s : State) (f : Flight) : Keeps s (s.sent f) := by
  unfold State.sent
  split
  · exact keeps_setFlight s _
  · refine (keeps_setFlight s none).trans (Keeps.trans ?_ (keeps_scanOn _))
    split
    · exact keeps_probeNext _ _
    · exact Keeps.refl _

theorem keeps_takeClass (s : State) (l : LineId) (w : Option Flight) (r : Received) : Keeps s (s.takeClass l w r) := by
  cases r with
  | ownAddress =>
    refine (keeps_seeOwnAddress s l).trans ?_
    unfold State.takeClass
    cases w with
    | none => exact Keeps.refl _
    | some w => exact keeps_setFlight _ _
  | error c =>
    refine (keeps_lineError s l c).trans ?_
    simp only [State.takeClass]
    split
    · exact keeps_windowEnds _ _ _
    · exact Keeps.refl _
  | good k f =>
    unfold State.takeClass
    cases w with
    | none => exact Keeps.refl s
    | some w => exact keeps_windowEnds s _ _

theorem keeps_receive (s : State) (l : LineId) (r : Except ErrorClass Frame) : Keeps s (s.receive l r) := by
  have hreceived : Keeps s (s.received l) := keeps_setLine s l _
  unfold State.receive
  split
  · exact Keeps.refl s
  · exact hreceived
  · exact hreceived.trans (keeps_takeClass _ _ _ _)
  · split
    · split
      · exact hreceived.trans (keeps_seeOwnAddress _ l)
      · exact hreceived
    · exact hreceived

theorem keeps_firstOctet (s : State) (l : LineId) : Keeps s (s.firstOctet l) := by
  simp only [State.firstOctet]
  split
  · exact Keeps.refl s
  · split
    · split
      · exact (keeps_setLine s l _).trans (keeps_setFlight _ _)
      · exact keeps_setLine s l _
    · exact keeps_setLine s l _

end Sys2Proof.Proofs
end

section
/-! PROOFS. The rows keep the areas, the tables and the law of the promised responses: a STOP, a commit and the cycle end, the
requests, and the window accesses; with that, the invariants of the controller's side (R45, R89, R183, R185, R192). -/

namespace Sys2Proof.Proofs

open Sys2Proof.Machine Sys2Proof.Safety Sys2Proof.Laws

/-! ## A STOP and a commit (R116, R117, R167) -/

theorem stopHalt_port (s : State) : s.stopHalt.port = s.port := by rw [stopHalt_eq]

/-- A STOP that takes effect owes the response that was promised for it. -/
theorem trades_stopHalt (s : State) (a b : Nat) : Trades a b a (b + stopPromise s.stopPending) s s.stopHalt := by
  rw [stopHalt_eq]
  refine ⟨id, id, fun h => ⟨?_, h.room, h.cancels⟩⟩
  show s.port.deferred = slotPromises s + stopPromise none + commitPromise s.config.staging +
    (b + stopPromise s.stopPending)
  have := h.count
  rw [show stopPromise none = 0 from rfl]
  omega

theorem keeps_stopEnds (s : State) : Keeps s s.stopEnds :=
  ((keeps_completeWhere s _ _).trans (keeps_endSession _ _)).trans (keeps_finishOwnAddress _)

theorem keeps_takeOut (s : State) (a : Addr) : Keeps s (s.takeOut a) := by
  unfold State.takeOut
  have hdrop := (CondOnly.keeps (condOnly_retireStation s a)).trans (keeps_dropOverrides _ (OverrideRecord.ofStation a))
  exact hdrop.trans (keeps_of_view (by rfl))

theorem keeps_setUp (s : State) (c : StagingCopy) (a : Addr) : Keeps s (s.setUp c a) := by
  unfold State.setUp
  split
  · refine (keeps_updateStation s a .unconfigured (s.supervision a)).trans ?_
    generalize s.updateStation a .unconfigured (s.supervision a) = u
    exact keeps_of_view rfl
  · exact keeps_of_view rfl

theorem keeps_rebuild (s : State) (kept : List (Placement × Placement)) : Keeps s (s.rebuild kept) :=
  fun _ _ => ⟨fun ⟨_, _, _, hentry, hreq⟩ => ⟨rebuildArea_wf _ _, rebuildArea_wf _ _, rebuildArea_wf _ _, hentry, hreq⟩,
    id, fun h => ⟨h.count, h.room, h.cancels⟩⟩

theorem keeps_clearIncomplete (s : State) : Keeps s s.clearIncomplete := by
  unfold State.clearIncomplete
  split
  · exact (keeps_of_view (t := { s with config := { s.config with incomplete := false } }) (by rfl)).trans
      (CondOnly.keeps (condOnly_finishCause _ _))
  · exact Keeps.refl s

theorem commitSession_config (s : State) (c : StagingCopy) : (s.commitSession c).config = s.config := by
  unfold State.commitSession
  split
  · rfl
  · split
    · rw [(sessionOnly_endSession s .reconfigured).1]
    · rfl

theorem keeps_commitSession (s : State) (c : StagingCopy) : Keeps s (s.commitSession c) := by
  unfold State.commitSession
  split
  · exact Keeps.refl s
  · split
    · exact keeps_endSession s _
    · exact Keeps.refl s

theorem completeWhere_config (s : State) (p : Transaction → Bool) (st : Status) :
    (s.completeWhere p st).config = s.config := by
  have h := transOnly_completeWhere s p st
  rw [TransOnly] at h
  rw [h]

theorem clearIncomplete_staging (s : State) : s.clearIncomplete.config.staging = s.config.staging := by
  unfold State.clearIncomplete
  split
  · rw [congrArg State.config (condOnly_finishCause _ _).1]
  · rfl

/-- The staging closed by a commit owes the response that was promised for it, if it was pending. -/
theorem trades_closed {s t : State} (h : portView t = portView { s with config := { s.config with staging := .closed } })
    (a b : Nat) : Trades a b a (b + commitPromise s.config.staging) s t := by
  refine Trades.trans ?_ (keeps_of_view h _ _)
  refine ⟨id, id, fun h => ⟨?_, h.room, h.cancels⟩⟩
  show s.port.deferred = slotPromises s + stopPromise s.stopPending + 0 + (b + commitPromise s.config.staging)
  have := h.count
  omega

theorem trades_applyCommit (s : State) (c : StagingCopy) (a b : Nat) :
    Trades a b a (b + commitPromise s.config.staging) s (s.applyCommit c) := by
  simp only [State.applyCommit]
  generalize s.keptSlices c = kept, s.placementMoves c = moved
  generalize allAddrs.filter (fun x => (s.compare c x).takesOut) = out
  generalize allAddrs.filter (fun x => (s.compare c x).moves) = touched
  have hs3 := (((keeps_commitSession s c).trans (keeps_foldl State.takeOut keeps_takeOut out _)).trans
    (keeps_completeWhere _ (fun t => decide (t.station ∈ out)) .reconfigured)).trans
    (keeps_foldl (fun u x => u.setUp c x) (fun u x => keeps_setUp u c x) touched _)
  have hc3 : (touched.foldl (fun u x => u.setUp c x) ((out.foldl State.takeOut (s.commitSession c)).completeWhere
      (fun t => decide (t.station ∈ out)) .reconfigured)).config = s.config := by
    rw [config_setUps, completeWhere_config, config_takeOuts, commitSession_config]
  revert hs3 hc3
  generalize touched.foldl (fun u x => u.setUp c x) ((out.foldl State.takeOut (s.commitSession c)).completeWhere
    (fun t => decide (t.station ∈ out)) .reconfigured) = s3
  intro hs3 hc3
  have hs4 : Keeps s (if touched.isEmpty then s3 else s3.rebuild kept) := by
    split
    · exact hs3
    · exact hs3.trans (keeps_rebuild s3 kept)
  have hc4 : (if touched.isEmpty then s3 else s3.rebuild kept).config = s.config := by
    split <;> exact hc3
  revert hs4 hc4
  generalize (if touched.isEmpty then s3 else s3.rebuild kept) = s4
  intro hs4 hc4
  have hs5 := (hs4.trans (keeps_of_view (t := s4.place c) (by rfl))).trans (keeps_clearIncomplete _)
  have hc5 : (s4.place c).clearIncomplete.config.staging = s.config.staging := by
    rw [clearIncomplete_staging, ← hc4]
    rfl
  rw [← hc5]
  exact (hs5 a b).trans (trades_closed (by rfl) a b)

theorem commitPromise_of_pendingCommit {s : State} {x : Byte × StagingCopy} (h : s.pendingCommit = some x) :
    commitPromise s.config.staging = 1 := by
  unfold State.pendingCommit at h
  split at h
  next hg => rw [hg]; rfl
  · cases h

theorem keeps_commitPart (s : State) : Keeps s s.commitPart := by
  intro a b
  unfold State.commitPart
  split
  · exact Keeps.refl s a b
  next tag c hc =>
    have happly := trades_applyCommit s c a b
    rw [commitPromise_of_pendingCommit hc] at happly
    exact happly.trans (trades_postDeferred _ _ _ _ _ a b)

theorem keeps_deferredWork (s : State) : Keeps s s.deferredWork := by
  intro a b
  unfold State.deferredWork
  split
  · exact keeps_commitPart s a b
  next tag htag =>
    have hhalt := trades_stopHalt s a b
    rw [htag] at hhalt
    exact ((hhalt.trans (keeps_commitPart _ a (b + 1))).trans (keeps_stopEnds _ a (b + 1))).trans
      (trades_postDeferred _ _ _ _ _ a b)

/-! ## The cycle end (R110) -/

theorem keeps_publish (s : State) : Keeps s s.publish :=
  fun _ _ => ⟨fun ⟨_, hlive, hout, hentry, hreq⟩ => ⟨publication_wf s, hlive, hout, hentry, hreq⟩, id,
    fun h => ⟨h.count, h.room, h.cancels⟩⟩

theorem keeps_ownCheck (s : State) : Keeps s s.ownCheck := by
  unfold State.ownCheck
  refine Keeps.trans (t := if s.own.seen then s else s.finishOwnAddress) ?_ (keeps_of_view (by rfl))
  split
  · exact Keeps.refl s
  · exact keeps_finishOwnAddress s

theorem keeps_closeCycle (s : State) : Keeps s s.closeCycle := by
  have hwork := (keeps_publish s).trans (keeps_deferredWork _)
  have hcount := hwork.trans (keeps_of_view (t := s.publish.deferredWork.countDown) (by rfl))
  have hsweep := (hcount.trans (keeps_ownCheck _)).trans (CondOnly.keeps (condOnly_sweep _))
  exact hsweep.trans (keeps_of_view (by rfl))

theorem keeps_drawn (s : State) : Keeps s s.drawn := keeps_of_view rfl

theorem keeps_cycleEnds (s : State) : Keeps s s.cycleEnds := by
  have hclose := keeps_closeCycle s
  simp only [State.cycleEnds, State.afterClose]
  split
  · exact hclose.trans (keeps_setCycle _ _)
  · split
    · exact (hclose.trans (keeps_beginCycle _)).trans (keeps_scanOn _)
    · split
      · exact ((hclose.trans (keeps_drawn _)).trans (keeps_beginCycle _)).trans (keeps_scanOn _)
      · exact (hclose.trans (keeps_drawn _)).trans (keeps_setCycle _ _)

/-! ## Executing the head request (R184) -/

/-- The work of a request that has its response's place reserved keeps the place for the answer it gives, or turns it into a
promise. -/
def Executes (s : State) (x : Option Answer × State) : Prop := Trades 1 0 (if x.1.isSome then 1 else 0) 0 s x.2

theorem trades_popRequest {s : State} {p : Byte → Bool} (h : s.headReady p = true) : Trades 0 0 1 0 s s.popRequest := by
  have hroom : s.port.responses.length + s.port.deferred + 1 ≤ 12 := by
    unfold State.headReady State.hasRoom at h
    split at h
    · cases h
    · simp only [Bool.and_eq_true, decide_eq_true_eq] at h
      exact h.2
  refine ⟨fun ⟨hpub, hlive, hout, hentry, hreq⟩ => ⟨hpub, hlive, hout, hentry, fun r hr => hreq r (List.mem_of_mem_tail hr)⟩,
    fun ⟨hlen, hkeys, hshare, hreq⟩ => ⟨hlen, hkeys, hshare, ?_⟩, fun hp => ⟨hp.count, hroom, hp.cancels⟩⟩
  show s.port.requests.tail.length ≤ 8
  rw [List.length_tail]
  omega

theorem trades_answered {s : State} {x : Option Answer × State} (h : Executes s x) (r : Memory) :
    Trades 1 0 0 0 s (answered r x) := by
  unfold Executes at h
  unfold answered
  cases hx : x.1 with
  | none => rwa [hx] at h
  | some a =>
    rw [hx] at h
    exact h.trans (trades_post _ _ _ _ _ 0 0)

theorem trades_runHead {s : State} {p : Byte → Bool} (h : s.headReady p = true)
    {body : Memory → State → Option Answer × State} (hb : ∀ r, Executes s.popRequest (body r s.popRequest)) :
    Trades 0 0 0 0 s (s.runHead body) :=
  ((trades_popRequest h).trans (trades_answered (hb _) _)).trans (keeps_endGroup _ 0 0)

theorem trades_runRequest {s : State} (k : RequestKind) {body : Memory → State → Option Answer × State}
    (hb : ∀ r, Executes s.popRequest (body r s.popRequest)) : Trades 0 0 0 0 s (s.runRequest k body) := by
  unfold State.runRequest
  split
  next h => exact trades_runHead h hb
  · exact Keeps.refl s 0 0

theorem executes_some {s t : State} (h : Keeps s t) (a : Answer) : Executes s (some a, t) := h 1 0

theorem executes_reply {s t : State} (h : Keeps s t) (st : Status) (m : List Byte) : Executes s (reply t st m) := h 1 0

/-! ## The requests on modes and staging -/

theorem keeps_startLine (s : State) (l : LineId) : Keeps s (s.startLine l) := by
  unfold State.startLine
  split
  · exact keeps_setLine s l _
  · exact Keeps.refl s

theorem keeps_startScanning (s : State) : Keeps s s.startScanning := by
  have hmode : Keeps s { s with mode := .scanning } := keeps_of_view rfl
  have hlines := (hmode.trans (keeps_startLine _ .a)).trans (keeps_startLine _ .b)
  exact (hlines.trans (keeps_of_view (by rfl))).trans (keeps_beginCycle _)

theorem executes_startRequest (s : State) : Executes s s.startRequest := by
  unfold State.startRequest
  split
  · exact executes_reply (Keeps.refl s) _ _
  · split
    · exact executes_reply (Keeps.refl s) _ _
    · split
      · exact executes_reply (Keeps.refl s) _ _
      · exact executes_some (keeps_startScanning s) _

theorem executes_resumeRequest (s : State) : Executes s s.resumeRequest := by
  unfold State.resumeRequest
  split
  · exact executes_reply (Keeps.refl s) _ _
  · split
    · exact executes_reply (Keeps.refl s) _ _
    · exact executes_some (keeps_of_view (by rfl)) _

/-- A promise taken where there was none: the reserved place is counted as deferred (R185). -/
theorem trades_defer {s t : State} (hareas : MemoryCanonical s → MemoryCanonical t) (htables : PortTables s → PortTables t)
    (hport : t.port = s.port)
    (hcount : slotPromises t + stopPromise t.stopPending + commitPromise t.config.staging =
      slotPromises s + stopPromise s.stopPending + commitPromise s.config.staging + 1)
    (hcancels : (∀ i u, s.slot i = some u → u.state = .waiting → u.cancel = none) →
      ∀ i u, t.slot i = some u → u.state = .waiting → u.cancel = none) : Trades 1 0 0 0 s t.defer := by
  refine ⟨hareas, htables, fun h => ⟨?_, ?_, hcancels h.cancels⟩⟩
  · show t.port.deferred + 1 = slotPromises t + stopPromise t.stopPending + commitPromise t.config.staging + 0
    have := h.count
    rw [hport]
    omega
  · show t.port.responses.length + (t.port.deferred + 1) + 0 ≤ 12
    have := h.room
    rw [hport]
    omega

theorem stopPromise_of_not {tag : Option Byte} (h : ¬ tag.isSome = true) : stopPromise tag = 0 := if_neg h

theorem executes_stopRequest (s : State) (tag : Byte) : Executes s (s.stopRequest tag) := by
  unfold State.stopRequest
  split
  · exact executes_reply (Keeps.refl s) _ _
  split
  · exact executes_reply (Keeps.refl s) _ _
  next hnone =>
    have hpromise := stopPromise_of_not hnone
    split
    · have hhalt := trades_stopHalt s 1 0
      rw [hpromise] at hhalt
      exact (hhalt.trans (keeps_stopEnds _ 1 0)).trans (keeps_setCycle _ _ 1 0)
    · refine trades_defer (t := { s with stopPending := some tag }) id id rfl ?_ id
      show slotPromises s + 1 + commitPromise s.config.staging = _
      rw [hpromise]
      omega

theorem restart_port (s : State) : s.restart.port = s.port.restart := congrArg State.port (condOnly_sweep _).1

/-- A restart leaves nothing promised and nothing queued (R157, R185). -/
theorem trades_restart (s : State) (a a' : Nat) (ha : a' ≤ 12) : Trades a 0 a' 0 s s.restart := by
  refine Trades.trans (t := _) ?_ (CondOnly.keeps (condOnly_sweep _) a' 0)
  refine ⟨fun ⟨_, _, _, hentry, _⟩ => ⟨wf_nil, wf_nil, wf_nil, hentry, fun r hr => ?_⟩,
    fun _ => ⟨Nat.zero_le _, .nil, Nat.zero_le _, Nat.zero_le _⟩, fun _ => ⟨?_, ?_, fun i t ht => ?_⟩⟩
  · cases hr
  · rw [slotPromises_eq]
    rfl
  · show 0 + 0 + a' ≤ 12
    omega
  · have hslot : (Vector.replicate 4 (none : Option Transaction))[i.val] = some t := ht
    rw [Vector.getElem_replicate] at hslot
    cases hslot

theorem keeps_restartGap (s : State) : Keeps s s.restartGap := keeps_of_view rfl

theorem keeps_setCopy {s : State} (h : commitPromise s.config.staging = 0) (c : StagingCopy) : Keeps s (s.setCopy c) :=
  keeps_of_view (by simp only [portView, State.setCopy, h]; rfl)

theorem keeps_closeStaging {s : State} (h : commitPromise s.config.staging = 0) : Keeps s s.closeStaging :=
  keeps_of_view (by simp only [portView, State.closeStaging, h]; rfl)

theorem executes_whileOpen {s : State} {f : StagingCopy → State → Option Answer × State}
    (hf : ∀ c u, u.config.staging = .opened c → Executes u (f c u)) : Executes s (s.whileOpen f) := by
  unfold State.whileOpen
  split
  · exact executes_reply (Keeps.refl s) _ _
  · exact executes_reply (Keeps.refl s) _ _
  next c hc => exact (keeps_restartGap s 1 0).trans (hf c s.restartGap hc)

theorem commitPromise_opened {s : State} {c : StagingCopy} (h : s.config.staging = .opened c) :
    commitPromise s.config.staging = 0 := by
  rw [h]
  rfl

theorem executes_stageBegin (s : State) (gap : Nat) : Executes s (s.stageBegin gap) := by
  unfold State.stageBegin
  split
  · exact executes_reply (Keeps.refl s) _ _
  · exact executes_reply (keeps_restartGap s) _ _
  next hclosed =>
    split
    · refine executes_reply (Keeps.trans ?_ (keeps_restartGap _)) _ _
      refine (keeps_of_view (by rfl)).trans (keeps_setCopy ?_ _)
      show commitPromise s.config.staging = 0
      rw [hclosed]
      rfl
    · exact executes_reply (Keeps.refl s) _ _

theorem executes_stageStation {s : State} {c : StagingCopy} (h : s.config.staging = .opened c) (b : Byte)
    (d : Option Descriptor) : Executes s (s.stageStation c b d) := by
  unfold State.stageStation
  split
  · exact executes_reply (Keeps.refl s) _ _
  · split
    · exact executes_reply (Keeps.refl s) _ _
    · split
      · exact executes_reply (Keeps.refl s) _ _
      · exact executes_reply (keeps_setCopy (commitPromise_opened h) _) _ _

theorem executes_stageRemove {s : State} {c : StagingCopy} (h : s.config.staging = .opened c) (b : Byte) :
    Executes s (s.stageRemove c b) := by
  unfold State.stageRemove
  split
  · exact executes_reply (Keeps.refl s) _ _
  · split
    · exact executes_reply (keeps_setCopy (commitPromise_opened h) _) _ _
    · exact executes_reply (Keeps.refl s) _ _

theorem executes_readStaged (s : State) (c : StagingCopy) (b : Byte) : Executes s (s.readStaged c b) := by
  unfold State.readStaged
  split <;> exact executes_reply (Keeps.refl s) _ _

theorem executes_stageCommit {s : State} {c : StagingCopy} (h : s.config.staging = .opened c) (tag : Byte) :
    Executes s (s.stageCommit tag c) := by
  have hnone := commitPromise_opened h
  unfold State.stageCommit
  split
  · exact executes_reply (Keeps.refl s) _ _
  · split
    · refine trades_defer
        (t := { s with config := { s.config with staging := .commitPending tag c, gapTimer := none } }) id id rfl ?_ id
      show slotPromises s + stopPromise s.stopPending + 1 = _
      rw [hnone]
    · have happly := trades_applyCommit s c 1 0
      rw [hnone] at happly
      exact happly

/-! ## The other requests -/

theorem executes_setLineSetup (s : State) (c : Option LineSetup) : Executes s (s.setLineSetup c) := by
  unfold State.setLineSetup
  split
  · exact executes_reply (Keeps.refl s) _ _
  · split
    · exact executes_reply (Keeps.refl s) _ _
    · split
      · exact executes_reply (Keeps.refl s) _ _
      · split
        · exact executes_reply (Keeps.refl s) _ _
        · refine executes_some ?_ _
          exact Keeps.trans (keeps_of_view (by rfl)) (CondOnly.keeps (condOnly_handChanges _ _ _))

theorem executes_setProfileRequest (s : State) (b : Byte) (p : Option Profile) : Executes s (s.setProfileRequest b p) := by
  unfold State.setProfileRequest
  split
  · exact executes_reply (keeps_of_view (by rfl)) _ _
  · exact executes_reply (Keeps.refl s) _ _

theorem executes_setAction (s : State) (b c d : Byte) : Executes s (s.setAction b c d) := by
  unfold State.setAction
  split
  · split
    · exact executes_reply (keeps_of_view (by rfl)) _ _
    · exact executes_reply (Keeps.refl s) _ _
  · exact executes_reply (Keeps.refl s) _ _

theorem executes_setOutputRefresh (s : State) (n : Nat) : Executes s (s.setOutputRefresh n) := by
  unfold State.setOutputRefresh
  split
  · exact executes_reply (keeps_of_view (by rfl)) _ _
  · exact executes_reply (Keeps.refl s) _ _

theorem keeps_setServicePermit (s : State) (a b : Byte) (n : Nat) : Keeps s (s.setServicePermit a b n).2 := by
  unfold State.setServicePermit
  split
  · split
    · simp only [State.permit]
      split
      · exact (keeps_endSession s _).trans (keeps_session _ _)
      · split
        · exact (keeps_dropOverrides s _).trans (keeps_session _ _)
        · exact keeps_session s _
    · exact Keeps.refl s
  · exact Keeps.refl s

theorem keeps_readTimer (s : State) (x : Timer) : Keeps s (s.readTimer x).2 := by
  cases x with
  | none => exact Keeps.refl s
  | some n => exact keeps_drawn s

theorem keeps_readLineState (s : State) (b : Byte) : Keeps s (s.readLineState b).2 := by
  unfold State.readLineState
  split
  · exact Keeps.refl s
  · exact (keeps_readTimer s _).trans (keeps_readTimer _ _)

theorem keeps_ackRecord (s : State) (r : ConditionRecord) : Keeps s (s.ackRecord r) :=
  CondOnly.keeps (condOnly_ackRecord s r)

theorem executes_ackCondition (s : State) (a b : Byte) : Executes s (s.ackCondition a b) := by
  unfold State.ackCondition
  split
  · exact executes_reply (Keeps.refl s) _ _
  · split
    · exact executes_reply (Keeps.refl s) _ _
    · exact executes_reply (keeps_ackRecord s _) _ _

theorem executes_ackAll (s : State) : Executes s s.ackAll := by
  refine executes_reply ?_ _ _
  exact (keeps_foldl State.ackRecord keeps_ackRecord s.cond.records s).trans (keeps_of_view (by rfl))

theorem executes_removeStationOverrides (s : State) (b : Byte) : Executes s (s.removeStationOverrides b) := by
  unfold State.removeStationOverrides
  split
  · exact executes_reply (Keeps.refl s) _ _
  · split
    · exact executes_reply (keeps_dropOverrides s _) _ _
    · exact executes_reply (Keeps.refl s) _ _

theorem executes_endSessionRequest (s : State) : Executes s s.endSessionRequest := by
  unfold State.endSessionRequest
  split
  · exact executes_reply (Keeps.refl s) _ _
  · exact executes_reply (keeps_endSession s _) _ _

/-! ## Transactions (R141, R149) -/

/-- A placed transaction gives the promise of its own command, whatever became of the toggles and the stamps. -/
theorem trades_defer_placed {s t : State} {i : Fin 4} {x : Transaction} (hfree : s.slot i = none) (hx : x.cancel = none)
    (hsame : t = { s with trans := t.trans }) (hslot : ∀ j, t.slot j = (s.setSlot i (some x)).slot j) :
    Trades 1 0 0 0 s t.defer := by
  have hsum := slotPromises_setSlot s i (some x)
  rw [hfree, show promisesOf (some x) = 1 by simp [promisesOf, hx], show promisesOf none = 0 from rfl] at hsum
  refine trades_defer (by rw [hsame]; exact id) (by rw [hsame]; exact id) (by rw [hsame]) ?_ fun hs j u hu => ?_
  · rw [slotPromises_of_slots hslot, hsame]
    simp only
    omega
  · rw [hslot] at hu
    refine cancels_setSlot hs (fun y hy _ => ?_) j u hu
    obtain rfl := Option.some.inj hy
    exact hx

theorem trades_placeTransaction {s : State} {i : Fin 4} (h : s.slot i = none) (tag : Byte) (k : TransactionKind) (a : Addr)
    (index : Byte) (length : Nat) (data : List Byte) :
    Trades 1 0 0 0 s (s.placeTransaction i tag k a index length data) := by
  unfold State.placeTransaction
  cases k <;> exact trades_defer_placed h (x := ⟨tag, a, _, index, length, data, 0, s.newToggle _ a, .waiting, none,
    s.trans.nextStamp⟩) rfl rfl fun _ => rfl

theorem executes_acceptTransaction (s : State) (tag : Byte) (k : TransactionKind) (b c d : Byte) (data : List Byte) :
    Executes s (s.acceptTransaction tag k b c d data) := by
  unfold State.acceptTransaction
  split
  · exact executes_reply (Keeps.refl s) _ _
  split
  · exact executes_reply (Keeps.refl s) _ _
  split
  · exact executes_reply (Keeps.refl s) _ _
  split
  · exact executes_reply (Keeps.refl s) _ _
  split
  · exact executes_reply (Keeps.refl s) _ _
  next i hi =>
    have hfree : s.slot i = none := by
      have := List.find?_some hi
      simpa using this
    split
    · exact trades_placeTransaction hfree _ _ _ _ _ _
    · exact executes_reply (Keeps.refl s) _ _

/-- The slot that CANCEL TRANSACTION acts on holds the transaction found (R149). -/
theorem slot_of_transactionTagged {s : State} {tag : Byte} {i : Fin 4} {t : Transaction}
    (h : s.transactionTagged tag = some (i, t)) : s.slot i = some t := by
  suffices ∀ (is : List (Fin 4)) (best : Option (Fin 4 × Transaction)), (∀ j u, best = some (j, u) → s.slot j = some u) →
      ∀ j u, is.foldl (s.earlier tag) best = some (j, u) → s.slot j = some u from
    this allSlots none (fun _ _ hbest => by cases hbest) i t h
  intro is
  induction is with
  | nil => exact fun best hbest j u hju => hbest j u hju
  | cons n ns ih =>
    refine fun best hbest => ih (s.earlier tag best n) ?_
    unfold State.earlier
    split
    · exact hbest
    next u hu =>
      split
      · split
        · rintro j v ⟨⟩
          exact hu
        next j v _ =>
          split
          · rintro j' v' ⟨⟩
            exact hu
          · exact hbest
      · exact hbest

theorem executes_cancelTransaction (s : State) (own tag : Byte) : Executes s (s.cancelTransaction own tag) := by
  unfold State.cancelTransaction
  split
  · exact executes_reply (Keeps.refl s) _ _
  next i t hfound =>
    have hslot := slot_of_transactionTagged hfound
    split
    · exact executes_reply (Keeps.refl s) _ _
    next hsent hcancel =>
      have hsum := slotPromises_setSlot s i (some { t with cancel := some own })
      rw [hslot, show promisesOf (some t) = 1 by simp [promisesOf, hcancel],
        show promisesOf (some { t with cancel := some own }) = 1 + 1 by simp [promisesOf]] at hsum
      refine trades_defer (t := s.setSlot i (some { t with cancel := some own })) id id rfl ?_ fun hs => ?_
      · simp only [setSlot_stopPending, setSlot_config]
        omega
      · refine cancels_setSlot hs (fun u hu hw => ?_)
        obtain rfl := Option.some.inj hu
        rw [show t.state = .waiting from hw] at hsent
        cases hsent
    next hwaiting =>
      refine ⟨id, id, fun h => ?_⟩
      have hcomplete := keeps_complete (by rw [hslot]) (h.cancels i t hslot hwaiting) .cancelled []
      exact (hcomplete 1 0).promised h

/-! ## Window accesses (R181, R183, R187) -/

theorem keeps_submit (s : State) : Keeps s s.submit := by
  unfold State.submit
  split
  next hroom =>
    refine fun _ _ => ⟨fun ⟨hpub, hlive, hout, hentry, hreq⟩ => ⟨hpub, hlive, hout, hentry, fun r hr => ?_⟩,
      fun ⟨hlen, hkeys, hshare, _⟩ => ⟨hlen, hkeys, hshare, ?_⟩, fun h => ⟨h.count, h.room, h.cancels⟩⟩
    · rcases List.mem_append.1 hr with h | h
      · exact hreq r h
      · rw [List.mem_singleton.1 h]
        exact hentry
    · show (s.port.requests ++ [s.port.entryArea]).length ≤ 8
      rw [List.length_append, List.length_singleton]
      omega
  · exact keeps_of_view rfl

theorem keeps_outputCommit (s : State) : Keeps s s.outputCommit := by
  have hcopy : Keeps s { s with scan := { s.scan with live := s.port.outputArea } } :=
    fun _ _ => ⟨fun ⟨hpub, _, hout, hentry, hreq⟩ => ⟨hpub, hout, hout, hentry, hreq⟩, id,
      fun h => ⟨h.count, h.room, h.cancels⟩⟩
  have hfinish : ∀ u : State, Keeps u u.finishOutputsSafe := by
    intro u
    unfold State.finishOutputsSafe
    split
    · exact (keeps_of_view (t := { u with safety := { u.safety with standing := false } }) (by rfl)).trans
        (CondOnly.keeps (condOnly_finishCause _ _))
    · exact Keeps.refl u
  simp only [State.outputCommit]
  refine Keeps.trans (Keeps.trans ?_ (hfinish _)) (keeps_endGroup _)
  split
  · exact hcopy.trans (keeps_of_view (by rfl))
  · exact hcopy

theorem keeps_responseTaken (s : State) : Keeps s s.responseTaken := by
  refine fun _ _ => ⟨id, id, fun h => ⟨h.count, ?_, h.cancels⟩⟩
  have := h.room
  simp only [State.responseTaken, List.length_tail]
  omega

theorem keeps_storeOctet (s : State) (o : Nat) (b : Byte) : Keeps s (s.storeOctet o b) := by
  unfold State.storeOctet
  split
  · exact fun _ _ => ⟨fun ⟨hpub, hlive, hout, hentry, hreq⟩ => ⟨hpub, hlive, write_wf hout _ _, hentry, hreq⟩, id,
      fun h => ⟨h.count, h.room, h.cancels⟩⟩
  · split
    · exact fun _ _ => ⟨fun ⟨hpub, hlive, hout, hentry, hreq⟩ => ⟨hpub, hlive, hout, write_wf hentry _ _, hreq⟩, id,
        fun h => ⟨h.count, h.room, h.cancels⟩⟩
    · exact Keeps.refl s

theorem keeps_storeOctets (s : State) (o : Nat) (bs : List Byte) : Keeps s (s.storeOctets o bs) := by
  induction bs generalizing s o with
  | nil => exact Keeps.refl s
  | cons b bs ih => exact (keeps_storeOctet s o b).trans (ih _ _)

theorem keeps_ite {s t u : State} (b : Bool) (ht : Keeps s t) (hu : Keeps t u) : Keeps s (if b then u else t) := by
  split
  · exact ht.trans hu
  · exact ht

theorem keeps_windowWrite {s t : State} {o : Nat} {data : List Byte} (e : execWindowWrite o data s = .next t) :
    Keeps s t := by
  obtain rfl := Host.Outcome.next.inj e
  exact keeps_ite _ (keeps_ite _ (keeps_ite _ (keeps_storeOctets s o data) (keeps_outputCommit _)) (keeps_submit _))
    (keeps_responseTaken _)

/-! ## Every row -/

theorem trades_reset (s : State) : Trades 0 0 0 0 s s.powerOn := by
  have hslots : ∀ i, State.reset.slot i = none := by decide
  refine ⟨fun _ => ⟨wf_nil, wf_nil, wf_nil, wf_nil, fun r hr => ?_⟩,
    fun _ => ⟨Nat.zero_le _, .nil, Nat.zero_le _, Nat.zero_le _⟩, fun _ => ⟨rfl, Nat.zero_le _, fun i t ht => ?_⟩⟩
  · cases hr
  · have hnone := hslots i
    rw [show State.reset.slot i = some t from ht] at hnone
    cases hnone

theorem exec_trades {s t : State} {i : Instr} (e : exec i s = .next t) : Trades 0 0 0 0 s t := by
  cases i
  case powerOnReset => exact Host.Outcome.next.inj e ▸ trades_reset s
  case restartLine =>
    obtain rfl := Host.Outcome.next.inj e
    split
    · exact Keeps.refl s 0 0
    · exact Trades.trans (keeps_of_view (t := { s with port := { s.port with restartAsserted := true } }) (by rfl) 0 0)
        (trades_restart _ 0 0 (Nat.zero_le _))
  case submit => exact Host.Outcome.next.inj e ▸ keeps_submit s 0 0
  case outputCommit => exact Host.Outcome.next.inj e ▸ keeps_outputCommit s 0 0
  case responseTaken => exact Host.Outcome.next.inj e ▸ keeps_responseTaken s 0 0
  case windowWrite o data => exact keeps_windowWrite e 0 0
  case restartLineRelease =>
    obtain rfl := Host.Outcome.next.inj e
    exact keeps_of_view (by rfl) 0 0
  case start =>
    have hstart := trades_runRequest (s := s) .start (body := fun _ u => u.startRequest) (fun _ => executes_startRequest _)
    obtain rfl := Host.Outcome.next.inj e
    split
    · exact hstart.trans (keeps_scanOn _ 0 0)
    · exact hstart
  case stop => exact Host.Outcome.next.inj e ▸ trades_runRequest _ (fun _ => executes_stopRequest _ _)
  case resume => exact Host.Outcome.next.inj e ▸ trades_runRequest _ (fun _ => executes_resumeRequest _)
  case restart => exact Host.Outcome.next.inj e ▸ trades_runRequest _ (fun _ => trades_restart _ 1 1 (by decide))
  case stageBegin => exact Host.Outcome.next.inj e ▸ trades_runRequest _ (fun _ => executes_stageBegin _ _)
  case stageStation =>
    exact Host.Outcome.next.inj e ▸ trades_runRequest _
      (fun _ => executes_whileOpen (fun _ _ hc => executes_stageStation hc _ _))
  case stageRemove =>
    exact Host.Outcome.next.inj e ▸ trades_runRequest _
      (fun _ => executes_whileOpen (fun _ _ hc => executes_stageRemove hc _))
  case stageCommit =>
    exact Host.Outcome.next.inj e ▸ trades_runRequest _
      (fun _ => executes_whileOpen (fun _ _ hc => executes_stageCommit hc _))
  case stageAbort =>
    exact Host.Outcome.next.inj e ▸ trades_runRequest _
      (fun _ => executes_whileOpen (fun _ _ hc => executes_reply (keeps_closeStaging (commitPromise_opened hc)) _ _))
  case readStaged =>
    exact Host.Outcome.next.inj e ▸ trades_runRequest _
      (fun _ => executes_whileOpen (fun _ _ _ => executes_readStaged _ _ _))
  case setLineSetup => exact Host.Outcome.next.inj e ▸ trades_runRequest _ (fun _ => executes_setLineSetup _ _)
  case setProfile => exact Host.Outcome.next.inj e ▸ trades_runRequest _ (fun _ => executes_setProfileRequest _ _ _)
  case setAction => exact Host.Outcome.next.inj e ▸ trades_runRequest _ (fun _ => executes_setAction _ _ _ _)
  case setOutputRefresh => exact Host.Outcome.next.inj e ▸ trades_runRequest _ (fun _ => executes_setOutputRefresh _ _)
  case setServicePermit =>
    exact Host.Outcome.next.inj e ▸ trades_runRequest _ (fun _ => executes_some (keeps_setServicePermit _ _ _ _) _)
  case readLineState =>
    exact Host.Outcome.next.inj e ▸ trades_runRequest _ (fun _ => executes_some (keeps_readLineState _ _) _)
  case readSession =>
    exact Host.Outcome.next.inj e ▸ trades_runRequest _ (fun _ => executes_some (keeps_readTimer _ _) _)
  case ackCondition => exact Host.Outcome.next.inj e ▸ trades_runRequest _ (fun _ => executes_ackCondition _ _ _)
  case ackAll => exact Host.Outcome.next.inj e ▸ trades_runRequest _ (fun _ => executes_ackAll _)
  case clearOverflow =>
    exact Host.Outcome.next.inj e ▸ trades_runRequest _ (fun _ => executes_reply (keeps_of_view (by rfl)) _ _)
  case setOverride =>
    exact Host.Outcome.next.inj e ▸ trades_runRequest _ (fun _ => executes_some (keeps_setOverride _ _ _ _ _ _) _)
  case removeOverride =>
    exact Host.Outcome.next.inj e ▸ trades_runRequest _ (fun _ => executes_some (keeps_removeOverride _ _ _ _ _) _)
  case removeStationOverrides =>
    exact Host.Outcome.next.inj e ▸ trades_runRequest _ (fun _ => executes_removeStationOverrides _ _)
  case removeAllOverrides =>
    exact Host.Outcome.next.inj e ▸ trades_runRequest _ (fun _ => executes_reply (keeps_dropOverrides _ _) _ _)
  case stationRead | stationWrite =>
    exact Host.Outcome.next.inj e ▸ trades_runRequest _ (fun _ => executes_acceptTransaction _ _ _ _ _ _ _)
  case cancelTransaction => exact Host.Outcome.next.inj e ▸ trades_runRequest _ (fun _ => executes_cancelTransaction _ _ _)
  case endSession => exact Host.Outcome.next.inj e ▸ trades_runRequest _ (fun _ => executes_endSessionRequest _)
  case readLineSetup | readProfile | readAction | readEntry | readCondition | readConditionRef | readTableState |
      readOverride =>
    exact Host.Outcome.next.inj e ▸ trades_runRequest _ (fun _ => executes_some (Keeps.refl _) _)
  case unknownRequest =>
    obtain rfl := Host.Outcome.next.inj e
    split
    next h => exact trades_runHead h (fun _ => executes_reply (Keeps.refl _) _ _)
    · exact Keeps.refl s 0 0
  case frameReceived | reply | identity | paramAnswer | paramRefuse | openRequest | keepalive | close |
      serviceReadEntry | serviceReadCondition | serviceSetOverride | serviceRemoveOverride =>
    exact Host.Outcome.next.inj e ▸ keeps_receive s _ _ 0 0
  case frameSent =>
    simp only [exec, execFrameSent] at e
    split at e <;> obtain rfl := Host.Outcome.next.inj e
    · exact keeps_sent s _ 0 0
    · exact Keeps.refl s 0 0
  case replyWindowExpiry =>
    simp only [exec, execReplyWindowExpiry] at e
    split at e <;> obtain rfl := Host.Outcome.next.inj e
    · exact keeps_windowEnds s _ _ 0 0
    · exact Keeps.refl s 0 0
  case cycleEnd =>
    obtain rfl := Host.Outcome.next.inj e
    split
    · exact keeps_cycleEnds s 0 0
    · exact Keeps.refl s 0 0
  case cyclePeriodExpiry =>
    obtain rfl := Host.Outcome.next.inj e
    split
    · exact ((keeps_beginCycle s).trans (keeps_scanOn _)) 0 0
    · exact Keeps.refl s 0 0
  case outputRefreshTimerExpiry =>
    obtain rfl := Host.Outcome.next.inj e
    split
    · have hstood : Keeps s { s with safety := { s.safety with timer := none, standing := true } } := keeps_of_view rfl
      simp only [State.refreshExpired]
      split
      · exact hstood 0 0
      · exact ((hstood.trans (CondOnly.keeps (condOnly_beginCause _ _))).trans (keeps_endGroup _)) 0 0
    · exact Keeps.refl s 0 0
  case errorWindowExpiry =>
    obtain rfl := Host.Outcome.next.inj e
    split
    · exact keeps_setLine s _ _ 0 0
    · exact Keeps.refl s 0 0
  case withdrawalTimerExpiry =>
    obtain rfl := Host.Outcome.next.inj e
    split
    · exact keeps_returnLine s _ 0 0
    · exact Keeps.refl s 0 0
  case stagingGapTimerExpiry =>
    obtain rfl := Host.Outcome.next.inj e
    split
    next hopen =>
      have hnone : commitPromise s.config.staging = 0 := by
        cases hg : s.config.staging with
        | commitPending tag c =>
          rw [hg] at hopen
          cases hopen
        | _ => rfl
      have hclosed : Keeps s { s.closeStaging with config := { s.closeStaging.config with incomplete := true } } :=
        (keeps_closeStaging hnone).trans (keeps_of_view (by rfl))
      simp only [State.gapExpired]
      split
      · exact hclosed 0 0
      · exact ((hclosed.trans (CondOnly.keeps (condOnly_beginCause _ _))).trans (keeps_endGroup _)) 0 0
    · exact Keeps.refl s 0 0
  case sessionTimerExpiry => exact Host.Outcome.next.inj e ▸ ((keeps_endSession s _).trans (keeps_endGroup _)) 0 0
  case frameFirstOctet => exact Host.Outcome.next.inj e ▸ keeps_firstOctet s _ 0 0

theorem step_trades {s t : State} (h : step s = .next t) : Trades 0 0 0 0 s t := by
  rcases step_cases h with ⟨rfl, -⟩ | ⟨i, rest, -, he⟩
  · exact Keeps.refl s 0 0
  · exact Trades.trans (keeps_of_view (t := { s with pending := rest }) (by rfl) 0 0) (exec_trades he)

/-! ## The invariants of the controller's side -/

/-- Settles O5: no operation puts an area out of its canonical form, and a queued record is a copy of the entry area. -/
theorem memoryCanonicalKept : Obligations.MemoryCanonicalKept := fun _ _ hs hstep => (step_trades hstep).areas hs

/-- Settles O10: inside a row the law of R185 holds with the places reserved and the responses owed counted, and at its end
neither is left. -/
theorem promisesStayKept : Obligations.PromisesStayKept := by
  intro s t hs hstep
  rw [promisesKept_iff] at hs ⊢
  exact (step_trades hstep).promised hs

end Sys2Proof.Proofs
end

section
/-! PROOFS. The tables stay tables and the roster stays consistent. -/

namespace Sys2Proof.Proofs

open Sys2Proof.Machine Sys2Proof.Safety Sys2Proof.Laws

/-! ## The condition table -/

theorem distinct_ackRecord {s : State} (h : Distinct s) (r : ConditionRecord) : Distinct (s.ackRecord r) := by
  unfold State.ackRecord
  split
  · exact distinct_changeRecord h _ _ fun _ => ⟨rfl, rfl⟩
  · exact distinct_removeRecord h r
  · exact h

theorem distinct_of_records {s t : State} (h : Distinct s) (e : t.cond.records = s.cond.records) : Distinct t := by
  unfold Distinct
  rwa [e]

theorem distinct_of_no_records {t : State} (e : t.cond.records = []) : Distinct t := by
  unfold Distinct
  rw [e]
  exact ⟨Nat.zero_le _, .nil, .nil⟩

theorem distinct_recordsKept : RecordsKept Distinct where
  toCondKept := distinct_kept
  acks _ r h := distinct_ackRecord h r
  empties _ _ _ hrecords _ := distinct_of_no_records hrecords
  scans _ _ h hcond _ := distinct_of_records h (by rw [hcond])
  counts _ _ h hrecords _ _ := distinct_of_records h hrecords

theorem step_distinct {s t : State} (h : Distinct s) (hstep : step s = .next t) : Distinct t := by
  refine distinct_recordsKept.step_keeps h (fun _ => distinct_of_no_records rfl) (fun u b c d hu => ?_) hstep
  rcases setAction_cases u b c d with e | ⟨k, x, -, e⟩
  · rwa [e]
  · rw [e]
    exact distinct_of_records hu rfl

/-! ## The roster -/

/-- The rows of `CondKept.special` keep the roster consistent too. -/
theorem rosterSafe_exec_special {s t : State} (k : RosterSafe s) {i : Instr} (hi : CondKept.special i = true)
    (e : exec i s = .next t) : RosterSafe t := by
  have hp : RosterSafe s.popRequest := k.frame (by rfl)
  cases i <;> simp only [CondKept.special, Bool.false_eq_true] at hi
  case powerOnReset => exact Host.Outcome.next.inj e ▸ RosterSafe.reset.frame (by rfl)
  case restartLine =>
    obtain rfl := Host.Outcome.next.inj e
    split
    · exact k
    · exact RosterSafe.restart (k.frame (by rfl))
  case restart => exact Host.Outcome.next.inj e ▸ k.runRequest _ _ fun _ => hp.restart
  case start =>
    have hstart := k.runRequest .start (fun _ u => u.startRequest) fun _ => hp.startRequest
    obtain rfl := Host.Outcome.next.inj e
    split
    · exact hstart.scanOn
    · exact hstart
  case resume => exact Host.Outcome.next.inj e ▸ k.runRequest _ _ fun _ => hp.resumeRequest
  case setAction => exact Host.Outcome.next.inj e ▸ k.runRequest _ _ fun _ => hp.setAction _ _ _
  case ackCondition => exact Host.Outcome.next.inj e ▸ k.runRequest _ _ fun _ => hp.ackCondition _ _
  case ackAll => exact Host.Outcome.next.inj e ▸ k.runRequest _ _ fun _ => hp.ackAll
  case clearOverflow => exact Host.Outcome.next.inj e ▸ k.runRequest _ _ fun _ => hp.cond _

theorem step_rosterSafe {s t : State} (k : RosterSafe s) (h : step s = .next t) : RosterSafe t := by
  rcases step_cases h with ⟨rfl, -⟩ | ⟨i, rest, -, he⟩
  · exact k
  have k' : RosterSafe { s with pending := rest } := k.frame (by rfl)
  by_cases hi : CondKept.special i = false
  · exact k'.exec_next hi he
  · exact rosterSafe_exec_special k' (by simpa using hi) he

/-! ## The tables -/

theorem tablesKept_iff (s : State) : TablesKept s ↔ Distinct s ∧ PortTables s := by
  constructor
  · rintro ⟨hlength, hkeys, hslots, hports⟩
    exact ⟨⟨hlength, hkeys, hslots⟩, hports⟩
  · rintro ⟨⟨hlength, hkeys, hslots⟩, hports⟩
    exact ⟨hlength, hkeys, hslots, hports⟩

/-- Settles O7: the condition table stays distinct, the other tables are traded by every step, and the roster is kept with
the keys of the override table beside it. -/
theorem tablesStayTables : Obligations.TablesStayTables := by
  intro s t hs hstep
  obtain ⟨hdistinct, hports⟩ := (tablesKept_iff s).1 hs
  refine ⟨(tablesKept_iff t).2 ⟨step_distinct hdistinct hstep, (step_trades hstep).tables hports⟩, fun hroster => ?_⟩
  obtain ⟨-, -, -, -, hkeys, -⟩ := hs
  exact ((rosterSafe_iff t).1 (step_rosterSafe ((rosterSafe_iff s).2 ⟨hroster, hkeys⟩) hstep)).1

end Sys2Proof.Proofs
end

section
/-! PROOFS. The controller port: what a request's row takes from the queue (R184, R189), and the triggers (R183, R187). -/

namespace Sys2Proof.Proofs

open Sys2Proof.Machine Sys2Proof.Safety Sys2Proof.Laws

/-! ## The rows of the requests (R184) -/

/-- What stands before the part: the commands, the request records and the request entry area. -/
def intake (s : State) : List Instr × List Memory × Memory := (s.pending, s.port.requests, s.port.entryArea)

theorem intake_eq_iff {s : State} {p : List Instr} {q : List Memory} {e : Memory} :
    intake s = (p, q, e) ↔ s.pending = p ∧ s.port.requests = q ∧ s.port.entryArea = e := by
  simp only [intake, Prod.mk.injEq]

theorem intake_commitOnly {s t : State} (h : CommitOnly s t) : intake t = intake s := by
  unfold CommitOnly at h
  rw [h]
  rfl

theorem intake_condOnly {s t : State} (h : CondOnly s t) : intake t = intake s := intake_commitOnly h.commit

theorem intake_overrideOnly {s t : State} (h : OverrideOnly s t) : intake t = intake s := intake_commitOnly h.commit

theorem intake_stopOnly {s t : State} (h : StopOnly s t) : intake t = intake s := by
  rw [h.1]
  rfl

theorem intake_scanOnly {s t : State} (h : ScanOnly s t) : intake t = intake s := by
  rw [h.1]
  rfl

theorem intake_startScanning (s : State) : intake s.startScanning = intake s := by
  have hline : ∀ (u : State) l, intake (u.startLine l) = intake u := by
    intro u l
    unfold State.startLine
    split
    · cases l <;> rfl
    · rfl
  unfold State.startScanning
  generalize hu : ({ s with mode := .scanning } : State).startLine .a = u
  have hfirst : intake u = intake s := hu ▸ hline _ .a
  exact (show _ = _ from hline u .b).trans hfirst

theorem intake_startRequest (s : State) : intake s.startRequest.2 = intake s := by
  unfold State.startRequest
  split
  · rfl
  split
  · rfl
  split
  · rfl
  · exact intake_startScanning s

theorem intake_setCycle (s : State) (c : CycleState) : intake (s.setCycle c) = intake s := rfl

theorem intake_stopRequest (s : State) (tag : Byte) : intake (s.stopRequest tag).2 = intake s := by
  unfold State.stopRequest
  split
  · rfl
  split
  · rfl
  split
  · have hhalt : intake s.stopHalt = intake s := by
      rw [stopHalt_eq]
      rfl
    have hstop : intake (s.stopHalt.stopEnds.setCycle .stopped) = intake s.stopHalt.stopEnds := intake_setCycle _ _
    exact hstop.trans ((intake_stopOnly (stopOnly_stopEnds s.stopHalt)).trans hhalt)
  · rfl

theorem intake_resumeRequest (s : State) : intake s.resumeRequest.2 = intake s := by
  unfold State.resumeRequest
  split
  · rfl
  split <;> rfl

theorem intake_whileOpen {s : State} {f : StagingCopy → State → Option Answer × State}
    (h : ∀ c, intake (f c s.restartGap).2 = intake s.restartGap) : intake (s.whileOpen f).2 = intake s := by
  unfold State.whileOpen
  split
  · rfl
  · rfl
  · exact h _

theorem intake_stageBegin (s : State) (gap : Nat) : intake (s.stageBegin gap).2 = intake s := by
  unfold State.stageBegin
  split
  · rfl
  · rfl
  split <;> rfl

theorem intake_stageStation (s : State) (c : StagingCopy) (b : Byte) (d : Option Descriptor) :
    intake (s.stageStation c b d).2 = intake s := by
  unfold State.stageStation
  split
  · rfl
  split
  · rfl
  split <;> rfl

theorem intake_stageRemove (s : State) (c : StagingCopy) (b : Byte) : intake (s.stageRemove c b).2 = intake s := by
  unfold State.stageRemove
  split
  · rfl
  split <;> rfl

theorem intake_readStaged (s : State) (c : StagingCopy) (b : Byte) : intake (s.readStaged c b).2 = intake s := by
  unfold State.readStaged
  split <;> rfl

theorem intake_stageCommit (s : State) (tag : Byte) (c : StagingCopy) : intake (s.stageCommit tag c).2 = intake s := by
  unfold State.stageCommit
  split
  · rfl
  split
  · rfl
  · exact intake_commitOnly (commitOnly_applyCommit s c)

theorem intake_setLineSetup (s : State) (c : Option LineSetup) : intake (s.setLineSetup c).2 = intake s := by
  unfold State.setLineSetup
  split
  · rfl
  split
  · rfl
  split
  · rfl
  split
  · rfl
  · simp only [State.applySetup]
    refine Eq.trans (intake_condOnly (condOnly_handChanges _ _ _)) ?_
    rfl

theorem intake_setProfileRequest (s : State) (b : Byte) (p : Option Profile) :
    intake (s.setProfileRequest b p).2 = intake s := by
  unfold State.setProfileRequest
  split <;> rfl

theorem intake_setAction (s : State) (b c d : Byte) : intake (s.setAction b c d).2 = intake s := by
  rcases setAction_cases s b c d with e | ⟨k, x, -, e⟩ <;> rw [e]
  rfl

theorem intake_setOutputRefresh (s : State) (limit : Nat) : intake (s.setOutputRefresh limit).2 = intake s := by
  unfold State.setOutputRefresh
  split <;> rfl

theorem intake_permit (s : State) (p q : Bool) (time : Nat) : intake (s.permit p q time).2 = intake s := by
  have hset : ∀ (t : State) (x : SessionUnit), intake { t with session := x } = intake t := fun _ _ => rfl
  unfold State.permit
  split
  · exact (hset (s.endSession .locked) _).trans (intake_commitOnly (sessionOnly_endSession s .locked).commit)
  split
  · exact (hset s.dropSessionOverrides _).trans (intake_overrideOnly (overrideOnly_dropOverrides s _))
  · rfl

theorem intake_setServicePermit (s : State) (b c : Byte) (t : Nat) : intake (s.setServicePermit b c t).2 = intake s := by
  unfold State.setServicePermit
  split
  · split
    · exact intake_permit s _ _ _
    · rfl
  · rfl

theorem intake_readTimer (s : State) (t : Timer) : intake (s.readTimer t).2 = intake s := by
  cases t <;> rfl

theorem intake_readLineState (s : State) (b : Byte) : intake (s.readLineState b).2 = intake s := by
  unfold State.readLineState
  split
  · rfl
  · exact (intake_readTimer _ _).trans (intake_readTimer _ _)

theorem intake_ackRecord (s : State) (r : ConditionRecord) : intake (s.ackRecord r) = intake s := by
  unfold State.ackRecord
  split <;> rfl

theorem intake_ackCondition (s : State) (slot generation : Byte) : intake (s.ackCondition slot generation).2 = intake s := by
  unfold State.ackCondition
  split
  · rfl
  split
  · rfl
  · exact intake_ackRecord s _

theorem intake_ackAll (s : State) : intake s.ackAll.2 = intake s :=
  Laws.keeps_foldl (P := fun t => intake t = intake s) State.ackRecord (fun t r ht => (intake_ackRecord t r).trans ht)
    s.cond.records rfl

theorem intake_removeStationOverrides (s : State) (b : Byte) : intake (s.removeStationOverrides b).2 = intake s := by
  unfold State.removeStationOverrides
  split
  · rfl
  split
  · exact intake_overrideOnly (overrideOnly_dropOverrides s _)
  · rfl

theorem intake_acceptTransaction (s : State) (tag : Byte) (k : TransactionKind) (b c d : Byte) (data : List Byte) :
    intake (s.acceptTransaction tag k b c d data).2 = intake s := by
  unfold State.acceptTransaction
  iterate 5
    split
    · rfl
  split
  · cases k <;> rfl
  · rfl

theorem intake_cancelTransaction (s : State) (own tag : Byte) : intake (s.cancelTransaction own tag).2 = intake s := by
  unfold State.cancelTransaction
  split
  · rfl
  split
  · rfl
  · rfl
  · exact intake_commitOnly (transOnly_complete s _ _ _ _).commit

theorem intake_endSessionRequest (s : State) : intake s.endSessionRequest.2 = intake s := by
  unfold State.endSessionRequest
  split
  · rfl
  · exact intake_commitOnly (sessionOnly_endSession s _).commit

/-- What a ready record's row takes from the queue, from what its unit's work leaves of the intake. -/
theorem next_runRequest_takes {s : State} {k : RequestKind} {r : Memory} {rest : List Memory} (h : Ready s k r rest)
    {body : Memory → State → Option Answer × State} (hbody : intake (body r (taken s rest)).2 = intake (taken s rest)) :
    ∃ t, Host.Outcome.next (s.runRequest k body) = (.next t : Host.Outcome State Fault Refusal) ∧
      intake t = intake (taken s rest) := by
  refine ⟨_, rfl, ?_⟩
  rw [run_ready h, intake_condOnly (condOnly_endGroup _), ← hbody, answered]
  split <;> rfl

/-- The rows whose work leaves the intake as the record's removal does: all but RESTART. -/
theorem requestRow_takes {k : RequestKind} {s : State} {r : Memory} {rest : List Memory} (h : Ready s k r rest)
    (hk : k ≠ .restart) : ∃ t, exec (requestRow k) s = .next t ∧ intake t = intake (taken s rest) := by
  cases k
  case restart => exact absurd rfl hk
  case start =>
    obtain ⟨t, ht, hintake⟩ := next_runRequest_takes h (body := fun _ u => u.startRequest) (intake_startRequest _)
    obtain rfl := Host.Outcome.next.inj ht
    refine ⟨_, rfl, ?_⟩
    split
    · exact (intake_scanOnly (scanOnly_scanOn _)).trans hintake
    · exact hintake
  case stop => exact next_runRequest_takes h (intake_stopRequest _ _)
  case resume => exact next_runRequest_takes h (intake_resumeRequest _)
  case stageBegin => exact next_runRequest_takes h (intake_stageBegin _ _)
  case stageStation => exact next_runRequest_takes h (intake_whileOpen fun c => intake_stageStation _ c _ _)
  case stageRemove => exact next_runRequest_takes h (intake_whileOpen fun c => intake_stageRemove _ c _)
  case stageCommit => exact next_runRequest_takes h (intake_whileOpen fun c => intake_stageCommit _ _ c)
  case stageAbort => exact next_runRequest_takes h (intake_whileOpen fun _ => rfl)
  case readStaged => exact next_runRequest_takes h (intake_whileOpen fun c => intake_readStaged _ c _)
  case setLineSetup => exact next_runRequest_takes h (intake_setLineSetup _ _)
  case setProfile => exact next_runRequest_takes h (intake_setProfileRequest _ _ _)
  case setAction => exact next_runRequest_takes h (intake_setAction _ _ _ _)
  case setOutputRefresh => exact next_runRequest_takes h (intake_setOutputRefresh _ _)
  case setServicePermit => exact next_runRequest_takes h (intake_setServicePermit _ _ _ _)
  case readLineState => exact next_runRequest_takes h (intake_readLineState _ _)
  case readSession => exact next_runRequest_takes h (intake_readTimer _ _)
  case ackCondition => exact next_runRequest_takes h (intake_ackCondition _ _ _)
  case ackAll => exact next_runRequest_takes h (intake_ackAll _)
  case setOverride => exact next_runRequest_takes h (intake_overrideOnly (overrideOnly_setOverride _ _ _ _ _ _))
  case removeOverride => exact next_runRequest_takes h (intake_overrideOnly (overrideOnly_removeOverride _ _ _ _ _))
  case removeStationOverrides => exact next_runRequest_takes h (intake_removeStationOverrides _ _)
  case removeAllOverrides => exact next_runRequest_takes h (intake_overrideOnly (overrideOnly_dropOverrides _ _))
  case stationRead | stationWrite => exact next_runRequest_takes h (intake_acceptTransaction _ _ _ _ _ _ _)
  case cancelTransaction => exact next_runRequest_takes h (intake_cancelTransaction _ _ _)
  case endSession => exact next_runRequest_takes h (intake_endSessionRequest _)
  case readLineSetup | readProfile | readAction | readEntry | readCondition | readConditionRef | readTableState |
      clearOverflow | readOverride =>
    exact next_runRequest_takes h rfl

/-- A restart empties the request queue and keeps the entry area (R118, R183). -/
theorem intake_restart (s : State) : intake s.restart = (s.pending, [], s.port.entryArea) :=
  intake_condOnly (condOnly_sweep _)

theorem restart_takes {s : State} {r : Memory} {rest : List Memory} (h : Ready s .restart r rest) :
    ∃ t, exec .restart s = .next t ∧ intake t = (s.pending, [], s.port.entryArea) := by
  refine ⟨_, rfl, ?_⟩
  rw [run_ready h, intake_condOnly (condOnly_endGroup _)]
  exact intake_restart (taken s rest)

/-- No record of a kind at the head, or no room for its response: the port does not execute it (R184). -/
theorem headReady_eq_false {k : RequestKind} {s : State} (h : ∀ r rest, s.port.requests = r :: rest →
    requestKindOctet r ≠ k.code ∨ 12 < s.port.responses.length + s.port.deferred + 1) :
    s.headReady (fun b => decide (requestKindOf b = some k)) = false := by
  unfold State.headReady
  split
  · rfl
  next r rest hrequests =>
    rcases h r rest hrequests with hkind | hroom
    · have hnot : ¬ requestKindOf (requestKindOctet r) = some k := fun e => hkind (code_of_requestKindOf e)
      simp only [hnot, decide_false, Bool.false_and]
    · have hfull : s.hasRoom = false := decide_eq_false (by omega)
      rw [hfull, Bool.and_false]

theorem requestRow_ignored {k : RequestKind} {s : State}
    (h : s.headReady (fun b => decide (requestKindOf b = some k)) = false) : exec (requestRow k) s = .next s := by
  cases k
  case start =>
    have hrow := runRequest_of_not (s := s) (fun _ u => u.startRequest) h
    refine congrArg Host.Outcome.next ?_
    rw [hrow]
    exact if_neg fun hcycle => by
      rw [hcycle.1] at hcycle
      exact absurd hcycle.2 (by decide)
  all_goals exact congrArg Host.Outcome.next (runRequest_of_not _ h)

/-- A kind octet that is no kind's code names no request (R189). -/
theorem requestKindOf_eq_none {b : Byte} (h : ∀ k : RequestKind, b ≠ k.code) : requestKindOf b = none :=
  Option.eq_none_iff_forall_ne_some.2 fun k e => h k (code_of_requestKindOf e)

theorem exec_unknownRequest {s : State} {r : Memory} {rest : List Memory} (h : s.port.requests = r :: rest)
    (hkind : ∀ k : RequestKind, requestKindOctet r ≠ k.code) (hroom : s.port.responses.length + s.port.deferred + 1 ≤ 12)
    (hsweep : s.cond.sweepOwed = false) : exec .unknownRequest s = answers s r rest .unknownRequest [] := by
  have hready : s.headReady (fun b => (requestKindOf b).isNone) = true := by
    simp only [State.headReady, h, requestKindOf_eq_none hkind, State.hasRoom, hroom, Option.isNone_none, decide_true,
      Bool.and_self]
  have hhead : s.headRequest = r := by rw [State.headRequest, h, List.headD_cons]
  have hpop : s.popRequest = taken s rest := by rw [State.popRequest, h, List.tail_cons]; rfl
  refine congrArg Host.Outcome.next ?_
  rw [if_pos hready, State.runHead, hhead, hpop]
  exact endGroup_of_not_owed hsweep

/-- Settles O11: a row runs nothing unless the head is its own and has room, and its unit's work leaves the intake alone. -/
theorem requestTakesHead : Obligations.RequestTakesHead := by
  refine ⟨fun k s h => requestRow_ignored (headReady_eq_false h), fun k s r rest hready => ?takes,
    fun s r rest hrequests hkind hroom hsweep => exec_unknownRequest hrequests hkind hroom hsweep⟩
  case takes =>
    by_cases hk : k = .restart
    · subst hk
      obtain ⟨t, ht, hintake⟩ := restart_takes hready
      obtain ⟨hpending, hrequests, hentry⟩ := intake_eq_iff.1 hintake
      exact ⟨t, ht, hpending, hrequests, hentry⟩
    · obtain ⟨t, ht, hintake⟩ := requestRow_takes hready hk
      obtain ⟨hpending, hrequests, hentry⟩ := intake_eq_iff.1 hintake
      exact ⟨t, ht, hpending, hrequests.trans (if_neg hk).symm, hentry⟩

/-! ## The triggers (R183, R187) -/

/-- Settles O12: the two branches of a submit, and the tail of the response queue, which frees one place. -/
theorem queueTriggers : Obligations.QueueTriggers := by
  intro s
  refine ⟨fun hlt => ?submitted, fun hge => ?refused, fun p ps hresponses => ⟨?removed, fun k r rest hrequests hkind hsweep
    hfull => ⟨?waited, ?ready⟩⟩, fun hempty => ?ignored⟩
  case submitted => exact congrArg Host.Outcome.next (if_pos hlt)
  case refused => exact congrArg Host.Outcome.next (if_neg (Nat.not_lt.2 hge))
  case removed =>
    refine congrArg Host.Outcome.next ?_
    rw [State.responseTaken, hresponses, List.tail_cons]
  case waited =>
    rintro ⟨-, -, hroom, -⟩
    omega
  case ready =>
    refine ⟨hrequests, hkind, ?_, hsweep⟩
    rw [hresponses, List.length_cons] at hfull
    show ps.length + s.port.deferred + 1 ≤ 12
    omega
  case ignored =>
    refine congrArg Host.Outcome.next ?_
    rw [State.responseTaken, hempty, List.tail_nil, ← hempty]

/-! ## The output commit (R82, R83, R118) -/

theorem scans_iff (m : Mode) : m.scans = true ↔ m = .scanning ∨ m = .held := by
  cases m <;> decide

theorem finishOutputsSafe_of_clear {s : State} (h : s.safety.standing = false) : s.finishOutputsSafe = s := by
  rw [State.finishOutputsSafe, h]
  rfl

theorem finishOutputsSafe_of_standing {s : State} (h : s.safety.standing = true) : s.finishOutputsSafe =
    ({ s with safety := { s.safety with standing := false } } : State).finishCause (plainKey .part .outputsSafe) :=
  if_pos h

/-- What an output commit does before the end of OUTPUTS SAFE. -/
theorem outputCommit_eq (s : State) : s.outputCommit = ({ s with
    scan := { s.scan with live := s.port.outputArea }
    safety := { s.safety with timer := if s.mode = .scanning ∨ s.mode = .held then
      (if s.safety.limit = 0 then none else some s.safety.limit) else s.safety.timer } } : State).finishOutputsSafe.endGroup := by
  unfold State.outputCommit
  by_cases h : s.mode = .scanning ∨ s.mode = .held
  · simp only [if_pos ((scans_iff _).2 h), if_pos h]
    rfl
  · simp only [if_neg fun hs => h ((scans_iff _).1 hs), if_neg h]

/-- Settles O13: the standing indicator decides whether the cause's end is handed. -/
theorem outputCommitTaken : Obligations.OutputCommitTaken := by
  intro s hsweep u
  refine ⟨fun hclear => ?clear, fun hstanding => ?standing⟩
  case clear =>
    refine congrArg Host.Outcome.next ((outputCommit_eq s).trans ?_)
    refine (congrArg State.endGroup (finishOutputsSafe_of_clear (by exact hclear))).trans
      ((endGroup_of_not_owed (by exact hsweep)).trans ?_)
    simp only [u, hclear]
  case standing =>
    refine congrArg Host.Outcome.next ((outputCommit_eq s).trans ?_)
    exact congrArg State.endGroup (finishOutputsSafe_of_standing (by exact hstanding))

/-! ## The window writes (R181, R192, R193) -/

/-- Octets inside the output area are stored there. -/
theorem storeOctets_outputArea {o : Nat} {data : List Byte} (s : State) (hlow : 0x400 ≤ o)
    (hhigh : o + data.length ≤ 0x800) : s.storeOctets o data =
      { s with port := { s.port with outputArea := s.port.outputArea.writeList (o - 0x400) data } } := by
  induction data generalizing s o with
  | nil => rfl
  | cons b bs ih =>
    rw [List.length_cons] at hhigh
    have hstore : s.storeOctet o b = { s with port := { s.port with outputArea := s.port.outputArea.write (o - 0x400) b } } :=
      if_pos ⟨hlow, by omega⟩
    rw [State.storeOctets, hstore, ih _ (by omega) (by omega), Nat.sub_add_comm hlow]
    rfl

/-- Octets inside the request entry area are stored there. -/
theorem storeOctets_entryArea {o : Nat} {data : List Byte} (s : State) (hlow : 0x900 ≤ o)
    (hhigh : o + data.length ≤ 0xA00) : s.storeOctets o data =
      { s with port := { s.port with entryArea := s.port.entryArea.writeList (o - 0x900) data } } := by
  induction data generalizing s o with
  | nil => rfl
  | cons b bs ih =>
    rw [List.length_cons] at hhigh
    have hstore : s.storeOctet o b = { s with port := { s.port with entryArea := s.port.entryArea.write (o - 0x900) b } } := by
      rw [State.storeOctet, if_neg (by omega), if_pos ⟨hlow, by omega⟩]
    rw [State.storeOctets, hstore, ih _ (by omega) (by omega), Nat.sub_add_comm hlow]
    rfl

/-- Octets outside the two areas are dropped (R193). -/
theorem storeOctets_elsewhere {o : Nat} {data : List Byte} (s : State)
    (h : o + data.length ≤ 0x400 ∨ (0x800 ≤ o ∧ o + data.length ≤ 0x900) ∨ 0xA00 ≤ o) : s.storeOctets o data = s := by
  induction data generalizing o with
  | nil => rfl
  | cons b bs ih =>
    rw [List.length_cons] at h
    have hstore : s.storeOctet o b = s := by
      rw [State.storeOctet, if_neg (by omega), if_neg (by omega)]
    rw [State.storeOctets, hstore, ih (by omega)]

/-- An access of an octet, or of a word at an even offset, touches the word its offset lies in, and no other (R192). -/
theorem touches_eq {o n word : Nat} (h : n = 1 ∨ (n = 2 ∧ o % 2 = 0)) (hword : word % 2 = 0) :
    touches o n word = decide (o = word ∨ o = word + 1) := by
  unfold touches
  rw [decide_eq_decide]
  omega

/-- Settles O14: the offset lies in at most one of the areas and trigger words. -/
theorem windowWriteTaken : Obligations.WindowWriteTaken := by
  intro s o data haccess
  have htouched : ∀ word, word % 2 = 0 → o = word ∨ o = word + 1 → touches o data.length word = true :=
    fun word hword ho => (touches_eq haccess hword).trans (decide_eq_true ho)
  have huntouched : ∀ word, word % 2 = 0 → ¬ (o = word ∨ o = word + 1) → touches o data.length word = false :=
    fun word hword ho => (touches_eq haccess hword).trans (decide_eq_false ho)
  have hdrop : 0x802 ≤ o → o < 0x808 → s.storeOctets o data = s := fun _ _ => storeOctets_elsewhere s (by omega)
  have hexec : exec (.windowWrite o data) s = execWindowWrite o data s := rfl
  rw [hexec, execWindowWrite]
  refine ⟨fun ho => ?stored, fun ho => ?commit, fun ho => ?submit, fun ho => ?responseTaken⟩
  case stored =>
    simp only [huntouched 0x802 rfl (by omega), huntouched 0x804 rfl (by omega), huntouched 0x806 rfl (by omega),
      Bool.false_eq_true, if_false]
    refine congrArg Host.Outcome.next ?_
    split
    next hout => exact storeOctets_outputArea s hout.1 (by omega)
    split
    next hentry => exact storeOctets_entryArea s hentry.1 (by omega)
    next hout hentry => exact storeOctets_elsewhere s (by omega)
  case commit =>
    simp only [htouched 0x802 rfl ho, huntouched 0x804 rfl (by omega), huntouched 0x806 rfl (by omega),
      hdrop (by omega) (by omega), Bool.false_eq_true, if_false, if_true]
    rfl
  case submit =>
    simp only [huntouched 0x802 rfl (by omega), htouched 0x804 rfl ho, huntouched 0x806 rfl (by omega),
      hdrop (by omega) (by omega), Bool.false_eq_true, if_false, if_true]
    rfl
  case responseTaken =>
    simp only [huntouched 0x802 rfl (by omega), huntouched 0x804 rfl (by omega), htouched 0x806 rfl ho,
      hdrop (by omega) (by omega), Bool.false_eq_true, if_false, if_true]
    rfl

end Sys2Proof.Proofs
end

section
/-! PROOFS. Restart (R155 to R157): what it leaves, and the sweep that closes it. -/

namespace Sys2Proof.Proofs

open Sys2Proof.Machine Sys2Proof.Safety Sys2Proof.Laws

/-! ## The state a restart sweeps -/

/-- What a restart leaves before its closing sweep (R157). -/
def restartBase (s : State) : State :=
  { s with
    mode := if s.anyConfigured then .standby else .offline
    stopPending := none
    roster := ⟨⟨(List.finRange 32).map (fun a => restartEntry s.ownAddress a (s.entry a))⟩, by simp⟩
    supervised := Vector.replicate 32 {}
    cond := s.restartConditions
    overrides := []
    scan := s.restartScan
    lineA := s.lineA.restart
    lineB := s.lineB.restart
    own := {}
    safety := { limit := s.safety.limit }
    trans := { nextStamp := s.trans.nextStamp }
    config := { s.config with staging := .closed, gapTimer := none }
    session := s.session.restart
    port := s.port.restart }

theorem restart_eq_sweep (s : State) : s.restart = (restartBase s).sweep := rfl

theorem entry_restartBase (s : State) (a : Addr) :
    (restartBase s).entry a = restartEntry s.ownAddress a (s.entry a) := by
  simp [State.entry, restartBase]

theorem supervision_restartBase (s : State) (a : Addr) : (restartBase s).supervision a = {} :=
  Vector.getElem_replicate _

theorem slice_restartBase (s : State) (a : Addr) : (restartBase s).slice a = restartSlice (s.entry a) := by
  simp [State.slice, restartBase, State.restartScan]

theorem slot_restartBase (s : State) (i : Fin 4) : (restartBase s).slot i = none :=
  Vector.getElem_replicate _

theorem toggle_restartBase (s : State) (a : Addr) : (restartBase s).toggle a = false :=
  Vector.getElem_replicate _

theorem line_restartBase (s : State) (l : LineId) : (restartBase s).line l = (s.line l).restart := by
  cases l <;> rfl

theorem mode_restartBase (s : State) : (restartBase s).mode ≠ .scanning := by
  show (if s.anyConfigured then Mode.standby else .offline) ≠ .scanning
  split <;> exact Mode.noConfusion

theorem generations_restartBase (s : State) (i : Fin 64) :
    (restartBase s).cond.generations[i.val] = s.restartGeneration i := by
  simp [restartBase, State.restartConditions]

/-! ## The causes that stand after a restart -/

theorem stationCauses_restart (c : LineSetup) (own a : Addr) (e : Entry) :
    stationCauses c a (restartEntry own a e) {} 0 = [] := by
  unfold restartEntry
  split
  · simp [stationCauses, causeIf, Entry.lostCause, Entry.alternateLine, Entry.setUp, Entry.dataValid]
  split <;> simp [stationCauses, causeIf, Entry.lostCause, Entry.alternateLine, Entry.unconfigured]

theorem causesOfStation_restartBase (s : State) (a : Addr) : (restartBase s).causesOfStation a = [] := by
  rw [State.causesOfStation, entry_restartBase, supervision_restartBase]
  exact stationCauses_restart _ _ _ _

theorem causesOfLine_restartBase (s : State) (l : LineId) : (restartBase s).causesOfLine l = [] := by
  have hstate : (s.line l).restart.state ≠ .withdrawn := by
    show (if (s.line l).state = .disabled then LineState.disabled else .quiet) ≠ .withdrawn
    split <;> exact LineState.noConfusion
  rw [State.causesOfLine, line_restartBase, causeIf, decide_eq_false hstate]
  rfl

/-- After a restart CONFIG INCOMPLETE alone can stand. -/
theorem standingCauses_restartBase (s : State) : (restartBase s).standingCauses =
    causeIf s.config.incomplete .part .configIncomplete [] := by
  have hstations : allAddrs.flatMap (restartBase s).causesOfStation = [] :=
    List.flatMap_eq_nil_iff.2 fun a _ => causesOfStation_restartBase s a
  have hpart : (restartBase s).causesOfPart = causeIf s.config.incomplete .part .configIncomplete [] := by
    simp only [State.causesOfPart, restartBase, causeIf, Option.isSome_none, Bool.false_eq_true, if_false, List.nil_append,
      List.append_nil]
    rfl
  rw [State.standingCauses, hstations, hpart, causesOfLine_restartBase, causesOfLine_restartBase]
  simp only [List.append_nil]

/-! ## The sweep of a restart -/

/-- The records that stand after the closing sweep of a restart. -/
def restartRecords (s : State) : List ConditionRecord :=
  if s.config.incomplete then
    [{ slot := 0, generation := (restartBase s).cond.generations[0], key := plainKey .part .configIncomplete
       cls := (s.action .configIncomplete).cls, latching := (s.action .configIncomplete).latching
       state := .standing, occurrences := 1, raisedAt := 0, changedAt := 0, extra := [] }]
  else []

theorem noticeOf_of_not_scanning {s : State} (h : s.mode ≠ .scanning) (c : ActionClass) : s.noticeOf c = s := by
  unfold State.noticeOf State.fatalNotice
  rw [if_neg h, ite_self]

theorem sweepOne_empty {s : State} (hrecords : s.cond.records = []) (hmode : s.mode ≠ .scanning) (c : Cause) :
    s.sweepOne c = s.setRecords
      [{ slot := 0, generation := s.cond.generations[0], key := c.key, cls := (s.action c.key.category).cls
         latching := (s.action c.key.category).latching, state := .standing, occurrences := 1
         raisedAt := s.scan.number, changedAt := s.scan.number, extra := c.extra }] := by
  have hfree : freeSlot ([] : List ConditionRecord) = some 0 := by decide
  have hnone : s.findRecord c.key = none := by rw [State.findRecord, hrecords, List.find?_nil]
  rw [State.sweepOne, if_pos ⟨by rw [hrecords]; decide, by rw [hnone]; rfl⟩, State.createRecord]
  simp only [hrecords, hfree]
  exact noticeOf_of_not_scanning (by exact hmode) _

theorem restart_eq (s : State) : s.restart = (restartBase s).setRecords (restartRecords s) := by
  rw [restart_eq_sweep, State.sweep, standingCauses_restartBase, restartRecords]
  cases s.config.incomplete with
  | false => rfl
  | true =>
    simp only [causeIf, if_true, List.foldl_cons, List.foldl_nil]
    rw [sweepOne_empty rfl (mode_restartBase s)]
    rfl

theorem restartGeneration_eq (s : State) (i : Fin 64) : s.restartGeneration i =
    if ∃ q ∈ s.cond.records, q.slot = i then s.cond.generations[i.val] + 1 else s.cond.generations[i.val] := by
  simp only [State.restartGeneration, List.any_eq_true, decide_eq_true_eq]

theorem restartEntry_configured {own a : Addr} {e : Entry} {d : Descriptor} (h : e.descriptor = some d) :
    restartEntry own a e = { descriptor := some d, presence := .expected, activeLine := some d.preferred,
                             placement := e.placement } := by
  simp only [restartEntry, h, Entry.setUp]

theorem restartEntry_unconfigured {own a : Addr} {e : Entry} (h : e.descriptor = none) :
    restartEntry own a e = { presence := if a = own then .own else .absent } := by
  by_cases ha : a = own
  · simp only [restartEntry, h, if_pos ha]
  · simp only [restartEntry, h, if_neg ha, Entry.unconfigured]

theorem restarted_restart (s : State) : Restarted s s.restart := by
  rw [restart_eq]
  refine ⟨rfl, fun a => ?entries, supervision_restartBase s, slice_restartBase s, rfl, rfl, rfl, rfl, rfl, rfl,
    fun i => (generations_restartBase s i).trans (restartGeneration_eq s i), rfl, rfl, rfl, rfl, rfl, rfl, rfl, rfl, rfl, rfl,
    rfl, fun l => ?lines, slot_restartBase s, toggle_restartBase s, rfl, rfl, rfl, rfl, rfl, rfl, rfl, rfl⟩
  case entries =>
    refine (entry_restartBase s a).trans ?_
    cases hd : (s.entry a).descriptor with
    | some d => exact restartEntry_configured hd
    | none => exact restartEntry_unconfigured hd
  case lines =>
    have hline : ((restartBase s).setRecords (restartRecords s)).line l = (s.line l).restart := line_restartBase s l
    rw [hline]
    exact ⟨rfl, rfl, rfl, rfl, rfl, rfl, rfl⟩

/-- A restart looks at the port's entry area and restart count alone. -/
theorem restarted_of_port {s t : State} {p : Port} (h : Restarted { s with port := p } t)
    (hentry : p.entryArea = s.port.entryArea) (hcount : p.restartCount = s.port.restartCount) : Restarted s t := by
  unfold Restarted at h ⊢
  simp only [hentry, hcount] at h
  exact h

/-- Posting touches nothing a restart is judged by. -/
theorem restarted_posted {s t : State} (h : Restarted s t) (r : Memory) (st : Status) (result : List Byte) :
    Restarted s (posted t r st result) := h

/-- Settles O3: both rows restart the state the line or the record leaves, and the sweep owes nothing after. -/
theorem restartTaken : Obligations.RestartTaken := by
  intro s
  refine ⟨fun hreleased => ?asserted, fun hheld => ?held, rfl, fun r rest hready => ?request⟩
  case asserted =>
    refine ⟨_, congrArg Host.Outcome.next (if_neg (by rw [hreleased]; decide)), ?_, ?_, ?_⟩
    · exact restarted_of_port (restarted_restart _) rfl rfl
    · rw [restart_eq]; rfl
    · rw [restart_eq]; rfl
  case held => exact congrArg Host.Outcome.next (if_pos hheld)
  case request =>
    have hexec : exec .restart s = .next (posted (taken s rest).restart r .ok []) :=
      congrArg Host.Outcome.next (run_reply hready rfl rfl)
    refine ⟨_, hexec, restarted_posted (restarted_of_port (restarted_restart _) rfl rfl) _ _ _, ?_, ?_⟩
    · rw [restart_eq]; rfl
    · rw [restart_eq]; rfl

end Sys2Proof.Proofs
end

section
/-! PROOFS. The window (R181, R188, R193): what each octet of it shows. -/

namespace Sys2Proof.Proofs

open Sys2Proof.Machine Sys2Proof.Safety Sys2Proof.Laws

/-! ## The areas of the window (Table 12-1) -/

section Areas

variable (s : State) {x : Nat}

theorem windowOctet_published (h : x < 0x400) : s.windowOctet x = s.scan.published.read x := if_pos h

theorem windowOctet_outputArea (hlow : 0x400 ≤ x) (hhigh : x < 0x800) :
    s.windowOctet x = s.port.outputArea.read (x - 0x400) := by
  rw [State.windowOctet, if_neg (by omega), if_pos hhigh]

theorem windowOctet_sequence (hlow : 0x800 ≤ x) (hhigh : x < 0x802) :
    s.windowOctet x = (wordOctets s.scan.sequence).getD (x - 0x800) 0 := by
  rw [State.windowOctet, if_neg (by omega), if_neg (by omega), if_pos hhigh]

theorem windowOctet_triggers (hlow : 0x802 ≤ x) (hhigh : x < 0x810) : s.windowOctet x = 0 := by
  rw [State.windowOctet, if_neg (by omega), if_neg (by omega), if_neg (by omega), if_pos hhigh]

theorem windowOctet_portStatus (hlow : 0x810 ≤ x) (hhigh : x < 0x81E) :
    s.windowOctet x = s.portStatus.getD (x - 0x810) 0 := by
  rw [State.windowOctet, if_neg (by omega), if_neg (by omega), if_neg (by omega), if_neg (by omega), if_pos hhigh]

theorem windowOctet_afterPortStatus (hlow : 0x81E ≤ x) (hhigh : x < 0x840) : s.windowOctet x = 0 := by
  rw [State.windowOctet, if_neg (by omega), if_neg (by omega), if_neg (by omega), if_neg (by omega), if_neg (by omega),
    if_pos hhigh]

theorem windowOctet_station (a : Addr) {j : Nat} (hj : j < 4) :
    s.windowOctet (0x840 + 4 * a.val + j) = (s.summary a).getD j 0 := by
  have ha := a.isLt
  rw [State.windowOctet, if_neg (by omega), if_neg (by omega), if_neg (by omega), if_neg (by omega), if_neg (by omega),
    if_neg (by omega), dif_pos (by omega)]
  have hindex : (⟨(0x840 + 4 * a.val + j - 0x840) / 4 % 32, by omega⟩ : Addr) = a := Fin.ext (by simp only; omega)
  have hoffset : (0x840 + 4 * a.val + j - 0x840) % 4 = j := by omega
  rw [hindex, hoffset]

theorem windowOctet_afterStations (hlow : 0x8C0 ≤ x) (hhigh : x < 0x900) : s.windowOctet x = 0 := by
  rw [State.windowOctet, if_neg (by omega), if_neg (by omega), if_neg (by omega), if_neg (by omega), if_neg (by omega),
    if_neg (by omega), dif_neg (by omega), if_pos hhigh]

theorem windowOctet_entryArea (hlow : 0x900 ≤ x) (hhigh : x < 0xA00) :
    s.windowOctet x = s.port.entryArea.read (x - 0x900) := by
  rw [State.windowOctet, if_neg (by omega), if_neg (by omega), if_neg (by omega), if_neg (by omega), if_neg (by omega),
    if_neg (by omega), dif_neg (by omega), if_neg (by omega), if_pos hhigh]

theorem windowOctet_responseArea (hlow : 0xA00 ≤ x) (hhigh : x < 0xB00) :
    s.windowOctet x = s.responseArea.getD (x - 0xA00) 0 := by
  rw [State.windowOctet, if_neg (by omega), if_neg (by omega), if_neg (by omega), if_neg (by omega), if_neg (by omega),
    if_neg (by omega), dif_neg (by omega), if_neg (by omega), if_neg (by omega), if_pos hhigh]

theorem windowOctet_above (hlow : 0xB00 ≤ x) : s.windowOctet x = 0 := by
  rw [State.windowOctet, if_neg (by omega), if_neg (by omega), if_neg (by omega), if_neg (by omega), if_neg (by omega),
    if_neg (by omega), dif_neg (by omega), if_neg (by omega), if_neg (by omega), if_neg (by omega)]

end Areas

/-- The window shows the output area and the request entry area octet by octet, and the rest of the port apart from them. -/
theorem windowOctet_of_areas (s : State) (m n : Memory) (x : Nat)
    (hout : 0x400 ≤ x → x < 0x800 → m.read (x - 0x400) = s.port.outputArea.read (x - 0x400))
    (hentry : 0x900 ≤ x → x < 0xA00 → n.read (x - 0x900) = s.port.entryArea.read (x - 0x900)) :
    ({ s with port := { s.port with outputArea := m, entryArea := n } } : State).windowOctet x = s.windowOctet x :=
  ite_congr rfl (fun _ => rfl) fun hpublished => ite_congr rfl (fun h => hout (Nat.not_lt.1 hpublished) h) fun _ =>
    ite_congr rfl (fun _ => rfl) fun _ => ite_congr rfl (fun _ => rfl) fun _ => ite_congr rfl (fun _ => rfl) fun _ =>
    ite_congr rfl (fun _ => rfl) fun _ => dite_congr rfl (fun _ => rfl) fun _ => ite_congr rfl (fun _ => rfl) fun hbelow =>
    ite_congr rfl (fun h => hentry (Nat.not_lt.1 hbelow) h) fun _ => rfl

/-! ## A write reads back (R181) -/

theorem windowOctet_write_outputArea {s : State} (hwf : Memory.wf s.port.outputArea) {o : Nat} {data : List Byte}
    (hlow : 0x400 ≤ o) (hhigh : o + data.length ≤ 0x800) (x : Nat) :
    ({ s with port := { s.port with outputArea := s.port.outputArea.writeList (o - 0x400) data } } : State).windowOctet x =
      if o ≤ x ∧ x < o + data.length then data.getD (x - o) 0 else s.windowOctet x := by
  split
  next hx =>
    rw [windowOctet_outputArea _ (by omega) (by omega), read_writeList hwf, if_pos (by omega),
      show x - 0x400 - (o - 0x400) = x - o by omega]
  next hx =>
    refine windowOctet_of_areas s _ _ x (fun _ _ => ?_) fun _ _ => rfl
    rw [read_writeList hwf, if_neg (by omega)]

theorem windowOctet_write_entryArea {s : State} (hwf : Memory.wf s.port.entryArea) {o : Nat} {data : List Byte}
    (hlow : 0x900 ≤ o) (hhigh : o + data.length ≤ 0xA00) (x : Nat) :
    ({ s with port := { s.port with entryArea := s.port.entryArea.writeList (o - 0x900) data } } : State).windowOctet x =
      if o ≤ x ∧ x < o + data.length then data.getD (x - o) 0 else s.windowOctet x := by
  split
  next hx =>
    rw [windowOctet_entryArea _ (by omega) (by omega), read_writeList hwf, if_pos (by omega),
      show x - 0x900 - (o - 0x900) = x - o by omega]
  next hx =>
    refine windowOctet_of_areas s _ _ x (fun _ _ => rfl) fun _ _ => ?_
    rw [read_writeList hwf, if_neg (by omega)]

theorem windowOctet_windowWrite {s t : State} {o : Nat} {data : List Byte} (hcanonical : MemoryCanonical s)
    (haccess : data.length = 1 ∨ (data.length = 2 ∧ o % 2 = 0))
    (harea : (0x400 ≤ o ∧ o < 0x800) ∨ (0x900 ≤ o ∧ o < 0xA00)) (h : exec (.windowWrite o data) s = .next t) (x : Nat) :
    t.windowOctet x = if o ≤ x ∧ x < o + data.length then data.getD (x - o) 0 else s.windowOctet x := by
  obtain ⟨-, -, hout, hentry, -⟩ := hcanonical
  obtain ⟨hstored, -⟩ := windowWriteTaken s o data haccess
  obtain rfl := Host.Outcome.next.inj ((hstored (by omega)).symm.trans h)
  rcases harea with ⟨hlow, hhigh⟩ | ⟨hlow, hhigh⟩
  · rw [if_pos ⟨hlow, hhigh⟩]
    exact windowOctet_write_outputArea hout hlow (by omega) x
  · rw [if_neg (by omega), if_pos ⟨hlow, hhigh⟩]
    exact windowOctet_write_entryArea hentry hlow (by omega) x

/-! ## ATTENTION and the flags (R67, R188, Table 12-2) -/

/-- The condition reason in the words of R67: an urgent record or the overflow flag. -/
theorem conditionReason_iff_exists (s : State) : s.conditionReason = true ↔
    (∃ q ∈ s.cond.records, (q.cls = .diagnostic ∨ q.cls = .fatal) ∧ (q.state = .standing ∨ q.state = .ended)) ∨
      s.cond.overflowFlag = true := by
  simp only [State.conditionReason, Bool.or_eq_true, List.any_eq_true, urgent_eq_decide, decide_eq_true_eq]

theorem responseReason_iff (s : State) : s.responseReason = true ↔ s.port.responses ≠ [] := by
  simp only [State.responseReason, Bool.not_eq_true', List.isEmpty_eq_false_iff]

theorem attention_iff (s : State) : s.attention = true ↔ s.port.responses ≠ [] ∨ s.conditionReason = true := by
  rw [State.attention, Bool.or_eq_true, responseReason_iff]

/-! ## The station status table (R20, Table 12-3) -/

theorem isSome_transactionOf (s : State) (a : Addr) :
    (s.transactionOf a).isSome = true ↔ ∃ i u, s.slot i = some u ∧ u.station = a := by
  simp only [State.transactionOf, List.find?_isSome, allSlots, List.mem_finRange, true_and]
  refine exists_congr fun i => ?_
  cases s.slot i with
  | none => simp
  | some u => simp

theorem dataValid_iff (e : Entry) : e.dataValid = true ↔ e.presence = .present ∨ e.presence = .silent := by
  unfold Entry.dataValid
  cases e.presence <;> decide

/-- The first octet of a summary, taken apart (Table 12-3). -/
theorem summary_first (configured valid held : Bool) {line : Nat} (hline : line < 3) :
    let o := octet ((if configured then 128 else 0) + (if valid then 64 else 0) + (if held then 32 else 0) + line)
    o.getLsbD 7 = configured ∧ o.getLsbD 6 = valid ∧ o.getLsbD 5 = held ∧
      (o.getLsbD 4 = false ∧ o.getLsbD 3 = false ∧ o.getLsbD 2 = false) ∧ o.toNat % 4 = line := by
  revert configured valid held
  interval_cases line <;> decide

/-- The code of an entry's active line in its summary (Table 12-3). -/
def summaryLine : Option LineId → Nat
  | none => 0
  | some .a => 1
  | some .b => 2

theorem summaryLine_lt (l : Option LineId) : summaryLine l < 3 := by
  unfold summaryLine
  split <;> decide

theorem summary_eq (s : State) (a : Addr) : s.summary a =
    [octet ((if (s.entry a).configured then 128 else 0) + (if (s.entry a).dataValid then 64 else 0) +
        (if (s.transactionOf a).isSome then 32 else 0) + summaryLine (s.entry a).activeLine),
      (s.entry a).presence.code, octet (s.overrideCount a), octet (s.conditionCount a)] := by
  rfl

/-! ## What the window shows -/

theorem windowOctet_response {s : State} {p : Response} {ps : List Response} (h : s.port.responses = p :: ps) {i : Nat}
    (hi : i < 256) : s.windowOctet (0xA00 + i) = p.octets.getD i 0 := by
  rw [windowOctet_responseArea s (by omega) (by omega), State.responseArea, h, Nat.add_sub_cancel_left]

theorem windowOctet_noResponse {s : State} (h : s.port.responses = []) {i : Nat} (hi : i < 256) :
    s.windowOctet (0xA00 + i) = if i = 2 then 255 else 0 := by
  rw [windowOctet_responseArea s (by omega) (by omega), State.responseArea, h, Nat.add_sub_cancel_left]
  match i with
  | 0 | 1 | 2 | 3 => rfl
  | n + 4 => rw [if_neg (by omega)]; rfl

/-- The flags of the port status words, bit by bit (Table 12-2). -/
def portFlag (s : State) : Nat → Bool
  | 0 => s.responseReason
  | 1 => s.conditionReason
  | 2 => s.cond.overflowFlag
  | 3 => s.port.submitRefused
  | 4 => s.stopPending.isSome
  | 5 => s.session.current.isSome
  | _ => false

theorem windowOctet_flags (s : State) {i : Nat} (hi : i < 8) : (s.windowOctet 0x814).getLsbD i = portFlag s i := by
  have hflags : s.windowOctet 0x814 = s.flagsOctet := windowOctet_portStatus s (by decide) (by decide)
  rw [hflags, State.flagsOctet, octetOfBits_bit _ i hi]
  rfl

/-- The four octets of an address in the station status table. -/
theorem windowOctet_summary (s : State) (a : Addr) :
    let first := s.windowOctet (0x840 + 4 * a.val)
    (first.getLsbD 7 = (s.entry a).configured ∧ first.getLsbD 6 = (s.entry a).dataValid ∧
      first.getLsbD 5 = (s.transactionOf a).isSome ∧
      (first.getLsbD 4 = false ∧ first.getLsbD 3 = false ∧ first.getLsbD 2 = false) ∧
      first.toNat % 4 = summaryLine (s.entry a).activeLine) ∧
    s.windowOctet (0x841 + 4 * a.val) = (s.entry a).presence.code ∧
    s.windowOctet (0x842 + 4 * a.val) = octet (s.overrideCount a) ∧
    s.windowOctet (0x843 + 4 * a.val) = octet (s.conditionCount a) := by
  have hoctet : ∀ j, j < 4 → s.windowOctet (0x840 + j + 4 * a.val) = (s.summary a).getD j 0 := fun j hj => by
    rw [show 0x840 + j + 4 * a.val = 0x840 + 4 * a.val + j by omega, windowOctet_station s a hj]
  have hfirst := hoctet 0 (by decide)
  have hpresence := hoctet 1 (by decide)
  have hoverrides := hoctet 2 (by decide)
  have hconditions := hoctet 3 (by decide)
  rw [summary_eq] at hfirst hpresence hoverrides hconditions
  refine ⟨?_, hpresence, hoverrides, hconditions⟩
  rw [show s.windowOctet (0x840 + 4 * a.val) = _ from hfirst]
  exact summary_first _ _ _ (summaryLine_lt _)

/-- Settles O15: the first part is `windowOctet_windowWrite`; each line of the second is the equation of its area. -/
theorem windowReadsBack : Obligations.WindowReadsBack := by
  refine ⟨fun s t o data hcanonical haccess harea h x => windowOctet_windowWrite hcanonical haccess harea h x,
    fun s => ?shows⟩
  intro reason
  have hreason : s.conditionReason = true ↔ reason := conditionReason_iff_exists s
  have hport : ∀ {x}, 0x810 ≤ x → x < 0x81E → s.windowOctet x = s.portStatus.getD (x - 0x810) 0 :=
    fun hlow hhigh => windowOctet_portStatus s hlow hhigh
  have hsequence : ∀ {x}, 0x800 ≤ x → x < 0x802 → s.windowOctet x = (wordOctets s.scan.sequence).getD (x - 0x800) 0 :=
    fun hlow hhigh => windowOctet_sequence s hlow hhigh
  refine ⟨fun x hx => windowOctet_published s hx, fun x hlow hhigh => windowOctet_outputArea s hlow hhigh,
    ⟨hsequence (by decide) (by decide), hsequence (by decide) (by decide)⟩,
    fun x hlow hhigh => windowOctet_triggers s hlow hhigh, hport (by decide) (by decide), ?staging,
    ⟨hport (by decide) (by decide), hport (by decide) (by decide)⟩, ?flags,
    ⟨hport (by decide) (by decide), hport (by decide) (by decide)⟩,
    ⟨hport (by decide) (by decide), hport (by decide) (by decide), hport (by decide) (by decide)⟩,
    ⟨hport (by decide) (by decide), hport (by decide) (by decide), hport (by decide) (by decide),
      hport (by decide) (by decide)⟩,
    fun x hlow hhigh => windowOctet_afterPortStatus s hlow hhigh, fun a => ?station,
    fun x hlow hhigh => windowOctet_afterStations s hlow hhigh, fun x hlow hhigh => windowOctet_entryArea s hlow hhigh,
    fun hempty i hi => windowOctet_noResponse hempty hi, fun p ps hresponses i hi => windowOctet_response hresponses hi,
    fun x hx => windowOctet_above s hx, ?attention⟩
  case staging =>
    rw [hport (by decide) (by decide)]
    show s.config.staging.code = _
    cases s.config.staging <;> rfl
  case flags =>
    refine ⟨?_, ?_, windowOctet_flags s (by decide), windowOctet_flags s (by decide), windowOctet_flags s (by decide),
      windowOctet_flags s (by decide), windowOctet_flags s (by decide), windowOctet_flags s (by decide)⟩
    · rw [windowOctet_flags s (by decide)]
      exact responseReason_iff s
    · rw [windowOctet_flags s (by decide)]
      exact hreason
  case station =>
    intro first e
    obtain ⟨⟨hconfigured, hvalid, hheld, hlow, hline⟩, hpresence, hoverrides, hconditions⟩ := windowOctet_summary s a
    refine ⟨?_, ?_, ?_, hlow, ?_, hpresence, hoverrides, hconditions⟩
    · rw [hconfigured]
      exact Iff.rfl
    · rw [hvalid]
      exact dataValid_iff _
    · rw [hheld]
      exact isSome_transactionOf s a
    · rw [hline]
      rfl
  case attention => rw [attention_iff, hreason]

end Sys2Proof.Proofs
end

section
/-! PROOFS. The operating modes: START (R153), RESUME (R79), and a STOP that takes effect (R116, R154). -/

namespace Sys2Proof.Proofs

open Sys2Proof.Machine Sys2Proof.Safety Sys2Proof.Laws

/-! ## START (R153) -/

/-- A QUIET line made ACTIVE; any other line as it stands (R126). -/
def startedLine (window : Nat) (e : LineEngine) : LineEngine :=
  if e.state = .quiet then
    { e with state := .active, errorCount := 0, errorWindow := some window, withdrawal := none, figures := none }
  else e

theorem startLine_a (s : State) : s.startLine .a = { s with lineA := startedLine s.errorWindowMs s.lineA } := by
  unfold State.startLine startedLine
  by_cases h : s.lineA.state = .quiet
  · rw [if_pos (show (s.line .a).state = .quiet from h), if_pos h]
    rfl
  · rw [if_neg (show ¬ (s.line .a).state = .quiet from h), if_neg h]

theorem startLine_b (s : State) : s.startLine .b = { s with lineB := startedLine s.errorWindowMs s.lineB } := by
  unfold State.startLine startedLine
  by_cases h : s.lineB.state = .quiet
  · rw [if_pos (show (s.line .b).state = .quiet from h), if_pos h]
    rfl
  · rw [if_neg (show ¬ (s.line .b).state = .quiet from h), if_neg h]

theorem startScanning_eq (s : State) : s.startScanning = { s with
    mode := .scanning
    lineA := startedLine s.errorWindowMs s.lineA
    lineB := startedLine s.errorWindowMs s.lineB
    safety := { s.safety with timer := if s.safety.limit = 0 then none else some s.safety.limit }
    scan := { s.scan with cycle := .visiting, began := s.now, nextAddress := 0 }
    freeReads := s.freeReads + 1 } := by
  unfold State.startScanning
  rw [startLine_a, startLine_b]
  rfl

theorem startRequest_of_wrongMode {s : State} (h : s.mode ≠ .standby) : s.startRequest = reply s .wrongMode := if_pos h

theorem startRequest_of_incomplete {s : State} (hmode : s.mode = .standby) (h : s.config.incomplete = true) :
    s.startRequest = reply s .configIncomplete := by
  rw [State.startRequest, if_neg (not_not.2 hmode), if_pos h]

theorem startRequest_of_fatal {s : State} (hmode : s.mode = .standby) (hcomplete : s.config.incomplete = false)
    (h : 0 < s.fatalCount) : s.startRequest = reply s .fatalStanding := by
  rw [State.startRequest, if_neg (not_not.2 hmode), if_neg (by rw [hcomplete]; decide), if_pos h]

theorem startRequest_of_ready {s : State} (hmode : s.mode = .standby) (hcomplete : s.config.incomplete = false)
    (h : s.fatalCount = 0) : s.startRequest = (some ⟨.ok, []⟩, s.startScanning) := by
  rw [State.startRequest, if_neg (not_not.2 hmode), if_neg (by rw [hcomplete]; decide), if_neg (by omega)]

theorem sweepOwed_taken {s : State} {k : RequestKind} {r : Memory} {rest : List Memory} (h : Ready s k r rest) :
    (taken s rest).cond.sweepOwed = false := by
  have howed : s.cond.sweepOwed = false := sweepOwed_of_ready h
  exact howed

/-- A START refused leaves the cycle as it stands, so no visit follows. -/
theorem exec_start_of_refusal {s : State} {r : Memory} {rest : List Memory} (h : Ready s .start r rest) {st : Status}
    (hrefused : (taken s rest).startRequest = reply (taken s rest) st) : exec .start s = answers s r rest st [] := by
  have hrun := run_reply h (body := fun _ u => u.startRequest) hrefused (sweepOwed_taken h)
  refine congrArg Host.Outcome.next ?_
  rw [hrun]
  exact if_neg fun hcycle => absurd (hcycle.1.symm.trans hcycle.2) (by decide)

/-- Settles O16: the three refusals in their order, and the state that the first cycle goes on from. -/
theorem startRequest : Obligations.StartRequest := by
  intro s r rest hready go
  have howed := sweepOwed_taken hready
  refine ⟨fun hmode => ?wrongMode, fun hmode hincomplete => ?incomplete, fun hmode hcomplete hfatal => ?fatal,
    fun hmode hcomplete hfatal hstopped => ?started⟩
  case wrongMode => exact exec_start_of_refusal hready (startRequest_of_wrongMode hmode)
  case incomplete => exact exec_start_of_refusal hready (startRequest_of_incomplete hmode hincomplete)
  case fatal => exact exec_start_of_refusal hready (startRequest_of_fatal hmode hcomplete hfatal)
  case started =>
    have hrun := run_reply hready (body := fun _ u => u.startRequest) (startRequest_of_ready hmode hcomplete hfatal)
      (by rw [startScanning_cond]; exact howed)
    rw [startScanning_eq] at hrun
    refine congrArg Host.Outcome.next ?_
    rw [hrun]
    exact if_pos ⟨hstopped, rfl⟩

/-! ## RESUME (R79) -/

/-- Settles O18: the two refusals in their order, and the entry to SCANNING. -/
theorem resumeRequest : Obligations.ResumeRequest := by
  intro s r rest hready
  have howed := sweepOwed_of_ready hready
  refine ⟨fun hmode => ?wrongMode, fun hmode hfatal => ?fatal, fun hmode hfatal => ?resumed⟩
  case wrongMode =>
    exact next_runRequest_eq_answers (x := ⟨.wrongMode, []⟩) hready (body := fun _ t => t.resumeRequest) (if_pos hmode) howed
  case fatal =>
    exact next_runRequest_eq_answers (x := ⟨.fatalStanding, []⟩) hready (body := fun _ t => t.resumeRequest)
      ((if_neg (not_not.2 hmode)).trans (if_pos hfatal)) howed
  case resumed =>
    exact next_runRequest_eq_answers (x := ⟨.ok, []⟩) hready (body := fun _ t => t.resumeRequest)
      ((if_neg (not_not.2 hmode)).trans (if_neg (Nat.not_lt.2 (Nat.le_of_eq hfatal)))) howed

/-! ## The end of a cause in a table of distinct records (R45, R47, R57) -/

theorem eq_of_key {rs : List ConditionRecord} (hn : (rs.map ConditionRecord.key).Nodup) {q r : ConditionRecord}
    (hq : q ∈ rs) (hr : r ∈ rs) (h : q.key = r.key) : q = r :=
  List.inj_on_of_nodup_map hn hq hr h

/-- After the end of a cause no record with its key stands (R57). -/
theorem ended_of_finishCause {s : State} (hs : Distinct s) (k : Key) :
    ∀ p ∈ (s.finishCause k).cond.records, p.key = k → p.state = .ended := by
  obtain ⟨-, hkeys, hslots⟩ := hs
  have hremoved : ∀ {r}, s.findRecord k = some r → ∀ p ∈ (s.removeRecord r).cond.records, p.key = k → p.state = .ended := by
    intro r hr p hp hpk
    have hmem : r ∈ s.cond.records := List.mem_of_find?_eq_some hr
    have hrk : r.key = k := by simpa using List.find?_some hr
    rw [removeRecord_eq hslots hmem] at hp
    obtain ⟨hps, hne⟩ := List.mem_filter.1 hp
    obtain rfl := eq_of_key hkeys hps hmem (hpk.trans hrk.symm)
    simp at hne
  unfold State.finishCause
  split
  next hnone => exact fun p hp hpk => absurd hpk (findRecord_none hnone p hp)
  next r hr =>
    have hmem : r ∈ s.cond.records := List.mem_of_find?_eq_some hr
    have hrk : r.key = k := by simpa using List.find?_some hr
    split
    next hended =>
      intro p hp hpk
      rwa [eq_of_key hkeys hp hmem (hpk.trans hrk.symm)]
    · exact hremoved hr
    · split
      · intro p hp hpk
        obtain ⟨q, hq, rfl⟩ := List.mem_map.1 hp
        have hqk : q.key = k := by
          split at hpk
          · exact hpk
          · exact hpk
        obtain rfl := eq_of_key hkeys hq hmem (hqk.trans hrk.symm)
        rw [if_pos rfl]
      · exact hremoved hr

/-! ## A STOP that takes effect (R116) -/

/-- The part's mode once it is STANDBY: a FATAL notice has nothing to hold. -/
theorem mode_of_modeStep {s t : State} (h : ModeStep s t) (hs : s.mode ≠ .scanning) : t.mode = s.mode :=
  h.resolve_right fun hstep => hs hstep.1

theorem finishOwnAddress_eq (s : State) : s.finishOwnAddress =
    let u : State := { s with own := { s.own with standing := none } }
    if s.own.standing.isSome then u.finishCause (plainKey .part .ownAddressConflict) else u := by
  unfold State.finishOwnAddress
  cases h : s.own.standing with
  | none =>
    have hown : s.own = { s.own with standing := none } := by rw [← h]
    exact congrArg (fun o => { s with own := o }) hown
  | some l => rfl

/-- The own-address check of a STOP changes its own unit and the condition unit alone. -/
theorem condOnly_finishOwnAddress (s : State) :
    CondOnly { s with own := { s.own with standing := none } } s.finishOwnAddress := by
  rw [finishOwnAddress_eq]
  dsimp only
  split
  · exact condOnly_finishCause _ _
  · exact .refl _

/-- What the session's end leaves in a part of the state that only the session's end may change. -/
theorem stopEnds_eq (s : State) : ∃ c, TransOnly s c ∧ CondOnly
    { c.endSession .stopped with own := { (c.endSession .stopped).own with standing := none } } s.stopEnds :=
  ⟨_, transOnly_completeWhere s (fun _ => true) .stopped, condOnly_finishOwnAddress _⟩

theorem stopEnds_session (s : State) : s.stopEnds.session = { s.session with
    current := none, lastEnd := if s.session.current.isSome then .stopped else s.session.lastEnd } := by
  obtain ⟨c, hc, hstop⟩ := stopEnds_eq s
  have hsession : c.session = s.session := by
    unfold TransOnly at hc
    rw [hc]
  rw [hstop.1]
  show (c.endSession .stopped).session = _
  cases hcurrent : s.session.current with
  | none =>
    have hnone : s.session = { s.session with current := none } := by rw [← hcurrent]
    rw [endSession_none (hsession ▸ hcurrent), hsession]
    exact hnone
  | some o =>
    obtain ⟨hended, -⟩ := endSession_some (reason := .stopped) (hsession ▸ hcurrent)
    rw [hended, hsession]
    rfl

theorem stopEnds_overrides {s : State} (ho : (s.overrides.map overrideKey).Nodup) : s.stopEnds.overrides =
    s.overrides.filter (fun q => decide (s.session.current = none ∨ q.owner ≠ .session)) := by
  obtain ⟨c, hc, hstop⟩ := stopEnds_eq s
  unfold TransOnly at hc
  have hsession : c.session = s.session := by rw [hc]
  have hover : c.overrides = s.overrides := by rw [hc]
  rw [hstop.1]
  show (c.endSession .stopped).overrides = _
  cases hcurrent : s.session.current with
  | none =>
    rw [endSession_none (hsession ▸ hcurrent), hover, List.filter_eq_self.2]
    simp
  | some o =>
    obtain ⟨-, -, hended⟩ := endSession_some (reason := .stopped) (hsession ▸ hcurrent)
    rw [hended, State.dropSessionOverrides, dropOverrides_overrides _ _ (hover ▸ ho), hover]
    refine List.filter_congr fun q _ => ?_
    simp [OverrideRecord.ofSession]

theorem stopEnds_entry (s : State) (a : Addr) : s.stopEnds.entry a =
    if s.session.current.map OpenSession.tool = some a then { s.entry a with presence := .absent, identity := none }
    else s.entry a := by
  obtain ⟨c, hc, hstop⟩ := stopEnds_eq s
  unfold TransOnly at hc
  have hsession : c.session = s.session := by rw [hc]
  have hroster : c.roster = s.roster := by rw [hc]
  rw [hstop.1]
  show (c.endSession .stopped).entry a = _
  cases hcurrent : s.session.current with
  | none =>
    rw [endSession_none (hsession ▸ hcurrent), if_neg (by simp), State.entry, hroster, State.entry]
  | some o =>
    obtain ⟨-, hended, -⟩ := endSession_some (reason := .stopped) (hsession ▸ hcurrent)
    rw [entry_set _ _ _ _ _ hended, hroster]
    simp only [Option.map_some, Option.some.injEq]
    by_cases h : o.tool = a
    · subst h
      rw [if_pos rfl, if_pos rfl, State.entry, hroster, State.entry]
    · rw [if_neg h, if_neg h, State.entry]

theorem stopEnds_toggle (s : State) (hm : s.mode ≠ .scanning) (a : Addr) : s.stopEnds.toggle a = s.toggle a := by
  rw [State.toggle, stopEnds_frame hm, State.toggle]

theorem stopEnds_ended {s : State} (hs : Distinct s) (hown : s.own.standing.isSome = true) :
    ∀ p ∈ s.stopEnds.cond.records, p.key = plainKey .part .ownAddressConflict → p.state = .ended := by
  have hd : Distinct ((s.completeWhere (fun _ => true) .stopped).endSession .stopped) :=
    distinct_kept.endSession (distinct_kept.transOnly hs (transOnly_completeWhere _ _ _)) _
  have hsame : ((s.completeWhere (fun _ => true) .stopped).endSession .stopped).own = s.own := by
    have hc := transOnly_completeWhere s (fun _ => true) .stopped
    unfold TransOnly at hc
    rw [(sessionOnly_endSession _ _).1, hc]
  rw [State.stopEnds, finishOwnAddress_eq, hsame]
  dsimp only
  rw [if_pos hown]
  generalize (s.completeWhere (fun _ => true) .stopped).endSession .stopped = x at hd
  exact ended_of_finishCause (s := { x with own := { s.own with standing := none } })
    (distinct_kept.frame x _ hd rfl rfl) _

/-- A STOP's effects before its response, where the tables are tables (R116, R147). -/
theorem stopEnds_stopEnds {s : State} (hm : s.mode ≠ .scanning) (hs : Distinct s)
    (ho : (s.overrides.map overrideKey).Nodup) : StopEnds s s.stopEnds := by
  obtain ⟨hslots, -, -⟩ := stopEnds_leaves s
  refine ⟨?frame, hslots, stopEnds_toggle s hm, stopEnds_overrides ho, stopEnds_entry s, (endsOnly_stopEnds hs.2.2).1,
    stopEnds_ended hs, stopEnds_cond ho⟩
  case frame =>
    have hframe := stopEnds_frame hm
    rw [stopEnds_session] at hframe
    exact hframe

/-! ## STOP (R111, R154) -/

theorem stopHalt_eq_halted (s : State) : s.stopHalt = halted s := stopHalt_eq s

theorem stopHalt_line (s : State) (l : LineId) :
    (s.stopHalt.line l).state = if (s.line l).state = .active then .quiet else (s.line l).state := by
  have hquiet : ∀ e : LineEngine, (if e.state = .active then e.quieten else e).state =
      if e.state = .active then .quiet else e.state := fun e => by split <;> rfl
  rw [stopHalt_eq]
  cases l
  · exact hquiet s.lineA
  · exact hquiet s.lineB

theorem stopRequest_of_not_scanning {s : State} (tag : Byte) (h : s.mode = .offline ∨ s.mode = .standby) :
    s.stopRequest tag = reply s .wrongMode := by
  rw [State.stopRequest, if_pos]
  rcases h with h | h <;> rw [h] <;> rfl

theorem stopRequest_of_pending {s : State} (tag : Byte) (hmode : s.mode = .scanning ∨ s.mode = .held)
    (h : s.stopPending.isSome = true) : s.stopRequest tag = reply s .busy := by
  rw [State.stopRequest, (scans_iff _).2 hmode, if_neg (by decide), if_pos h]

theorem stopRequest_of_running {s : State} (tag : Byte) (hmode : s.mode = .scanning ∨ s.mode = .held)
    (hnone : s.stopPending = none) (h : s.scan.cycle ≠ .waiting) :
    s.stopRequest tag = (none, ({ s with stopPending := some tag } : State).defer) := by
  rw [State.stopRequest, (scans_iff _).2 hmode, if_neg (by decide), hnone, if_neg (by decide), if_neg h]

theorem stopRequest_of_waiting {s : State} (tag : Byte) (hmode : s.mode = .scanning ∨ s.mode = .held)
    (hnone : s.stopPending = none) (h : s.scan.cycle = .waiting) :
    s.stopRequest tag = (some ⟨.ok, []⟩, s.stopHalt.stopEnds.setCycle .stopped) := by
  rw [State.stopRequest, (scans_iff _).2 hmode, if_neg (by decide), hnone, if_neg (by decide), if_pos h]

theorem exec_stop_of_waiting {s : State} {r : Memory} {rest : List Memory} (hready : Ready s .stop r rest)
    (hmode : s.mode = .scanning ∨ s.mode = .held) (hnone : s.stopPending = none) (hcycle : s.scan.cycle = .waiting) :
    exec .stop s = .next (posted ((taken s rest).stopHalt.stopEnds.setCycle .stopped) r .ok []).endGroup := by
  have hrun := run_ready hready (fun r t => t.stopRequest (requestTag r))
  rw [stopRequest_of_waiting (s := taken s rest) _ hmode hnone hcycle] at hrun
  generalize (taken s rest).stopHalt.stopEnds.setCycle .stopped = x at hrun ⊢
  exact congrArg Host.Outcome.next hrun

theorem stopHalt_mode (s : State) : s.stopHalt.mode = .standby := by rw [stopHalt_eq]

/-- Settles O17: the two refusals, the STOP that waits, and the STOP of WAITING, whose effects are those of
`stopEnds_stopEnds` where the tables are tables. -/
theorem stopRequest : Obligations.StopRequest := by
  intro s r rest hready
  have howed := sweepOwed_of_ready hready
  have howed' := sweepOwed_taken hready
  refine ⟨fun hmode => ?wrongMode, fun hmode hpending => ?busy, fun hmode hnone hcycle => ?deferred,
    fun hmode hnone hcycle => ?taken, fun hmode hnone hcycle htables => ?exact⟩
  case wrongMode =>
    exact next_runRequest_eq_answers (x := ⟨.wrongMode, []⟩) hready (body := fun r t => t.stopRequest (requestTag r))
      (stopRequest_of_not_scanning (s := taken s rest) _ hmode) howed
  case busy =>
    exact next_runRequest_eq_answers (x := ⟨.busy, []⟩) hready (body := fun r t => t.stopRequest (requestTag r))
      (stopRequest_of_pending (s := taken s rest) _ hmode hpending) howed
  case deferred =>
    exact congrArg Host.Outcome.next (run_deferred hready (body := fun r t => t.stopRequest (requestTag r))
      (stopRequest_of_running (s := taken s rest) _ hmode hnone hcycle) howed')
  case taken =>
    refine ⟨_, exec_stop_of_waiting hready hmode hnone hcycle, ?_⟩
    have hhalt := stopHalt_eq (taken s rest)
    have hline := stopHalt_line (taken s rest)
    generalize (taken s rest).stopHalt = h at hhalt hline
    have hstop := stopOnly_stopEnds h
    have hleaves := stopEnds_leaves h
    generalize h.stopEnds = x at hstop hleaves
    obtain ⟨hstop, hstopmode⟩ := hstop
    have hend := condOnly_endGroup (posted (x.setCycle .stopped) r .ok [])
    generalize (posted (x.setCycle .stopped) r .ok []).endGroup = t at hend
    obtain ⟨hend, hendmode⟩ := hend
    obtain ⟨hslots, hsession, hown⟩ := hleaves
    have hstandby : h.mode = .standby := by rw [hhalt]
    have hmode' : x.mode = .standby := (mode_of_modeStep hstopmode (by rw [hstandby]; decide)).trans hstandby
    have hposted : (posted (x.setCycle .stopped) r .ok []).mode = .standby := hmode'
    refine ⟨(mode_of_modeStep hendmode (by rw [hposted]; decide)).trans hposted, ?_, ?_, ?_, fun l => ?_, fun i => ?_, ?_, ?_, ?_, ?_, ?_, ?_⟩
    · rw [hend]; show x.stopPending = none; rw [hstop, hhalt]
    · rw [hend]; rfl
    · rw [hend]; show x.safety = _; rw [hstop, hhalt]; rfl
    · have hsame : t.line l = h.line l := by
        rw [hend]; show x.line l = h.line l; rw [hstop]; cases l <;> rfl
      rw [hsame]
      exact hline l
    · rw [hend]; exact hslots i
    · rw [hend]; exact hsession
    · rw [hend]; exact hown
    · rw [hend]; show x.config = s.config; rw [hstop, hhalt]; rfl
    · rw [hend]; show x.scan.number = s.scan.number; rw [hstop, hhalt]; rfl
    · rw [hend]; show x.port.requests = rest; rw [hstop, hhalt]; rfl
    · rw [hend, ← hmode']; exact List.getLast?_concat
  case exact =>
    obtain ⟨hdistinct, hports⟩ := (tablesKept_iff s).1 htables
    obtain ⟨-, hkeys, -⟩ := hports
    refine ⟨_, ?_, exec_stop_of_waiting hready hmode hnone hcycle⟩
    rw [← stopHalt_eq_halted]
    refine stopEnds_stopEnds (by rw [stopHalt_mode]; decide) ?_ ?_
    · rw [stopHalt_eq]; exact hdistinct
    · rw [stopHalt_eq]; exact hkeys

end Sys2Proof.Proofs
end

section
/-! PROOFS. The staging: STAGE BEGIN (R159), STAGE STATION (R160), READ STAGED (R162) and the checks of STAGE COMMIT (R165). -/

namespace Sys2Proof.Proofs

open Sys2Proof.Machine Sys2Proof.Safety Sys2Proof.Laws

/-! ## The staging state test (R158) -/

theorem whileOpen_of_closed {s : State} (h : s.config.staging = .closed)
    (edit : StagingCopy → State → Option Answer × State) : s.whileOpen edit = reply s .noStaging := by
  simp only [State.whileOpen, h]

theorem whileOpen_of_pending {s : State} {tag : Byte} {c : StagingCopy} (h : s.config.staging = .commitPending tag c)
    (edit : StagingCopy → State → Option Answer × State) : s.whileOpen edit = reply s .busy := by
  simp only [State.whileOpen, h]

/-- A row that works on the open copy refuses its record in CLOSED and in COMMIT PENDING. -/
theorem next_whileOpen_refused {s : State} {k : RequestKind} {r : Memory} {rest : List Memory} (h : Ready s k r rest)
    (edit : Memory → StagingCopy → State → Option Answer × State) :
    (s.config.staging = .closed → Host.Outcome.next (s.runRequest k (fun r t => t.whileOpen (edit r))) =
      answers s r rest .noStaging []) ∧
    ∀ tag c, s.config.staging = .commitPending tag c →
      Host.Outcome.next (s.runRequest k (fun r t => t.whileOpen (edit r))) = answers s r rest .busy [] :=
  ⟨fun hclosed => next_runRequest_eq_answers (x := ⟨.noStaging, []⟩) h
      (whileOpen_of_closed (s := taken s rest) hclosed (edit r)) (sweepOwed_of_ready h),
    fun _ _ hpending => next_runRequest_eq_answers (x := ⟨.busy, []⟩) h
      (whileOpen_of_pending (s := taken s rest) hpending (edit r)) (sweepOwed_of_ready h)⟩

theorem stagingTest {k : RequestKind}
    (hk : k ∈ [RequestKind.stageStation, .stageRemove, .stageCommit, .stageAbort, .readStaged]) {s : State} {r : Memory}
    {rest : List Memory} (h : Ready s k r rest) :
    (s.config.staging = .closed → exec (requestRow k) s = answers s r rest .noStaging []) ∧
      ∀ tag c, s.config.staging = .commitPending tag c → exec (requestRow k) s = answers s r rest .busy [] := by
  simp only [List.mem_cons, List.not_mem_nil, or_false] at hk
  rcases hk with rfl | rfl | rfl | rfl | rfl
  · exact next_whileOpen_refused h fun r c u => u.stageStation c (operand r 0) (descriptorOf (fun i => operand r (1 + i)))
  · exact next_whileOpen_refused h fun r c u => u.stageRemove c (operand r 0)
  · exact next_whileOpen_refused h fun r c u => u.stageCommit (requestTag r) c
  · exact next_whileOpen_refused h fun _ _ u => reply u.closeStaging .ok
  · exact next_whileOpen_refused h fun r c u => u.readStaged c (operand r 0)

/-! ## STAGE BEGIN (R159) -/

theorem gapOk_iff (gap : Nat) : gapOk gap = true ↔ gap = 0 ∨ (500 ≤ gap ∧ gap ≤ 60000) := by
  simp only [gapOk, within, Bool.or_eq_true, decide_eq_true_eq]

theorem stageBegin_of_pending {s : State} {tag : Byte} {c : StagingCopy} (gap : Nat)
    (h : s.config.staging = .commitPending tag c) : s.stageBegin gap = reply s .busy := by
  simp only [State.stageBegin, h]

theorem stageBegin_of_opened {s : State} {c : StagingCopy} (gap : Nat) (h : s.config.staging = .opened c) :
    s.stageBegin gap = reply s.restartGap .stagingOpen := by
  simp only [State.stageBegin, h]

theorem stageBegin_of_badGap {s : State} {gap : Nat} (h : s.config.staging = .closed) (hgap : ¬ gapOk gap = true) :
    s.stageBegin gap = reply s .badOperand := by
  simp only [State.stageBegin, h, if_neg hgap]

theorem stageBegin_of_closed {s : State} {gap : Nat} (h : s.config.staging = .closed) (hgap : gapOk gap = true) :
    s.stageBegin gap = reply { s with config := { s.config with
        staging := .opened s.committed, gapSetting := if gap = 0 then s.config.gapSetting else gap
        gapTimer := some (if gap = 0 then s.config.gapSetting else gap) } } .ok
      (numberOctets (if gap = 0 then s.config.gapSetting else gap)) := by
  simp only [State.stageBegin, h, if_pos hgap]
  rfl

/-- Settles O19: the staging state decides first, then the gap; the copy opened is the committed configuration. -/
theorem stageBegin : Obligations.StageBegin := by
  refine ⟨fun k hk s r rest hready => stagingTest hk hready, fun s r rest hready => ?_⟩
  intro gap setting
  have howed := sweepOwed_of_ready hready
  refine ⟨fun tag c hpending => ?busy, fun c hopened => ?opened, fun hclosed hbad => ?badOperand, fun hclosed hgood => ?ok⟩
  case busy =>
    exact next_runRequest_eq_answers (x := ⟨.busy, []⟩) hready (body := fun r t => t.stageBegin (operandWord r 0).toNat)
      (stageBegin_of_pending (s := taken s rest) _ hpending) howed
  case opened =>
    exact next_runRequest_eq_answers (x := ⟨.stagingOpen, []⟩) hready
      (body := fun r t => t.stageBegin (operandWord r 0).toNat) (stageBegin_of_opened (s := taken s rest) _ hopened) howed
  case badOperand =>
    exact next_runRequest_eq_answers (x := ⟨.badOperand, []⟩) hready
      (body := fun r t => t.stageBegin (operandWord r 0).toNat)
      (stageBegin_of_badGap (s := taken s rest) hclosed (by rw [gapOk_iff]; omega)) howed
  case ok =>
    refine ⟨s.committed, fun a => RosterSafe.copyAt_committed s a, ?_⟩
    exact next_runRequest_eq_answers (x := ⟨.ok, numberOctets setting⟩) hready
      (body := fun r t => t.stageBegin (operandWord r 0).toNat)
      (stageBegin_of_closed (s := taken s rest) hclosed ((gapOk_iff gap).2 hgood)) howed

/-! ## A descriptor in octets (Table 1-3, R2) -/

theorem octet_of_below {n : Nat} {b : Byte} {i : Fin n} (h : below n b = some i) : b = octet i.val := by
  unfold below at h
  split at h
  · obtain rfl := Option.some.inj h
    exact BitVec.eq_of_toNat_eq (toNat_octet b.isLt).symm
  · cases h

theorem code_of_widthOf {b : Byte} {w : Width} (h : widthOf b = some w) : b = w.code := by
  unfold widthOf at h
  split at h
  next hb => obtain rfl := Option.some.inj h; exact hb
  split at h
  next hb => obtain rfl := Option.some.inj h; exact hb
  · cases h

theorem code_of_attachmentOf {b : Byte} {a : Attachment} (h : attachmentOf b = some a) : b = a.code := by
  unfold attachmentOf at h
  split at h
  next hb => obtain rfl := Option.some.inj h; exact hb
  split at h
  next hb => obtain rfl := Option.some.inj h; exact hb
  split at h
  next hb => obtain rfl := Option.some.inj h; exact hb
  · cases h

theorem code_of_lineOf {b : Byte} {l : LineId} (h : lineOf b = some l) : b = lineCode (some l) := by
  unfold lineOf at h
  split at h
  next hb => obtain rfl := Option.some.inj h; exact hb
  split at h
  next hb => obtain rfl := Option.some.inj h; exact hb
  · cases h

theorem code_of_lossPolicyOf {b : Byte} {p : LossPolicy} (h : lossPolicyOf b = some p) : b = p.code := by
  unfold lossPolicyOf at h
  split at h
  next hb => obtain rfl := Option.some.inj h; exact hb
  split at h
  next hb => obtain rfl := Option.some.inj h; exact hb
  · cases h

/-- Eight octets that are read as a descriptor spell one that keeps the limits of R2. -/
theorem octets_of_descriptorOf {f : Nat → Byte} {x : Descriptor} (h : descriptorOf f = some x) :
    ∃ d : Descriptor, (∀ i < 8, f i = (descriptorOctets d).getD i 0) ∧ d.legal = true := by
  simp only [descriptorOf, Option.bind_eq_bind, Option.bind_eq_some_iff] at h
  obtain ⟨inputs, h0, inputWidth, h1, outputs, h2, outputWidth, h3, attachment, h4, preferred, h5, profile, h6, policy, h7,
    h⟩ := h
  split at h
  next hlegal =>
    refine ⟨⟨inputs, inputWidth, outputs, outputWidth, attachment, preferred, profile, policy⟩, fun i hi => ?_, hlegal⟩
    match i, hi with
    | 0, _ => exact octet_of_below h0
    | 1, _ => exact code_of_widthOf h1
    | 2, _ => exact octet_of_below h2
    | 3, _ => exact code_of_widthOf h3
    | 4, _ => exact code_of_attachmentOf h4
    | 5, _ => exact code_of_lineOf h5
    | 6, _ => exact octet_of_below h6
    | 7, _ => exact code_of_lossPolicyOf h7
  · cases h

/-- The octets of a descriptor that keeps the limits of R2 are read as that descriptor in normalised form. -/
theorem descriptorOf_octets {f : Nat → Byte} {d : Descriptor} (h : ∀ i < 8, f i = (descriptorOctets d).getD i 0)
    (hlegal : d.legal = true) : descriptorOf f = some d.normalise := by
  have h0 : f 0 = octet d.inputCount.val := h 0 (by decide)
  have h1 : f 1 = d.inputWidth.code := h 1 (by decide)
  have h2 : f 2 = octet d.outputCount.val := h 2 (by decide)
  have h3 : f 3 = d.outputWidth.code := h 3 (by decide)
  have h4 : f 4 = d.attachment.code := h 4 (by decide)
  have h5 : f 5 = lineCode (some d.preferred) := h 5 (by decide)
  have h6 : f 6 = octet d.profile.val := h 6 (by decide)
  have h7 : f 7 = d.lossPolicy.code := h 7 (by decide)
  simp only [descriptorOf, h0, h1, h2, h3, h4, h5, h6, h7, below_octet (show 33 ≤ 256 by decide) (Fin.isLt _),
    below_octet (show 4 ≤ 256 by decide) (Fin.isLt _), widthOf_code, attachmentOf_code, lineOf_code, lossPolicyOf_code,
    Option.bind_eq_bind, Option.bind_some, hlegal, if_true]

theorem legal_iff (d : Descriptor) : d.legal = true ↔ (d.inputCount.val ≠ 0 ∨ d.outputCount.val ≠ 0) ∧
    ∀ l, d.attachment.single = some l → d.preferred = l := by
  unfold Descriptor.legal
  rw [Bool.and_eq_true]
  refine and_congr (by simp) ?_
  cases d.attachment.single with
  | none => simp
  | some l => simp

theorem toNat_octet_fin {n : Nat} (hn : n ≤ 256) (i : Fin n) : (octet i.val).toNat < n := by
  have hi := i.isLt
  rw [toNat_octet (by omega)]
  exact hi

/-- Eight octets outside the ranges of Table 1-3, or against the limits of R2, are read as no descriptor. -/
theorem descriptorOf_eq_none {f : Nat → Byte}
    (h : 32 < (f 0).toNat ∨ 1 < (f 1).toNat ∨ 32 < (f 2).toNat ∨ 1 < (f 3).toNat ∨ f 4 = 0 ∨ 3 < (f 4).toNat ∨ f 5 = 0 ∨
      2 < (f 5).toNat ∨ 3 < (f 6).toNat ∨ 1 < (f 7).toNat ∨ (f 0 = 0 ∧ f 2 = 0) ∨ (f 4 = 1 ∧ f 5 ≠ 1) ∨
      (f 4 = 2 ∧ f 5 ≠ 2)) : descriptorOf f = none := by
  refine Option.eq_none_iff_forall_ne_some.2 fun x hx => ?_
  obtain ⟨d, hf, hlegal⟩ := octets_of_descriptorOf hx
  obtain ⟨hcounts, hpreferred⟩ := (legal_iff d).1 hlegal
  have h0 : f 0 = octet d.inputCount.val := hf 0 (by decide)
  have h1 : f 1 = d.inputWidth.code := hf 1 (by decide)
  have h2 : f 2 = octet d.outputCount.val := hf 2 (by decide)
  have h3 : f 3 = d.outputWidth.code := hf 3 (by decide)
  have h4 : f 4 = d.attachment.code := hf 4 (by decide)
  have h5 : f 5 = lineCode (some d.preferred) := hf 5 (by decide)
  have h6 : f 6 = octet d.profile.val := hf 6 (by decide)
  have h7 : f 7 = d.lossPolicy.code := hf 7 (by decide)
  have hinputs := toNat_octet_fin (by decide) d.inputCount
  have houtputs := toNat_octet_fin (by decide) d.outputCount
  have hprofile := toNat_octet_fin (by decide) d.profile
  have hwidth : ∀ w : Width, w.code.toNat ≤ 1 := by intro w; cases w <;> decide
  have hattachment : ∀ a : Attachment, a.code ≠ 0 ∧ a.code.toNat ≤ 3 := by intro a; cases a <;> decide
  have hline : ∀ l : LineId, lineCode (some l) ≠ 0 ∧ (lineCode (some l)).toNat ≤ 2 := by intro l; cases l <;> decide
  have hpolicy : ∀ p : LossPolicy, p.code.toNat ≤ 1 := by intro p; cases p <;> decide
  have hsingle : ∀ a : Attachment, (a.code = 1 → a.single = some .a) ∧ (a.code = 2 → a.single = some .b) := by
    intro a; cases a <;> decide
  rw [h0, h1, h2, h3, h4, h5, h6, h7] at h
  rcases h with h | h | h | h | h | h | h | h | h | h | ⟨hi, ho⟩ | ⟨ha, hp⟩ | ⟨ha, hp⟩
  · omega
  · exact absurd (hwidth d.inputWidth) (by omega)
  · omega
  · exact absurd (hwidth d.outputWidth) (by omega)
  · exact (hattachment d.attachment).1 h
  · exact absurd (hattachment d.attachment).2 (by omega)
  · exact (hline d.preferred).1 h
  · exact absurd (hline d.preferred).2 (by omega)
  · omega
  · exact absurd (hpolicy d.lossPolicy) (by omega)
  · have hi' := congrArg BitVec.toNat hi
    have ho' := congrArg BitVec.toNat ho
    have hilt := d.inputCount.isLt
    have holt := d.outputCount.isLt
    rw [toNat_octet (by omega)] at hi' ho'
    exact hcounts.elim (fun hne => hne hi') fun hne => hne ho'
  · exact hp (by rw [hpreferred .a ((hsingle _).1 ha)]; rfl)
  · exact hp (by rw [hpreferred .b ((hsingle _).2 ha)]; rfl)

/-! ## STAGE STATION (R160) -/

theorem stageStation_of_address_above {s : State} {c : StagingCopy} {b : Byte} (d : Option Descriptor) (h : 31 < b.toNat) :
    s.stageStation c b d = reply s .badOperand := by
  simp only [State.stageStation, addrOf_none h]

theorem stageStation_of_own (s : State) (c : StagingCopy) (d : Option Descriptor) :
    s.stageStation c (octet s.ownAddress.val) d = reply s .addressInUse := by
  simp only [State.stageStation, addrOf_octet, if_true]

theorem stageStation_of_no_descriptor {s : State} {a : Addr} (c : StagingCopy) (ha : a ≠ s.ownAddress) :
    s.stageStation c (octet a.val) none = reply s .badOperand := by
  simp only [State.stageStation, addrOf_octet, if_neg ha]

theorem stageStation_of_descriptor {s : State} {a : Addr} (c : StagingCopy) (ha : a ≠ s.ownAddress) (d : Descriptor) :
    s.stageStation c (octet a.val) (some d) =
      reply (s.setCopy (c.set a.val (some d))) .ok [flagCode (copyAt c a).isSome] := by
  simp only [State.stageStation, addrOf_octet, if_neg ha]

theorem exec_stageStation {s u : State} {r : Memory} {rest : List Memory} {c : StagingCopy} {st : Status}
    {result : List Byte} (h : Ready s .stageStation r rest) (hc : s.config.staging = .opened c)
    (hstage : (taken s.restartGap rest).stageStation c (operand r 0) (descriptorOf (fun i => operand r (1 + i))) =
      reply (taken u rest) st result) (ho : u.cond.sweepOwed = false) :
    exec .stageStation s = answers u r rest st result :=
  next_whileOpen_eq_answers h hc (x := ⟨st, result⟩)
    (edit := fun r c t => t.stageStation c (operand r 0) (descriptorOf (fun i => operand r (1 + i)))) hstage ho

/-- Settles O20: the address, then the descriptor's octets, decide the answer. -/
theorem stageStation : Obligations.StageStation := by
  intro s r rest c hready hopen u
  have howed : s.cond.sweepOwed = false := sweepOwed_of_ready hready
  refine ⟨fun habove => ?above, fun hown => ?own, fun a ha hne => ⟨fun hbad => ?badOperand, fun d hd hcounts hpref => ?ok⟩⟩
  case above => exact exec_stageStation hready hopen (stageStation_of_address_above _ habove) howed
  case own =>
    exact exec_stageStation hready hopen (hown ▸ stageStation_of_own (taken s.restartGap rest) c _) howed
  case badOperand =>
    refine exec_stageStation hready hopen ?_ howed
    rw [ha, descriptorOf_eq_none (f := fun i => operand r (1 + i)) hbad]
    exact stageStation_of_no_descriptor (s := taken s.restartGap rest) c hne
  case ok =>
    refine exec_stageStation hready hopen ?_ howed
    rw [ha, descriptorOf_octets (f := fun i => operand r (1 + i)) hd ((legal_iff d).2 ⟨hcounts, hpref⟩)]
    exact stageStation_of_descriptor (s := taken s.restartGap rest) c hne _

/-! ## READ STAGED (R162) -/

theorem readStaged_of_address_above {s : State} {c : StagingCopy} {b : Byte} (h : 31 < b.toNat) :
    s.readStaged c b = reply s .badOperand := by
  simp only [State.readStaged, addrOf_none h]

theorem readStaged_octet (s : State) (c : StagingCopy) (a : Addr) : s.readStaged c (octet a.val) =
    reply s .ok (optionalOctets 8 ((copyAt c a).map descriptorOctets) ++ [(s.compare c a).code] ++
      numberOctets (inputTotal c) ++ numberOctets (outputTotal c)) := by
  simp only [State.readStaged, addrOf_octet]

theorem exec_readStaged {s u : State} {r : Memory} {rest : List Memory} {c : StagingCopy} {st : Status}
    {result : List Byte} (h : Ready s .readStaged r rest) (hc : s.config.staging = .opened c)
    (hread : (taken s.restartGap rest).readStaged c (operand r 0) = reply (taken u rest) st result)
    (ho : u.cond.sweepOwed = false) : exec .readStaged s = answers u r rest st result :=
  next_whileOpen_eq_answers h hc (x := ⟨st, result⟩) (edit := fun r c t => t.readStaged c (operand r 0)) hread ho

/-- Settles O23: the result is the place, the code of its comparison, and the totals of R120. -/
theorem readStaged : Obligations.ReadStaged := by
  intro s r rest c hready hopen u
  have howed : s.cond.sweepOwed = false := sweepOwed_of_ready hready
  refine ⟨fun habove => ?above, fun a ha => ?ok⟩
  case above => exact exec_readStaged hready hopen (readStaged_of_address_above habove) howed
  case ok =>
    have hread := readStaged_octet (taken s.restartGap rest) c a
    rw [inputTotal_eq, outputTotal_eq, ← ha] at hread
    refine exec_readStaged hready hopen (hread.trans (congrArg (fun l => reply (taken u rest) .ok l) ?_)) howed
    refine congrArg₂ (· ++ ·) (congrArg₂ (· ++ ·) (congrArg₂ (· ++ ·) ?place ?comparison) rfl) rfl
    case place => cases copyAt c a <;> rfl
    case comparison =>
      show [(comparisonOf (s.entry a).descriptor (copyAt c a)).code] = _
      cases (s.entry a).descriptor with
      | none => cases copyAt c a <;> rfl
      | some d =>
        cases copyAt c a with
        | none => rfl
        | some e => exact congrArg (fun x => [x]) (apply_ite Comparison.code _ _ _)

/-! ## The checks of STAGE COMMIT (R165) -/

theorem copyHolds_iff (c : StagingCopy) : copyHolds c = true ↔ ∃ a, (copyAt c a).isSome = true := by
  rw [copyHolds, toList_eq_copyAt, List.any_map, List.any_eq_true]
  simp

/-- Whether some staged station is attached to a line that is not enabled (R165). -/
theorem unserved_iff (u : LineSetup) (c : StagingCopy) : (c.toList.any (fun p => match p with
      | none => false
      | some d => !u.serves d.attachment)) = true ↔ ¬ ∀ a d, copyAt c a = some d → u.serves d.attachment = true := by
  rw [toList_eq_copyAt, List.any_map, List.any_eq_true]
  simp only [List.mem_finRange, true_and, Function.comp, not_forall]
  refine exists_congr fun a => ?_
  cases copyAt c a <;> simp

/-- The two totals of a copy within the images (R120, R165). -/
def FitsImages (c : StagingCopy) : Prop :=
  octetsBelow (inputOctets (copyAt c)) 32 ≤ 1024 ∧ octetsBelow (outputOctets (copyAt c)) 32 ≤ 1024

theorem fitsImages_iff (c : StagingCopy) : ¬ FitsImages c ↔ 1024 < inputTotal c ∨ 1024 < outputTotal c := by
  rw [inputTotal_eq, outputTotal_eq, FitsImages]
  omega

/-- Every staged station is attached to an enabled line (R165). -/
def Served (s : State) (c : StagingCopy) : Prop := ∀ a d, copyAt c a = some d → s.config.setup.serves d.attachment = true

theorem commitRefusal_of_overflow {s : State} {c : StagingCopy} (h : ¬ FitsImages c) :
    s.commitRefusal c = some .imageOverflow := if_pos ((fitsImages_iff c).1 h)

theorem commitRefusal_of_unserved {s : State} {c : StagingCopy} (hfits : FitsImages c) (h : ¬ Served s c) :
    s.commitRefusal c = some .badOperand :=
  (if_neg fun hover => (fitsImages_iff c).2 hover hfits).trans (if_pos ((unserved_iff _ c).2 h))

theorem commitRefusal_of_empty {s : State} {c : StagingCopy} (hfits : FitsImages c) (hserved : Served s c)
    (hscans : s.mode.scans = true) (h : ¬ copyHolds c = true) : s.commitRefusal c = some .emptyConfiguration :=
  (if_neg fun hover => (fitsImages_iff c).2 hover hfits).trans
    ((if_neg fun hnot => (unserved_iff _ c).1 hnot hserved).trans (if_pos ⟨hscans, h⟩))

theorem commitRefusal_none {s : State} {c : StagingCopy} (hfits : FitsImages c) (hserved : Served s c)
    (h : s.mode.scans = true → copyHolds c = true) : s.commitRefusal c = none :=
  (if_neg fun hover => (fitsImages_iff c).2 hover hfits).trans
    ((if_neg fun hnot => (unserved_iff _ c).1 hnot hserved).trans (if_neg fun hempty => hempty.2 (h hempty.1)))

theorem stageCommit_of_refusal {s : State} {c : StagingCopy} {st : Status} (tag : Byte) (h : s.commitRefusal c = some st) :
    s.stageCommit tag c = reply s st := by
  simp only [State.stageCommit, h]

theorem stageCommit_of_running {s : State} {c : StagingCopy} (tag : Byte) (h : s.commitRefusal c = none)
    (hscans : s.mode.scans = true) (hcycle : s.scan.cycle ≠ .waiting) : s.stageCommit tag c =
      (none, ({ s with config := { s.config with staging := .commitPending tag c, gapTimer := none } } : State).defer) := by
  simp only [State.stageCommit, h, if_pos (And.intro hscans hcycle)]

theorem stageCommit_at_once {s : State} {c : StagingCopy} (tag : Byte) (h : s.commitRefusal c = none)
    (hcycle : s.mode.scans = true → s.scan.cycle = .waiting) : s.stageCommit tag c =
      (some ⟨.ok, commitResult s (s.applyCommit c) c⟩, s.applyCommit c) := by
  simp only [State.stageCommit, h]
  exact if_neg fun hrunning => hrunning.2 (hcycle hrunning.1)

theorem exec_stageCommit_of_refusal {s : State} {r : Memory} {rest : List Memory} {c : StagingCopy} {st : Status}
    (h : Ready s .stageCommit r rest) (hc : s.config.staging = .opened c) (hrefused : s.commitRefusal c = some st) :
    exec .stageCommit s = answers s.restartGap r rest st [] :=
  next_whileOpen_eq_answers h hc (x := ⟨st, []⟩) (edit := fun r c t => t.stageCommit (requestTag r) c)
    (stageCommit_of_refusal (s := taken s.restartGap rest) _ hrefused) (sweepOwed_of_ready h)

/-- Settles O24: the three refusals of `State.commitRefusal` in their order, and the commit left pending. -/
theorem stageCommitTaken : Obligations.StageCommitTaken := by
  intro s r rest c hready hopen u fitsImages served empty
  have hempty : empty ↔ ¬ copyHolds c = true := by
    rw [copyHolds_iff, not_exists]
    exact forall_congr' fun a => by rw [Option.not_isSome_iff_eq_none]
  refine ⟨fun hover => ?overflow, fun hfits hunserved => ?badOperand, fun hfits hserved hscans hnone => ?empty,
    fun hfits hserved hscans hsome hcycle => ?pending⟩
  case overflow => exact exec_stageCommit_of_refusal hready hopen (commitRefusal_of_overflow hover)
  case badOperand => exact exec_stageCommit_of_refusal hready hopen (commitRefusal_of_unserved hfits hunserved)
  case empty => exact exec_stageCommit_of_refusal hready hopen (commitRefusal_of_empty hfits hserved hscans (hempty.1 hnone))
  case pending =>
    have hpasses := commitRefusal_none hfits hserved fun _ => not_not.1 fun hnot => hsome (hempty.2 hnot)
    refine congrArg Host.Outcome.next (run_deferred hready ?_ ?_)
    · exact (whileOpen_of_opened (s := taken s rest) hopen _).trans
        (stageCommit_of_running (s := taken s.restartGap rest) _ hpasses hscans hcycle)
    · exact sweepOwed_taken hready

end Sys2Proof.Proofs
end

section
/-! PROOFS. A commit applied (R167): what each of its stages leaves alone, and what it leaves behind. -/

namespace Sys2Proof.Proofs

open Sys2Proof.Machine Sys2Proof.Safety Sys2Proof.Laws

/-! ## The mode through ends (R57) -/

theorem mode_finishCause (s : State) (k : Key) : (s.finishCause k).mode = s.mode := by
  unfold State.finishCause
  split
  · rfl
  split
  · rfl
  · rfl
  split <;> rfl

theorem mode_dropOverrides (s : State) (p : OverrideRecord → Bool) : (s.dropOverrides p).mode = s.mode := by
  refine Laws.keeps_foldl (P := fun t => t.mode = s.mode) State.dropOverride (fun t r ht => ?_) _ rfl
  rw [dropOverride_eq]
  dsimp only
  split
  · exact (mode_finishCause _ _).trans ht
  · exact ht

theorem mode_retireStation (s : State) (a : Addr) : (s.retireStation a).mode = s.mode :=
  Laws.keeps_foldl (P := fun t => t.mode = s.mode) State.removeRecord (fun _ _ ht => ht) _ rfl

theorem mode_finishCauses (ks : List Key) (s : State) : (ks.foldl State.finishCause s).mode = s.mode :=
  Laws.keeps_foldl (P := fun t => t.mode = s.mode) State.finishCause (fun t k ht => (mode_finishCause t k).trans ht) _ rfl

theorem mode_endSession (s : State) (reason : EndReason) : (s.endSession reason).mode = s.mode := by
  unfold State.endSession
  split
  · rfl
  next o _ =>
    show (State.updateStation _ _ _ _).mode = _
    rw [updateStation_absent _ _ _ rfl, mode_finishCauses]
    exact mode_dropOverrides s _

/-! ## The stages of a commit (R167) -/

section Stages

variable (s : State) (c : StagingCopy)

/-- The addresses whose station a commit takes out. -/
def outgoing : List Addr := allAddrs.filter (fun a => (s.compare c a).takesOut)

/-- The addresses that a commit sets up or clears. -/
def moving : List Addr := allAddrs.filter (fun a => (s.compare c a).moves)

/-- After the session's end and the stations taken out. -/
def afterTakeOut : State := (outgoing s c).foldl State.takeOut (s.commitSession c)

/-- After the transactions of the stations taken out. -/
def afterCompletions : State :=
  (afterTakeOut s c).completeWhere (fun t => decide (t.station ∈ outgoing s c)) .reconfigured

/-- After the stations set up. -/
def afterSetUp : State := (moving s c).foldl (fun u a => u.setUp c a) (afterCompletions s c)

/-- After the areas are rebuilt. -/
def afterRebuild : State := if (moving s c).isEmpty then afterSetUp s c else (afterSetUp s c).rebuild (s.keptSlices c)

theorem applyCommit_eq_stages : s.applyCommit c =
    let t := ((afterRebuild s c).place c).clearIncomplete
    { t with
      mode := modeAfterCommit t.mode (copyHolds c)
      scan := { t.scan with layout := if s.placementMoves c then t.scan.layout + 1 else t.scan.layout }
      config := { t.config with staging := .closed, gapTimer := none } } := rfl

theorem mem_outgoing (a : Addr) : a ∈ outgoing s c ↔ leaves s c a = true := by
  rw [outgoing, List.mem_filter, leaves_eq]
  simp [allAddrs]

theorem mem_moving (a : Addr) : a ∈ moving s c ↔ touched s c a = true := by
  rw [moving, List.mem_filter, touched_eq]
  simp [allAddrs]

end Stages

/-! ### The session's end and the stations taken out -/

/-- `t` is `s` but for what a session's end and the stations taken out may change; the mode stays. -/
def TakeOutOnly (s t : State) : Prop :=
  t = { s with roster := t.roster, supervised := t.supervised, cond := t.cond, overrides := t.overrides, session := t.session }

theorem TakeOutOnly.trans {s t u : State} (h : TakeOutOnly s t) (k : TakeOutOnly t u) : TakeOutOnly s u := by
  unfold TakeOutOnly at *
  rw [k, h]

theorem TakeOutOnly.foldl {α : Type} (f : State → α → State) (hf : ∀ s x, TakeOutOnly s (f s x)) (xs : List α) (s : State) :
    TakeOutOnly s (xs.foldl f s) := by
  induction xs generalizing s with
  | nil => exact rfl
  | cons x xs ih => exact (hf s x).trans (ih (f s x))

theorem takeOutOnly_of_session {s t : State} (h : SessionOnly s t) (hm : t.mode = s.mode) : TakeOutOnly s t := by
  have := h.1
  rw [hm] at this
  exact this

theorem takeOutOnly_commitSession (s : State) (c : StagingCopy) : TakeOutOnly s (s.commitSession c) := by
  unfold State.commitSession
  split
  · exact rfl
  split
  · exact takeOutOnly_of_session (sessionOnly_endSession s _) (mode_endSession s _)
  · exact rfl

theorem takeOutOnly_takeOut (s : State) (a : Addr) : TakeOutOnly s (s.takeOut a) := by
  have hretire := takeOutOnly_of_session (condOnly_retireStation s a).session (mode_retireStation s a)
  have hdrop := takeOutOnly_of_session (overrideOnly_dropOverrides (s.retireStation a) (OverrideRecord.ofStation a)).session
    (mode_dropOverrides _ _)
  have hclear : ∀ t : State, TakeOutOnly t ((t.setEntry a .unconfigured).setSupervision a {}) := fun _ => rfl
  exact (hretire.trans hdrop).trans (hclear _)

theorem takeOutOnly_afterTakeOut (s : State) (c : StagingCopy) : TakeOutOnly s (afterTakeOut s c) :=
  (takeOutOnly_commitSession s c).trans (TakeOutOnly.foldl _ takeOutOnly_takeOut _ _)

/-! ### The stations set up, and the end of CONFIG INCOMPLETE -/

/-- `t` is `s` but for what the stations set up may change; the mode stays. -/
def SetUpOnly (s t : State) : Prop :=
  t = { s with
    roster := t.roster, cond := t.cond
    scan := { s.scan with buffer := t.scan.buffer }
    trans := { s.trans with toggles := t.trans.toggles } }

theorem SetUpOnly.trans {s t u : State} (h : SetUpOnly s t) (k : SetUpOnly t u) : SetUpOnly s u := by
  unfold SetUpOnly at *
  rw [k, h]

theorem setUpOnly_updateStation (s : State) (a : Addr) {e : Entry} (he : e.presence = .absent) :
    SetUpOnly s (s.updateStation a e (s.supervision a)) := by
  rw [updateStation_absent s a e he]
  have h := (condOnly_foldl State.finishCause condOnly_finishCause (clearedKeys s a) (s.setEntry a e)).1
  rw [mode_finishCauses] at h
  have hset : SetUpOnly s (s.setEntry a e) := rfl
  refine hset.trans ?_
  generalize (clearedKeys s a).foldl State.finishCause (s.setEntry a e) = t at h
  unfold SetUpOnly
  rw [h]

theorem setUpOnly_setUp (s : State) (c : StagingCopy) (a : Addr) : SetUpOnly s (s.setUp c a) := by
  have hstation : ∀ (t : State) e b, SetUpOnly t (((t.setEntry a e).setSlice a b).setToggle a false) := fun _ _ _ => rfl
  unfold State.setUp
  split
  · exact (setUpOnly_updateStation s a rfl).trans (hstation _ _ _)
  · exact rfl

theorem setUpOnly_afterSetUp (s : State) (c : StagingCopy) : SetUpOnly (afterCompletions s c) (afterSetUp s c) := by
  unfold afterSetUp
  generalize afterCompletions s c = t
  induction moving s c generalizing t with
  | nil => exact rfl
  | cons a as ih => exact (setUpOnly_setUp t c a).trans (ih _)

/-- What the end of CONFIG INCOMPLETE leaves alone (R164). -/
theorem clearIncomplete_frame (s : State) : s.clearIncomplete =
    { s with cond := s.clearIncomplete.cond, config := { s.config with incomplete := false } } := by
  unfold State.clearIncomplete
  split
  · have h := (condOnly_finishCause { s with config := { s.config with incomplete := false } }
      (plainKey .part .configIncomplete)).1
    rw [mode_finishCause] at h
    exact h
  next hcomplete =>
    have hfalse : s.config = { s.config with incomplete := false } := by
      rw [Bool.not_eq_true] at hcomplete
      rw [← hcomplete]
    exact congrArg (fun x => { s with config := x }) hfalse

/-! ### The frame of a commit -/

theorem slot_afterTakeOut (s : State) (c : StagingCopy) (i : Fin 4) : (afterTakeOut s c).slot i = s.slot i := by
  have h := takeOutOnly_afterTakeOut s c
  unfold TakeOutOnly at h
  rw [h]
  rfl

theorem completions_afterTakeOut (s : State) (c : StagingCopy) :
    completions (afterTakeOut s c) (fun t => decide (t.station ∈ outgoing s c)) .reconfigured =
      completions s (fun u => leaves s c u.station) .reconfigured := by
  have hmode : (afterTakeOut s c).mode = s.mode := by
    have h := takeOutOnly_afterTakeOut s c
    unfold TakeOutOnly at h
    rw [h]
  have htest : (fun t : Transaction => decide (t.station ∈ outgoing s c)) = fun u => leaves s c u.station :=
    funext fun u => by rw [Bool.eq_iff_iff, decide_eq_true_iff, mem_outgoing]
  rw [htest]
  simp only [completions, slot_afterTakeOut, hmode]

/-- The port after the completions, but for the areas. -/
theorem afterCompletions_frame (s : State) (c : StagingCopy) : afterCompletions s c = { afterTakeOut s c with
    trans := { s.trans with slots := (afterCompletions s c).trans.slots }
    port := { s.port with
      responses := s.port.responses ++ completions s (fun u => leaves s c u.station) .reconfigured
      deferred := s.port.deferred - (completions s (fun u => leaves s c u.station) .reconfigured).length } } := by
  have hout := takeOutOnly_afterTakeOut s c
  unfold TakeOutOnly at hout
  have hport : (afterTakeOut s c).port = s.port := by rw [hout]
  have htrans : (afterTakeOut s c).trans = s.trans := by rw [hout]
  have h := transOnly_completeWhere (afterTakeOut s c) (fun t => decide (t.station ∈ outgoing s c)) .reconfigured
  unfold TransOnly at h
  have hports := completeWhere_port (afterTakeOut s c) (fun t => decide (t.station ∈ outgoing s c)) .reconfigured
  have hslots := completeWhere_trans (afterTakeOut s c) (fun t => decide (t.station ∈ outgoing s c)) .reconfigured
  rw [completions_afterTakeOut, hport] at hports
  rw [htrans] at hslots
  change afterCompletions s c = _ at h
  change (afterCompletions s c).port = _ at hports
  change (afterCompletions s c).trans = { s.trans with slots := (afterCompletions s c).trans.slots } at hslots
  have hsame : { (afterTakeOut s c).port with
      responses := (afterCompletions s c).port.responses
      deferred := (afterCompletions s c).port.deferred } = (afterCompletions s c).port := by
    rw [hport, hports]
  rw [← hslots, ← hports]
  exact h.trans (congrArg (fun p => { afterTakeOut s c with trans := (afterCompletions s c).trans, port := p }) hsame)

/-- The areas of a state, before a commit's rebuild or after it. -/
theorem afterRebuild_frame (s : State) (c : StagingCopy) : ∃ ins outs : List (Nat × Nat × Nat),
    ins = (s.keptSlices c).map (fun k => (k.1.inputOffset, k.1.inputSize, k.2.inputOffset)) ∧
    outs = (s.keptSlices c).map (fun k => (k.1.outputOffset, k.1.outputSize, k.2.outputOffset)) ∧
    afterRebuild s c = { afterSetUp s c with
      scan := { (afterSetUp s c).scan with
        published := if (moving s c).isEmpty then s.scan.published else rebuildArea s.scan.published ins
        live := if (moving s c).isEmpty then s.scan.live else rebuildArea s.scan.live outs }
      port := { (afterSetUp s c).port with
        outputArea := if (moving s c).isEmpty then s.port.outputArea else rebuildArea s.port.outputArea outs } } := by
  refine ⟨_, _, rfl, rfl, ?_⟩
  have hsetUp := setUpOnly_afterSetUp s c
  have hdone := afterCompletions_frame s c
  have hout := takeOutOnly_afterTakeOut s c
  unfold SetUpOnly at hsetUp
  unfold TakeOutOnly at hout
  have hpublished : (afterSetUp s c).scan.published = s.scan.published := by rw [hsetUp, hdone, hout]
  have hlive : (afterSetUp s c).scan.live = s.scan.live := by rw [hsetUp, hdone, hout]
  have harea : (afterSetUp s c).port.outputArea = s.port.outputArea := by rw [hsetUp, hdone]
  unfold afterRebuild
  generalize afterSetUp s c = t at *
  split
  · rw [← hpublished, ← hlive, ← harea]
  · rw [← hpublished, ← hlive, ← harea]
    rfl

/-! ## What a commit leaves in the areas (R121) -/

theorem rebuildArea_filterMap {α : Type} (m : Memory) (f : α → Option (Nat × Nat × Nat)) (as : List α) :
    rebuildArea m (as.filterMap f) = as.foldl (fun (n : Memory) a => match f a with
      | some v => n.writeList v.2.2 (m.readList v.1 v.2.1)
      | none => n) [] := by
  unfold rebuildArea
  generalize ([] : Memory) = n
  induction as generalizing n with
  | nil => rfl
  | cons a as ih =>
    rw [List.filterMap_cons, List.foldl_cons]
    cases f a with
    | none => exact ih n
    | some v => exact ih _

/-- A station that stays unchanged: configured, and with the copy's own descriptor (R3). -/
theorem compare_eq_unchanged (s : State) (c : StagingCopy) (a : Addr) :
    s.compare c a = .unchanged ↔ ((s.entry a).descriptor.isSome && !touched s c a) = true := by
  unfold State.compare touched
  cases (s.entry a).descriptor <;> cases copyAt c a <;> simp [comparisonOf]

/-- The slices that the rebuild moves are those of the stations that stay unchanged (R121). -/
theorem rebuildArea_keptSlices (s : State) (c : StagingCopy) (part : Placement → Nat × Nat) (m : Memory) :
    rebuildArea m ((s.keptSlices c).map (fun k => ((part k.1).1, (part k.1).2, (part k.2).1))) = movedArea s c part m := by
  rw [State.keptSlices, List.map_filterMap, rebuildArea_filterMap]
  unfold movedArea
  refine congrArg (fun f => allAddrs.foldl f []) (funext fun n => funext fun a => ?_)
  by_cases h : s.compare c a = .unchanged
  · rw [if_pos ((compare_eq_unchanged s c a).1 h), h]
    cases (s.entry a).placement with
    | none => rfl
    | some p => cases placementIn c a <;> rfl
  · rw [if_neg fun hu => h ((compare_eq_unchanged s c a).2 hu)]
    generalize s.compare c a = k at h
    cases k with
    | unchanged => exact absurd rfl h
    | _ => rfl

theorem isEmpty_moving (s : State) (c : StagingCopy) : (moving s c).isEmpty = true ↔ ¬ ∃ a, touched s c a = true := by
  rw [List.isEmpty_iff, List.eq_nil_iff_forall_not_mem, not_exists]
  exact forall_congr' fun a => not_congr (mem_moving s c a)

theorem ite_isEmpty_moving {α : Type} (s : State) (c : StagingCopy) [Decidable (∃ a, touched s c a = true)] (x y : α) :
    (if (moving s c).isEmpty then x else y) = if ∃ a, touched s c a = true then y else x := by
  by_cases h : ∃ a, touched s c a = true
  · rw [if_pos h, if_neg fun he => (isEmpty_moving s c).1 he h]
  · rw [if_neg h, if_pos ((isEmpty_moving s c).2 h)]

/-! ## What a commit leaves in the tables -/

theorem evicts_of_current {s : State} {o : OpenSession} (h : s.session.current = some o) (c : StagingCopy) :
    evicts s c = (copyAt c o.tool).isSome := by
  rw [evicts, h]

/-- A commit ends the open session where it evicts it, and else leaves the state as it stands. -/
theorem commitSession_cases (s : State) (c : StagingCopy) : (evicts s c = false ∧ s.commitSession c = s) ∨
    (evicts s c = true ∧ s.commitSession c = s.endSession .reconfigured ∧ ∃ o, s.session.current = some o) := by
  unfold State.commitSession
  cases h : s.session.current with
  | none => exact .inl ⟨by rw [evicts, h], rfl⟩
  | some o =>
    rw [evicts_of_current h]
    dsimp only
    split
    next hcopy => exact .inr ⟨hcopy, rfl, o, rfl⟩
    next hcopy => exact .inl ⟨by simpa using hcopy, rfl⟩

theorem commitSession_session (s : State) (c : StagingCopy) : (s.commitSession c).session =
    if evicts s c then { s.session with current := none, lastEnd := .reconfigured } else s.session := by
  rcases commitSession_cases s c with ⟨he, hc⟩ | ⟨he, hc, o, ho⟩
  · rw [hc, he]
    rfl
  · obtain ⟨hsession, -⟩ := endSession_some (reason := .reconfigured) ho
    rw [hc, he, hsession]
    rfl

theorem commitSession_overrides {s : State} (ho : (s.overrides.map overrideKey).Nodup) (c : StagingCopy) :
    (s.commitSession c).overrides = s.overrides.filter (fun q => decide (evicts s c = false ∨ q.owner ≠ .session)) := by
  rcases commitSession_cases s c with ⟨he, hc⟩ | ⟨he, hc, o, hcurrent⟩
  · rw [hc]
    exact (List.filter_eq_self.2 fun q _ => decide_eq_true (.inl he)).symm
  · obtain ⟨-, -, hoverrides⟩ := endSession_some (reason := .reconfigured) hcurrent
    rw [hc, hoverrides, State.dropSessionOverrides, dropOverrides_overrides _ _ ho]
    exact List.filter_congr fun q _ => by simp [he, OverrideRecord.ofSession]

theorem takeOut_overrides {s : State} (ho : (s.overrides.map overrideKey).Nodup) (a : Addr) :
    (s.takeOut a).overrides = s.overrides.filter (fun q => decide (q.station ≠ a)) := by
  have hretire : (s.retireStation a).overrides = s.overrides := by rw [(condOnly_retireStation s a).1]
  have hdrop : (s.takeOut a).overrides = ((s.retireStation a).dropOverrides (OverrideRecord.ofStation a)).overrides := rfl
  rw [hdrop, dropOverrides_overrides _ _ (by rw [hretire]; exact ho), hretire]
  exact List.filter_congr fun q _ => by simp [OverrideRecord.ofStation]

theorem takeOuts_overrides_eq (as : List Addr) {s : State} (ho : (s.overrides.map overrideKey).Nodup) :
    (as.foldl State.takeOut s).overrides = s.overrides.filter (fun q => decide (q.station ∉ as)) := by
  induction as generalizing s with
  | nil => exact (List.filter_eq_self.2 fun q _ => by simp).symm
  | cons a as ih =>
    have hfirst := takeOut_overrides ho a
    rw [List.foldl_cons, ih (by rw [hfirst]; exact ho.sublist (List.filter_sublist.map _)), hfirst, List.filter_filter]
    refine List.filter_congr fun q _ => ?_
    rw [Bool.eq_iff_iff]
    simp only [Bool.and_eq_true, decide_eq_true_eq, List.mem_cons, not_or]
    exact and_comm

theorem afterTakeOut_overrides {s : State} (ho : (s.overrides.map overrideKey).Nodup) (c : StagingCopy) :
    (afterTakeOut s c).overrides = s.overrides.filter (fun q =>
      decide (leaves s c q.station = false ∧ (evicts s c = false ∨ q.owner ≠ .session))) := by
  have hsession := commitSession_overrides ho c
  rw [afterTakeOut, takeOuts_overrides_eq _ (by rw [hsession]; exact ho.sublist (List.filter_sublist.map _)), hsession,
    List.filter_filter]
  refine List.filter_congr fun q _ => ?_
  rw [Bool.eq_iff_iff]
  simp only [Bool.and_eq_true, decide_eq_true_eq, mem_outgoing, Bool.not_eq_true]

theorem takeOuts_session (as : List Addr) (s : State) : (as.foldl State.takeOut s).session = s.session := by
  refine Laws.keeps_foldl (P := fun t => t.session = s.session) State.takeOut (fun t a ht => ?_) as rfl
  refine Eq.trans ?_ ht
  show ((t.retireStation a).dropOverrides _).session = _
  rw [(overrideOnly_dropOverrides _ _).1, (condOnly_retireStation t a).1]

theorem takeOut_supervision (s : State) (a b : Addr) :
    (s.takeOut a).supervision b = if a = b then {} else s.supervision b := by
  have hsame : ((s.retireStation a).dropOverrides (OverrideRecord.ofStation a)).supervised = s.supervised := by
    rw [(overrideOnly_dropOverrides _ _).1, (condOnly_retireStation s a).1]
  have hset : (s.takeOut a).supervision b =
      ((((s.retireStation a).dropOverrides (OverrideRecord.ofStation a)).setEntry a .unconfigured).setSupervision a
        {}).supervision b := rfl
  rw [hset, supervision_setSupervision]
  refine ite_congr rfl (fun _ => rfl) fun _ => ?_
  show ((s.retireStation a).dropOverrides (OverrideRecord.ofStation a)).supervision b = _
  rw [State.supervision, hsame, State.supervision]

theorem takeOuts_supervision (as : List Addr) (s : State) (b : Addr) :
    (as.foldl State.takeOut s).supervision b = if b ∈ as then {} else s.supervision b := by
  induction as generalizing s with
  | nil => rfl
  | cons a as ih =>
    rw [List.foldl_cons, ih, takeOut_supervision]
    by_cases hb : b ∈ as
    · rw [if_pos hb, if_pos (List.mem_cons_of_mem _ hb)]
    · by_cases hab : a = b
      · rw [if_neg hb, if_pos hab, if_pos (hab ▸ List.mem_cons_self)]
      · rw [if_neg hb, if_neg hab, if_neg (by simp [hb, Ne.symm hab])]

theorem afterTakeOut_supervision (s : State) (c : StagingCopy) (a : Addr) :
    (afterTakeOut s c).supervision a = if leaves s c a then {} else s.supervision a := by
  have hsession : (s.commitSession c).supervision a = s.supervision a := by
    rcases commitSession_cases s c with ⟨-, hc⟩ | ⟨-, hc, -⟩ <;> rw [hc]
    rw [State.supervision, endSession_supervised, State.supervision]
  rw [afterTakeOut, takeOuts_supervision, hsession]
  exact if_congr (mem_outgoing s c a) rfl rfl

end Sys2Proof.Proofs
end

section
/-! PROOFS. A commit applied (R167): what it leaves of the stations and of the conditions, and its response (R168). -/

namespace Sys2Proof.Proofs

open Sys2Proof.Machine Sys2Proof.Safety Sys2Proof.Laws

/-! ## The stations set up (R4, R113, R140) -/

/-- The slice of an address that a commit sets up or clears (R113). -/
def stagedSlice : Option Descriptor → List Byte
  | some d => List.replicate d.inputSize 0
  | none => []

theorem slice_setSlice (t : State) (a b : Addr) (x : List Byte) :
    (t.setSlice a x).slice b = if a = b then x else t.slice b := by
  simp only [State.slice, State.setSlice]
  by_cases h : a = b
  · subst h; simp
  · rw [if_neg h]
    exact Vector.getElem_set_ne a.isLt b.isLt fun hv => h (Fin.ext hv)

theorem toggle_setToggle (t : State) (a b : Addr) (x : Bool) :
    (t.setToggle a x).toggle b = if a = b then x else t.toggle b := by
  simp only [State.toggle, State.setToggle]
  by_cases h : a = b
  · subst h; simp
  · rw [if_neg h]
    exact Vector.getElem_set_ne a.isLt b.isLt fun hv => h (Fin.ext hv)

theorem updateStation_scan_trans (s : State) (a : Addr) (e : Entry) (v : Supervision) :
    (s.updateStation a e v).scan = s.scan ∧ (s.updateStation a e v).trans = s.trans := by
  have h := (sessionOnly_updateStation s a e v).1
  exact ⟨by rw [h], by rw [h]⟩

theorem setUp_slice (s : State) (c : StagingCopy) (a b : Addr) :
    (s.setUp c a).slice b = if a = b then stagedSlice (copyAt c a) else s.slice b := by
  unfold State.setUp
  cases copyAt c a with
  | some d =>
    obtain ⟨hscan, -⟩ := updateStation_scan_trans s a .unconfigured (s.supervision a)
    generalize s.updateStation a .unconfigured (s.supervision a) = u at hscan
    refine (slice_setSlice (u.setEntry a (.setUp d)) a b _).trans (ite_congr rfl (fun _ => rfl) fun _ => ?_)
    show u.slice b = s.slice b
    rw [State.slice, hscan, State.slice]
  | none => exact slice_setSlice s a b []

theorem setUps_slice (as : List Addr) (c : StagingCopy) (s : State) (b : Addr) :
    (as.foldl (fun u a => u.setUp c a) s).slice b = if b ∈ as then stagedSlice (copyAt c b) else s.slice b := by
  induction as generalizing s with
  | nil => rfl
  | cons a as ih =>
    rw [List.foldl_cons, ih, setUp_slice]
    by_cases hb : b ∈ as
    · rw [if_pos hb, if_pos (List.mem_cons_of_mem _ hb)]
    · by_cases hab : a = b
      · subst hab
        rw [if_neg hb, if_pos rfl, if_pos List.mem_cons_self]
      · rw [if_neg hb, if_neg hab, if_neg (by simp [hb, Ne.symm hab])]

theorem setUp_toggle (s : State) (c : StagingCopy) (a b : Addr) :
    (s.setUp c a).toggle b = if a = b then false else s.toggle b := by
  unfold State.setUp
  cases copyAt c a with
  | some d =>
    obtain ⟨-, htrans⟩ := updateStation_scan_trans s a .unconfigured (s.supervision a)
    generalize s.updateStation a .unconfigured (s.supervision a) = u at htrans
    refine (toggle_setToggle ((u.setEntry a (.setUp d)).setSlice a _) a b false).trans
      (ite_congr rfl (fun _ => rfl) fun _ => ?_)
    show u.toggle b = s.toggle b
    rw [State.toggle, htrans, State.toggle]
  | none => exact toggle_setToggle (s.setSlice a []) a b false

theorem setUps_toggle (as : List Addr) (c : StagingCopy) (s : State) (b : Addr) :
    (as.foldl (fun u a => u.setUp c a) s).toggle b = (decide (b ∉ as) && s.toggle b) := by
  induction as generalizing s with
  | nil => simp
  | cons a as ih =>
    rw [List.foldl_cons, ih, setUp_toggle]
    by_cases hab : a = b
    · simp [hab]
    · simp [hab, Ne.symm hab]

/-! ## The conditions a commit keeps -/

/-- A record of a table of distinct records. -/
def Holds (q : ConditionRecord) (t : State) : Prop := Distinct t ∧ q ∈ t.cond.records

theorem holds_frame {q : ConditionRecord} {s t : State} (h : Holds q s) (e : t.cond = s.cond) : Holds q t := by
  refine ⟨distinct_of_records h.1 (by rw [e]), ?_⟩
  rw [e]
  exact h.2

/-- The end of another cause leaves a record as it is (R57). -/
theorem holds_finishCause {q : ConditionRecord} {s : State} (h : Holds q s) {k : Key} (hk : q.key ≠ k) :
    Holds q (s.finishCause k) := by
  refine ⟨distinct_kept.finishes s k h.1, ?_⟩
  obtain ⟨⟨-, -, hslots⟩, hq⟩ := h
  have hne : ∀ {r}, s.findRecord k = some r → r ∈ s.cond.records ∧ q.slot ≠ r.slot := by
    intro r hr
    have hmem : r ∈ s.cond.records := List.mem_of_find?_eq_some hr
    have hrk : r.key = k := by simpa using List.find?_some hr
    exact ⟨hmem, fun hslot => hk (slot_inj hslots hq hmem hslot ▸ hrk)⟩
  have hremoved : ∀ {r}, s.findRecord k = some r → q ∈ (s.removeRecord r).cond.records := by
    intro r hr
    obtain ⟨hmem, hslot⟩ := hne hr
    rw [removeRecord_eq hslots hmem]
    exact List.mem_filter.2 ⟨hq, by simpa using hslot⟩
  unfold State.finishCause
  split
  · exact hq
  next r hr =>
    split
    · exact hq
    · exact hremoved hr
    split
    · exact List.mem_map.2 ⟨q, hq, if_neg (hne hr).2⟩
    · exact hremoved hr

theorem holds_finishCauses {q : ConditionRecord} (ks : List Key) {s : State} (h : Holds q s) (hk : ∀ k ∈ ks, q.key ≠ k) :
    Holds q (ks.foldl State.finishCause s) := by
  induction ks generalizing s with
  | nil => exact h
  | cons k ks ih =>
    exact ih (holds_finishCause h (hk k List.mem_cons_self)) fun j hj => hk j (List.mem_cons_of_mem _ hj)

theorem holds_dropOverrides {q : ConditionRecord} {s : State} (h : Holds q s) (p : OverrideRecord → Bool)
    (hp : ∀ r ∈ s.overrides, p r = true → q.key ≠ plainKey (.station r.station) .forced) : Holds q (s.dropOverrides p) := by
  have hfold : ∀ (rs : List OverrideRecord) (t : State), Holds q t →
      (∀ r ∈ rs, q.key ≠ plainKey (.station r.station) .forced) → Holds q (rs.foldl State.dropOverride t) := by
    intro rs
    induction rs with
    | nil => exact fun t ht _ => ht
    | cons r rs ih =>
      refine fun t ht hrs => ih _ ?_ fun x hx => hrs x (List.mem_cons_of_mem _ hx)
      rw [dropOverride_eq]
      dsimp only
      split
      · exact holds_finishCause (by exact holds_frame ht rfl) (hrs r List.mem_cons_self)
      · exact holds_frame ht rfl
  exact hfold _ s h fun r hr => hp r (List.mem_filter.1 hr).1 (List.mem_filter.1 hr).2

theorem origin_of_clearedKeys (s : State) (a : Addr) : ∀ k ∈ clearedKeys s a, k.origin = .station a := by
  have hcause : ∀ b category extra, ∀ x ∈ causeIf b (.station a) category extra, x.key.origin = .station a := by
    intro b category extra x hx
    unfold causeIf at hx
    split at hx
    · rw [List.mem_singleton.1 hx]
      rfl
    · cases hx
  intro k hk
  obtain ⟨x, hx, rfl⟩ := List.mem_map.1 hk
  simp only [List.mem_append] at hx
  rcases hx with (((hx | hx) | hx) | hx) | hx
  all_goals exact hcause _ _ _ x hx

theorem holds_updateStation {q : ConditionRecord} {s : State} (h : Holds q s) (a : Addr) {e : Entry}
    (he : e.presence = .absent) (hq : q.key.origin ≠ .station a) : Holds q (s.updateStation a e (s.supervision a)) := by
  rw [updateStation_absent s a e he]
  exact holds_finishCauses _ (holds_frame h rfl) fun k hk hkey => hq (hkey ▸ origin_of_clearedKeys s a k hk)

theorem holds_setUp {q : ConditionRecord} {s : State} (h : Holds q s) (c : StagingCopy) {a : Addr}
    (hq : q.key.origin ≠ .station a) : Holds q (s.setUp c a) := by
  have hupdate := holds_updateStation h a (e := .unconfigured) rfl hq
  unfold State.setUp
  generalize s.updateStation a .unconfigured (s.supervision a) = u at hupdate
  split
  · exact holds_frame hupdate rfl
  · exact holds_frame h rfl

theorem holds_takeOut {q : ConditionRecord} {s : State} (h : Holds q s) {a : Addr} (hq : q.key.origin ≠ .station a) :
    Holds q (s.takeOut a) := by
  have hretired : Holds q (s.retireStation a) := by
    refine ⟨Laws.keeps_foldl (P := Distinct) State.removeRecord (fun _ r ht => distinct_removeRecord ht r) _ h.1, ?_⟩
    obtain ⟨⟨-, -, hslots⟩, hmem⟩ := h
    rw [retireStation_eq hslots]
    exact List.mem_filter.2 ⟨hmem, by simpa using hq⟩
  refine holds_frame (holds_dropOverrides hretired (OverrideRecord.ofStation a) fun r _ hr hkey => hq ?_) rfl
  rw [hkey]
  exact congrArg Origin.station (by simpa [OverrideRecord.ofStation] using hr)

theorem holds_foldl {q : ConditionRecord} (f : State → Addr → State) (as : List Addr) {s : State} (h : Holds q s)
    (hf : ∀ a ∈ as, ∀ t, Holds q t → Holds q (f t a)) : Holds q (as.foldl f s) := by
  induction as generalizing s with
  | nil => exact h
  | cons a as ih => exact ih (hf a List.mem_cons_self s h) fun b hb => hf b (List.mem_cons_of_mem _ hb)

theorem holds_endSession {q : ConditionRecord} {s : State} (h : Holds q s) {o : OpenSession} (ho : s.session.current = some o)
    (reason : EndReason) (hforced : q.key.category ≠ .forced) (hq : q.key.origin ≠ .station o.tool) :
    Holds q (s.endSession reason) := by
  have hdrop : Holds q s.dropSessionOverrides :=
    holds_dropOverrides h _ fun r _ _ hkey => hforced (by rw [hkey]; rfl)
  unfold State.endSession
  rw [ho]
  exact holds_frame (holds_updateStation hdrop o.tool rfl hq) rfl

/-! ## The fields a commit leaves -/

section Fields

variable (s : State) (c : StagingCopy)

/-- The stages up to the rebuild, in one frame. -/
theorem afterRebuild_eq : ∃ ins outs : List (Nat × Nat × Nat),
    ins = (s.keptSlices c).map (fun k => (k.1.inputOffset, k.1.inputSize, k.2.inputOffset)) ∧
    outs = (s.keptSlices c).map (fun k => (k.1.outputOffset, k.1.outputSize, k.2.outputOffset)) ∧
    afterRebuild s c = { s with
      roster := (afterSetUp s c).roster
      supervised := (afterTakeOut s c).supervised
      cond := (afterSetUp s c).cond
      overrides := (afterTakeOut s c).overrides
      session := (afterTakeOut s c).session
      trans := { s.trans with slots := (afterCompletions s c).trans.slots, toggles := (afterSetUp s c).trans.toggles }
      scan := { s.scan with
        buffer := (afterSetUp s c).scan.buffer
        published := if (moving s c).isEmpty then s.scan.published else rebuildArea s.scan.published ins
        live := if (moving s c).isEmpty then s.scan.live else rebuildArea s.scan.live outs }
      port := { s.port with
        responses := s.port.responses ++ completions s (fun u => leaves s c u.station) .reconfigured
        deferred := s.port.deferred - (completions s (fun u => leaves s c u.station) .reconfigured).length
        outputArea := if (moving s c).isEmpty then s.port.outputArea else rebuildArea s.port.outputArea outs } } := by
  obtain ⟨ins, outs, hins, houts, hrebuild⟩ := afterRebuild_frame s c
  have hsetUp := setUpOnly_afterSetUp s c
  have hdone := afterCompletions_frame s c
  have hout := takeOutOnly_afterTakeOut s c
  unfold SetUpOnly at hsetUp
  unfold TakeOutOnly at hout
  refine ⟨ins, outs, hins, houts, hrebuild.trans ?_⟩
  rw [hsetUp, hdone, hout]

/-- What follows the rebuild touches the roster, the condition unit, the mode, the layout and the configuration (R167). -/
theorem applyCommit_eq_rebuild : s.applyCommit c =
    { afterRebuild s c with
      roster := (s.applyCommit c).roster
      cond := (s.applyCommit c).cond
      mode := modeAfterCommit (afterRebuild s c).mode (copyHolds c)
      scan := { (afterRebuild s c).scan with
        layout := if s.placementMoves c then (afterRebuild s c).scan.layout + 1 else (afterRebuild s c).scan.layout }
      config := { (afterRebuild s c).config with staging := .closed, gapTimer := none, incomplete := false } } := by
  have hplace : ∀ t : State, t.place c = { t with roster := (t.place c).roster } := fun _ => rfl
  have hclear := clearIncomplete_frame ((afterRebuild s c).place c)
  have hlast := applyCommit_eq_stages s c
  dsimp only at hlast
  generalize ((afterRebuild s c).place c).clearIncomplete = x at hclear hlast
  rw [hlast, hclear, hplace]

theorem supervised_applyCommit : (s.applyCommit c).supervised = (afterTakeOut s c).supervised := by
  obtain ⟨ins, outs, -, -, hrebuild⟩ := afterRebuild_eq s c
  rw [applyCommit_eq_rebuild, hrebuild]

theorem trans_applyCommit : (s.applyCommit c).trans =
    { s.trans with slots := (afterCompletions s c).trans.slots, toggles := (afterSetUp s c).trans.toggles } := by
  obtain ⟨ins, outs, -, -, hrebuild⟩ := afterRebuild_eq s c
  rw [applyCommit_eq_rebuild, hrebuild]

theorem buffer_applyCommit : (s.applyCommit c).scan.buffer = (afterSetUp s c).scan.buffer := by
  obtain ⟨ins, outs, -, -, hrebuild⟩ := afterRebuild_eq s c
  rw [applyCommit_eq_rebuild, hrebuild]

end Fields

theorem modeAfterCommit_eq (m : Mode) (c : StagingCopy) [Decidable (∃ a, (copyAt c a).isSome = true)] :
    modeAfterCommit m (copyHolds c) =
      if m.scans then m else if ∃ a, (copyAt c a).isSome = true then .standby else .offline := by
  have hholds : ∀ x y : Mode, (if copyHolds c = true then x else y) = if ∃ a, (copyAt c a).isSome = true then x else y :=
    fun x y => if_congr (copyHolds_iff c) rfl rfl
  cases m
  · exact hholds _ _
  · exact hholds _ _
  · rfl
  · rfl

theorem placementMoves_iff (s : State) (c : StagingCopy) :
    s.placementMoves c = true ↔ ∃ a, (s.entry a).placement ≠ placementIn c a := by
  simp [State.placementMoves, allAddrs]

theorem slot_applyCommit (s : State) (c : StagingCopy) (i : Fin 4) :
    (s.applyCommit c).slot i = (s.slot i).filter (fun u => !leaves s c u.station) := by
  have hslot : (s.applyCommit c).slot i = (afterCompletions s c).slot i := by
    rw [State.slot, trans_applyCommit, State.slot]
  rw [hslot, afterCompletions, slot_completeWhere, slot_afterTakeOut]
  refine congrArg (fun f => (s.slot i).filter f) (funext fun u => congrArg Bool.not ?_)
  rw [Bool.eq_iff_iff, decide_eq_true_iff, mem_outgoing]

theorem toggle_applyCommit (s : State) (c : StagingCopy) (a : Addr) :
    (s.applyCommit c).toggle a = (!touched s c a && s.toggle a) := by
  have htoggle : (s.applyCommit c).toggle a = (afterSetUp s c).toggle a := by
    rw [State.toggle, trans_applyCommit, State.toggle]
  have hsame : (afterCompletions s c).toggle a = s.toggle a := by
    rw [State.toggle, afterCompletions_frame, State.toggle]
  rw [htoggle, afterSetUp, setUps_toggle, hsame]
  refine congrArg (· && s.toggle a) ?_
  rw [Bool.eq_iff_iff, decide_eq_true_iff, mem_moving, Bool.not_eq_true', Bool.not_eq_true]

theorem slice_applyCommit (s : State) (c : StagingCopy) (a : Addr) :
    (s.applyCommit c).slice a = if touched s c a then stagedSlice (copyAt c a) else s.slice a := by
  have hslice : (s.applyCommit c).slice a = (afterSetUp s c).slice a := by
    rw [State.slice, buffer_applyCommit, State.slice]
  have hsame : (afterCompletions s c).slice a = s.slice a := by
    have hout := takeOutOnly_afterTakeOut s c
    unfold TakeOutOnly at hout
    rw [State.slice, afterCompletions_frame, hout, State.slice]
  rw [hslice, afterSetUp, setUps_slice, hsame]
  exact if_congr (mem_moving s c a) rfl rfl

theorem supervision_applyCommit (s : State) (c : StagingCopy) (a : Addr) :
    (s.applyCommit c).supervision a = if leaves s c a then {} else s.supervision a := by
  rw [State.supervision, supervised_applyCommit]
  exact afterTakeOut_supervision s c a

/-- The tool of an evicted session stands at an address the copy adds (R167 step 1). -/
def EvictsAdded (s : State) : Prop := ∀ o, s.session.current = some o → (s.entry o.tool).descriptor = none

theorem touched_of_evicts {s : State} {c : StagingCopy} (h : EvictsAdded s) (he : evicts s c = true) {o : OpenSession}
    (ho : s.session.current = some o) : touched s c o.tool = true := by
  rw [evicts_of_current ho] at he
  refine decide_eq_true fun heq => ?_
  rw [← heq, h o ho] at he
  cases he

theorem entry_applyCommit {s : State} (h : EvictsAdded s) (c : StagingCopy) (a : Addr) : (s.applyCommit c).entry a =
    if touched s c a then
      match copyAt c a with
      | some d => { descriptor := some d, presence := .expected, activeLine := some d.preferred,
                    placement := placementIn c a }
      | none => {}
    else { s.entry a with placement := placementIn c a } := by
  rw [applyCommit_entry, touched_eq]
  cases ht : touched s c a with
  | true =>
    have hplace := placementIn_eq c a
    unfold placed at hplace
    cases hc : copyAt c a with
    | some d => rfl
    | none =>
      rw [hc] at hplace
      rw [hplace]
      rfl
  | false =>
    refine congrArg (fun e : Entry => { e with placement := placementIn c a }) ?_
    rcases commitSession_entry s c a with he | ⟨o, ho, hev, rfl, -⟩
    · exact he
    · rw [touched_of_evicts h hev ho] at ht
      cases ht

/-- The frame of a commit (R167). -/
theorem applyCommit_frame {s : State} (ho : (s.overrides.map overrideKey).Nodup) (c : StagingCopy)
    [Decidable (∃ a, (copyAt c a).isSome = true)] [Decidable (∃ a, touched s c a = true)]
    [Decidable (∃ a, (s.entry a).placement ≠ placementIn c a)] : s.applyCommit c = { s with
    mode := if s.mode.scans then s.mode else if ∃ a, (copyAt c a).isSome = true then .standby else .offline
    roster := (s.applyCommit c).roster
    supervised := (s.applyCommit c).supervised
    cond := (s.applyCommit c).cond
    overrides := s.overrides.filter (fun q =>
      decide (leaves s c q.station = false ∧ (evicts s c = false ∨ q.owner ≠ .session)))
    session := if evicts s c then { s.session with current := none, lastEnd := .reconfigured } else s.session
    trans := (s.applyCommit c).trans
    scan := { s.scan with
      buffer := (s.applyCommit c).scan.buffer
      published := if ∃ a, touched s c a = true then
          movedArea s c (fun p => (p.inputOffset, p.inputSize)) s.scan.published else s.scan.published
      live := if ∃ a, touched s c a = true then
          movedArea s c (fun p => (p.outputOffset, p.outputSize)) s.scan.live else s.scan.live
      layout := if ∃ a, (s.entry a).placement ≠ placementIn c a then s.scan.layout + 1 else s.scan.layout }
    config := { s.config with staging := .closed, gapTimer := none, incomplete := false }
    port := { s.port with
      outputArea := if ∃ a, touched s c a = true then
          movedArea s c (fun p => (p.outputOffset, p.outputSize)) s.port.outputArea else s.port.outputArea
      responses := s.port.responses ++ completions s (fun u => leaves s c u.station) .reconfigured
      deferred := s.port.deferred - (completions s (fun u => leaves s c u.station) .reconfigured).length } } := by
  obtain ⟨ins, outs, hins, houts, hrebuild⟩ := afterRebuild_eq s c
  have h := applyCommit_eq_rebuild s c
  have hsession : (afterTakeOut s c).session =
      if evicts s c then { s.session with current := none, lastEnd := .reconfigured } else s.session :=
    (takeOuts_session _ _).trans (commitSession_session s c)
  have hinput : ∀ m, rebuildArea m ins = movedArea s c (fun p => (p.inputOffset, p.inputSize)) m :=
    fun m => hins ▸ rebuildArea_keptSlices s c (fun p => (p.inputOffset, p.inputSize)) m
  have houtput : ∀ m, rebuildArea m outs = movedArea s c (fun p => (p.outputOffset, p.outputSize)) m :=
    fun m => houts ▸ rebuildArea_keptSlices s c (fun p => (p.outputOffset, p.outputSize)) m
  have hlayout : (if s.placementMoves c then s.scan.layout + 1 else s.scan.layout) =
      if ∃ a, (s.entry a).placement ≠ placementIn c a then s.scan.layout + 1 else s.scan.layout :=
    if_congr (placementMoves_iff s c) rfl rfl
  have hsuper := supervised_applyCommit s c
  have htrans := trans_applyCommit s c
  have hbuffer := buffer_applyCommit s c
  rw [hrebuild] at h
  dsimp only at h
  rw [← htrans, ← hsuper, ← hbuffer, afterTakeOut_overrides ho, hsession, ite_isEmpty_moving, ite_isEmpty_moving,
    ite_isEmpty_moving, hinput, houtput, houtput, hlayout, modeAfterCommit_eq] at h
  exact h

/-! ## The conditions a commit leaves -/

theorem endsOnly_afterTakeOut {s : State} (hn : SlotsDistinct s) (c : StagingCopy) : EndsOnly s (afterTakeOut s c) := by
  have hsession : EndsOnly s (s.commitSession c) := by
    rcases commitSession_cases s c with ⟨-, hc⟩ | ⟨-, hc, -⟩ <;> rw [hc]
    · exact .frame rfl rfl
    · exact endsOnly_endSession hn _
  exact hsession.trans (EndsOnly.foldl State.takeOut (fun _ a h => endsOnly_takeOut h a) _ _ (hsession.slots hn))

theorem endsOnly_of_afterTakeOut {s : State} {c : StagingCopy} (hn : SlotsDistinct (afterTakeOut s c)) :
    EndsOnly (afterTakeOut s c) (s.applyCommit c) := by
  have hdone : EndsOnly (afterTakeOut s c) (afterCompletions s c) := endsOnly_transOnly (transOnly_completeWhere _ _ _)
  have hsetUp : EndsOnly (afterTakeOut s c) (afterSetUp s c) := hdone.trans
    (EndsOnly.foldl (fun u a => u.setUp c a) (fun _ a h => endsOnly_setUp h c a) _ _ (hdone.slots hn))
  obtain ⟨ins, outs, -, -, hrebuild⟩ := afterRebuild_frame s c
  have hplaced : EndsOnly (afterTakeOut s c) ((afterRebuild s c).place c) := by
    refine hsetUp.trans (.frame ?_ ?_)
    · show (afterRebuild s c).cond = _
      rw [hrebuild]
    · show (afterRebuild s c).scan.number = _
      rw [hrebuild]
  exact (hplaced.trans (endsOnly_clearIncomplete (hplaced.slots hn))).trans (.frame rfl rfl)

/-- No record of a station taken out is left (R59). -/
theorem records_applyCommit {s : State} (hn : SlotsDistinct s) (c : StagingCopy) {q : ConditionRecord}
    (hq : q ∈ (s.applyCommit c).cond.records) {a : Addr} (ha : q.key.origin = .station a) : leaves s c a = false := by
  have hout : SlotsDistinct (afterTakeOut s c) := (endsOnly_afterTakeOut hn c).slots hn
  obtain ⟨⟨-, -, -, -, hrecords, -⟩, -⟩ := endsOnly_of_afterTakeOut hout
  obtain ⟨p, hp, hsame⟩ := hrecords q hq
  have hkey : q.key = p.key := by
    rcases hsame with rfl | ⟨-, -, rfl⟩
    · rfl
    · rfl
  have hsession : SlotsDistinct (s.commitSession c) := by
    rcases commitSession_cases s c with ⟨-, hc⟩ | ⟨-, hc, -⟩ <;> rw [hc]
    · exact hn
    · exact (endsOnly_endSession hn _).slots hn
  have hagree := agree_takeOuts (outgoing s c) hsession
  rw [afterTakeOut, hagree.1] at hp
  have hnone := (List.mem_filter.1 hp).2
  rw [Bool.not_eq_true', List.any_eq_false] at hnone
  cases hl : leaves s c a with
  | false => rfl
  | true => exact absurd (decide_eq_true (hkey ▸ ha)) (hnone a ((mem_outgoing s c a).2 hl))

theorem distinct_commitSession {s : State} (hs : Distinct s) (c : StagingCopy) : Distinct (s.commitSession c) := by
  rcases commitSession_cases s c with ⟨-, hc⟩ | ⟨-, hc, -⟩ <;> rw [hc]
  · exact hs
  · exact distinct_kept.endSession hs _

theorem distinct_afterRebuild {s : State} (hs : Distinct s) (c : StagingCopy) : Distinct ((afterRebuild s c).place c) := by
  have hout : Distinct (afterTakeOut s c) :=
    Laws.keeps_foldl (P := Distinct) State.takeOut (fun _ a ht => distinct_kept.takeOut ht a) _ (distinct_commitSession hs c)
  have hdone : Distinct (afterCompletions s c) := distinct_kept.transOnly hout (transOnly_completeWhere _ _ _)
  have hsetUp : Distinct (afterSetUp s c) :=
    Laws.keeps_foldl (P := Distinct) (fun u a => State.setUp u c a) (fun _ a ht => distinct_kept.setUp ht c a) _ hdone
  obtain ⟨ins, outs, -, -, hrebuild⟩ := afterRebuild_frame s c
  refine distinct_of_records hsetUp ?_
  show (afterRebuild s c).cond.records = _
  rw [hrebuild]

/-- No record of CONFIG INCOMPLETE stands after a commit (R164). -/
theorem ended_applyCommit {s : State} (hs : Distinct s) (c : StagingCopy) (hincomplete : s.config.incomplete = true) :
    ∀ q ∈ (s.applyCommit c).cond.records, q.key = plainKey .part .configIncomplete → q.state = .ended := by
  obtain ⟨ins, outs, -, -, hrebuild⟩ := afterRebuild_eq s c
  have hd := distinct_afterRebuild hs c
  have hconfig : ((afterRebuild s c).place c).config = s.config := by
    show (afterRebuild s c).config = s.config
    rw [hrebuild]
  have hcond : (s.applyCommit c).cond = ((afterRebuild s c).place c).clearIncomplete.cond := rfl
  rw [hcond]
  generalize (afterRebuild s c).place c = t at hd hconfig
  rw [State.clearIncomplete, hconfig, if_pos hincomplete]
  exact ended_of_finishCause (by exact distinct_of_records hd rfl) _

/-- A record of no station that the commit touches stays as it is (R40, R59, R104, R164). -/
theorem holds_applyCommit {s : State} (h : EvictsAdded s) (c : StagingCopy) {q : ConditionRecord} (hq : Holds q s)
    (hstations : ∀ a, q.key.origin = .station a → touched s c a = false)
    (hforced : q.key.category = .forced → evicts s c = false) (hpart : q.key ≠ plainKey .part .configIncomplete) :
    Holds q (s.applyCommit c) := by
  have huntouched : ∀ {a}, touched s c a = true → q.key.origin ≠ .station a := fun ha horigin => by
    rw [hstations _ horigin] at ha
    cases ha
  have hleaves : ∀ {a}, leaves s c a = true → touched s c a = true := fun ha => by
    rw [leaves, Bool.and_eq_true] at ha
    exact ha.2
  have hsession : Holds q (s.commitSession c) := by
    rcases commitSession_cases s c with ⟨-, hc⟩ | ⟨hev, hc, o, ho⟩ <;> rw [hc]
    · exact hq
    · refine holds_endSession hq ho _ (fun hcategory => ?_) (huntouched (touched_of_evicts h hev ho))
      rw [hforced hcategory] at hev
      cases hev
  have hout : Holds q (afterTakeOut s c) := holds_foldl State.takeOut _ hsession fun a ha t ht =>
    holds_takeOut ht (huntouched (hleaves ((mem_outgoing s c a).1 ha)))
  have hdone : Holds q (afterCompletions s c) := by
    have htrans := transOnly_completeWhere (afterTakeOut s c) (fun t => decide (t.station ∈ outgoing s c)) .reconfigured
    unfold TransOnly at htrans
    refine holds_frame hout ?_
    rw [afterCompletions, htrans]
  have hsetUp : Holds q (afterSetUp s c) := holds_foldl (fun u a => u.setUp c a) _ hdone fun a ha t ht =>
    holds_setUp ht c (huntouched ((mem_moving s c a).1 ha))
  obtain ⟨ins, outs, -, -, hrebuild⟩ := afterRebuild_frame s c
  have hplaced : Holds q ((afterRebuild s c).place c) := by
    refine holds_frame hsetUp ?_
    show (afterRebuild s c).cond = _
    rw [hrebuild]
  have hcond : (s.applyCommit c).cond = ((afterRebuild s c).place c).clearIncomplete.cond := rfl
  refine holds_frame ?_ hcond
  generalize (afterRebuild s c).place c = t at hplaced
  unfold State.clearIncomplete
  split
  · exact holds_finishCause (by exact holds_frame hplaced rfl) hpart
  · exact hplaced

/-! ## A commit taken (R167, R168) -/

/-- What a commit leaves, where the tables are tables and the tool of an evicted session is unconfigured. -/
theorem commitTaken_applyCommit {s : State} (hs : Distinct s) (ho : (s.overrides.map overrideKey).Nodup)
    (htool : EvictsAdded s) (c : StagingCopy) : CommitTaken s (s.applyCommit c) c := by
  obtain ⟨-, -, hslots⟩ := id hs
  refine ⟨applyCommit_frame ho c, entry_applyCommit htool c, supervision_applyCommit s c, fun a => ?slice,
    toggle_applyCommit s c, slot_applyCommit s c, fun q hq a ha => records_applyCommit hslots c hq ha,
    fun q hq hstations hforced hpart => ?kept, ended_applyCommit hs c, (endsOnly_applyCommit hslots c).1,
    fun hpresence hservice => applyCommit_cond hslots ho hpresence hservice⟩
  case slice =>
    refine (slice_applyCommit s c a).trans (ite_congr rfl (fun _ => ?_) fun _ => rfl)
    cases copyAt c a <;> rfl
  case kept => exact (holds_applyCommit htool c ⟨hs, hq⟩ hstations hforced hpart).2

theorem comparisons_eq (s : State) (c : StagingCopy) (k : Comparison) (p : Option Descriptor → Option Descriptor → Bool)
    (h : ∀ d e, decide (comparisonOf d e = k) = p d e) :
    s.comparisons c k = allAddrs.countP (fun a => p (s.entry a).descriptor (copyAt c a)) :=
  List.countP_congr fun a _ => by rw [State.compare, h]

/-- The result fields of an applied commit (R168). -/
theorem commitResult_eq (s t : State) (c : StagingCopy) : commitResult s t c = commitFields s t c := by
  have hadded := comparisons_eq s c .added (fun d e => d.isNone && e.isSome) fun d e => by
    cases d <;> cases e <;> simp [comparisonOf]
    split <;> decide
  have hremoved := comparisons_eq s c .removed (fun d e => d.isSome && e.isNone) fun d e => by
    cases d <;> cases e <;> simp [comparisonOf]
    split <;> decide
  have hchanged := comparisons_eq s c .changed (fun d e => d.isSome && e.isSome && decide (d ≠ e)) fun d e => by
    cases d <;> cases e <;> simp [comparisonOf]
  have hunchanged := comparisons_eq s c .unchanged (fun d e => d.isSome && decide (d = e)) fun d e => by
    cases d <;> cases e <;> simp [comparisonOf]
  have hlayout : s.placementMoves c = decide (∃ a, (s.entry a).placement ≠ placementIn c a) := by
    rw [Bool.eq_iff_iff, decide_eq_true_iff, placementMoves_iff]
  rw [commitResult, commitFields, hadded, hremoved, hchanged, hunchanged, hlayout]

end Sys2Proof.Proofs
end

section
/-! PROOFS. The commit that STAGE COMMIT applies at once (R165, R167). -/

namespace Sys2Proof.Proofs

open Sys2Proof.Machine Sys2Proof.Safety Sys2Proof.Laws

theorem agree_restartGap (s : State) : Agree s s.restartGap := ⟨rfl, rfl, rfl⟩

/-- What a commit ends does not hang on the gap timer. -/
theorem commitCauses_restartGap (s : State) (c : StagingCopy) : (commitCauses s.restartGap c).cond = (commitCauses s c).cond := by
  have hsession : Agree (match s.session.current with
      | none => s
      | some o => if (copyAt c o.tool).isSome then sessionEnded s o .reconfigured else s)
      (match s.session.current with
      | none => s.restartGap
      | some o => if (copyAt c o.tool).isSome then sessionEnded s.restartGap o .reconfigured else s.restartGap) := by
    split
    · exact agree_restartGap s
    split
    · exact agree_withoutOverrides (agree_restartGap s) rfl _
    · exact agree_restartGap s
  have hstations := agree_foldl (fun (w : State) a => w.finishCause (plainKey (.station a) .stationExtra))
    (fun _ _ _ h => agree_finishCause h _) (allAddrs.filter (fun a => touched s c a && (s.entry a).descriptor.isNone &&
      decide ((s.entry a).presence = .extra))) (agree_withoutRecords hsession (fun q => allAddrs.any (fun a =>
        decide (q.key.origin = .station a) && leaves s c a)))
  unfold commitCauses
  by_cases h : s.config.incomplete = true
  · rw [if_pos h, if_pos (show s.restartGap.config.incomplete = true from h)]
    exact (agree_finishCause hstations _).1
  · rw [if_neg h, if_neg (show ¬ s.restartGap.config.incomplete = true from h)]
    exact hstations.1

/-- A commit looks at the gap timer in no way (R163, R167). -/
theorem commitTaken_of_restartGap {s t : State} {c : StagingCopy} (h : CommitTaken s.restartGap t c) : CommitTaken s t c := by
  obtain ⟨hframe, hentry, hsuper, hslice, htoggle, hslot, hgone, hkept, hended, hends, hcond⟩ := h
  exact ⟨hframe, hentry, hsuper, hslice, htoggle, hslot, hgone, hkept, hended, hends,
    fun hpresence hservice => (hcond hpresence hservice).trans (commitCauses_restartGap s c)⟩

/-- Settles O25: the placement is that of `placed`, and the commit applied at once is `State.applyCommit` of the state with
the gap timer restarted. -/
theorem commitApplied : Obligations.CommitApplied := by
  refine ⟨fun c a => ⟨placementIn_eq c a, inputTotal_eq c, outputTotal_eq c⟩,
    fun s r rest c hready htables hopen hinput houtput hserved hscans htool => ?_⟩
  obtain ⟨hdistinct, -, hkeys, -⟩ := (tablesKept_iff s).1 htables
  have hfits : FitsImages c := ⟨inputTotal_eq c ▸ hinput, outputTotal_eq c ▸ houtput⟩
  have hpasses := commitRefusal_none (s := (taken s rest).restartGap) hfits hserved
    fun hs => (copyHolds_iff c).2 (hscans hs).1
  have hbody := (whileOpen_of_opened (s := taken s rest) hopen (fun c u => u.stageCommit (requestTag r) c)).trans
    (stageCommit_at_once (requestTag r) hpasses fun hs => (hscans hs).2)
  have hcommit := commitTaken_of_restartGap (commitTaken_applyCommit (s := (taken s rest).restartGap) hdistinct hkeys htool c)
  refine ⟨_, hcommit, ?_⟩
  have hrun := run_ready hready (fun r t => t.whileOpen (fun c u => u.stageCommit (requestTag r) c))
  rw [hbody, commitResult_eq] at hrun
  exact congrArg Host.Outcome.next hrun

end Sys2Proof.Proofs
end

section
/-! PROOFS. The settings: SET PROFILE (R22), SET ACTION (R75), SET OUTPUT REFRESH (R81). -/

namespace Sys2Proof.Proofs

open Sys2Proof.Machine Sys2Proof.Safety Sys2Proof.Laws

/-! ## SET PROFILE and READ PROFILE (R22) -/

/-- A profile's fields within the ranges of Table 2-1. -/
def ProfileGood (p : Profile) : Prop :=
  (1 ≤ p.joinThreshold ∧ p.joinThreshold ≤ 7) ∧ (1 ≤ p.lossThreshold ∧ p.lossThreshold ≤ 15) ∧
    (40 ≤ p.replyWindow ∧ p.replyWindow ≤ 2000) ∧ p.retries ≤ 3 ∧ (1 ≤ p.lostProbeInterval ∧ p.lostProbeInterval ≤ 255)

theorem profileOf_of_good {p : Profile} (h : ProfileGood p) :
    profileOf p.joinThreshold p.lossThreshold p.replyWindow p.retries p.lostProbeInterval = some p := by
  obtain ⟨hjoin, hloss, hwindow, hretries, hinterval⟩ := h
  simp only [profileOf, within, hjoin, hloss, hwindow, hretries, hinterval, Nat.zero_le, and_self, decide_true,
    Bool.and_self, if_true]

theorem profileOf_of_not_good {p : Profile} (h : ¬ ProfileGood p) :
    profileOf p.joinThreshold p.lossThreshold p.replyWindow p.retries p.lostProbeInterval = none := by
  refine if_neg fun hwithin => h ?_
  simp only [within, Bool.and_eq_true, decide_eq_true_eq] at hwithin
  obtain ⟨⟨⟨⟨hjoin, hloss⟩, hwindow⟩, -, hretries⟩, hinterval⟩ := hwithin
  exact ⟨hjoin, hloss, hwindow, hretries, hinterval⟩

theorem setProfileRequest_refused {s : State} {b : Byte} {p : Option Profile} (h : 3 < b.toNat ∨ p = none) :
    s.setProfileRequest b p = reply s .badOperand := by
  unfold State.setProfileRequest
  rcases h with h | h
  · rw [below_none h]
  · rw [h]
    cases below 4 b <;> rfl

theorem setProfileRequest_octet (s : State) (n : Fin 4) (p : Profile) :
    s.setProfileRequest (octet n.val) (some p) = reply (s.setProfile n p) .ok := by
  simp only [State.setProfileRequest, below_octet (show 4 ≤ 256 by decide) n.isLt]

theorem getElem_map_roster (v : Vector Entry 32) (f : Entry → Entry) (h : (v.toList.map f).toArray.size = 32) (a : Addr) :
    (⟨(v.toList.map f).toArray, h⟩ : Vector Entry 32)[a.val] = f v[a.val] := by
  simp

/-- The counts of an entry fitted to a good profile (R22). -/
theorem fit_eq {p : Profile} (h : ProfileGood p) (e : Entry) : e.fit p = { e with
    joinCount := if p.joinThreshold ≤ e.joinCount then p.joinThreshold - 1 else e.joinCount
    missCount := if p.lossThreshold ≤ e.missCount then p.lossThreshold - 1 else e.missCount
    countdown := if p.lostProbeInterval < e.countdown then p.lostProbeInterval else e.countdown } := by
  obtain ⟨⟨hjoin, -⟩, ⟨hloss, -⟩, -⟩ := h
  have hcount : ∀ x t, 1 ≤ t → min x (t - 1) = if t ≤ x then t - 1 else x := by
    intro x t ht
    split <;> omega
  have hcountdown : ∀ x t : Nat, min x t = if t < x then t else x := by
    intro x t
    split <;> omega
  rw [Entry.fit, hcount _ _ hjoin, hcount _ _ hloss, hcountdown]

/-- The entries that use a profile are fitted to it, the others stay (R22). -/
theorem entry_setProfile (s : State) (n : Fin 4) (p : Profile) (a : Addr) : (s.setProfile n p).entry a =
    if (s.entry a).descriptor.map Descriptor.profile = some n then (s.entry a).fit p else s.entry a := by
  have hentry : (s.setProfile n p).entry a = (match (s.entry a).descriptor with
      | some d => if d.profile = n then (s.entry a).fit p else s.entry a
      | none => s.entry a) := by
    exact getElem_map_roster s.roster _ _ a
  rw [hentry]
  cases (s.entry a).descriptor with
  | none => rfl
  | some d => exact if_congr (by simp) rfl rfl

theorem profile_setProfile (s : State) (n m : Fin 4) (p : Profile) :
    (s.setProfile n p).profile m = if n = m then p else s.profile m := by
  simp only [State.profile, State.setProfile]
  by_cases h : n = m
  · subst h; simp
  · rw [if_neg h]
    exact Vector.getElem_set_ne n.isLt m.isLt fun hv => h (Fin.ext hv)

theorem exec_setProfile {s u : State} {r : Memory} {rest : List Memory} {st : Status} (h : Ready s .setProfile r rest)
    (hset : (taken s rest).setProfileRequest (operand r 0) (profileOf (operand r 1).toNat (operand r 2).toNat
      (operandWord r 3).toNat (operand r 5).toNat (operand r 6).toNat) = reply (taken u rest) st)
    (ho : u.cond.sweepOwed = false) : exec .setProfile s = answers u r rest st [] :=
  next_runRequest_eq_answers (x := ⟨st, []⟩) h (body := fun r t => t.setProfileRequest (operand r 0)
    (profileOf (operand r 1).toNat (operand r 2).toNat (operandWord r 3).toNat (operand r 5).toNat (operand r 6).toNat)) hset ho

/-- Settles O26: the number and the ranges decide the answer, and `State.setProfile` fits the entries. -/
theorem profileRequests : Obligations.ProfileRequests := by
  intro s r rest
  refine ⟨fun hready => ?set, fun hready => ⟨fun habove => ?readRefused, fun n hn => ?readOk⟩⟩
  case set =>
    intro p good
    have howed : s.cond.sweepOwed = false := sweepOwed_of_ready hready
    refine ⟨fun hbad => ?refused, fun n hn hgood => ?ok⟩
    case refused =>
      refine exec_setProfile hready (setProfileRequest_refused ?_) howed
      exact hbad.imp_right fun hnot => profileOf_of_not_good (p := p) hnot
    case ok =>
      refine ⟨s.setProfile n p, exec_setProfile hready ?_ howed, rfl, (profile_setProfile s n n p).trans (if_pos rfl),
        fun m hm => (profile_setProfile s n m p).trans (if_neg (Ne.symm hm)),
        fun a ha => (entry_setProfile s n p a).trans (if_neg ha),
        fun a ha => (entry_setProfile s n p a).trans ((if_pos ha).trans (fit_eq hgood _))⟩
      · rw [hn, profileOf_of_good (p := p) hgood]
        exact setProfileRequest_octet (taken s rest) n p
  case readRefused =>
    refine next_runRequest_eq_answers (x := ⟨.badOperand, []⟩) hready
      (body := fun r t => atOnce (t.readProfile (operand r 0), t)) ?_ (sweepOwed_of_ready hready)
    simp only [State.readProfile, below_none (show 4 ≤ (operand r 0).toNat from habove)]
    rfl
  case readOk =>
    refine next_runRequest_eq_answers (x := ⟨.ok, profileOctets (s.profile n)⟩) hready
      (body := fun r t => atOnce (t.readProfile (operand r 0), t)) ?_ (sweepOwed_of_ready hready)
    simp only [State.readProfile, hn, below_octet (show 4 ≤ 256 by decide) n.isLt]
    rfl

/-! ## SET ACTION (R75) -/

theorem actionClassOf_none {b : Byte} (h : 2 < b.toNat) : actionClassOf b = none := by
  have h0 : b ≠ 0 := by rintro rfl; simp at h
  have h1 : b ≠ 1 := by rintro rfl; simp at h
  have h2 : b ≠ 2 := by rintro rfl; simp at h
  rw [actionClassOf, if_neg h0, if_neg h1, if_neg h2]

theorem setAction_refused {s : State} {b c d : Byte}
    (h : categoryOf b = none ∨ actionClassOf c = none ∨ flagOf d = none) : s.setAction b c d = reply s .badOperand := by
  unfold State.setAction
  split
  next hb hc hd =>
    rw [hb, hc, hd] at h
    simp at h
  · rfl

theorem setAction_fixed {s : State} {k : Category} (h : k ∈ fixedCategories) (c d : Byte) :
    s.setAction k.code c d = reply s .badOperand := by
  have hfixed : k.configurable = false := by rw [configurable_eq_decide, decide_eq_false (not_not.2 h)]
  unfold State.setAction
  split
  next hb _ _ =>
    rw [categoryOf_code] at hb
    obtain rfl := Option.some.inj hb
    rw [hfixed]
    rfl
  · rfl

theorem setAction_configurable {s : State} {k : Category} (h : k ∉ fixedCategories) (c : ActionClass) (l : Bool) :
    s.setAction k.code c.code (flagCode l) =
      reply { s with cond := { s.cond with actionMap := s.cond.actionMap.set k.index.val ⟨c, l⟩ } } .ok := by
  have hconf : k.configurable = true := by rw [configurable_eq_decide, decide_eq_true h]
  simp only [State.setAction, categoryOf_code, actionClassOf_code, flagOf_code, hconf, if_true]

theorem exec_setAction {s u : State} {r : Memory} {rest : List Memory} {st : Status} (h : Ready s .setAction r rest)
    (hset : (taken s rest).setAction (operand r 0) (operand r 1) (operand r 2) = reply (taken u rest) st)
    (ho : u.cond.sweepOwed = false) : exec .setAction s = answers u r rest st [] :=
  next_runRequest_eq_answers (x := ⟨st, []⟩) h
    (body := fun r t => t.setAction (operand r 0) (operand r 1) (operand r 2)) hset ho

/-- Settles O27: three operands that name their values, and a category that is not fixed. -/
theorem setAction : Obligations.SetAction := by
  intro s r rest hready
  have howed := sweepOwed_of_ready hready
  refine ⟨fun hbad => ?badOperand, fun c hc hcode => ?fixed, fun c k l hc hcode hclass hlatching => ?ok⟩
  case badOperand =>
    refine exec_setAction hready (setAction_refused ?_) howed
    rcases hbad with h | h | h | h
    · exact .inl (categoryOf_none (.inl h))
    · exact .inl (categoryOf_none (.inr h))
    · exact .inr (.inl (actionClassOf_none h))
    · exact .inr (.inr (flagOf_none h))
  case fixed => exact exec_setAction hready (hcode ▸ setAction_fixed hc _ _) howed
  case ok =>
    refine exec_setAction hready ?_ (by exact howed)
    rw [hcode, hclass, hlatching]
    exact setAction_configurable hc k l

/-! ## SET OUTPUT REFRESH (R81) -/

theorem refreshTimerAfter_eq (old : OutputSafety) (limit : Nat) (m : Mode) : refreshTimerAfter old limit m.scans =
    if limit = 0 then none
    else if old.timer.isSome then some limit
    else if old.limit = 0 ∧ (m = .scanning ∨ m = .held) then some limit
    else none := by
  unfold refreshTimerAfter
  simp only [scans_iff]

/-- Settles O29: the limit's range decides, and the timer is that of `refreshTimerAfter`. -/
theorem setOutputRefresh : Obligations.SetOutputRefresh := by
  intro s r rest hready limit
  have howed := sweepOwed_of_ready hready
  have hrange : limit = 0 ∨ within 10 5000 limit = true ↔ limit = 0 ∨ (10 ≤ limit ∧ limit ≤ 5000) := by
    rw [within, decide_eq_true_iff]
  refine ⟨fun hbad => ?badOperand, fun hgood => ?ok⟩
  case badOperand =>
    exact next_runRequest_eq_answers (x := ⟨.badOperand, []⟩) hready
      (body := fun r t => t.setOutputRefresh (operandWord r 0).toNat) (if_neg fun h => by have := hrange.1 h; omega) howed
  case ok =>
    have hset := next_runRequest_eq_answers (x := ⟨.ok, []⟩) hready
      (body := fun r t => t.setOutputRefresh (operandWord r 0).toNat)
      (u := { s with safety := { s.safety with limit := limit, timer := refreshTimerAfter s.safety limit s.mode.scans } })
      (if_pos (hrange.2 hgood)) howed
    rw [refreshTimerAfter_eq] at hset
    exact hset

end Sys2Proof.Proofs
end

section
/-! PROOFS. The line setup (R124, R125). -/

namespace Sys2Proof.Proofs

open Sys2Proof.Machine Sys2Proof.Safety Sys2Proof.Laws

/-! ## The ten settings in octets (Table 7-1) -/

theorem rateOf_code (r : Rate) : rateOf r.code = some r := by cases r <;> rfl

theorem rateOf_none {b : Byte} (h : 2 < b.toNat) : rateOf b = none := by
  have h0 : b ≠ 0 := by rintro rfl; simp at h
  have h1 : b ≠ 1 := by rintro rfl; simp at h
  have h2 : b ≠ 2 := by rintro rfl; simp at h
  rw [rateOf, if_neg h0, if_neg h1, if_neg h2]

/-- The ranges of the settings that are numbers (Table 7-1). -/
def SetupRanges (errorWindow errorLimit withdrawal period : Nat) : Prop :=
  (1 ≤ errorWindow ∧ errorWindow ≤ 60) ∧ 1 ≤ errorLimit ∧ (500 ≤ withdrawal ∧ withdrawal ≤ 8000) ∧ period ≤ 255

theorem within_of_setupRanges {w l d i p : Nat} (hl : l ≤ 255) (hi : i ≤ 255) :
    (within 1 60 w && within 1 255 l && within 500 8000 d && within 1 255 i && within 0 255 p) = true ↔
      SetupRanges w l d p ∧ 1 ≤ i := by
  simp only [within, Bool.and_eq_true, decide_eq_true_eq, SetupRanges]
  omega

theorem toNat_le_255 (b : Byte) : b.toNat ≤ 255 := Nat.le_of_lt_succ b.isLt

/-- Operands outside the ranges of Table 7-1 spell no line setup. -/
theorem lineSetupOf_eq_none {r : Memory}
    (h : 2 < (operand r 0).toNat ∨ 31 < (operand r 1).toNat ∨ 1 < (operand r 2).toNat ∨ 1 < (operand r 3).toNat ∨
      ¬ SetupRanges (operandWord r 4).toNat (operand r 6).toNat (operandWord r 7).toNat (operandWord r 11).toNat ∨
      operand r 9 = 0 ∨ 1 < (operand r 10).toNat) : lineSetupOf r = none := by
  refine Option.eq_none_iff_forall_ne_some.2 fun x hx => ?_
  simp only [lineSetupOf, Option.bind_eq_bind, Option.bind_eq_some_iff] at hx
  obtain ⟨rate, hrate, own, hown, enableA, ha, enableB, hb, discovery, hd, hx⟩ := hx
  split at hx
  next hwithin =>
    obtain ⟨hranges, hinterval⟩ := (within_of_setupRanges (toNat_le_255 _) (toNat_le_255 _)).1 hwithin
    rcases h with h | h | h | h | h | h | h
    · rw [rateOf_none h] at hrate; cases hrate
    · rw [addrOf_none h] at hown; cases hown
    · rw [flagOf_none h] at ha; cases ha
    · rw [flagOf_none h] at hb; cases hb
    · exact h hranges
    · rw [h] at hinterval; exact absurd hinterval (by decide)
    · rw [flagOf_none h] at hd; cases hd
  · cases hx

theorem lineSetupOf_octets {r : Memory} {c : LineSetup} (hrate : operand r 0 = c.rate.code)
    (hown : operand r 1 = octet c.ownAddress.val) (ha : operand r 2 = flagCode c.enableA)
    (hb : operand r 3 = flagCode c.enableB) (hwindow : (operandWord r 4).toNat = c.errorWindow)
    (hlimit : (operand r 6).toNat = c.errorLimit) (hwithdrawal : (operandWord r 7).toNat = c.withdrawalTime)
    (hinterval : (operand r 9).toNat = c.returnInterval) (hd : operand r 10 = flagCode c.discovery)
    (hperiod : (operandWord r 11).toNat = c.cyclePeriod)
    (hranges : SetupRanges c.errorWindow c.errorLimit c.withdrawalTime c.cyclePeriod) (hone : 1 ≤ c.returnInterval) :
    lineSetupOf r = some c := by
  have hwithin := (within_of_setupRanges (hlimit ▸ toNat_le_255 _) (hinterval ▸ toNat_le_255 _)).2 ⟨hranges, hone⟩
  simp only [lineSetupOf, hrate, hown, ha, hb, hwindow, hlimit, hwithdrawal, hinterval, hd, hperiod, rateOf_code,
    addrOf_octet, flagOf_code, Option.bind_eq_bind, Option.bind_some, hwithin, if_true]

/-! ## The settings replaced (R125) -/

/-- The ten settings replaced, with their effects on the profiles, the roster and the lines, before the causes are handed. -/
def setupState (s : State) (c : LineSetup) : State :=
  { s with
    config := { s.config with setup := c }
    profiles := profilesAtRate s.profiles s.config.setup.rate c.rate
    roster := ⟨⟨(List.finRange 32).map (fun a => setupEntry s.config.setup c a (s.entry a))⟩, by simp⟩
    lineA := s.lineA.setEnable s.config.setup.enableA c.enableA
    lineB := s.lineB.setEnable s.config.setup.enableB c.enableB }

theorem applySetup_eq (s : State) (c : LineSetup) :
    s.applySetup c = (setupState s c).handChanges s.standingCauses (setupState s c).standingCauses := rfl

theorem entry_setupState (s : State) (c : LineSetup) (a : Addr) :
    (setupState s c).entry a = setupEntry s.config.setup c a (s.entry a) := by
  simp [State.entry, setupState]

theorem setupEntry_of_presence {o c : LineSetup} {a : Addr} {e : Entry}
    (h : (setupEntry o c a e).presence = .mismatch ∨ (setupEntry o c a e).presence = .extra) : setupEntry o c a e = e := by
  unfold setupEntry at *
  split at h
  · simp at h
  next hnew =>
    rw [if_neg hnew]
    split at h
    · simp [Entry.unconfigured] at h
    next hold =>
      rw [if_neg hold]
      split at h
      · simp at h
      next hextra => rw [if_neg hextra]

/-! ## No cause is refreshed (R51, R56) -/

/-- The causes of a station whose extra data is refreshed while they stand (R56). -/
def refreshedCauses (s : State) (a : Addr) : List Cause :=
  causeIf (decide ((s.entry a).presence = .mismatch)) (.station a) .stationMismatch (reportedExtra (s.entry a).identity) ++
  causeIf (decide ((s.entry a).presence = .extra)) (.station a) .stationExtra (reportedExtra (s.entry a).identity) ++
  (s.supervision a).circuitFaults.map (fun f => { key := circuitFaultKey a f, extra := [f.detail] })

theorem category_of_mem_causeIf {b : Bool} {o : Origin} {k : Category} {extra : List Byte} {x : Cause}
    (h : x ∈ causeIf b o k extra) : x.key.category = k := by
  unfold causeIf at h
  split at h
  · rw [List.mem_singleton.1 h]
    rfl
  · cases h

/-- A standing cause that is refreshed is one of `refreshedCauses`, and these all stand. -/
theorem mem_standingCauses_refreshed {s : State} {x : Cause} (hr : x.key.category.refreshed = true) :
    x ∈ s.standingCauses ↔ ∃ a, x ∈ refreshedCauses s a := by
  have hnot : ∀ {b o k extra}, Category.refreshed k = false → x ∉ causeIf b o k extra := fun hk hx => by
    rw [category_of_mem_causeIf hx, hk] at hr
    cases hr
  have hpart : x ∉ s.causesOfPart := by
    simp only [State.causesOfPart, List.mem_append, not_or]
    exact ⟨⟨hnot rfl, hnot rfl⟩, hnot rfl⟩
  have hline : ∀ l, x ∉ s.causesOfLine l := fun l => hnot rfl
  have hstation : ∀ a, x ∈ s.causesOfStation a ↔ x ∈ refreshedCauses s a := by
    intro a
    have hfault : x ∉ (s.supervision a).stationFaults.map (fun f =>
        ({ key := { origin := .station a, circuit := none, category := .stationFault, code := f }, extra := [] } : Cause)) := by
      intro hx
      obtain ⟨f, -, rfl⟩ := List.mem_map.1 hx
      cases hr
    simp only [State.causesOfStation, stationCauses, refreshedCauses, circuitFaultKey, List.mem_append, hfault,
      hnot (k := .stationLost) rfl, hnot (k := .addressConflict) rfl, hnot (k := .alternateLine) rfl,
      hnot (k := .forced) rfl, false_or, or_false]
  simp only [State.standingCauses, List.mem_append, hpart, hline, false_or, List.mem_flatMap, hstation]
  simp [allAddrs]

theorem refreshesOf_setupState (s : State) (c : LineSetup) :
    refreshesOf s.standingCauses (setupState s c).standingCauses = [] := by
  unfold refreshesOf
  rw [List.filter_eq_nil_iff]
  intro x hx
  simp only [Bool.and_eq_true, decide_eq_true_eq, not_and, not_not]
  rintro ⟨hr, -⟩
  obtain ⟨a, ha⟩ := (mem_standingCauses_refreshed hr).1 hx
  refine (mem_standingCauses_refreshed hr).2 ⟨a, ?_⟩
  have hsame : ∀ p : Presence, p = .mismatch ∨ p = .extra → ((setupState s c).entry a).presence = p →
      (setupState s c).entry a = s.entry a := by
    intro p hp hpresence
    rw [entry_setupState] at hpresence ⊢
    exact setupEntry_of_presence (by rcases hp with rfl | rfl <;> simp [hpresence])
  simp only [refreshedCauses, List.mem_append] at ha ⊢
  rcases ha with (ha | ha) | ha
  · unfold causeIf at ha
    split at ha
    next hp =>
      rw [hsame _ (.inl rfl) (of_decide_eq_true hp)] at ha hp
      exact .inl (.inl (by rw [causeIf, if_pos hp]; exact ha))
    · cases ha
  · unfold causeIf at ha
    split at ha
    next hp =>
      rw [hsame _ (.inr rfl) (of_decide_eq_true hp)] at ha hp
      exact .inl (.inr (by rw [causeIf, if_pos hp]; exact ha))
    · cases ha
  · exact .inr ha

theorem hasKey_eq_decide (cs : List Cause) (k : Key) : hasKey cs k = decide (k ∈ cs.map Cause.key) := by
  rw [Bool.eq_iff_iff, decide_eq_true_iff, hasKey, List.any_eq_true, List.mem_map]
  simp only [decide_eq_true_eq]

/-- A difference of causes without refreshes is handed as its ends and its beginnings (R51). -/
theorem handChanges_eq_handed (s : State) {before after : List Cause} (h : refreshesOf before after = []) :
    s.handChanges before after = handed s
      ((before.map Cause.key).filter (fun k => decide (k ∉ after.map Cause.key)))
      (after.filter (fun x => decide (x.key ∉ before.map Cause.key))) [] := by
  have hends : (before.filter (fun c => !hasKey after c.key)).map Cause.key =
      (before.map Cause.key).filter (fun k => decide (k ∉ after.map Cause.key)) := by
    rw [List.filter_map]
    refine congrArg (List.map Cause.key) (List.filter_congr fun c _ => ?_)
    simp only [hasKey_eq_decide, Function.comp, decide_not]
  have hbegins : after.filter (fun c => !hasKey before c.key) =
      after.filter (fun x => decide (x.key ∉ before.map Cause.key)) :=
    List.filter_congr fun c _ => by simp only [hasKey_eq_decide, decide_not]
  simp only [State.handChanges, h, hends, hbegins]
  rfl

/-! ## SET LINE SETUP (R124, R125) -/

/-- An own address that changes to an address in use, in the roster or in an open copy (R124). -/
def SetupInUse (s : State) (c : LineSetup) : Prop :=
  c.ownAddress ≠ s.ownAddress ∧ ((s.entry c.ownAddress).descriptor.isSome = true ∨
    ∃ g, s.config.staging = .opened g ∧ (copyAt g c.ownAddress).isSome = true)

/-- The configured stations are served by the enabled lines of the new setup (R124). -/
def SetupServes (s : State) (c : LineSetup) : Prop :=
  ∀ a d, (s.entry a).descriptor = some d → c.serves d.attachment = true

theorem staging_holds_iff (g : Staging) (a : Addr) :
    g.holds a = true ↔ ∃ c, g = .opened c ∧ (copyAt c a).isSome = true := by
  cases g <;> simp [Staging.holds]

theorem setupInUse_iff (s : State) (c : LineSetup) : SetupInUse s c ↔ (c.ownAddress ≠ s.ownAddress ∧
    ((s.entry c.ownAddress).configured || s.config.staging.holds c.ownAddress) = true) := by
  rw [Bool.or_eq_true, staging_holds_iff]
  rfl

theorem setup_unserved_iff (s : State) (c : LineSetup) : (allAddrs.any (fun a => match (s.entry a).descriptor with
      | none => false
      | some d => !c.serves d.attachment)) = true ↔ ¬ SetupServes s c := by
  simp only [allAddrs, List.any_eq_true, List.mem_finRange, true_and, SetupServes, not_forall]
  refine exists_congr fun a => ?_
  cases (s.entry a).descriptor <;> simp

theorem setLineSetup_scanning {s : State} (h : s.mode.scans = true) (c : Option LineSetup) :
    s.setLineSetup c = reply s .wrongMode := if_pos h

theorem setLineSetup_stopped {s : State} (h : s.mode.scans = false) (c : Option LineSetup) :
    s.setLineSetup c = match c with
    | none => reply s .badOperand
    | some n =>
      if n.ownAddress ≠ s.ownAddress ∧
          ((s.entry n.ownAddress).configured || s.config.staging.holds n.ownAddress) = true then reply s .addressInUse
      else if allAddrs.any (fun a => match (s.entry a).descriptor with
          | none => false
          | some d => !n.serves d.attachment) then reply s .badOperand
      else (some ⟨.ok, []⟩, s.applySetup n) :=
  if_neg (by rw [h]; decide)

theorem setLineSetup_none {s : State} (h : s.mode.scans = false) : s.setLineSetup none = reply s .badOperand :=
  setLineSetup_stopped h none

theorem setLineSetup_inUse {s : State} {c : LineSetup} (h : s.mode.scans = false) (huse : SetupInUse s c) :
    s.setLineSetup (some c) = reply s .addressInUse :=
  (setLineSetup_stopped h _).trans (if_pos ((setupInUse_iff s c).1 huse))

theorem setLineSetup_unserved {s : State} {c : LineSetup} (h : s.mode.scans = false) (huse : ¬ SetupInUse s c)
    (hserves : ¬ SetupServes s c) : s.setLineSetup (some c) = reply s .badOperand :=
  (setLineSetup_stopped h _).trans ((if_neg (mt (setupInUse_iff s c).2 huse)).trans
    (if_pos ((setup_unserved_iff s c).2 hserves)))

theorem setLineSetup_ok {s : State} {c : LineSetup} (h : s.mode.scans = false) (huse : ¬ SetupInUse s c)
    (hserves : SetupServes s c) : s.setLineSetup (some c) = (some ⟨.ok, []⟩, s.applySetup c) :=
  (setLineSetup_stopped h _).trans ((if_neg (mt (setupInUse_iff s c).2 huse)).trans
    (if_neg fun hnot => (setup_unserved_iff s c).1 hnot hserves))

/-! ## What the new settings leave of profiles, lines and entries (R21, R16, R40, R127) -/

theorem profile_setupState (s : State) (c : LineSetup) (p : Fin 4) : (setupState s c).profile p =
    if c.rate = s.config.setup.rate then s.profile p
    else { s.profile p with replyWindow := c.rate.defaultWindow } := by
  simp only [State.profile, setupState, profilesAtRate]
  by_cases h : s.config.setup.rate = c.rate
  · simp only [h, if_true]
  · simp [h, Ne.symm h]

theorem setEnable_eq (e : LineEngine) (old new : Bool) : e.setEnable old new =
    if new = old then e
    else { e with
      state := if new then .quiet else .disabled
      errorCount := 0, errorWindow := none, withdrawal := none, figures := none
      receiving := new && e.receiving } := by
  cases old <;> cases new <;> rfl

theorem line_setupState (s : State) (c : LineSetup) (l : LineId) : (setupState s c).line l =
    if c.enabled l = s.config.setup.enabled l then s.line l
    else { s.line l with
      state := if c.enabled l then .quiet else .disabled
      errorCount := 0, errorWindow := none, withdrawal := none, figures := none
      receiving := c.enabled l && (s.line l).receiving } := by
  cases l
  · exact setEnable_eq s.lineA s.config.setup.enableA c.enableA
  · exact setEnable_eq s.lineB s.config.setup.enableB c.enableB

theorem entry_setupState_new {s : State} {c : LineSetup} (h : c.ownAddress ≠ s.ownAddress) :
    (setupState s c).entry c.ownAddress = { presence := .own } :=
  (entry_setupState s c _).trans (if_pos ⟨Ne.symm h, rfl⟩)

theorem entry_setupState_old {s : State} {c : LineSetup} (h : c.ownAddress ≠ s.ownAddress) :
    (setupState s c).entry s.ownAddress = {} :=
  (entry_setupState s c _).trans ((if_neg fun hnew => h hnew.2.symm).trans (if_pos ⟨Ne.symm h, rfl⟩))

theorem entry_setupState_other {s : State} {c : LineSetup} {a : Addr}
    (h : c.ownAddress = s.ownAddress ∨ (a ≠ c.ownAddress ∧ a ≠ s.ownAddress)) : (setupState s c).entry a =
      if s.config.setup.discovery = true ∧ c.discovery = false ∧ (s.entry a).presence = .extra
      then { s.entry a with presence := .absent, identity := none } else s.entry a := by
  have hnew : ¬ (s.config.setup.ownAddress ≠ c.ownAddress ∧ a = c.ownAddress) := fun hx =>
    h.elim (fun he => hx.1 he.symm) (fun hne => hne.1 hx.2)
  have hold : ¬ (s.config.setup.ownAddress ≠ c.ownAddress ∧ a = s.config.setup.ownAddress) := fun hx =>
    h.elim (fun he => hx.1 he.symm) (fun hne => hne.2 hx.2)
  rw [entry_setupState, setupEntry, if_neg hnew, if_neg hold]
  exact if_congr (by simp [and_assoc]) rfl rfl

/-- Settles O30: the checks in the order of R124, then `setupState`, from which no cause is refreshed. -/
theorem lineSetupRequests : Obligations.LineSetupRequests := by
  intro s r rest
  refine ⟨fun hready => ?set, fun hready => next_runRequest_eq_answers (x := ⟨.ok, lineSetupOctets s.config.setup⟩) hready
    (body := fun _ t => reply t .ok (lineSetupOctets t.config.setup)) rfl (sweepOwed_of_ready hready)⟩
  have howed := sweepOwed_of_ready hready
  have hrefused : ∀ st, (taken s rest).setLineSetup (lineSetupOf r) = reply (taken s rest) st →
      exec .setLineSetup s = answers s r rest st [] := fun st hst =>
    next_runRequest_eq_answers (x := ⟨st, []⟩) hready (body := fun r t => t.setLineSetup (lineSetupOf r)) hst howed
  refine ⟨fun hscans => hrefused _ (setLineSetup_scanning (s := taken s rest) hscans _), ?_⟩
  intro ranges
  refine ⟨fun hstopped hbad => hrefused _ ?badOperand, ?_⟩
  case badOperand =>
    rw [lineSetupOf_eq_none hbad]
    exact setLineSetup_none hstopped
  intro c hstopped hrate hown ha hb hwindow hlimit hwithdrawal hinterval hd hperiod hranges hone inUse served
  have hc : lineSetupOf r = some c :=
    lineSetupOf_octets hrate hown ha hb hwindow hlimit hwithdrawal hinterval hd hperiod hranges hone
  rw [hc] at hrefused
  refine ⟨fun huse => hrefused _ (setLineSetup_inUse hstopped huse),
    fun huse hserves => hrefused _ (setLineSetup_unserved hstopped huse hserves),
    fun huse hserves => ⟨setupState s c, ?_⟩⟩
  intro key ends begins
  refine ⟨congrArg Host.Outcome.next ?row, rfl, profile_setupState s c, line_setupState s c,
    fun h => ⟨entry_setupState_new h, entry_setupState_old h⟩, fun a h => entry_setupState_other h⟩
  rw [run_ready hready, hc, setLineSetup_ok (s := taken s rest) hstopped huse hserves, applySetup_eq]
  exact congrArg (fun t : State => (posted t r .ok []).endGroup)
    (handChanges_eq_handed (taken (setupState s c) rest) (refreshesOf_setupState s c))

end Sys2Proof.Proofs
end

section
/-! PROOFS. The session requests: SET SERVICE PERMIT (R169, R170), READ SESSION and END SESSION (R180). -/

namespace Sys2Proof.Proofs

open Sys2Proof.Machine Sys2Proof.Safety Sys2Proof.Laws

/-! ## A request answered at once that may hand changes -/

/-- A ready record answered at once: its response is posted before the group's sweep (R65, R184). -/
theorem runRequest_eq_posted {s v : State} {k : RequestKind} {r : Memory} {rest : List Memory} (h : Ready s k r rest)
    {body : Memory → State → Option Answer × State} {x : Answer} (hb : body r (taken s rest) = (some x, v)) :
    s.runRequest k body = (posted v r x.status x.result).endGroup := by
  rw [run_ready h, hb]
  rfl

theorem endGroup_eq (t : State) : t.endGroup = { t with cond := t.endGroup.cond, mode := t.endGroup.mode } :=
  (condOnly_endGroup t).1

theorem getLast?_posted (t : State) (r : Memory) (st : Status) (result : List Byte) :
    ((posted t r st result).endGroup.port.responses.getLast?.map (fun p => (p.status, p.result))) = some (st, result) := by
  rw [endGroup_eq]
  simp [posted]

theorem overrideKeys_of_tablesKept {s : State} (h : TablesKept s) : (s.overrides.map overrideKey).Nodup := by
  obtain ⟨-, -, -, -, hkeys, -⟩ := h
  exact hkeys

/-! ## Bulk removals and the end of the session, in the words of the statements (R97, R104, R177) -/

theorem withoutOverrides_eq (s : State) (p : OverrideRecord → Bool) : withoutOverrides s p =
    { s with
      overrides := s.overrides.filter (fun q => !p q)
      cond := (withoutOverrides s p).cond
      mode := (withoutOverrides s p).mode } := (withoutOverrides_condOnly s p).1

theorem session_withoutOverrides (s : State) (p : OverrideRecord → Bool) : (withoutOverrides s p).session = s.session := by
  rw [withoutOverrides_eq]

theorem dropSessionOverrides_eq {s : State} (h : (s.overrides.map overrideKey).Nodup) :
    s.dropSessionOverrides = withoutOverrides s (fun q => decide (q.owner = .session)) := dropOverrides_eq s _ h

theorem overrides_dropSessionOverrides {s : State} (h : (s.overrides.map overrideKey).Nodup) :
    s.dropSessionOverrides.overrides = s.overrides.filter (fun q => decide (q.owner ≠ .session)) := by
  rw [dropSessionOverrides_eq h, withoutOverrides_eq]
  exact List.filter_congr fun q _ => by simp

/-- What the end of an open session leaves in the session unit, the override table and the roster (R177). -/
structure SessionLeft (s t : State) (o : OpenSession) (reason : EndReason) : Prop where
  session : t.session = { s.session with current := none, lastEnd := reason }
  overrides : t.overrides = s.overrides.filter (fun q => decide (q.owner ≠ .session))
  roster : t.roster = s.roster.set o.tool.val { s.entry o.tool with presence := .absent, identity := none }
  port : t.port = s.port

theorem sessionLeft_endSession {s : State} {o : OpenSession} (reason : EndReason)
    (hn : (s.overrides.map overrideKey).Nodup) (h : s.session.current = some o) :
    SessionLeft s (s.endSession reason) o reason := by
  obtain ⟨hsession, hroster, hoverrides⟩ := endSession_some (reason := reason) h
  exact ⟨hsession, hoverrides.trans (overrides_dropSessionOverrides hn), hroster,
    by rw [(sessionOnly_endSession s reason).1]⟩

section
variable {s t : State} {o : OpenSession} {reason : EndReason}

theorem SessionLeft.entry_tool (h : SessionLeft s t o reason) :
    t.entry o.tool = { s.entry o.tool with presence := .absent, identity := none } := by
  simp [State.entry, h.roster]

theorem SessionLeft.entry_other (h : SessionLeft s t o reason) {a : Addr} (ha : a ≠ o.tool) : t.entry a = s.entry a := by
  simp only [State.entry, h.roster]
  exact Vector.getElem_set_ne o.tool.isLt a.isLt fun hv => ha (Fin.ext hv.symm)

end

/-! ## SET SERVICE PERMIT (R169, R170) -/

/-- The three settings of SET SERVICE PERMIT replaced (R169). -/
def withPermit (s : State) (sessions overrides : Bool) (time : Nat) : State :=
  { s with session := { s.session with permitSessions := sessions, permitOverrides := overrides, sessionTime := time } }

theorem setServicePermit_refused {s : State} {b c : Byte} {time : Nat}
    (h : 1 < b.toNat ∨ 1 < c.toNat ∨ time < 250 ∨ 16000 < time) :
    s.setServicePermit b c time = (⟨.badOperand, []⟩, s) := by
  unfold State.setServicePermit
  split
  next hb hc =>
    refine if_neg fun hwithin => ?_
    have htime := of_decide_eq_true hwithin
    rcases h with h | h | h | h
    · rw [flagOf_none h] at hb; cases hb
    · rw [flagOf_none h] at hc; cases hc
    · omega
    · omega
  · rfl

theorem setServicePermit_codes {s : State} {sessions overrides : Bool} {time : Nat} (h : 250 ≤ time ∧ time ≤ 16000) :
    s.setServicePermit (flagCode sessions) (flagCode overrides) time = s.permit sessions overrides time := by
  simp only [State.setServicePermit, flagOf_code, within, decide_eq_true h, if_true]

theorem permit_ends {s : State} {sessions overrides : Bool} (time : Nat)
    (h : s.session.permitSessions = true ∧ sessions = false ∧ s.session.current.isSome = true) :
    s.permit sessions overrides time =
      (⟨.ok, [1, octet s.sessionShare]⟩, withPermit (s.endSession .locked) sessions overrides time) := by
  obtain ⟨hpermit, rfl, hcurrent⟩ := h
  exact if_pos (by rw [hpermit, hcurrent]; rfl)

theorem permit_drops {s : State} {sessions overrides : Bool} (time : Nat)
    (hends : ¬ (s.session.permitSessions = true ∧ sessions = false ∧ s.session.current.isSome = true))
    (h : s.session.permitOverrides = true ∧ overrides = false) : s.permit sessions overrides time =
      (⟨.ok, [0, octet s.sessionShare]⟩, withPermit s.dropSessionOverrides sessions overrides time) :=
  (if_neg (by simpa [and_assoc] using hends)).trans (if_pos (by simpa using h))

theorem permit_keeps {s : State} {sessions overrides : Bool} (time : Nat)
    (hends : ¬ (s.session.permitSessions = true ∧ sessions = false ∧ s.session.current.isSome = true))
    (h : ¬ (s.session.permitOverrides = true ∧ overrides = false)) :
    s.permit sessions overrides time = (⟨.ok, [0, 0]⟩, withPermit s sessions overrides time) :=
  (if_neg (by simpa [and_assoc] using hends)).trans (if_neg (by simpa using h))

/-- What the row of a ready SET SERVICE PERMIT leaves, from what the setting answers. -/
theorem exec_setServicePermit {s v : State} {r : Memory} {rest : List Memory} {x : Answer}
    (h : Ready s .setServicePermit r rest)
    (hset : (taken s rest).setServicePermit (operand r 0) (operand r 1) (operandWord r 2).toNat = (x, v)) :
    exec .setServicePermit s = .next (posted v r x.status x.result).endGroup :=
  congrArg Host.Outcome.next (runRequest_eq_posted h
    (body := fun r t => atOnce (t.setServicePermit (operand r 0) (operand r 1) (operandWord r 2).toNat))
    (congrArg atOnce hset))

theorem posted_endGroup {t : State} (h : t.cond.sweepOwed = false) (r : Memory) (st : Status) (result : List Byte) :
    (posted t r st result).endGroup = posted t r st result := endGroup_of_not_owed h

/-- Settles O31: `State.permit` ends the session, or drops its overrides, or only replaces the settings. -/
theorem setServicePermit : Obligations.SetServicePermit := by
  intro s r rest hready time
  have howed := sweepOwed_of_ready hready
  refine ⟨fun hbad => ?badOperand, fun sessions overrides hsessions hoverrides hlow hhigh => ?_⟩
  case badOperand =>
    exact (exec_setServicePermit hready (setServicePermit_refused (s := taken s rest) hbad)).trans
      (congrArg Host.Outcome.next (posted_endGroup (t := taken s rest) howed _ _ _))
  have hexec : ∀ {x v}, (taken s rest).permit sessions overrides time = (x, v) →
      exec .setServicePermit s = .next (posted v r x.status x.result).endGroup := fun hpermit => by
    refine exec_setServicePermit hready (Eq.trans ?_ hpermit)
    rw [hsessions, hoverrides]
    exact setServicePermit_codes ⟨hlow, hhigh⟩
  intro ends drops
  refine ⟨fun hends hdrops => ?keeps, fun hends hdrops hkept => ?drops, fun o ho hservice hends hkept => ?session,
    fun hends hkept => ?left⟩
  case keeps =>
    rw [hexec (permit_keeps (s := taken s rest) time hends hdrops), posted_endGroup (by exact howed)]
    rfl
  case drops =>
    rw [hexec (permit_drops (s := taken s rest) time hends hdrops), withPermit,
      dropSessionOverrides_eq (s := taken s rest) (overrideKeys_of_tablesKept (s := s) hkept), session_withoutOverrides]
    rfl
  case session =>
    rw [hexec (permit_ends (s := taken s rest) time hends), withPermit,
      endSession_eq (s := taken s rest) .locked (overrideKeys_of_tablesKept (s := s) hkept) ho hservice]
    rfl
  case left =>
    obtain ⟨o, ho⟩ := Option.isSome_iff_exists.1 hends.2.2
    have hleft := sessionLeft_endSession (s := taken s rest) .locked (overrideKeys_of_tablesKept (s := s) hkept) ho
    refine ⟨_, hexec (permit_ends (s := taken s rest) time hends), ?_⟩
    generalize (taken s rest).endSession .locked = t at hleft
    refine ⟨?_, ?_, fun q hq => ?_, getLast?_posted _ _ _ _⟩
    · rw [endGroup_eq]
      simp only [posted, withPermit, hleft.session]
    · rw [endGroup_eq]
      exact hleft.overrides
    · obtain rfl := Option.some.inj (ho.symm.trans hq)
      rw [endGroup_eq]
      exact ⟨congrArg Entry.presence hleft.entry_tool, congrArg Entry.identity hleft.entry_tool⟩

/-! ## READ SESSION (R179) -/

/-- What READ SESSION returns whether a session is open or not: its last end, the settings and the share (R179). -/
def sessionSettings (s : State) : List Byte :=
  [s.session.lastEnd.code, flagCode s.session.permitSessions, flagCode s.session.permitOverrides] ++
    numberOctets s.session.sessionTime ++ [octet s.sessionShare]

/-- The fields of an open session with some time left (R179). -/
def sessionFields (o : OpenSession) (left : Nat) : List Byte :=
  [1, 1, octet o.tool.val, 1, lineCode (some o.line), 1] ++ wordOctets o.toolTag ++ [1] ++ scanOctets o.openedAt ++
    (1 :: numberOctets left) ++ optionalOctets 1 (o.lastNumber.map (fun n => [n])) ++ [resultStateCode o.result]

theorem readSession_closed {s : State} (h : s.session.current = none) :
    s.readSession = (⟨.ok, List.replicate 19 0 ++ sessionSettings s⟩, s) := by
  unfold State.readSession
  rw [h]
  rfl

theorem readSession_open {s : State} {o : OpenSession} (h : s.session.current = some o) :
    s.readSession = (⟨.ok, sessionFields o (s.timeLeft o.timer) ++ sessionSettings s⟩, s.drawn) := by
  unfold State.readSession sessionFields
  rw [h]
  simp only [Option.bind_some]
  cases o.lastNumber <;> rfl

theorem timeLeft_le (s : State) (n : Nat) : s.timeLeft n ≤ n := Nat.le_of_lt_succ (Nat.mod_lt _ n.succ_pos)

/-! ## END SESSION (R180) -/

theorem endSessionRequest_closed {s : State} (h : s.session.current = none) :
    s.endSessionRequest = reply s .notFound := by
  simp only [State.endSessionRequest, h]

theorem endSessionRequest_open {s : State} {o : OpenSession} (h : s.session.current = some o) :
    s.endSessionRequest =
      reply (s.endSession .endedByController) .ok [octet o.tool.val, octet s.sessionShare] := by
  simp only [State.endSessionRequest, h]

theorem exec_endSession {s v : State} {r : Memory} {rest : List Memory} {x : Answer} (h : Ready s .endSession r rest)
    (hend : (taken s rest).endSessionRequest = (some x, v)) :
    exec .endSession s = .next (posted v r x.status x.result).endGroup :=
  congrArg Host.Outcome.next (runRequest_eq_posted h (body := fun _ t => t.endSessionRequest) hend)

/-- Settles O36: the session's fields are those of `sessionFields`, and END SESSION is `State.endSession`. -/
theorem sessionRequests : Obligations.SessionRequests := by
  intro s r rest
  refine ⟨fun hready => ?read, fun hready => ⟨fun hnone => ?notFound,
    fun o ho hkept hservice => ?ended, fun o ho hkept => ?left⟩⟩
  case read =>
    intro tail
    refine ⟨fun hnone => ?_, fun o ho => ?_⟩
    · exact next_runRequest_eq_answers hready (body := fun _ t => atOnce t.readSession)
        (congrArg atOnce (readSession_closed (s := taken s rest) hnone)) (sweepOwed_of_ready hready)
    · refine ⟨1 :: numberOctets (s.timeLeft o.timer), ⟨_, timeLeft_le s o.timer, rfl⟩, ?_⟩
      refine (next_runRequest_eq_answers (u := s.drawn) hready (body := fun _ t => atOnce t.readSession)
        (congrArg atOnce (readSession_open (s := taken s rest) ho)) (sweepOwed_of_ready hready)).trans ?_
      refine congrArg (answers s.drawn r rest .ok) ?_
      unfold sessionFields resultStateCode
      cases o.lastNumber <;> cases o.result <;> rfl
  case notFound =>
    exact next_runRequest_eq_answers hready (body := fun _ t => t.endSessionRequest)
      (endSessionRequest_closed (s := taken s rest) hnone) (sweepOwed_of_ready hready)
  case ended =>
    rw [exec_endSession hready (endSessionRequest_open (s := taken s rest) ho),
      endSession_eq (s := taken s rest) _ (overrideKeys_of_tablesKept (s := s) hkept) ho hservice]
    rfl
  case left =>
    have hleft := sessionLeft_endSession (s := taken s rest) .endedByController
      (overrideKeys_of_tablesKept (s := s) hkept) ho
    refine ⟨_, exec_endSession hready (endSessionRequest_open (s := taken s rest) ho), ?_⟩
    generalize (taken s rest).endSession .endedByController = t at hleft
    refine ⟨?_, ?_, ?_, ?_, fun a ha => ?_, ?_, getLast?_posted _ _ _ _⟩ <;> rw [endGroup_eq]
    · exact hleft.session
    · exact hleft.overrides
    · exact congrArg Entry.presence hleft.entry_tool
    · exact congrArg Entry.identity hleft.entry_tool
    · exact hleft.entry_other ha
    · exact congrArg Port.requests hleft.port

end Sys2Proof.Proofs
end

section
/-! PROOFS. Reading the roster, the lines and the tables: READ ENTRY (R19), READ LINE STATE (R138), READ CONDITION (R69) and
READ OVERRIDE (R99). -/

namespace Sys2Proof.Proofs

open Sys2Proof.Machine Sys2Proof.Safety Sys2Proof.Laws

/-! ## A request that only reads -/

/-- What the row of a ready read answers when the reading changes nothing. -/
theorem next_read_eq_answers {s : State} {k : RequestKind} {r : Memory} {rest : List Memory} (h : Ready s k r rest)
    {read : Memory → State → Answer} {st : Status} {result : List Byte} (hread : read r (taken s rest) = ⟨st, result⟩) :
    Host.Outcome.next (s.runRequest k (fun r t => atOnce (read r t, t))) = answers s r rest st result :=
  next_runRequest_eq_answers (x := ⟨st, result⟩) h (body := fun r t => atOnce (read r t, t))
    (congrArg (fun x => atOnce (x, taken s rest)) hread) (sweepOwed_of_ready h)

/-! ## Timers and lines -/

theorem readTimer_fst (s : State) (t : Timer) : TimerField t (s.readTimer t).1 := by
  cases t with
  | none => rfl
  | some n => exact ⟨s.timeLeft n, timeLeft_le s n, rfl⟩

theorem readTimer_snd (s : State) (t : Timer) :
    (s.readTimer t).2 = { s with freeReads := s.freeReads + running [t] } := by cases t <;> rfl

theorem readTimer_twice (s : State) (t u : Timer) :
    ((s.readTimer t).2.readTimer u).2 = { s with freeReads := s.freeReads + running [t, u] } := by
  cases t <;> cases u <;> rfl

theorem lineOf_none {b : Byte} (h : b = 0 ∨ 2 < b.toNat) : lineOf b = none := by
  have h1 : b ≠ 1 := by rintro rfl; simp at h
  have h2 : b ≠ 2 := by rintro rfl; simp at h
  rw [lineOf, if_neg h1, if_neg h2]

/-- What READ LINE STATE returns between the two timers and the end of its fields (R138). -/
def lineFields (e : LineEngine) (window back : List Byte) : List Byte :=
  [e.state.code, octet e.errorCount] ++ window ++ back ++
    optionalOctets 2 (e.figures.map (fun f => [octet f.1, f.2.code])) ++
    optionalOctets 1 (e.lastError.map (fun c => [c.code])) ++
    numberOctets e.totals.badCheck ++ numberOctets e.totals.aborted ++ numberOctets e.totals.malformed ++
    numberOctets e.totals.unsolicited ++ numberOctets e.totals.withdrawals

theorem readLineState_refused {s : State} {b : Byte} (h : b = 0 ∨ 2 < b.toNat) :
    s.readLineState b = (⟨.badOperand, []⟩, s) := by
  simp only [State.readLineState, lineOf_none h]

theorem readLineState_line (s : State) (l : LineId) : s.readLineState (lineCode (some l)) =
    (⟨.ok, lineFields (s.line l) (s.readTimer (s.line l).errorWindow).1
      ((s.readTimer (s.line l).errorWindow).2.readTimer (s.line l).withdrawal).1⟩,
    { s with freeReads := s.freeReads + running [(s.line l).errorWindow, (s.line l).withdrawal] }) := by
  simp only [State.readLineState, lineOf_code, readTimer_twice, lineFields]

/-! ## The roster's entries -/

theorem readEntry_refused {s : State} {b : Byte} (h : 31 < b.toNat) : s.readEntry b = ⟨.badOperand, []⟩ := by
  simp only [State.readEntry, addrOf_none h]

theorem readEntry_octet (s : State) (a : Addr) : s.readEntry (octet a.val) = ⟨.ok, s.entryOctets a⟩ := by
  simp only [State.readEntry, addrOf_octet]

theorem transactionOf_eq_find (s : State) (a : Addr) : s.transactionOf a =
    (List.finRange 4).find? (fun i => (s.slot i).any (fun u => decide (u.station = a))) := by
  have hsame : (fun i => match s.slot i with
      | some t => decide (t.station = a)
      | none => false) = fun i => (s.slot i).any (fun u => decide (u.station = a)) := by
    funext i
    cases s.slot i <;> rfl
  exact congrArg (List.find? · allSlots) hsame

theorem dataValid_eq_decide (e : Entry) : e.dataValid = decide (e.presence = .present ∨ e.presence = .silent) := by
  rw [Bool.eq_iff_iff, dataValid_iff, decide_eq_true_iff]

/-- Settles O32: every field of the entry and of the line in the order of Table 1-1 and of R138. -/
theorem entryAndLineReads : Obligations.EntryAndLineReads := by
  intro s r rest
  refine ⟨fun hready => ⟨fun habove => ?entryRefused, fun a ha => ?entry⟩,
    fun hready => ⟨fun hbad => ?lineRefused, fun l hl => ?line⟩⟩
  case entryRefused =>
    exact next_read_eq_answers hready (read := fun r t => t.readEntry (operand r 0))
      (readEntry_refused (s := taken s rest) habove)
  case entry =>
    intro e field
    have hfield : ∀ n x, field n x = optionalOctets n x := fun n x => by cases x <;> rfl
    simp only [hfield, ← transactionOf_eq_find, ← dataValid_eq_decide]
    exact next_read_eq_answers hready (read := fun r t => t.readEntry (operand r 0))
      ((congrArg _ ha).trans (readEntry_octet (taken s rest) a))
  case lineRefused =>
    exact next_runRequest_eq_answers hready (body := fun r t => atOnce (t.readLineState (operand r 0)))
      (congrArg atOnce (readLineState_refused (s := taken s rest) hbad)) (sweepOwed_of_ready hready)
  case line =>
    intro e
    refine ⟨_, _, readTimer_fst (taken s rest) e.errorWindow,
      readTimer_fst ((taken s rest).readTimer e.errorWindow).2 e.withdrawal, ?_⟩
    refine (next_runRequest_eq_answers hready (body := fun r t => atOnce (t.readLineState (operand r 0)))
      (u := { s with freeReads := s.freeReads + running [e.errorWindow, e.withdrawal] })
      (congrArg atOnce ((congrArg _ hl).trans (readLineState_line (taken s rest) l))) (sweepOwed_of_ready hready)).trans ?_
    refine congrArg (answers _ r rest .ok) ?_
    change lineFields e _ _ = _
    unfold lineFields
    cases e.figures <;> cases e.lastError <;> rfl

/-! ## The records of the tables by position (R69, R99) -/

theorem readCondition_above {s : State} {b : Byte} (h : 63 < b.toNat) : s.readCondition b = ⟨.badOperand, []⟩ := if_pos h

theorem readCondition_notHeld {s : State} {b : Byte} (h : b.toNat ≤ 63) (hlength : s.cond.records.length ≤ b.toNat) :
    s.readCondition b = ⟨.notFound, []⟩ := by
  rw [State.readCondition, if_neg (Nat.not_lt.2 h), List.getElem?_eq_none hlength]

theorem readCondition_held {s : State} {b : Byte} {q : ConditionRecord} (h : b.toNat ≤ 63)
    (hq : s.cond.records[b.toNat]? = some q) :
    s.readCondition b = ⟨.ok, recordFields q ++ [octet s.cond.records.length]⟩ := by
  simp only [State.readCondition, if_neg (Nat.not_lt.2 h), hq, recordFields_eq]

theorem readOverride_above {s : State} {b : Byte} (h : 47 < b.toNat) : s.readOverride b = ⟨.badOperand, []⟩ := if_pos h

theorem readOverride_notHeld {s : State} {b : Byte} (h : b.toNat ≤ 47) (hlength : s.overrides.length ≤ b.toNat) :
    s.readOverride b = ⟨.notFound, []⟩ := by
  rw [State.readOverride, if_neg (Nat.not_lt.2 h), List.getElem?_eq_none hlength]

theorem readOverride_held {s : State} {b : Byte} {q : OverrideRecord} (h : b.toNat ≤ 47)
    (hq : s.overrides[b.toNat]? = some q) : s.readOverride b =
      ⟨.ok, overrideRecordOctets q ++ [octet s.overrides.length, octet s.sessionShare]⟩ := by
  simp only [State.readOverride, if_neg (Nat.not_lt.2 h), hq]

/-- Settles O33: the position's bound, then whether a record stands there. -/
theorem positionReads : Obligations.PositionReads := by
  intro s r rest n
  refine ⟨fun hready => ?condition, fun hready => ?override⟩
  case condition =>
    have hexec : ∀ {x : Answer}, (taken s rest).readCondition (operand r 0) = x →
        exec .readCondition s = answers s r rest x.status x.result := fun hread =>
      next_read_eq_answers hready (read := fun r t => t.readCondition (operand r 0)) hread
    exact ⟨fun h => hexec (readCondition_above h), fun h hlength => hexec (readCondition_notHeld h (by exact hlength)),
      fun q h hq => hexec (readCondition_held h (by exact hq))⟩
  case override =>
    have hexec : ∀ {x : Answer}, (taken s rest).readOverride (operand r 0) = x →
        exec .readOverride s = answers s r rest x.status x.result := fun hread =>
      next_read_eq_answers hready (read := fun r t => t.readOverride (operand r 0)) hread
    refine ⟨fun h => hexec (readOverride_above h), fun h hlength => hexec (readOverride_notHeld h (by exact hlength)),
      fun q h hq => ?_⟩
    exact hexec (readOverride_held h (by exact hq))

end Sys2Proof.Proofs
end

section
/-! PROOFS. Acknowledgement: ACK CONDITION (R60) and ACK ALL (R61). -/

namespace Sys2Proof.Proofs

open Sys2Proof.Machine Sys2Proof.Safety Sys2Proof.Laws

/-! ## One record acknowledged (R60) -/

/-- A standing record as its acknowledgement leaves it at a scan number (R60). -/
def ackedAt (n : ScanNumber) (q : ConditionRecord) : ConditionRecord := { q with state := .standingAcked, changedAt := n }

theorem ackRecord_standing {s : State} {q : ConditionRecord} (h : q.state = .standing) :
    s.ackRecord q = { s with cond := { s.cond with
      records := s.cond.records.map (fun p => if p.slot = q.slot then ackedAt s.scan.number p else p) } } := by
  unfold State.ackRecord
  rw [h]
  rfl

theorem ackRecord_standingAcked {s : State} {q : ConditionRecord} (h : q.state = .standingAcked) : s.ackRecord q = s := by
  unfold State.ackRecord
  rw [h]

theorem ackRecord_ended {s : State} (hslots : SlotsDistinct s) {q : ConditionRecord} (h : q.state = .ended) :
    s.ackRecord q = { s with cond := { s.cond with
      records := s.cond.records.filter (fun p => decide (p.slot ≠ q.slot))
      generations := s.cond.generations.set q.slot.val (s.cond.generations[q.slot.val] + 1)
      sweepOwed := true } } := by
  unfold State.ackRecord
  rw [h]
  simp only [State.removeRecord, eraseP_slot hslots, decide_not]

theorem ackCondition_above {s : State} {b c : Byte} (h : 63 < b.toNat) : s.ackCondition b c = reply s .badOperand := by
  simp only [State.ackCondition, below_none (show 64 ≤ b.toNat from h)]

theorem ackCondition_stale {s : State} {i : Fin 64} {g : Byte} (h : s.recordOfReference i g = none) :
    s.ackCondition (octet i.val) g = reply s .stale := by
  simp only [State.ackCondition, below_octet (show 64 ≤ 256 by decide) i.isLt, h]

theorem ackCondition_record {s : State} {i : Fin 64} {g : Byte} {q : ConditionRecord} (h : s.recordOfReference i g = some q) :
    s.ackCondition (octet i.val) g = reply (s.ackRecord q) .ok [if q.state = .ended then 3 else 1] := by
  simp only [State.ackCondition, below_octet (show 64 ≤ 256 by decide) i.isLt, h]

theorem exec_ackCondition {s v : State} {r : Memory} {rest : List Memory} {x : Answer} (h : Ready s .ackCondition r rest)
    (hack : (taken s rest).ackCondition (operand r 0) (operand r 1) = (some x, v)) :
    exec .ackCondition s = .next (posted v r x.status x.result).endGroup :=
  congrArg Host.Outcome.next (runRequest_eq_posted h
    (body := fun r t => t.ackCondition (operand r 0) (operand r 1)) hack)

/-! ## Every record acknowledged (R61) -/

/-- What is left of a list of records once each is acknowledged at a scan number (R61). -/
def ackedRecords (n : ScanNumber) (rs : List ConditionRecord) : List ConditionRecord :=
  (rs.filter (fun q => decide (q.state ≠ .ended))).map (fun q => if q.state = .standing then ackedAt n q else q)

/-- What the acknowledgement of the records `rest` leaves of `s`, whose records are these behind `done`. -/
structure AckedFrom (done rest : List ConditionRecord) (s t : State) : Prop where
  outside : t = { s with cond := t.cond }
  records : t.cond.records = done ++ ackedRecords s.scan.number rest
  generations : ∀ i : Fin 64, t.cond.generations[i.val] =
    if ∃ q ∈ rest, q.slot = i ∧ q.state = .ended then s.cond.generations[i.val] + 1 else s.cond.generations[i.val]
  actionMap : t.cond.actionMap = s.cond.actionMap
  overflowCount : t.cond.overflowCount = s.cond.overflowCount
  sweepOwed : t.cond.sweepOwed = (s.cond.sweepOwed || decide (∃ q ∈ rest, q.state = .ended))

/-- The slots of a list with a record in the middle: the others have another slot. -/
theorem slot_ne_of_nodup {done rest : List ConditionRecord} {q : ConditionRecord}
    (h : ((done ++ q :: rest).map ConditionRecord.slot).Nodup) :
    (∀ p ∈ done, p.slot ≠ q.slot) ∧ ∀ p ∈ rest, p.slot ≠ q.slot := by
  rw [List.map_append, List.map_cons] at h
  obtain ⟨-, hrest, hdisjoint⟩ := List.nodup_append.1 h
  exact ⟨fun p hp => hdisjoint _ (List.mem_map_of_mem hp) _ List.mem_cons_self,
    fun p hp e => (List.nodup_cons.1 hrest).1 (e ▸ List.mem_map_of_mem hp)⟩

theorem map_slot_middle {done rest : List ConditionRecord} {q : ConditionRecord}
    (h : ((done ++ q :: rest).map ConditionRecord.slot).Nodup) (f : ConditionRecord → ConditionRecord) :
    (done ++ q :: rest).map (fun p => if p.slot = q.slot then f p else p) = done ++ f q :: rest := by
  obtain ⟨hdone, hrest⟩ := slot_ne_of_nodup h
  have hsame : ∀ l : List ConditionRecord, (∀ p ∈ l, p.slot ≠ q.slot) →
      l.map (fun p => if p.slot = q.slot then f p else p) = l := fun l hl =>
    (List.map_congr_left fun p hp => if_neg (hl p hp)).trans (List.map_id' l)
  rw [List.map_append, List.map_cons, hsame done hdone, hsame rest hrest, if_pos rfl]

theorem filter_slot_middle {done rest : List ConditionRecord} {q : ConditionRecord}
    (h : ((done ++ q :: rest).map ConditionRecord.slot).Nodup) :
    (done ++ q :: rest).filter (fun p => decide (p.slot ≠ q.slot)) = done ++ rest := by
  obtain ⟨hdone, hrest⟩ := slot_ne_of_nodup h
  have hsame : ∀ l : List ConditionRecord, (∀ p ∈ l, p.slot ≠ q.slot) →
      l.filter (fun p => decide (p.slot ≠ q.slot)) = l := fun l hl =>
    List.filter_eq_self.2 fun p hp => decide_eq_true (hl p hp)
  rw [List.filter_append, List.filter_cons, hsame done hdone, hsame rest hrest]
  simp

theorem ackedFrom_nil {done : List ConditionRecord} {s : State} (h : s.cond.records = done) : AckedFrom done [] s s where
  outside := rfl
  records := by rw [h]; exact (List.append_nil _).symm
  generations i := (if_neg (by simp)).symm
  actionMap := rfl
  overflowCount := rfl
  sweepOwed := by simp

theorem ackedFrom_foldl (rest : List ConditionRecord) : ∀ (done : List ConditionRecord) (s : State), SlotsDistinct s →
    s.cond.records = done ++ rest → AckedFrom done rest s (rest.foldl State.ackRecord s) := by
  induction rest with
  | nil => exact fun done s _ h => ackedFrom_nil (h.trans (List.append_nil done))
  | cons q rest ih =>
    intro done s hslots hrecords
    rw [List.foldl_cons]
    have hn : ((done ++ q :: rest).map ConditionRecord.slot).Nodup := hrecords ▸ hslots
    cases hstate : q.state with
    | standing =>
      have hsame : (ackedAt s.scan.number q).slot = q.slot := rfl
      have ht := ih (done ++ [ackedAt s.scan.number q]) (s.ackRecord q) ?slots ?split
      case split =>
        rw [ackRecord_standing hstate]
        exact ((congrArg _ hrecords).trans (map_slot_middle hn _)).trans (List.append_cons _ _ _)
      case slots =>
        rw [ackRecord_standing hstate]
        exact (congrArg (fun l => (l.map ConditionRecord.slot).Nodup)
          ((congrArg _ hrecords).trans (map_slot_middle hn (ackedAt s.scan.number)))).mpr (by simpa [hsame] using hn)
      rw [ackRecord_standing hstate] at ht ⊢
      exact {
        outside := ht.outside
        records := ht.records.trans (by simp [ackedRecords, hstate])
        generations := fun i => (ht.generations i).trans (if_congr (by simp [hstate]) rfl rfl)
        actionMap := ht.actionMap
        overflowCount := ht.overflowCount
        sweepOwed := ht.sweepOwed.trans (by simp [hstate]) }
    | standingAcked =>
      rw [ackRecord_standingAcked hstate]
      have ht := ih (done ++ [q]) s hslots (hrecords.trans (List.append_cons _ _ _))
      exact {
        outside := ht.outside
        records := ht.records.trans (by simp [ackedRecords, hstate])
        generations := fun i => (ht.generations i).trans (if_congr (by simp [hstate]) rfl rfl)
        actionMap := ht.actionMap
        overflowCount := ht.overflowCount
        sweepOwed := ht.sweepOwed.trans (by simp [hstate]) }
    | ended =>
      have hleft : (s.ackRecord q).cond.records = done ++ rest := by
        rw [ackRecord_ended hslots hstate]
        exact (congrArg _ hrecords).trans (filter_slot_middle hn)
      have ht := ih done (s.ackRecord q) (by
        refine (congrArg (fun l => (l.map ConditionRecord.slot).Nodup) hleft).mpr (hn.sublist ?_)
        exact ((List.sublist_cons_self q rest).append_left done).map _) hleft
      rw [ackRecord_ended hslots hstate] at ht ⊢
      obtain ⟨-, hrest⟩ := slot_ne_of_nodup hn
      exact {
        outside := ht.outside
        records := ht.records.trans (by simp [ackedRecords, hstate])
        generations := fun i => by
          have hi := ht.generations i
          by_cases hq : q.slot = i
          · subst hq
            rw [if_neg fun ⟨p, hp, hpslot, _⟩ => hrest p hp hpslot] at hi
            rw [hi, if_pos ⟨q, List.mem_cons_self, rfl, hstate⟩]
            exact Vector.getElem_set_self q.slot.isLt
          · rw [Vector.getElem_set_ne q.slot.isLt i.isLt fun hv => hq (Fin.ext hv)] at hi
            exact hi.trans (if_congr (by simp [hq]) rfl rfl)
        actionMap := ht.actionMap
        overflowCount := ht.overflowCount
        sweepOwed := ht.sweepOwed.trans (by simp [hstate]) }

theorem slotsDistinct_of_tablesKept {s : State} (h : TablesKept s) : SlotsDistinct s := by
  obtain ⟨-, -, hslots, -⟩ := h
  exact hslots

/-- Settles O37: one record is acknowledged by its state, and ACK ALL folds that over the table. -/
theorem acknowledgement : Obligations.Acknowledgement := by
  intro s r rest hkept
  have hslots := slotsDistinct_of_tablesKept hkept
  refine ⟨fun hready => ⟨fun habove => ?above, fun i hi => ⟨fun hstale => ?stale, fun q hq hqi hqg => ?record⟩⟩,
    fun hready => ?all⟩
  case above =>
    exact next_runRequest_eq_answers hready (body := fun r t => t.ackCondition (operand r 0) (operand r 1))
      (ackCondition_above (s := taken s rest) habove) (sweepOwed_of_ready hready)
  case stale =>
    exact next_runRequest_eq_answers hready (body := fun r t => t.ackCondition (operand r 0) (operand r 1))
      ((congrArg (fun b => State.ackCondition _ b _) hi).trans (ackCondition_stale (s := taken s rest) (recordOf_none hstale)))
      (sweepOwed_of_ready hready)
  case record =>
    have howed := sweepOwed_of_ready hready
    have hack : (taken s rest).ackCondition (operand r 0) (operand r 1) =
        reply ((taken s rest).ackRecord q) .ok [if q.state = .ended then 3 else 1] :=
      (congrArg (fun b => State.ackCondition _ b _) hi).trans
        (ackCondition_record (s := taken s rest) (recordOf_some hslots hq hqi hqg))
    refine ⟨fun hstate => ?_, fun hstate => ?_, fun hstate => ?_⟩
    · rw [ackRecord_standing hstate, hstate, hqi] at hack
      exact (exec_ackCondition hready hack).trans (congrArg Host.Outcome.next (posted_endGroup (by exact howed) _ _ _))
    · rw [ackRecord_standingAcked hstate, hstate] at hack
      exact (exec_ackCondition hready hack).trans
        (congrArg Host.Outcome.next (posted_endGroup (t := taken s rest) howed _ _ _))
    · rw [ackRecord_ended (s := taken s rest) hslots hstate, hstate] at hack
      subst hqi
      exact exec_ackCondition hready hack
  case all =>
    have ht := ackedFrom_foldl (taken s rest).cond.records [] (taken s rest) hslots rfl
    have hall : (taken s rest).ackAll = reply
        { (taken s rest).cond.records.foldl State.ackRecord (taken s rest) with cond :=
          { ((taken s rest).cond.records.foldl State.ackRecord (taken s rest)).cond with overflowFlag := false } } .ok
        [octet (s.recordsIn .standing), octet (s.recordsIn .ended)] := rfl
    generalize (taken s rest).cond.records.foldl State.ackRecord (taken s rest) = t at ht hall
    refine ⟨{ t.cond with overflowFlag := false }, ht.records, ht.generations, ht.actionMap, rfl, ht.overflowCount,
      ht.sweepOwed.trans (congrArg (fun b => b || _) (sweepOwed_of_ready hready)), ?_⟩
    refine congrArg Host.Outcome.next ((runRequest_eq_posted hready (body := fun _ t => t.ackAll) hall).trans ?_)
    rw [ht.outside]
    rfl

end Sys2Proof.Proofs
end

section
/-! PROOFS. A cause that begins (R52 to R55). -/

namespace Sys2Proof.Proofs

open Sys2Proof.Machine Sys2Proof.Safety Sys2Proof.Laws

/-! ## What a begun cause finds -/

theorem findRecord_eq_none {s : State} {k : Key} (h : ∀ q ∈ s.cond.records, q.key ≠ k) : s.findRecord k = none :=
  List.find?_eq_none.2 fun q hq => by simpa using h q hq

theorem keysDistinct_of_tablesKept {s : State} (h : TablesKept s) : (s.cond.records.map ConditionRecord.key).Nodup := by
  obtain ⟨-, hkeys, -⟩ := h
  exact hkeys

theorem beginCause_found {s : State} {c : Cause} {q : ConditionRecord} (h : s.findRecord c.key = some q) :
    s.beginCause c = s.restand q c := by
  simp only [State.beginCause, h]

theorem beginCause_room {s : State} {c : Cause} (h : s.findRecord c.key = none) (hroom : s.cond.records.length < 64) :
    s.beginCause c = s.createRecord c := by
  simp only [State.beginCause, h, if_pos hroom]

theorem beginCause_full {s : State} {c : Cause} (h : s.findRecord c.key = none) (hfull : s.cond.records.length = 64) :
    s.beginCause c = s.beginFull c := by
  simp only [State.beginCause, h, hfull, lt_irrefl, if_false]

theorem restand_standing {s : State} {c : Cause} {q : ConditionRecord} (h : q.state ≠ .ended) : s.restand q c = s := by
  unfold State.restand
  split
  next he => exact absurd he h
  · rfl

/-- A record re-stood by a cause at a scan number (R52). -/
def restoodAt (n : ScanNumber) (c : Cause) (q : ConditionRecord) : ConditionRecord :=
  { q with state := .standing, occurrences := min 255 (q.occurrences + 1), changedAt := n, extra := c.extra }

/-- The mode after the notice of a record of a class (R68). -/
def noticedMode (cls : ActionClass) (m : Mode) : Mode := if cls = .fatal ∧ m = .scanning then .held else m

theorem noticeOf_eq (s : State) (cls : ActionClass) : s.noticeOf cls = { s with mode := noticedMode cls s.mode } := by
  unfold State.noticeOf State.fatalNotice noticedMode
  by_cases hcls : cls = .fatal
  · by_cases hmode : s.mode = .scanning
    · rw [if_pos hcls, if_pos hmode, if_pos ⟨hcls, hmode⟩]
    · rw [if_pos hcls, if_neg hmode, if_neg fun h => hmode h.2]
  · rw [if_neg hcls, if_neg fun h => hcls h.1]

theorem restand_ended {s : State} {c : Cause} {q : ConditionRecord} (h : q.state = .ended) :
    s.restand q c = { s with
      cond := { s.cond with records := s.cond.records.map (fun p =>
        if p.slot = q.slot then restoodAt s.scan.number c p else p) }
      mode := noticedMode q.cls s.mode } := by
  unfold State.restand
  rw [h]
  exact noticeOf_eq _ _

/-! ## The record a cause is entered in (R49, R53) -/

/-- The record that a cause is entered in, in a slot with a generation, at a scan number (R49). -/
def enteredRecord (s : State) (i : Fin 64) (g : Byte) (c : Cause) : ConditionRecord :=
  { slot := i, generation := g, key := c.key, cls := (s.action c.key.category).cls
    latching := (s.action c.key.category).latching, state := .standing, occurrences := 1
    raisedAt := s.scan.number, changedAt := s.scan.number, extra := c.extra }

theorem createRecord_slot {s : State} {i : Fin 64} (h : freeSlot s.cond.records = some i) (c : Cause) :
    s.createRecord c = { s with
      cond := { s.cond with records := s.cond.records ++ [enteredRecord s i s.cond.generations[i.val] c] }
      mode := noticedMode (s.action c.key.category).cls s.mode } := by
  simp only [State.createRecord, h, noticeOf_eq]
  rfl

/-! ## A full table (R54, R55) -/

theorem beginFull_not_fatal {s : State} {c : Cause} (h : (s.action c.key.category).cls ≠ .fatal) :
    s.beginFull c = s.countOverflow := by
  unfold State.beginFull
  split
  next he => exact absurd he h
  · rfl

theorem beginFull_noVictim {s : State} {c : Cause} (h : (s.action c.key.category).cls = .fatal) (hv : s.victim = none) :
    s.beginFull c = s.countOverflow := by
  simp only [State.beginFull, h, hv]

theorem beginFull_victim {s : State} {c : Cause} {v : ConditionRecord} (h : (s.action c.key.category).cls = .fatal)
    (hv : s.victim = some v) : s.beginFull c = ((s.removeRecord v).countOverflow).createRecord c := by
  simp only [State.beginFull, h, hv]

theorem victim_none {s : State} (h : ∀ q ∈ s.cond.records, q.cls = .fatal) : s.victim = none := by
  have hother : ∀ k : ActionClass, k ≠ .fatal → s.cond.records.find? (fun r => decide (r.cls = k)) = none := fun k hk =>
    List.find?_eq_none.2 fun q hq => by simpa using (h q hq).symm ▸ hk.symm
  rw [State.victim, hother .informational ActionClass.noConfusion, hother .diagnostic ActionClass.noConfusion]
  rfl

theorem exists_slot_of_full {rs : List ConditionRecord} (hslots : (rs.map ConditionRecord.slot).Nodup)
    (hfull : rs.length = 64) (i : Fin 64) : ∃ q ∈ rs, q.slot = i := by
  have huniv : (rs.map ConditionRecord.slot).toFinset = Finset.univ := by
    rw [← Finset.card_eq_iff_eq_univ, List.toFinset_card_of_nodup hslots, List.length_map, hfull, Fintype.card_fin]
  have hmem : i ∈ rs.map ConditionRecord.slot := List.mem_toFinset.1 (huniv ▸ Finset.mem_univ i)
  exact List.mem_map.1 hmem

/-- In a full table without one of its records, the free slot is that record's (R55). -/
theorem freeSlot_without {rs : List ConditionRecord} (hslots : (rs.map ConditionRecord.slot).Nodup)
    (hfull : rs.length = 64) {v : ConditionRecord} (hv : v ∈ rs) :
    freeSlot (rs.filter (fun q => decide (q.slot ≠ v.slot))) = some v.slot := by
  have hlength : (rs.filter (fun q => decide (q.slot ≠ v.slot))).length < 64 := by
    exact (List.length_filter_lt_length_iff_exists.2 ⟨v, hv, by simp⟩).trans_eq hfull
  obtain ⟨i, hi, hfree, -⟩ := freeSlot_spec _ hlength
  obtain ⟨q, hq, rfl⟩ := exists_slot_of_full hslots hfull i
  have hsame : q.slot = v.slot := by
    by_contra hne
    exact hfree q (List.mem_filter.2 ⟨hq, decide_eq_true hne⟩) rfl
  rw [hi, hsame]

/-- The cause that evicts a record of a full table takes its slot (R55). -/
theorem evict_eq {s : State} (hslots : SlotsDistinct s) (hfull : s.cond.records.length = 64) {c : Cause}
    (hcls : (s.action c.key.category).cls = .fatal) {v : ConditionRecord} (hv : v ∈ s.cond.records) :
    ((s.removeRecord v).countOverflow).createRecord c = { s with
      cond := { s.cond with
        records := s.cond.records.filter (fun q => decide (q.slot ≠ v.slot)) ++
          [enteredRecord s v.slot (s.cond.generations[v.slot.val] + 1) c]
        generations := s.cond.generations.set v.slot.val (s.cond.generations[v.slot.val] + 1)
        overflowCount := min 65535 (s.cond.overflowCount + 1), overflowFlag := true, sweepOwed := true }
      mode := if s.mode = .scanning then .held else s.mode } := by
  have hrecords : ((s.removeRecord v).countOverflow).cond.records =
      s.cond.records.filter (fun q => decide (q.slot ≠ v.slot)) := by
    rw [countOverflow_cond, removeRecord_cond]
    exact (eraseP_slot hslots v.slot).trans (List.filter_congr fun q _ => by rw [decide_not])
  rw [createRecord_slot (i := v.slot) (by rw [hrecords]; exact freeSlot_without hslots hfull hv), hrecords]
  have hgeneration : ((s.removeRecord v).countOverflow).cond.generations[v.slot.val] =
      s.cond.generations[v.slot.val] + 1 := Vector.getElem_set_self v.slot.isLt
  have haction : ((s.removeRecord v).countOverflow).action c.key.category = s.action c.key.category := rfl
  have hmode : noticedMode .fatal s.mode = if s.mode = .scanning then .held else s.mode :=
    if_congr (and_iff_right rfl) rfl rfl
  rw [hgeneration, haction, hcls]
  show ({ s with cond := _, mode := noticedMode .fatal s.mode } : State) = _
  rw [hmode]
  rfl

/-- Settles O39: the search for the record, then the room, then the class and the record to evict decide. -/
theorem causeBegins : Obligations.CauseBegins := by
  intro s c hkept
  have hkeys := keysDistinct_of_tablesKept hkept
  have hslots := slotsDistinct_of_tablesKept hkept
  refine ⟨condOnly_beginCause s c, fun q hq hkey hstate => ?standing, fun q hq hkey hstate => ?restood,
    fun hnone => ⟨fun hroom => ?room, fun hfull hcls => ?counted, fun hfull hcls hall => ?noVictim,
      fun v hfull hcls hv => ?evicts⟩⟩
  case standing =>
    exact (beginCause_found (findRecord_of_mem hkeys hq hkey)).trans (restand_standing hstate)
  case restood =>
    rw [beginCause_found (findRecord_of_mem hkeys hq hkey), restand_ended hstate]
    exact ⟨rfl, rfl⟩
  case room =>
    obtain ⟨i, hi, hfree, hlowest⟩ := freeSlot_spec s.cond.records hroom
    refine ⟨i, hfree, hlowest, ?_⟩
    rw [beginCause_room (findRecord_eq_none hnone) hroom, createRecord_slot hi]
    exact ⟨rfl, rfl⟩
  case counted =>
    exact (beginCause_full (findRecord_eq_none hnone) hfull).trans (beginFull_not_fatal hcls)
  case noVictim =>
    exact (beginCause_full (findRecord_eq_none hnone) hfull).trans (beginFull_noVictim hcls (victim_none hall))
  case evicts =>
    rw [beginCause_full (findRecord_eq_none hnone) hfull, beginFull_victim hcls hv,
      evict_eq hslots hfull hcls (victim_mem hv), enteredRecord, hcls]
    exact ⟨rfl, rfl⟩

end Sys2Proof.Proofs
end

section
/-! PROOFS. A cause that ends or is refreshed (R56, R57), the sweep (R65, R66) and the standing causes (Table 3-4). -/

namespace Sys2Proof.Proofs

open Sys2Proof.Machine Sys2Proof.Safety Sys2Proof.Laws

/-! ## The end and the refresh of a cause (R56, R57) -/

/-- What a retired record leaves: its slot's generation advanced and the sweep owed (R58). -/
theorem removeRecord_eq_slot {s : State} (hslots : SlotsDistinct s) (q : ConditionRecord) :
    s.removeRecord q = { s with cond := { s.cond with
      records := s.cond.records.filter (fun p => decide (p.slot ≠ q.slot))
      generations := s.cond.generations.set q.slot.val (s.cond.generations[q.slot.val] + 1)
      sweepOwed := true } } := by
  simp only [State.removeRecord, eraseP_slot hslots, decide_not]

section
variable {s : State} {k : Key} {q : ConditionRecord}

theorem finishCause_notFound (h : s.findRecord k = none) : s.finishCause k = s := by
  simp only [State.finishCause, h]

theorem finishCause_ended (h : s.findRecord k = some q) (hstate : q.state = .ended) : s.finishCause k = s := by
  simp only [State.finishCause, h, hstate]

theorem finishCause_latched (h : s.findRecord k = some q) (hstate : q.state = .standing) (hlatching : q.latching = true) :
    s.finishCause k = s.changeRecord q.slot (fun p => { p with state := .ended, changedAt := s.scan.number }) := by
  simp only [State.finishCause, h, hstate, hlatching, if_true]

theorem finishCause_retired (h : s.findRecord k = some q)
    (hstate : q.state = .standingAcked ∨ (q.state = .standing ∧ q.latching = false)) :
    s.finishCause k = s.removeRecord q := by
  rcases hstate with hstate | ⟨hstate, hlatching⟩
  · simp only [State.finishCause, h, hstate]
  · simp only [State.finishCause, h, hstate, hlatching, Bool.false_eq_true, if_false]

end

theorem refreshCause_notFound {s : State} {c : Cause} (h : s.findRecord c.key = none) : s.refreshCause c = s := by
  simp only [State.refreshCause, h]

theorem refreshCause_found {s : State} {c : Cause} {q : ConditionRecord} (h : s.findRecord c.key = some q) :
    s.refreshCause c = s.changeRecord q.slot (fun p => { p with extra := c.extra, changedAt := s.scan.number }) := by
  simp only [State.refreshCause, h]

/-! ## The sweep over a list of causes (R66) -/

/-- Some record of a list has a key. -/
def HasRecord (rs : List ConditionRecord) (k : Key) : Prop := ∃ q ∈ rs, q.key = k

/-- A record that a sweep of `s` enters: newly stood, in a slot and with a key that no record of `s` has (R66). -/
def FreshlyEntered (s : State) (q : ConditionRecord) : Prop :=
  q.state = .standing ∧ q.occurrences = 1 ∧ q.raisedAt = s.scan.number ∧
    q.changedAt = s.scan.number ∧ q.generation = s.cond.generations[q.slot.val] ∧
    q.cls = (s.action q.key.category).cls ∧ q.latching = (s.action q.key.category).latching ∧
    ∀ p ∈ s.cond.records, p.slot ≠ q.slot ∧ p.key ≠ q.key

/-- The mode after some records are entered (R68). -/
def enteredMode (entered : List ConditionRecord) (m : Mode) : Mode :=
  if (∃ q ∈ entered, q.cls = .fatal) ∧ m = .scanning then .held else m

/-- `t` is what a sweep of `s` over the causes `cs` leaves, the records `entered` behind those of `s` (R66). -/
structure Swept (s : State) (cs : List Cause) (entered : List ConditionRecord) (t : State) : Prop where
  state : t = { s with
    cond := { s.cond with records := s.cond.records ++ entered }
    mode := enteredMode entered s.mode }
  bound : (s.cond.records ++ entered).length ≤ 64
  fresh : ∀ q ∈ entered, FreshlyEntered s q
  order : (entered.map (fun q => ({ key := q.key, extra := q.extra } : Cause))).Sublist cs
  complete : (s.cond.records ++ entered).length = 64 ∨ ∀ c ∈ cs, HasRecord (s.cond.records ++ entered) c.key
  first : ∀ earlier c later, cs = earlier ++ c :: later → (∀ b ∈ earlier, b.key ≠ c.key) → HasRecord entered c.key →
    ∀ b ∈ earlier, HasRecord (s.cond.records ++ entered) b.key

theorem HasRecord.append {rs : List ConditionRecord} {k : Key} (h : HasRecord rs k) (es : List ConditionRecord) :
    HasRecord (rs ++ es) k := by
  obtain ⟨q, hq, hk⟩ := h
  exact ⟨q, List.mem_append_left _ hq, hk⟩

theorem enteredMode_nil (m : Mode) : enteredMode [] m = m := if_neg (by simp)

theorem noticedMode_enteredMode (entered : List ConditionRecord) (q : ConditionRecord) (m : Mode) :
    noticedMode q.cls (enteredMode entered m) = enteredMode (entered ++ [q]) m := by
  unfold noticedMode enteredMode
  by_cases hm : m = .scanning
  · subst hm
    by_cases he : ∃ q ∈ entered, q.cls = .fatal
    · obtain ⟨p, hp, hfatal⟩ := he
      rw [if_pos (And.intro ⟨p, hp, hfatal⟩ rfl), if_neg (by simp),
        if_pos (And.intro ⟨p, List.mem_append_left _ hp, hfatal⟩ rfl)]
    · have hnone : ¬ ((∃ q ∈ entered, q.cls = .fatal) ∧ Mode.scanning = .scanning) := fun h => he h.1
      rw [if_neg hnone]
      refine if_congr (and_congr_left fun _ => ⟨fun h => ⟨q, by simp, h⟩, ?_⟩) rfl rfl
      rintro ⟨p, hp, hfatal⟩
      rcases List.mem_append.1 hp with hp | hp
      · exact absurd ⟨p, hp, hfatal⟩ he
      · rwa [List.mem_singleton.1 hp] at hfatal
  · simp only [hm, and_false, if_false]

theorem swept_nil {s : State} (h : s.cond.records.length ≤ 64) : Swept s [] [] s where
  state := by rw [enteredMode_nil, List.append_nil]
  bound := by rwa [List.append_nil]
  fresh := by simp
  order := .slnil
  complete := .inr (by simp)
  first := by simp

/-- A list ended by one more, cut at an element: the cut is before the last, or at it. -/
theorem concat_eq_split {cs earlier later : List Cause} {c d : Cause} (h : cs ++ [d] = earlier ++ c :: later) :
    (earlier = cs ∧ c = d) ∨ ∃ l, cs = earlier ++ c :: l := by
  rcases List.eq_nil_or_concat later with rfl | ⟨l, x, rfl⟩
  · obtain ⟨rfl, hlast⟩ := List.append_inj' h rfl
    exact .inl ⟨rfl, (List.cons.inj hlast).1.symm⟩
  · rw [List.concat_eq_append, ← List.cons_append, ← List.append_assoc] at h
    exact .inr ⟨l, (List.append_inj' h rfl).1⟩

/-- A cause that is not entered, the table being full or the cause having a record, leaves the sweep as it is. -/
theorem Swept.skip {s t : State} {cs : List Cause} {entered : List ConditionRecord} (h : Swept s cs entered t) {d : Cause}
    (hd : (s.cond.records ++ entered).length = 64 ∨ HasRecord (s.cond.records ++ entered) d.key) :
    Swept s (cs ++ [d]) entered t where
  state := h.state
  bound := h.bound
  fresh := h.fresh
  order := h.order.trans (List.sublist_append_left cs [d])
  complete := by
    rcases hd with hfull | hrecord
    · exact .inl hfull
    · refine h.complete.imp_right fun hall c hc => ?_
      rcases List.mem_append.1 hc with hc | hc
      · exact hall c hc
      · rwa [List.mem_singleton.1 hc]
  first := by
    intro earlier c later hsplit hnew hentered
    rcases concat_eq_split hsplit with ⟨rfl, rfl⟩ | ⟨l, hl⟩
    · obtain ⟨q, hq, hk⟩ := hentered
      have hmem := h.order.subset (List.mem_map_of_mem hq)
      exact absurd hk (hnew _ hmem)
    · exact h.first earlier c l hl hnew hentered

/-- A cause without a record is entered while there is room (R66). -/
theorem Swept.enter {s t : State} {cs : List Cause} {entered : List ConditionRecord} (h : Swept s cs entered t) {d : Cause}
    {i : Fin 64} (hroom : (s.cond.records ++ entered).length < 64) (hi : ∀ q ∈ s.cond.records ++ entered, q.slot ≠ i)
    (hd : ¬ HasRecord (s.cond.records ++ entered) d.key) :
    Swept s (cs ++ [d]) (entered ++ [enteredRecord s i s.cond.generations[i.val] d])
      { s with
        cond := { s.cond with
          records := s.cond.records ++ (entered ++ [enteredRecord s i s.cond.generations[i.val] d]) }
        mode := enteredMode (entered ++ [enteredRecord s i s.cond.generations[i.val] d]) s.mode } := by
  have hall : ∀ c ∈ cs, HasRecord (s.cond.records ++ entered) c.key := h.complete.resolve_left hroom.ne
  have hkeep : ∀ {c}, c ∈ cs → HasRecord (s.cond.records ++ (entered ++
      [enteredRecord s i s.cond.generations[i.val] d])) c.key := fun hc => by
    rw [← List.append_assoc]
    exact (hall _ hc).append _
  exact {
    state := rfl
    bound := by
      simp only [List.length_append, List.length_cons, List.length_nil] at hroom ⊢
      omega
    fresh := fun q hq => by
      rcases List.mem_append.1 hq with hq | hq
      · exact h.fresh q hq
      · rw [List.mem_singleton.1 hq]
        exact ⟨rfl, rfl, rfl, rfl, rfl, rfl, rfl, fun p hp =>
          ⟨hi p (List.mem_append_left _ hp), fun hk => hd ⟨p, List.mem_append_left _ hp, hk⟩⟩⟩
    order := by
      rw [List.map_append]
      exact h.order.append (List.Sublist.refl [d])
    complete := .inr fun c hc => by
      rcases List.mem_append.1 hc with hc | hc
      · exact hkeep hc
      · rw [List.mem_singleton.1 hc]
        exact ⟨enteredRecord s i s.cond.generations[i.val] d, by simp, rfl⟩
    first := fun earlier c later hsplit _ _ b hb => by
      rcases concat_eq_split hsplit with ⟨rfl, -⟩ | ⟨l, rfl⟩
      · exact hkeep hb
      · exact hkeep (List.mem_append_left _ hb) }

theorem isNone_findRecord_iff (s : State) (k : Key) : (s.findRecord k).isNone = true ↔ ¬ HasRecord s.cond.records k := by
  simp [State.findRecord, HasRecord]

theorem exists_swept_step {s t : State} {cs : List Cause} {entered : List ConditionRecord} (h : Swept s cs entered t)
    (d : Cause) : ∃ entered', Swept s (cs ++ [d]) entered' (t.sweepOne d) := by
  have hrecords : t.cond.records = s.cond.records ++ entered := by rw [h.state]
  unfold State.sweepOne
  split
  next hc =>
    obtain ⟨hroom, hnone⟩ := hc
    rw [hrecords] at hroom
    rw [isNone_findRecord_iff, hrecords] at hnone
    obtain ⟨i, hi, hfree, -⟩ := freeSlot_spec _ hroom
    have hentered := h.enter hroom hfree hnone
    rw [createRecord_slot (by rw [hrecords]; exact hi)]
    have hmode := noticedMode_enteredMode entered (enteredRecord s i s.cond.generations[i.val] d) s.mode
    rw [← hmode, ← List.append_assoc] at hentered
    refine ⟨entered ++ [enteredRecord s i s.cond.generations[i.val] d], ?_⟩
    rw [h.state]
    exact hentered
  next hc =>
    refine ⟨entered, h.skip ?_⟩
    rw [isNone_findRecord_iff, hrecords] at hc
    have := h.bound
    by_cases hroom : (s.cond.records ++ entered).length < 64
    · exact .inr (not_not.1 fun hnone => hc ⟨hroom, hnone⟩)
    · exact .inl (by omega)

theorem exists_swept {s : State} (h : s.cond.records.length ≤ 64) (cs : List Cause) :
    ∃ entered, Swept s cs entered (cs.foldl State.sweepOne s) := by
  induction cs using List.reverseRecOn with
  | nil => exact ⟨[], swept_nil h⟩
  | append_singleton cs d ih =>
    obtain ⟨entered, hswept⟩ := ih
    rw [List.foldl_concat]
    exact exists_swept_step hswept d

/-! ## The standing causes, in the words of Table 3-4 -/

theorem lostCause_eq (e : Entry) :
    e.lostCause = decide (e.presence = .lost ∨ (e.presence = .joining ∧ e.joinOrigin = some .lost)) := by
  rw [Bool.decide_or, Bool.decide_and]
  rfl

theorem reportedExtra_eq (x : Option Identity) : reportedExtra x = (x.map reported).getD [] := by
  cases x <;> rfl

theorem alternateLine_none {e : Entry} (h : e.descriptor = none) (c : LineSetup) : e.alternateLine c = false := by
  simp only [Entry.alternateLine, h]

theorem alternateLine_some {s : State} {e : Entry} {d : Descriptor} (h : e.descriptor = some d) :
    e.alternateLine s.config.setup =
      (decide (e.presence = .present ∨ e.presence = .silent) && alternateOn s d e.activeLine) := by
  simp only [Entry.alternateLine, h, dataValid_eq_decide, alternateOn]
  ac_rfl

theorem sweep_eq {s : State} {entered : List ConditionRecord}
    (h : Swept s s.standingCauses entered (s.standingCauses.foldl State.sweepOne s)) : s.sweep = { s with
      cond := { s.cond with records := s.cond.records ++ entered, sweepOwed := false }
      mode := enteredMode entered s.mode } := by
  rw [State.sweep, h.state]

/-- Settles O40: the record found decides an end and a refresh, and the sweep is a fold over the standing causes. -/
theorem causeEndsAndSweep : Obligations.CauseEndsAndSweep := by
  refine ⟨fun s k hnone => ?notFound, fun s q hkept hq => ?ends, fun s c hkept => ?refresh, fun s => rfl,
    fun s hkept => ?sweep, fun s hroster => ?ranked, fun s => ?causes⟩
  case notFound => exact finishCause_notFound (findRecord_eq_none hnone)
  case ends =>
    have hfound := findRecord_of_mem (keysDistinct_of_tablesKept hkept) hq rfl
    exact ⟨finishCause_ended hfound, finishCause_latched hfound,
      fun hstate => (finishCause_retired hfound hstate).trans (removeRecord_eq_slot (slotsDistinct_of_tablesKept hkept) q)⟩
  case refresh =>
    exact ⟨fun hnone => refreshCause_notFound (findRecord_eq_none hnone),
      fun q hq hkey => refreshCause_found (findRecord_of_mem (keysDistinct_of_tablesKept hkept) hq hkey)⟩
  case sweep =>
    obtain ⟨hlength, -⟩ := hkept
    obtain ⟨entered, hswept⟩ := exists_swept hlength s.standingCauses
    exact ⟨entered, sweep_eq hswept, hswept.bound, hswept.fresh, hswept.order, hswept.complete, hswept.first⟩
  case ranked => exact standingCauses_ordered (rosterKept_ordered hroster)
  case causes =>
    intro cause
    have hpart : s.causesOfPart = cause s.safety.standing .part .outputsSafe [] ++
        cause s.config.incomplete .part .configIncomplete [] ++
        cause s.own.standing.isSome .part .ownAddressConflict [lineCode s.own.standing] := rfl
    have hlines : s.causesOfLine .a ++ s.causesOfLine .b = [LineId.a, .b].flatMap s.causesOfLine := by simp
    rw [State.standingCauses, List.append_assoc s.causesOfPart, hlines, hpart]
    refine congrArg₂ (· ++ ·) rfl (List.flatMap_congr fun a _ => ?_)
    simp only [State.causesOfStation, stationCauses, lostCause_eq, reportedExtra_eq, State.overrideCount]
    cases hd : (s.entry a).descriptor with
    | none =>
      rw [alternateLine_none hd]
      cases (s.supervision a).conflictTags <;> rfl
    | some d =>
      rw [alternateLine_some hd]
      cases (s.supervision a).conflictTags <;> rfl

end Sys2Proof.Proofs
end

section
/-! PROOFS. Overrides set: by the controller and by the session (R89 to R95). -/

namespace Sys2Proof.Proofs

open Sys2Proof.Machine Sys2Proof.Safety Sys2Proof.Laws

/-! ## The checks of Table 5-2 (R92) -/

section
variable {s : State} {setter : Owner} {b c : Byte} {v : Word} {a : Addr} {d : Direction} {desc : Descriptor} {i : Fin 32}

theorem setOverride_badPlace (h : 31 < b.toNat ∨ 1 < c.toNat) (x : Byte) :
    s.setOverride setter b c x v = (⟨.badOperand, []⟩, s) := by
  unfold State.setOverride
  rcases h with h | h
  · rw [addrOf_none h]
  · rw [directionOf_none h]
    cases addrOf b <;> rfl

theorem setOverride_notConfigured (h : (s.entry a).descriptor = none) (x : Byte) :
    s.setOverride setter (octet a.val) (directionCode d) x v = (⟨.notConfigured, []⟩, s) := by
  simp only [State.setOverride, addrOf_octet, directionOf_code, h]

theorem fits_iff (w : Width) (v : Word) : fits w v = true ↔ (w = .bit → v.toNat ≤ 1) := by
  cases w <;> simp [fits]

theorem setOverride_badCircuit (hdesc : (s.entry a).descriptor = some desc)
    (h : desc.count d ≤ c.toNat ∨ (desc.width d = .bit ∧ 1 < v.toNat)) :
    s.setOverride setter (octet a.val) (directionCode d) c v = (⟨.badOperand, []⟩, s) := by
  simp only [State.setOverride, addrOf_octet, directionOf_code, hdesc]
  cases hi : below 32 c with
  | none => rfl
  | some i =>
    have hval : i.val = c.toNat := by
      unfold below at hi
      split at hi
      · rw [← Option.some.inj hi]
      · cases hi
    refine if_neg ?_
    rintro ⟨hcount, hfits⟩
    have := (fits_iff _ _).1 hfits
    rcases h with h | ⟨hbit, hvalue⟩
    · omega
    · exact absurd (this hbit) (Nat.not_le.2 hvalue)

/-- The operand names a place that a station has and a value it takes (R92, checks 1 to 3). -/
structure PlaceGood (s : State) (a : Addr) (d : Direction) (desc : Descriptor) (i : Fin 32) (v : Word) : Prop where
  configured : (s.entry a).descriptor = some desc
  circuit : i.val < desc.count d
  value : desc.width d = .bit → v.toNat ≤ 1

theorem setOverride_refused (h : PlaceGood s a d desc i v) {st : Status}
    (hrefusal : s.overrideRefusal setter (s.findOverride a d i) = some st) :
    s.setOverride setter (octet a.val) (directionCode d) (octet i.val) v = (⟨st, []⟩, s) := by
  simp only [State.setOverride, addrOf_octet, directionOf_code, h.configured, below_octet (show 32 ≤ 256 by decide) i.isLt,
    if_pos (And.intro h.circuit ((fits_iff _ _).2 h.value)), hrefusal]

theorem setOverride_applied (h : PlaceGood s a d desc i v)
    (hrefusal : s.overrideRefusal setter (s.findOverride a d i) = none) :
    s.setOverride setter (octet a.val) (directionCode d) (octet i.val) v =
      s.applyOverride setter a d i v (s.findOverride a d i) := by
  simp only [State.setOverride, addrOf_octet, directionOf_code, h.configured, below_octet (show 32 ≤ 256 by decide) i.isLt,
    if_pos (And.intro h.circuit ((fits_iff _ _).2 h.value)), hrefusal]

end

/-! ## The record of an override (R93, R94, R102) -/

theorem hasKey_iff_fields (p : OverrideRecord) (a : Addr) (d : Direction) (i : Fin 32) :
    p.hasKey a d i = true ↔ p.station = a ∧ p.direction = d ∧ p.circuit = i := by
  simp [OverrideRecord.hasKey, and_assoc]

/-- The beginning of FORCED where the station had no record (R102). -/
def forcedBegun (s u : State) (a : Addr) : State :=
  if s.overrideCount a = 0 then u.beginCause { key := plainKey (.station a) .forced, extra := [1] } else u

theorem overrideCount_beginForced (u : State) (a b : Addr) : (u.beginForced b).overrideCount a = u.overrideCount a := by
  unfold State.beginForced
  split
  · unfold State.overrideCount
    rw [(condOnly_beginCause u _).1]
  · rfl

theorem applyOverride_create (s : State) (setter : Owner) (a : Addr) (d : Direction) (i : Fin 32) (v : Word) :
    s.applyOverride setter a d i v none =
      (⟨.ok, [octet s.overrides.length, 1, setter.code, octet (s.overrideCount a + 1)]⟩,
        forcedBegun s { s with overrides := s.overrides ++ [⟨a, d, i, v, setter, s.scan.number⟩] } a) := by
  have hcount : ({ s with overrides := s.overrides ++ [⟨a, d, i, v, setter, s.scan.number⟩] } : State).overrideCount a =
      s.overrideCount a + 1 := by
    simp [State.overrideCount, List.countP_append]
  simp only [State.applyOverride, State.createOverride, overrideCount_beginForced, hcount]
  refine congrArg (Prod.mk _) ?_
  simp only [State.beginForced, hcount, forcedBegun, Nat.add_eq_right]

/-- An override set on a record held: the value, the owner and the scan number replaced (R93). -/
def overridesSet (s : State) (a : Addr) (d : Direction) (i : Fin 32) (v : Word) (owner : OverrideRecord → Owner) :
    List OverrideRecord :=
  s.overrides.map (fun p => if p.station = a ∧ p.direction = d ∧ p.circuit = i then
    { p with value := v, owner := owner p, enteredAt := s.scan.number } else p)

theorem changeOverride_eq (s : State) (setter : Owner) (a : Addr) (d : Direction) (i : Fin 32) (v : Word) :
    s.changeOverride setter a d i v =
      { s with overrides := overridesSet s a d i v (fun p => ownerAfter setter p.owner) } := by
  unfold State.changeOverride overridesSet
  simp only [hasKey_iff_fields]

theorem overridesSet_position (s : State) (a : Addr) (d : Direction) (i : Fin 32) (v : Word)
    (owner : OverrideRecord → Owner) :
    ({ s with overrides := overridesSet s a d i v owner } : State).overridePosition a d i = s.overridePosition a d i := by
  simp only [State.overridePosition, overridesSet, List.findIdx_map]
  refine congrArg (List.findIdx · s.overrides) (funext fun p => ?_)
  rw [Function.comp, Bool.eq_iff_iff, hasKey_iff_fields, hasKey_iff_fields]
  split <;> rfl

theorem overridesSet_count (s : State) (a : Addr) (d : Direction) (i : Fin 32) (v : Word)
    (owner : OverrideRecord → Owner) (b : Addr) :
    ({ s with overrides := overridesSet s a d i v owner } : State).overrideCount b = s.overrideCount b := by
  simp only [State.overrideCount, overridesSet, List.countP_map]
  refine congrArg (List.countP · s.overrides) (funext fun p => ?_)
  simp only [Function.comp]
  split <;> rfl

theorem applyOverride_change (s : State) (setter : Owner) (a : Addr) (d : Direction) (i : Fin 32) (v : Word)
    (q : OverrideRecord) : s.applyOverride setter a d i v (some q) =
      (⟨.ok, [octet (s.overridePosition a d i), 0, q.owner.code, (ownerAfter setter q.owner).code,
        octet (s.overrideCount a)]⟩,
        { s with overrides := overridesSet s a d i v (fun p => ownerAfter setter p.owner) }) := by
  simp only [State.applyOverride, changeOverride_eq, overridesSet_position, overridesSet_count]

/-! ## SET OVERRIDE by the controller (R92 to R94) -/

theorem exec_setOverride {s t : State} {r : Memory} {rest : List Memory} {x : Answer} (h : Ready s .setOverride r rest)
    (hset : (taken s rest).setOverride .controller (operand r 0) (operand r 1) (operand r 2) (operandWord r 3) = (x, t)) :
    exec .setOverride s = .next (posted t r x.status x.result).endGroup :=
  congrArg Host.Outcome.next (runRequest_eq_posted h (body := fun r t =>
    atOnce (t.setOverride .controller (operand r 0) (operand r 1) (operand r 2) (operandWord r 3))) (congrArg atOnce hset))

/-- Settles O41: the checks of Table 5-2 in order, then the record is created or set. -/
theorem setOverride : Obligations.SetOverride := by
  intro s r rest hready v
  have howed := sweepOwed_of_ready hready
  have hrefused : ∀ {st}, (taken s rest).setOverride .controller (operand r 0) (operand r 1) (operand r 2) v =
      (⟨st, []⟩, taken s rest) → exec .setOverride s = answers s r rest st [] := fun hset =>
    (exec_setOverride hready hset).trans (congrArg Host.Outcome.next (posted_endGroup (t := taken s rest) howed _ _ _))
  refine ⟨fun hbad => hrefused (setOverride_badPlace hbad _), fun a d ha hd => ?_⟩
  rw [ha, hd] at hrefused
  refine ⟨fun hnone => hrefused (setOverride_notConfigured (s := taken s rest) hnone _), fun desc hdesc =>
    ⟨fun hbad => hrefused (setOverride_badCircuit (s := taken s rest) hdesc hbad), fun c hc hcount hvalue => ?_⟩⟩
  rw [hc] at hrefused
  have hgood : PlaceGood (taken s rest) a d desc c v := ⟨hdesc, hcount, hvalue⟩
  have hfind : (taken s rest).findOverride a d c = s.findOverride a d c := rfl
  have hexec : ∀ {x t}, (taken s rest).overrideRefusal .controller (s.findOverride a d c) = none →
      (taken s rest).applyOverride .controller a d c v (s.findOverride a d c) = (x, t) →
      exec .setOverride s = .next (posted t r x.status x.result).endGroup := fun hrefusal happly => by
    refine exec_setOverride hready ?_
    rw [ha, hd, hc]
    exact (setOverride_applied hgood hrefusal).trans happly
  refine ⟨fun hnone hfull => ?full, fun hnone hroom => ?created, fun q hq => ?changed⟩
  case full =>
    refine hrefused (setOverride_refused hgood ?_)
    rw [hfind, hnone]
    exact if_neg (Nat.not_lt.2 hfull)
  case created =>
    intro u
    rw [hnone] at hexec
    exact hexec (if_pos hroom) (applyOverride_create _ _ _ _ _ _)
  case changed =>
    rw [hq] at hexec
    exact (hexec rfl (applyOverride_change _ _ _ _ _ _ _)).trans
      (congrArg Host.Outcome.next (posted_endGroup (by exact howed) _ _ _))

end Sys2Proof.Proofs
end

section
/-! PROOFS. A session's SET OVERRIDE (R92 to R95), and the removals (R96 to R98). -/

namespace Sys2Proof.Proofs

open Sys2Proof.Machine Sys2Proof.Safety Sys2Proof.Laws

/-! ## The session's checks (R92, checks 4 to 6) -/

section
variable {s : State} {q : OverrideRecord}

theorem sessionRefusal_elsewhere (h : q.owner = .controller) :
    s.overrideRefusal .session (some q) = some .ownedElsewhere := if_pos h

theorem sessionRefusal_own (h : q.owner = .session) :
    s.overrideRefusal .session (some q) = if s.session.permitOverrides then none else some .locked :=
  if_neg fun he => Owner.noConfusion (he.symm.trans h)

theorem sessionRefusal_locked (h : s.session.permitOverrides = false) :
    s.overrideRefusal .session none = some .locked := if_pos (by rw [h]; rfl)

theorem sessionRefusal_permitted (h : s.session.permitOverrides = true) : s.overrideRefusal .session none =
    if s.overrides.length < 48 ∧ s.sessionShare < 16 then none else some .tableFull := if_neg (by rw [h]; decide)

end

/-- Settles O42: the same checks of the operands, then those of the owner, the permission and the room. -/
theorem sessionOverride : Obligations.SessionOverride := by
  refine ⟨fun s st dir circuit v => ?operands, fun s a d desc c v hdesc hcount hvalue => ?place⟩
  case operands =>
    intro x
    refine ⟨fun hbad => setOverride_badPlace hbad _, fun a d ha hd => ?_⟩
    subst ha hd
    exact ⟨fun hnone => setOverride_notConfigured hnone _, fun desc hdesc hbad => setOverride_badCircuit hdesc hbad⟩
  case place =>
    intro x full
    have hgood : PlaceGood s a d desc c v := ⟨hdesc, hcount, hvalue⟩
    have hrefused : ∀ {found st}, s.findOverride a d c = found → s.overrideRefusal .session found = some st →
        x = (⟨st, []⟩, s) := fun hfound hrefusal => setOverride_refused hgood (hfound ▸ hrefusal)
    have happlied : ∀ {found y}, s.findOverride a d c = found → s.overrideRefusal .session found = none →
        s.applyOverride .session a d c v found = y → x = y := fun hfound hrefusal happly => by
      subst hfound
      exact (setOverride_applied hgood hrefusal).trans happly
    have hroom : ¬ full ↔ s.overrides.length < 48 ∧ s.sessionShare < 16 := by
      simp only [full, not_or, Nat.not_le]
    refine ⟨fun q hq howner => hrefused hq (sessionRefusal_elsewhere howner),
      fun q hq howner hlocked => hrefused hq ?locked, fun q hq howner hpermit => ?set,
      fun hnone hlocked => hrefused hnone (sessionRefusal_locked hlocked),
      fun hnone hpermit hfull => hrefused hnone ?full, fun hnone hpermit hfree => ?created⟩
    case locked => rw [sessionRefusal_own howner, hlocked]; rfl
    case full => rw [sessionRefusal_permitted hpermit, if_neg fun h => hroom.2 h hfull]
    case set =>
      rw [happlied hq (by rw [sessionRefusal_own howner, hpermit]; rfl) (applyOverride_change s .session a d c v q)]
      refine ⟨?_, rfl⟩
      show (⟨.ok, [_, 0, q.owner.code, q.owner.code, _]⟩ : Answer) = _
      rw [howner]
      rfl
    case created =>
      rw [happlied hnone (by rw [sessionRefusal_permitted hpermit, if_pos (hroom.1 hfree)])
        (applyOverride_create s .session a d c v)]
      exact ⟨rfl, rfl⟩

/-! ## One record removed (R96) -/

/-- The records without the one of a place (R96). -/
def overridesWithout (s : State) (a : Addr) (d : Direction) (i : Fin 32) : List OverrideRecord :=
  s.overrides.eraseP (fun p => decide (p.station = a ∧ p.direction = d ∧ p.circuit = i))

/-- The end of FORCED where the station had one record (R102). -/
def forcedEnded (s u : State) (a : Addr) : State :=
  if s.overrideCount a = 1 then u.finishCause (plainKey (.station a) .forced) else u

theorem findOverride_key {s : State} {a : Addr} {d : Direction} {i : Fin 32} {q : OverrideRecord}
    (h : s.findOverride a d i = some q) : q ∈ s.overrides ∧ q.station = a ∧ q.direction = d ∧ q.circuit = i :=
  ⟨List.mem_of_find?_eq_some h, (hasKey_iff_fields q a d i).1 (List.find?_some (p := fun p : OverrideRecord => p.hasKey a d i) h)⟩

theorem overrideCount_without {s : State} {a : Addr} {d : Direction} {i : Fin 32} {q : OverrideRecord}
    (h : s.findOverride a d i = some q) :
    ({ s with overrides := overridesWithout s a d i } : State).overrideCount a + 1 = s.overrideCount a := by
  obtain ⟨hmem, hkey⟩ := findOverride_key h
  obtain ⟨p, l₁, l₂, -, hp, hl, herase⟩ := List.exists_of_eraseP hmem (p := fun p => decide
    (p.station = a ∧ p.direction = d ∧ p.circuit = i)) (decide_eq_true hkey)
  obtain ⟨hstation, -⟩ := of_decide_eq_true hp
  unfold State.overrideCount overridesWithout
  rw [herase, hl]
  simp only [List.countP_append, List.countP_cons, hstation, decide_true, if_true]
  omega

theorem finishForced_eq (u : State) (a : Addr) (n : Nat) (h : u.overrideCount a + 1 = n) :
    u.finishForced a = if n = 1 then u.finishCause (plainKey (.station a) .forced) else u :=
  if_congr (by omega) rfl rfl

theorem overrideCount_finishForced (u : State) (a b : Addr) : (u.finishForced b).overrideCount a = u.overrideCount a := by
  unfold State.finishForced
  split
  · unfold State.overrideCount
    rw [(condOnly_finishCause u _).1]
  · rfl

theorem dropOverride_found {s : State} {a : Addr} {d : Direction} {i : Fin 32} {q : OverrideRecord}
    (h : s.findOverride a d i = some q) :
    s.dropOverride q = forcedEnded s { s with overrides := overridesWithout s a d i } a ∧
      (s.dropOverride q).overrideCount a = s.overrideCount a - 1 := by
  obtain ⟨-, rfl, rfl, rfl⟩ := findOverride_key h
  have herase : s.overrides.eraseP (fun p => p.hasKey q.station q.direction q.circuit) =
      overridesWithout s q.station q.direction q.circuit :=
    congrArg (List.eraseP · s.overrides) (funext fun p => by
      rw [Bool.eq_iff_iff, hasKey_iff_fields, decide_eq_true_iff])
  have hcount := overrideCount_without h
  refine ⟨?_, ?_⟩
  · rw [State.dropOverride, herase]
    exact finishForced_eq _ _ _ hcount
  · rw [State.dropOverride, herase, overrideCount_finishForced]
    omega

section
variable {s : State} {remover : Owner} {b c x : Byte} {a : Addr} {d : Direction} {i : Fin 32} {q : OverrideRecord}

theorem removeOverride_badPlace (h : 31 < b.toNat ∨ 1 < c.toNat ∨ 31 < x.toNat) :
    s.removeOverride remover b c x = (⟨.badOperand, []⟩, s) := by
  unfold State.removeOverride
  split
  next hb hc hx =>
    rcases h with h | h | h
    · rw [addrOf_none h] at hb; cases hb
    · rw [directionOf_none h] at hc; cases hc
    · rw [below_none (show 32 ≤ x.toNat from h)] at hx; cases hx
  · rfl

theorem removeOverride_notFound (h : s.findOverride a d i = none) :
    s.removeOverride remover (octet a.val) (directionCode d) (octet i.val) = (⟨.notFound, []⟩, s) := by
  simp only [State.removeOverride, addrOf_octet, directionOf_code, below_octet (show 32 ≤ 256 by decide) i.isLt, h]

theorem removeOverride_elsewhere (h : s.findOverride a d i = some q) (howner : q.owner = .controller) :
    s.removeOverride .session (octet a.val) (directionCode d) (octet i.val) = (⟨.ownedElsewhere, []⟩, s) := by
  simp only [State.removeOverride, addrOf_octet, directionOf_code, below_octet (show 32 ≤ 256 by decide) i.isLt, h,
    howner, and_self, if_true]

theorem removeOverride_found (h : s.findOverride a d i = some q) (howner : ¬ (remover = .session ∧ q.owner = .controller)) :
    s.removeOverride remover (octet a.val) (directionCode d) (octet i.val) = (⟨.ok, [octet (s.overrideCount a - 1)]⟩,
      forcedEnded s { s with overrides := overridesWithout s a d i } a) := by
  obtain ⟨hdrop, hcount⟩ := dropOverride_found h
  simp only [State.removeOverride, addrOf_octet, directionOf_code, below_octet (show 32 ≤ 256 by decide) i.isLt, h,
    if_neg howner, hcount]
  rw [hdrop]

end

theorem exec_removeOverride {s t : State} {r : Memory} {rest : List Memory} {x : Answer} (h : Ready s .removeOverride r rest)
    (hremove : (taken s rest).removeOverride .controller (operand r 0) (operand r 1) (operand r 2) = (x, t)) :
    exec .removeOverride s = .next (posted t r x.status x.result).endGroup :=
  congrArg Host.Outcome.next (runRequest_eq_posted h (body := fun r t =>
    atOnce (t.removeOverride .controller (operand r 0) (operand r 1) (operand r 2))) (congrArg atOnce hremove))

/-! ## The removals in bulk (R97, R98) -/

theorem dedup_of_forall_eq {a : Addr} {l : List Addr} (h : ∀ b ∈ l, b = a) : l.dedup = if l = [] then [] else [a] := by
  cases l with
  | nil => rfl
  | cons x l =>
    have hsame : x :: l = List.replicate (l.length + 1) a := List.eq_replicate_of_mem h
    rw [hsame, List.replicate_dedup (Nat.succ_ne_zero _)]
    rfl

theorem withoutOverrides_station (s : State) (a : Addr) : withoutOverrides s (OverrideRecord.ofStation a) =
    if 1 ≤ s.overrideCount a then
      State.finishCause { s with overrides := s.overrides.filter (fun q => decide (q.station ≠ a)) } (plainKey (.station a) .forced)
    else { s with overrides := s.overrides.filter (fun q => decide (q.station ≠ a)) } := by
  have hleft : s.overrides.filter (fun q => !q.ofStation a) = s.overrides.filter (fun q => decide (q.station ≠ a)) :=
    List.filter_congr fun q _ => by simp [OverrideRecord.ofStation]
  have hstations : ∀ b ∈ (s.overrides.filter (OverrideRecord.ofStation a)).map OverrideRecord.station, b = a := by
    intro b hb
    obtain ⟨q, hq, rfl⟩ := List.mem_map.1 hb
    exact of_decide_eq_true (List.mem_filter.1 hq).2
  have hempty : (s.overrides.filter (OverrideRecord.ofStation a)).map OverrideRecord.station = [] ↔
      ¬ 1 ≤ s.overrideCount a := by
    rw [List.map_eq_nil_iff, ← List.length_eq_zero_iff, ← List.countP_eq_length_filter]
    exact Nat.lt_one_iff.symm.trans Nat.not_le.symm
  unfold withoutOverrides
  rw [hleft, dedup_of_forall_eq hstations]
  by_cases hcount : 1 ≤ s.overrideCount a
  · rw [if_neg fun h => hempty.1 h hcount, if_pos hcount]
    simp
  · rw [if_pos (hempty.2 hcount), if_neg hcount]
    rfl

theorem withoutOverrides_all (s : State) : withoutOverrides s (fun _ => true) =
    (s.overrides.map OverrideRecord.station).dedup.foldl
      (fun u a => u.finishCause (plainKey (.station a) .forced)) { s with overrides := [] } := by
  simp [withoutOverrides]

theorem removeStationOverrides_above {s : State} {b : Byte} (h : 31 < b.toNat) :
    s.removeStationOverrides b = reply s .badOperand := by
  simp only [State.removeStationOverrides, addrOf_none h]

theorem removeStationOverrides_notConfigured {s : State} {a : Addr} (h : (s.entry a).descriptor = none) :
    s.removeStationOverrides (octet a.val) = reply s .notConfigured := by
  simp only [State.removeStationOverrides, addrOf_octet, Entry.configured, h, Option.isSome_none, Bool.false_eq_true,
    if_false]

theorem removeStationOverrides_configured {s : State} {a : Addr} (h : (s.entry a).descriptor.isSome = true)
    (hn : (s.overrides.map overrideKey).Nodup) : s.removeStationOverrides (octet a.val) =
      reply (withoutOverrides s (OverrideRecord.ofStation a)) .ok [octet (s.overrideCount a)] := by
  simp only [State.removeStationOverrides, addrOf_octet, Entry.configured, h, if_true, dropOverrides_eq s _ hn]

/-- Settles O43: one record found is removed, or the records that a bulk removal names leave together. -/
theorem overrideRemovals : Obligations.OverrideRemovals := by
  refine ⟨fun s st dir circuit => ?session, fun s r rest => ⟨fun hready => ?one, fun hready hkept => ?station,
    fun hready hkept => ?all⟩⟩
  case session =>
    intro x
    refine ⟨fun hbad => removeOverride_badPlace hbad, fun a d c ha hd hc => ?_⟩
    subst ha hd hc
    exact ⟨fun hnone => removeOverride_notFound hnone, fun q hq => ⟨fun howner => removeOverride_elsewhere hq howner,
      fun howner => removeOverride_found hq fun h => Owner.noConfusion (h.2.symm.trans howner)⟩⟩
  case one =>
    have howed := sweepOwed_of_ready hready
    have hrefused : ∀ {st}, (taken s rest).removeOverride .controller (operand r 0) (operand r 1) (operand r 2) =
        (⟨st, []⟩, taken s rest) → exec .removeOverride s = answers s r rest st [] := fun hremove =>
      (exec_removeOverride hready hremove).trans
        (congrArg Host.Outcome.next (posted_endGroup (t := taken s rest) howed _ _ _))
    refine ⟨fun hbad => hrefused (removeOverride_badPlace hbad), fun a d c ha hd hc => ?_⟩
    rw [ha, hd, hc] at hrefused
    refine ⟨fun hnone => hrefused (removeOverride_notFound (s := taken s rest) hnone), fun q hq => ?_⟩
    intro u
    have hfound := removeOverride_found (s := taken s rest) (remover := .controller) hq fun h => Owner.noConfusion h.1
    rw [← ha, ← hd, ← hc] at hfound
    exact exec_removeOverride hready hfound
  case station =>
    refine ⟨fun habove => ?_, fun a ha => ⟨fun hnone => ?_, fun hconfigured => ?_⟩⟩
    · exact next_runRequest_eq_answers hready (body := fun r t => t.removeStationOverrides (operand r 0))
        (removeStationOverrides_above (s := taken s rest) habove) (sweepOwed_of_ready hready)
    · exact next_runRequest_eq_answers hready (body := fun r t => t.removeStationOverrides (operand r 0))
        ((congrArg _ ha).trans (removeStationOverrides_notConfigured (s := taken s rest) hnone)) (sweepOwed_of_ready hready)
    · intro u
      have hremove := removeStationOverrides_configured (s := taken s rest) hconfigured
        (overrideKeys_of_tablesKept (s := s) hkept)
      rw [withoutOverrides_station, ← ha] at hremove
      exact congrArg Host.Outcome.next
        (runRequest_eq_posted hready (body := fun r t => t.removeStationOverrides (operand r 0)) hremove)
  case all =>
    have hremove : (taken s rest).removeAllOverrides =
        reply (withoutOverrides (taken s rest) (fun _ => true)) .ok [octet s.overrides.length] :=
      congrArg (fun t => reply t .ok [octet s.overrides.length])
        (dropOverrides_eq (taken s rest) _ (overrideKeys_of_tablesKept (s := s) hkept))
    rw [withoutOverrides_all] at hremove
    exact congrArg Host.Outcome.next
      (runRequest_eq_posted hready (body := fun _ t => t.removeAllOverrides) hremove)

end Sys2Proof.Proofs
end

section
/-! PROOFS. The transaction requests: STATION READ and STATION WRITE (R141), CANCEL TRANSACTION (R149, R150). -/

namespace Sys2Proof.Proofs

open Sys2Proof.Machine Sys2Proof.Safety Sys2Proof.Laws

/-! ## The checks of R141 -/

section
variable {s : State} {tag b index length : Byte} {k : TransactionKind} {data : List Byte} {a : Addr} {i : Fin 4}

theorem acceptTransaction_bad (h : 31 < b.toNat ∨ length.toNat = 0 ∨ 32 < length.toNat) :
    s.acceptTransaction tag k b index length data = (some ⟨.badOperand, []⟩, s) := by
  unfold State.acceptTransaction
  cases ha : addrOf b with
  | none => rfl
  | some a =>
    refine if_pos ?_
    rw [Bool.not_eq_true', within, decide_eq_false_iff_not]
    rcases h with h | h
    · rw [addrOf_none h] at ha
      cases ha
    · omega

/-- The checks of R141 that follow the operands. -/
theorem acceptTransaction_octet (h : 1 ≤ length.toNat ∧ length.toNat ≤ 32) :
    s.acceptTransaction tag k (octet a.val) index length data =
      if (s.entry a).configured = false then (some ⟨.notConfigured, []⟩, s)
      else if (s.transactionOf a).isSome then (some ⟨.stationBusy, []⟩, s)
      else match s.freeTransactionSlot with
        | none => (some ⟨.noSlot, []⟩, s)
        | some i =>
          if s.mode.scans then (none, s.placeTransaction i tag k a index length.toNat data)
          else (some ⟨.wrongMode, []⟩, s) := by
  simp only [State.acceptTransaction, addrOf_octet, within, decide_eq_true h, Bool.not_true, Bool.false_eq_true, if_false,
    Bool.not_eq_true'] <;> rfl

theorem acceptTransaction_notConfigured (h : 1 ≤ length.toNat ∧ length.toNat ≤ 32) (hnone : (s.entry a).descriptor = none) :
    s.acceptTransaction tag k (octet a.val) index length data = (some ⟨.notConfigured, []⟩, s) :=
  (acceptTransaction_octet h).trans (if_pos (by rw [Entry.configured, hnone]; rfl))

theorem acceptTransaction_busy (h : 1 ≤ length.toNat ∧ length.toNat ≤ 32) (hconf : (s.entry a).configured = true)
    (hbusy : (s.transactionOf a).isSome = true) :
    s.acceptTransaction tag k (octet a.val) index length data = (some ⟨.stationBusy, []⟩, s) :=
  (acceptTransaction_octet h).trans ((if_neg (by rw [hconf]; decide)).trans (if_pos hbusy))

theorem acceptTransaction_noSlot (h : 1 ≤ length.toNat ∧ length.toNat ≤ 32) (hconf : (s.entry a).configured = true)
    (hidle : s.transactionOf a = none) (hfull : s.freeTransactionSlot = none) :
    s.acceptTransaction tag k (octet a.val) index length data = (some ⟨.noSlot, []⟩, s) := by
  rw [acceptTransaction_octet h, if_neg (by rw [hconf]; decide), if_neg (by rw [hidle]; decide), hfull]

theorem acceptTransaction_free (h : 1 ≤ length.toNat ∧ length.toNat ≤ 32) (hconf : (s.entry a).configured = true)
    (hidle : s.transactionOf a = none) (hfree : s.freeTransactionSlot = some i) :
    s.acceptTransaction tag k (octet a.val) index length data =
      if s.mode.scans then (none, s.placeTransaction i tag k a index length.toNat data)
      else (some ⟨.wrongMode, []⟩, s) := by
  rw [acceptTransaction_octet h, if_neg (by rw [hconf]; decide), if_neg (by rw [hidle]; decide), hfree]

theorem freeTransactionSlot_none (h : ∀ i, (s.slot i).isSome = true) : s.freeTransactionSlot = none :=
  List.find?_eq_none.2 fun i _ => by simpa [Option.isSome_iff_ne_none] using h i

theorem freeTransactionSlot_some (h : s.slot i = none) (hlower : ∀ j < i, (s.slot j).isSome = true) :
    s.freeTransactionSlot = some i :=
  find_slot _ (by rw [h]; rfl) fun j hj => by
    by_contra hlt
    rw [Option.isNone_iff_eq_none] at hj
    have := hlower j (not_le.1 hlt)
    rw [hj] at this
    cases this

end

/-! ## The two rows (R141) -/

/-- The row of a transaction's kind. -/
def transactionRow : TransactionKind → Instr
  | .read => .stationRead
  | .write => .stationWrite

/-- The data that a request of a kind carries (R141). -/
def transactionData (k : TransactionKind) (r : Memory) : List Byte :=
  match k with
  | .read => []
  | .write => (List.range (operand r 2).toNat).map (fun n => operand r (3 + n))

/-- What the unit does with a record of a transaction's kind. -/
def transactionBody (k : TransactionKind) (r : Memory) (t : State) : Option Answer × State :=
  t.acceptTransaction (requestTag r) k (operand r 0) (operand r 1) (operand r 2) (transactionData k r)

theorem exec_transactionRow (k : TransactionKind) (s : State) :
    exec (transactionRow k) s = .next (s.runRequest k.request (transactionBody k)) := by cases k <;> rfl

/-- Settles O44: the checks of R141 in order, then the transaction's place. -/
theorem transactionRequests : Obligations.TransactionRequests := by
  intro s r rest k hready row length
  have hready : Ready s k.request r rest := by cases k <;> exact hready
  have howed := sweepOwed_of_ready hready
  have hrow : row = transactionRow k := by cases k <;> rfl
  have hrefused : ∀ {st}, transactionBody k r (taken s rest) = (some ⟨st, []⟩, taken s rest) →
      exec row s = answers s r rest st [] := fun hbody => by
    rw [hrow, exec_transactionRow]
    exact next_runRequest_eq_answers hready hbody howed
  refine ⟨fun hbad => hrefused (acceptTransaction_bad hbad), fun a ha hlow hhigh => ?_⟩
  have hlength : 1 ≤ (operand r 2).toNat ∧ (operand r 2).toNat ≤ 32 := ⟨hlow, hhigh⟩
  have hbody : ∀ {y}, (taken s rest).acceptTransaction (requestTag r) k (octet a.val) (operand r 1) (operand r 2)
      (transactionData k r) = y → transactionBody k r (taken s rest) = y := fun h => by
    rw [transactionBody, ha]
    exact h
  have hidle : ∀ {P : Prop}, (P ↔ ∃ i t, s.slot i = some t ∧ t.station = a) → ¬ P →
      (taken s rest).transactionOf a = none := fun hP hnot => by
    rw [← Option.not_isSome_iff_eq_none, isSome_transactionOf]
    exact mt hP.2 hnot
  intro busy
  refine ⟨fun hnone => hrefused (hbody (acceptTransaction_notConfigured (s := taken s rest) hlength hnone)),
    fun hconf hbusy => hrefused (hbody (acceptTransaction_busy (s := taken s rest) hlength hconf
      ((isSome_transactionOf _ a).2 hbusy))),
    fun hconf hfree hfull => hrefused (hbody (acceptTransaction_noSlot (s := taken s rest) hlength hconf
      (hidle Iff.rfl hfree) (freeTransactionSlot_none hfull))),
    fun i hconf hfree hslot hlower => ?_⟩
  have haccept := acceptTransaction_free (s := taken s rest) (tag := requestTag r) (index := operand r 1)
    (data := transactionData k r) (k := k) hlength hconf (hidle Iff.rfl hfree) (freeTransactionSlot_some hslot hlower)
  refine ⟨fun hstopped => hrefused (hbody (haccept.trans (if_neg ?stopped))), fun hscans => ?placed⟩
  case stopped =>
    show ¬ s.mode.scans = true
    rw [hstopped]
    decide
  case placed =>
    have hplace := run_deferred hready (hbody (haccept.trans (if_pos hscans))) (by cases k <;> exact howed)
    rw [hrow, exec_transactionRow, hplace]
    cases k <;> rfl

/-! ## The transaction with a tag that was accepted earliest (R149) -/

section
variable {s : State} {tag : Byte} {i : Fin 4} {t : Transaction}

theorem transactionTagged_none (h : ∀ i t, s.slot i = some t → t.tag ≠ tag) : s.transactionTagged tag = none := by
  have hstep : ∀ i, s.earlier tag none i = none := by
    intro i
    unfold State.earlier
    cases hi : s.slot i with
    | none => rfl
    | some t => exact if_neg (h i t hi)
  unfold State.transactionTagged
  generalize allSlots = l
  induction l with
  | nil => rfl
  | cons i l ih => rw [List.foldl_cons, hstep, ih]

/-- A transaction found with the tag, or none yet. -/
def TaggedOrNone (s : State) (tag : Byte) (best : Option (Fin 4 × Transaction)) : Prop :=
  ∀ j u, best = some (j, u) → s.slot j = some u ∧ u.tag = tag

/-- The slot `i` holds the transaction with the tag accepted before every other one with it (R149). -/
def EarliestTagged (s : State) (tag : Byte) (i : Fin 4) (t : Transaction) : Prop :=
  s.slot i = some t ∧ t.tag = tag ∧
    ∀ j u, s.slot j = some u → u.tag = tag → j ≠ i → t.accepted < u.accepted

theorem earlier_tagged {best : Option (Fin 4 × Transaction)} (h : TaggedOrNone s tag best) (k : Fin 4) :
    TaggedOrNone s tag (s.earlier tag best k) := by
  unfold State.earlier
  cases hk : s.slot k with
  | none => exact h
  | some v =>
    have hnew : v.tag = tag → TaggedOrNone s tag (some (k, v)) := fun hv j u e => by
      cases e
      exact ⟨hk, hv⟩
    dsimp only
    split
    next hv =>
      cases best with
      | none => exact hnew hv
      | some p =>
        dsimp only
        split
        · exact hnew hv
        · exact h
    · exact h

theorem earlier_keeps (h : EarliestTagged s tag i t) (k : Fin 4) : s.earlier tag (some (i, t)) k = some (i, t) := by
  obtain ⟨hi, -, hleast⟩ := h
  unfold State.earlier
  cases hk : s.slot k with
  | none => rfl
  | some v =>
    dsimp only
    split
    next hv =>
      refine if_neg fun hlt => ?_
      by_cases hki : k = i
      · subst hki
        rw [hi] at hk
        cases hk
        exact lt_irrefl _ hlt
      · exact lt_asymm hlt (hleast k v hk hv hki)
    · rfl

theorem earlier_finds (h : EarliestTagged s tag i t) {best : Option (Fin 4 × Transaction)} (hbest : TaggedOrNone s tag best) :
    s.earlier tag best i = some (i, t) := by
  obtain ⟨hi, htag, hleast⟩ := h
  simp only [State.earlier, hi, if_pos htag]
  rcases best with - | ⟨j, u⟩
  · rfl
  · obtain ⟨hj, hu⟩ := hbest j u rfl
    by_cases hji : j = i
    · subst hji
      rw [hi] at hj
      cases hj
      exact ite_self _
    · exact if_pos (hleast j u hj hu hji)

theorem transactionTagged_earliest (h : EarliestTagged s tag i t) : s.transactionTagged tag = some (i, t) := by
  obtain ⟨before, after, hsplit⟩ := List.append_of_mem (List.mem_finRange i)
  have hbefore : ∀ (l : List (Fin 4)) best, TaggedOrNone s tag best → TaggedOrNone s tag (l.foldl (s.earlier tag) best) := by
    intro l
    induction l with
    | nil => exact fun _ hb => hb
    | cons k l ih => exact fun best hb => ih _ (earlier_tagged hb k)
  have hafter : ∀ l : List (Fin 4), l.foldl (s.earlier tag) (some (i, t)) = some (i, t) := by
    intro l
    induction l with
    | nil => rfl
    | cons k l ih => rw [List.foldl_cons, earlier_keeps h, ih]
  show (List.finRange 4).foldl (s.earlier tag) none = _
  rw [hsplit, List.foldl_append, List.foldl_cons,
    earlier_finds h (hbefore before none fun _ _ e => by cases e), hafter]

/-! ## CANCEL TRANSACTION (R149, R150) -/

theorem cancelTransaction_notFound (h : s.transactionTagged tag = none) (own : Byte) :
    s.cancelTransaction own tag = (some ⟨.notFound, []⟩, s) := by
  simp only [State.cancelTransaction, h]

theorem cancelTransaction_busy (h : s.transactionTagged tag = some (i, t)) (hsent : t.state = .sent)
    (hcancel : t.cancel.isSome = true) (own : Byte) : s.cancelTransaction own tag = (some ⟨.busy, []⟩, s) := by
  obtain ⟨c, hc⟩ := Option.isSome_iff_exists.1 hcancel
  simp only [State.cancelTransaction, h, hsent, hc]

theorem cancelTransaction_waits (h : s.transactionTagged tag = some (i, t)) (hsent : t.state = .sent)
    (hcancel : t.cancel = none) (own : Byte) :
    s.cancelTransaction own tag = (none, (s.setSlot i (some { t with cancel := some own })).defer) := by
  simp only [State.cancelTransaction, h, hsent, hcancel]

theorem cancelTransaction_waiting (h : s.transactionTagged tag = some (i, t)) (hwaiting : t.state = .waiting) (own : Byte) :
    s.cancelTransaction own tag = (some ⟨.ok, []⟩, s.complete i t .cancelled []) := by
  simp only [State.cancelTransaction, h, hwaiting]

end

theorem complete_eq (s : State) (i : Fin 4) (t : Transaction) (st : Status) (more : List Byte) :
    s.complete i t st more = { s with
      trans := { s.trans with slots := s.trans.slots.set i.val none }
      port := { s.port with
        responses := s.port.responses ++ [{
          tag := t.tag, kind := t.kind.request.code, status := st, mode := s.mode
          result := [octet i.val, octet t.station.val, t.index, octet t.attempts] ++ more }]
        deferred := s.port.deferred - 1 } } := rfl

/-- Settles O45: the transaction that `State.transactionTagged` finds decides by its state and its cancel. -/
theorem cancelTransaction : Obligations.CancelTransaction := by
  intro s r rest hready
  have howed := sweepOwed_of_ready hready
  have hrefused : ∀ {st}, (taken s rest).cancelTransaction (requestTag r) (operand r 0) = (some ⟨st, []⟩, taken s rest) →
      exec .cancelTransaction s = answers s r rest st [] := fun hcancel =>
    next_runRequest_eq_answers hready (body := fun r t => t.cancelTransaction (requestTag r) (operand r 0)) hcancel howed
  refine ⟨fun hnone => hrefused (cancelTransaction_notFound (s := taken s rest) (transactionTagged_none hnone) _),
    fun i t hi htag hleast => ?_⟩
  have hfound : (taken s rest).transactionTagged (operand r 0) = some (i, t) :=
    transactionTagged_earliest ⟨hi, htag, hleast⟩
  refine ⟨fun hsent hcancel => hrefused (cancelTransaction_busy hfound hsent hcancel _), fun hwaiting => ?waiting,
    fun hsent hcancel => ?sent⟩
  case waiting =>
    refine congrArg Host.Outcome.next ((run_reply hready (body := fun r t => t.cancelTransaction (requestTag r) (operand r 0))
      (cancelTransaction_waiting hfound hwaiting _) howed).trans ?_)
    rw [complete_eq, posted, List.append_assoc]
    cases t.kind <;> rfl
  case sent =>
    exact congrArg Host.Outcome.next (run_deferred hready
      (body := fun r t => t.cancelTransaction (requestTag r) (operand r 0)) (cancelTransaction_waits hfound hsent hcancel _) howed)

end Sys2Proof.Proofs
end

section
/-! PROOFS. The outcome of a visit that carries a REPLY (R28, R29, R36, R37). -/

namespace Sys2Proof.Proofs

open Sys2Proof.Machine Sys2Proof.Safety Sys2Proof.Laws

/-! ## What an update of a station leaves and hands (R25) -/

theorem updateStation_frame (s : State) (a : Addr) (x : Entry) (v : Supervision) : s.updateStation a x v = { s with
    roster := (s.updateStation a x v).roster
    supervised := (s.updateStation a x v).supervised
    cond := (s.updateStation a x v).cond
    mode := (s.updateStation a x v).mode } := by
  have h := (condOnly_handChanges ((s.setEntry a x).setSupervision a v) (s.causesOfStation a)
    (stationCauses s.config.setup a x v (s.overrideCount a))).1
  change s.updateStation a x v = _ at h
  rw [h]
  rfl

/-- The keys of the station causes, faults apart, that `x` in place of the entry of a configured station ends (R51). -/
def stateEnds (s : State) (a : Addr) (d : Descriptor) (x : Entry) : List Key :=
  (if (s.entry a).lostCause && !x.lostCause then [plainKey (.station a) .stationLost] else []) ++
  (if decide ((s.entry a).presence = .mismatch) && !decide (x.presence = .mismatch)
    then [plainKey (.station a) .stationMismatch] else []) ++
  (if decide ((s.entry a).presence = .conflict) && !decide (x.presence = .conflict)
    then [plainKey (.station a) .addressConflict] else []) ++
  (if decide ((s.entry a).presence = .extra) && !decide (x.presence = .extra)
    then [plainKey (.station a) .stationExtra] else []) ++
  (if ((s.entry a).dataValid && alternateOn s d (s.entry a).activeLine) && !(x.dataValid && alternateOn s d x.activeLine)
    then [plainKey (.station a) .alternateLine] else [])

/-- The station causes, faults apart, that `x` in place of the entry begins, with the tags of a conflict (R51). -/
def stateBegins (s : State) (a : Addr) (d : Descriptor) (x : Entry) (tags : Option (Word × Word)) : List Cause :=
  causeIf (x.lostCause && !(s.entry a).lostCause) (.station a) .stationLost [] ++
  causeIf (decide (x.presence = .mismatch) && !decide ((s.entry a).presence = .mismatch)) (.station a) .stationMismatch
    (reportedExtra x.identity) ++
  causeIf (decide (x.presence = .conflict) && !decide ((s.entry a).presence = .conflict)) (.station a) .addressConflict
    (conflictExtra tags) ++
  causeIf (decide (x.presence = .extra) && !decide ((s.entry a).presence = .extra)) (.station a) .stationExtra
    (reportedExtra x.identity) ++
  causeIf ((x.dataValid && alternateOn s d x.activeLine) && !((s.entry a).dataValid && alternateOn s d (s.entry a).activeLine))
    (.station a) .alternateLine [lineCode x.activeLine]

/-- The station causes, faults apart, that `x` in place of the entry refreshes (R51, R56). -/
def stateRefreshes (s : State) (a : Addr) (x : Entry) : List Cause :=
  causeIf (decide ((s.entry a).presence = .mismatch) && decide (x.presence = .mismatch) &&
      decide (reportedExtra (s.entry a).identity ≠ reportedExtra x.identity)) (.station a) .stationMismatch
      (reportedExtra x.identity) ++
    causeIf (decide ((s.entry a).presence = .extra) && decide (x.presence = .extra) &&
      decide (reportedExtra (s.entry a).identity ≠ reportedExtra x.identity)) (.station a) .stationExtra
      (reportedExtra x.identity)

section
variable {s u : State} {a : Addr} {d : Descriptor} {x : Entry} {v : Supervision}

/-- The causes of a configured station before and after, handed to a state that agrees, are handed class by class (R25, R51). -/
theorem hands_difference (hu : Agree s u) (hd : (s.entry a).descriptor = some d) (hx : x.descriptor = some d) :
    Hands s (u.handChanges (s.causesOfStation a) (stationCauses s.config.setup a x v (s.overrideCount a)))
      (stateEnds s a d x ++
        ((s.supervision a).stationFaults.filter (fun c => decide (c ∉ v.stationFaults))).map (stationFaultKey a) ++
        ((s.supervision a).circuitFaults.filter (fun y => decide (∀ z ∈ v.circuitFaults,
          circuitFaultKey a z ≠ circuitFaultKey a y))).map (circuitFaultKey a))
      (stateBegins s a d x v.conflictTags ++
        (v.stationFaults.filter (fun c => decide (c ∉ (s.supervision a).stationFaults))).map (fun c =>
          { key := stationFaultKey a c, extra := [] }) ++
        (v.circuitFaults.filter (fun y => decide (∀ z ∈ (s.supervision a).circuitFaults,
          circuitFaultKey a z ≠ circuitFaultKey a y))).map (fun y => { key := circuitFaultKey a y, extra := [y.detail] }))
      (stateRefreshes s a x ++
        (v.circuitFaults.filter (fun y => decide (y ∉ (s.supervision a).circuitFaults ∧
          ∃ z ∈ (s.supervision a).circuitFaults, circuitFaultKey a z = circuitFaultKey a y))).map (fun y =>
          { key := circuitFaultKey a y, extra := [y.detail] })) := by
  refine hands_handChanges hu ?_ ?_ ?_
  all_goals rw [State.causesOfStation, stationCauses_of_descriptor s a _ _ _ d hd, stationCauses_of_descriptor s a _ _ _ d hx]
  · rw [causeList_missing]
    simp only [List.map_append, map_causeIf, List.map_map, Function.comp_def, stateEnds]
  · rw [causeList_missing, stateBegins]
  · rw [causeList_refreshes, stateRefreshes]

/-- An update that leaves the faults of a configured station hands the difference of the other causes (R25, R51). -/
theorem hands_sameFaults (hd : (s.entry a).descriptor = some d) (hx : x.descriptor = some d)
    (hstation : v.stationFaults = (s.supervision a).stationFaults)
    (hcircuit : v.circuitFaults = (s.supervision a).circuitFaults) :
    Hands s (s.updateStation a x v) (stateEnds s a d x) (stateBegins s a d x v.conflictTags) (stateRefreshes s a x) := by
  refine hands_handChanges (s := s) (u := (s.setEntry a x).setSupervision a v) ⟨rfl, rfl, rfl⟩ ?_ ?_ ?_
  all_goals rw [State.causesOfStation, stationCauses_of_descriptor s a _ _ _ d hd, stationCauses_of_descriptor s a _ _ _ d hx,
    hstation, hcircuit]
  · rw [causeList_missing_same_faults]
    simp only [List.map_append, map_causeIf, stateEnds]
  · rw [causeList_missing_same_faults, stateBegins]
  · rw [causeList_refreshes_same_faults, stateRefreshes]

end

/-! ## A REPLY taken (R28, R29) -/

/-- The entry with the line of the GOOD frame active, where the station is DUAL (R42). -/
def heardEntry (e : Entry) (d : Descriptor) (l : LineId) : Entry :=
  { e with activeLine := if d.attachment = .dual then some l else e.activeLine }

theorem heardOn_eq_heardEntry {e : Entry} {d : Descriptor} (h : e.descriptor = some d) (l : LineId) :
    e.heardOn l = heardEntry e d l := heardOn_eq l h

theorem lostCause_of_valid {e : Entry} (h : e.presence = .present ∨ e.presence = .silent) : e.lostCause = false := by
  rcases h with h | h <;> rw [Entry.lostCause, h] <;> rfl

theorem dataValid_of {e : Entry} (h : e.presence = .present ∨ e.presence = .silent) : e.dataValid = true :=
  (dataValid_iff e).2 h

section
variable {s : State} {a : Addr} {l : LineId} {r : ReplyContents} {d : Descriptor} {tag : Word}

theorem takeReply_valid (hd : (s.entry a).descriptor = some d)
    (hp : (s.entry a).presence = .present ∨ (s.entry a).presence = .silent) (htag : (s.entry a).recordedTag = some tag) :
    s.takeReply a l r =
      if r.tag = tag then
        (s.setSlice a r.inputs).updateStation a
          { heardEntry (s.entry a) d l with presence := .present, missCount := 0, status := some r.status }
          ((s.supervision a).reported r.status)
      else s.updateStation a (heardEntry (s.entry a) d l).conflicted ((s.supervision a).withTags (some (tag, r.tag))) := by
  have hvalid : (heardEntry (s.entry a) d l).dataValid = true := dataValid_of (e := heardEntry (s.entry a) d l) hp
  have hrecorded : (heardEntry (s.entry a) d l).recordedTag = some tag := htag
  simp only [State.takeReply, heardOn_eq_heardEntry hd, hvalid, Bool.not_true, Bool.false_eq_true, if_false,
    hrecorded, Option.getD_some]

end

/-- Settles O46: the recorded tag decides between the faults reported and a conflict of tags. -/
theorem visitReply : Obligations.VisitReply := by
  intro s a l r d tag hd hp htag hnodup e t v w alternate stood stands
  have he : heardEntry (s.entry a) d l = e := rfl
  have ht : t = if r.tag = tag then
        (s.setSlice a r.inputs).updateStation a { e with presence := .present, missCount := 0, status := some r.status }
          (v.reported r.status)
      else s.updateStation a e.conflicted (v.withTags (some (tag, r.tag))) := takeReply_valid hd hp htag
  refine ⟨fun hsame => ?same, fun hother => ?other, fun b hb => ?others, ?frame⟩
  case same =>
    rw [if_pos hsame] at ht
    have hw : w = v.reported r.status := by
      show t.supervision a = _
      rw [ht, updateStation_supervision, if_pos rfl]
    rw [hw]
    refine ⟨?_, ?_, rfl, fun x => mem_standingFaults a _ _ _ hnodup x, fun hroster => ?_, rfl, ?_⟩
    · rw [ht, updateStation_entry, if_pos rfl]
    · rw [ht, updateStation_slice, Laws.slice_setSlice, if_pos rfl]
    · exact (standingFaults_ordered _ _ _ (rosterKept_ordered hroster a).2).imp fun h => (sweepRank_fault_lt a _ _).2 h
    · rw [ht]
      have hhands := hands_difference (s := s) (a := a) (v := v.reported r.status)
        (u := ((s.setSlice a r.inputs).setEntry a
          { e with presence := .present, missCount := 0, status := some r.status }).setSupervision a (v.reported r.status))
        (x := { e with presence := .present, missCount := 0, status := some r.status }) ⟨rfl, rfl, rfl⟩ hd hd
      have hends : stateEnds s a d { e with presence := .present, missCount := 0, status := some r.status } =
          if stood && !stands then [alternate] else [] := by
        rcases hp with hp | hp <;> simp [stateEnds, lostCause_eq, dataValid_eq_decide, hp, e, stood, stands, alternate]
      have hbegins : stateBegins s a d { e with presence := .present, missCount := 0, status := some r.status }
          v.conflictTags = if stands && !stood then [{ key := alternate, extra := [lineCode e.activeLine] }] else [] := by
        rcases hp with hp | hp <;>
          simp [stateBegins, lostCause_eq, dataValid_eq_decide, hp, e, stood, stands, alternate, causeIf]
      have hrefreshes : stateRefreshes s a { e with presence := .present, missCount := 0, status := some r.status } = [] := by
        rcases hp with hp | hp <;> simp [stateRefreshes, hp, causeIf]
      rw [hends, hrefreshes] at hhands
      rw [← hbegins]
      exact hhands
  case other =>
    rw [if_neg hother] at ht
    refine ⟨?_, ?_, ?_, ?_⟩
    · rw [ht, updateStation_entry, if_pos rfl]
      rfl
    · rw [ht, updateStation_slice]
    · show t.supervision a = _
      rw [ht, updateStation_supervision, if_pos rfl]
      rfl
    · rw [ht]
      have hhands := hands_sameFaults (x := e.conflicted) (v := v.withTags (some (tag, r.tag)))
        hd hd rfl rfl
      have hends : stateEnds s a d e.conflicted = if stood then [alternate] else [] := by
        rcases hp with hp | hp <;>
          simp [stateEnds, lostCause_eq, dataValid_eq_decide, hp, e, stood, alternate, Entry.conflicted]
      have hbegins : stateBegins s a d e.conflicted (v.withTags (some (tag, r.tag))).conflictTags =
          [{ key := plainKey (.station a) .addressConflict, extra := wordOctets tag ++ wordOctets r.tag }] := by
        rcases hp with hp | hp <;> simp [stateBegins, lostCause_eq, dataValid_eq_decide, hp, e, Entry.conflicted,
          Supervision.withTags, causeIf, conflictExtra]
      have hrefreshes : stateRefreshes s a e.conflicted = [] := by
        rcases hp with hp | hp <;> simp [stateRefreshes, hp, e, Entry.conflicted, causeIf]
      rw [hends, hbegins, hrefreshes] at hhands
      exact hhands
  case others =>
    rw [ht]
    split
    · simp only [updateStation_entry, updateStation_slice, updateStation_supervision, Laws.slice_setSlice,
        if_neg (Ne.symm hb), true_and]
      exact ⟨rfl, rfl⟩
    · simp only [updateStation_entry, updateStation_slice, updateStation_supervision, if_neg (Ne.symm hb), true_and]
  case frame =>
    rw [ht]
    split
    · rw [updateStation_frame]; rfl
    · rw [updateStation_frame]

end Sys2Proof.Proofs
end

section
/-! PROOFS. The outcome of a visit that carries an IDENTITY (R25 to R27, R30, R31, R34). -/

namespace Sys2Proof.Proofs

open Sys2Proof.Machine Sys2Proof.Safety Sys2Proof.Laws

/-! ## What an IDENTITY makes of an entry -/

/-- The identity agrees with the descriptor, the widths where there are circuits (R9). -/
def Agrees (i : Identity) (d : Descriptor) : Prop :=
  i.inputCount = d.inputCount ∧ i.outputCount = d.outputCount ∧
    (d.inputCount.val ≠ 0 → i.inputWidth = d.inputWidth) ∧ (d.outputCount.val ≠ 0 → i.outputWidth = d.outputWidth)

theorem agrees_iff (i : Identity) (d : Descriptor) : i.agrees d = true ↔ Agrees i d := by
  simp only [Identity.agrees, Agrees, Bool.and_eq_true, Bool.or_eq_true, decide_eq_true_eq, and_assoc, or_iff_not_imp_left,
    ne_eq]

section
variable {e : Entry} {d : Descriptor} {p : Profile} {i h : Identity}

theorem identified_agree (ha : Agrees i d) (o : JoinOrigin) (n : Nat) : e.identified d p i o n = e.beginJoin p i o n :=
  if_pos ((agrees_iff i d).2 ha)

theorem identified_other (ha : ¬ Agrees i d) (o : JoinOrigin) (n : Nat) : e.identified d p i o n = e.mismatched i :=
  if_neg (mt (agrees_iff i d).1 ha)

theorem takeIdentity_expected (hp : e.presence = .expected) :
    e.takeIdentity d p i = (e.identified d p i .expected e.missCount, none) := by
  simp only [Entry.takeIdentity, hp]

theorem takeIdentity_lost (hp : e.presence = .lost) : e.takeIdentity d p i = (e.identified d p i .lost 0, none) := by
  simp only [Entry.takeIdentity, hp]

theorem takeIdentity_mismatch (hp : e.presence = .mismatch) :
    e.takeIdentity d p i = (e.identified d p i .expected 0, none) := by
  simp only [Entry.takeIdentity, hp]

theorem takeIdentity_joining (hp : e.presence = .joining) : e.takeIdentity d p i = e.joined d p i := by
  simp only [Entry.takeIdentity, hp]

theorem joined_conflict (hh : e.identity = some h) (htag : i.tag ≠ h.tag) :
    e.joined d p i = (e.conflicted, some (h.tag, i.tag)) := by
  simp only [Entry.joined, hh, Option.getD_some]
  exact if_pos htag

theorem joined_other (hh : e.identity = some h) (htag : i.tag = h.tag) (ha : ¬ Agrees i d) :
    e.joined d p i = (e.mismatched i, none) := by
  simp only [Entry.joined, hh, Option.getD_some]
  exact (if_neg (not_not.2 htag)).trans (if_neg (mt (agrees_iff i d).1 ha))

theorem joined_agree (hh : e.identity = some h) (htag : i.tag = h.tag) (ha : Agrees i d) : e.joined d p i =
    (if p.joinThreshold ≤ e.joinCount + 1 then e.qualify else { e with joinCount := e.joinCount + 1 }, none) := by
  simp only [Entry.joined, hh, Option.getD_some]
  exact (if_neg (not_not.2 htag)).trans (if_pos ((agrees_iff i d).2 ha))

/-- No tags are kept unless a join meets another tag than that of the identity held (R32). -/
theorem takeIdentity_tags (hsame : ∀ h, e.presence = .joining → e.identity = some h → i.tag = h.tag) :
    (e.takeIdentity d p i).2 = none := by
  unfold Entry.takeIdentity
  split
  case h_4 hp =>
    unfold Entry.joined
    have htag : ¬ i.tag ≠ (e.identity.getD i).tag := by
      cases hh : e.identity with
      | none => exact not_not.2 rfl
      | some h => exact not_not.2 (hsame h hp hh)
    dsimp only
    rw [if_neg htag]
    split <;> rfl
  all_goals rfl

end

/-! ## The update it makes -/

section
variable {s : State} {a : Addr} {l : LineId} {i : Identity} {d : Descriptor}

theorem takeIdentity_eq (hd : (s.entry a).descriptor = some d) : s.takeIdentity a l i =
    s.updateStation a ((heardEntry (s.entry a) d l).takeIdentity d (s.profile d.profile) i).1
      ((s.supervision a).withTags ((heardEntry (s.entry a) d l).takeIdentity d (s.profile d.profile) i).2) := by
  simp only [State.takeIdentity, hd, heardOn_eq_heardEntry hd]

/-- What an IDENTITY leaves and hands, from what it makes of the entry. -/
theorem takeIdentity_leaves (hd : (s.entry a).descriptor = some d) {x : Entry} {tags : Option (Word × Word)}
    (hx : (heardEntry (s.entry a) d l).takeIdentity d (s.profile d.profile) i = (x, tags)) (hdx : x.descriptor = some d) :
    (s.takeIdentity a l i).entry a = x ∧ (s.takeIdentity a l i).supervision a = (s.supervision a).withTags tags ∧
      Hands s (s.takeIdentity a l i) (stateEnds s a d x) (stateBegins s a d x ((s.supervision a).withTags tags).conflictTags)
        (stateRefreshes s a x) := by
  rw [takeIdentity_eq hd, hx]
  refine ⟨by rw [updateStation_entry, if_pos rfl], by rw [updateStation_supervision, if_pos rfl], ?_⟩
  refine hands_sameFaults hd hdx ?_ ?_ <;> cases tags <;> rfl

end

theorem reportedExtra_ne_iff (x : Option Identity) (i : Identity) :
    reportedExtra x ≠ reportedExtra (some i) ↔ ¬ x.map reported = some (reported i) := by
  rw [reportedExtra_eq, reportedExtra_eq]
  cases x <;> simp [reported]

/-- Settles O47: the presence, the agreement and the tags decide the entry, and its causes are compared with those before. -/
theorem visitIdentity : Obligations.VisitIdentity := by
  intro s a l i d hd e p t agree joins mismatch lost lostStands alternate qualified other
  have hleaves := fun (x : Entry) (tags : Option (Word × Word)) => @takeIdentity_leaves s a l i d hd x tags
  have hmoves : ∀ (x : Entry), e.takeIdentity d p i = (x, none) → x.descriptor = some d → ∀ {ends begins refreshes},
      stateEnds s a d x = ends → stateBegins s a d x (s.supervision a).conflictTags = begins →
      stateRefreshes s a x = refreshes → t.entry a = x ∧ Hands s t ends begins refreshes := by
    intro x hx hdx ends begins refreshes hends hbegins hrefreshes
    obtain ⟨hentry, -, hhands⟩ := hleaves x none hx hdx
    subst hends hbegins hrefreshes
    exact ⟨hentry, hhands⟩
  refine ⟨fun hp ha => ?expected, fun hp ha => ?lost, fun hp ha => ?mismatch, fun hp ha => ?expectedOther,
    fun hp ha => ?lostOther, fun hp ha => ?mismatchOther, fun h hp hh => ⟨fun htag => ?conflict, fun htag ha => ?joinOther,
    fun htag ha hbelow => ?counts, fun htag ha hdone => ?qualifies⟩, fun hsame => ?supervision, fun b hb => ?others, ?frame⟩
  case expected =>
    have hold : (s.entry a).presence = .expected := hp
    refine hmoves (joins .expected e.missCount) ?_ ?_ ?_ ?_ ?_
    · rw [takeIdentity_expected hp, identified_agree ha]
      rfl
    all_goals by_cases hone : p.joinThreshold ≤ 1
    all_goals simp [stateEnds, stateBegins, stateRefreshes, lostCause_eq, dataValid_eq_decide, causeIf, hold, hd, joins, hone,
      e, qualified, alternate]
  case lost =>
    have hold : (s.entry a).presence = .lost := hp
    refine hmoves (joins .lost 0) ?_ ?_ ?_ ?_ ?_
    · rw [takeIdentity_lost hp, identified_agree ha]
      rfl
    all_goals by_cases hone : p.joinThreshold ≤ 1
    all_goals simp [stateEnds, stateBegins, stateRefreshes, lostCause_eq, dataValid_eq_decide, causeIf, hold, hd, joins, hone,
      e, qualified, alternate, lost]
  case mismatch =>
    have hold : (s.entry a).presence = .mismatch := hp
    refine hmoves (joins .expected 0) ?_ ?_ ?_ ?_ ?_
    · rw [takeIdentity_mismatch hp, identified_agree ha]
      rfl
    all_goals by_cases hone : p.joinThreshold ≤ 1
    all_goals simp [stateEnds, stateBegins, stateRefreshes, lostCause_eq, dataValid_eq_decide, causeIf, hold, hd, joins, hone,
      e, qualified, alternate, other]
  case expectedOther =>
    have hold : (s.entry a).presence = .expected := hp
    refine hmoves mismatch ?_ hd ?_ ?_ ?_
    · rw [takeIdentity_expected hp, identified_other ha]
      rfl
    all_goals simp [stateEnds, stateBegins, stateRefreshes, lostCause_eq, dataValid_eq_decide, causeIf, hold, mismatch, other,
      reportedExtra_eq]
  case lostOther =>
    have hold : (s.entry a).presence = .lost := hp
    refine hmoves mismatch ?_ hd ?_ ?_ ?_
    · rw [takeIdentity_lost hp, identified_other ha]
      rfl
    all_goals simp [stateEnds, stateBegins, stateRefreshes, lostCause_eq, dataValid_eq_decide, causeIf, hold, mismatch, other,
      reportedExtra_eq, lost]
  case mismatchOther =>
    have hold : (s.entry a).presence = .mismatch := hp
    refine hmoves mismatch ?_ hd ?_ ?_ ?_
    · rw [takeIdentity_mismatch hp, identified_other ha]
      rfl
    · simp [stateEnds, lostCause_eq, dataValid_eq_decide, hold, mismatch]
    · simp [stateBegins, lostCause_eq, dataValid_eq_decide, causeIf, hold, mismatch]
    · have hne := reportedExtra_ne_iff (s.entry a).identity i
      simp only [stateRefreshes, hold, mismatch, hne, e, other, causeIf]
      by_cases hsame : (s.entry a).identity.map reported = some (reported i)
      · simp [hsame]
      · simp [hsame, reportedExtra_eq]
  case conflict =>
    have hold : (s.entry a).presence = .joining := hp
    obtain ⟨hentry, hsupervision, hhands⟩ := hleaves e.conflicted (some (h.tag, i.tag))
      ((takeIdentity_joining hp).trans (joined_conflict hh htag)) hd
    refine ⟨hentry, hsupervision, ?_⟩
    have hends : stateEnds s a d e.conflicted = lostStands := by
      simp [stateEnds, lostCause_eq, dataValid_eq_decide, hold, e, Entry.conflicted, lostStands, lost]
    have hbegins : stateBegins s a d e.conflicted ((s.supervision a).withTags (some (h.tag, i.tag))).conflictTags =
        [{ key := plainKey (.station a) .addressConflict, extra := wordOctets h.tag ++ wordOctets i.tag }] := by
      simp [stateBegins, lostCause_eq, dataValid_eq_decide, hold, Entry.conflicted, causeIf, Supervision.withTags, conflictExtra]
    have hrefreshes : stateRefreshes s a e.conflicted = [] := by
      simp [stateRefreshes, hold, causeIf]
    rw [hends, hbegins, hrefreshes] at hhands
    exact hhands
  case joinOther =>
    have hold : (s.entry a).presence = .joining := hp
    refine hmoves mismatch ((takeIdentity_joining hp).trans (joined_other hh htag ha)) hd ?_ ?_ ?_
    all_goals simp [stateEnds, stateBegins, stateRefreshes, lostCause_eq, dataValid_eq_decide, causeIf, hold, mismatch, other,
      reportedExtra_eq, lostStands, lost, e]
  case counts =>
    have hold : (s.entry a).presence = .joining := hp
    refine hmoves { e with joinCount := e.joinCount + 1 } ?_ hd ?_ ?_ ?_
    · rw [takeIdentity_joining hp, joined_agree hh htag ha, if_neg (Nat.not_le.2 hbelow)]
    all_goals simp [stateEnds, stateBegins, stateRefreshes, lostCause_eq, dataValid_eq_decide, causeIf, hold, e]
  case qualifies =>
    have hold : (s.entry a).presence = .joining := hp
    refine hmoves { e with presence := .present, joinCount := 0, missCount := 0, joinOrigin := none, countdown := 0,
                           recordedTag := some h.tag } ?_ hd ?_ ?_ ?_
    · rw [takeIdentity_joining hp, joined_agree hh htag ha, if_pos hdone, Entry.qualify, hh]
      rfl
    all_goals simp [stateEnds, stateBegins, stateRefreshes, lostCause_eq, dataValid_eq_decide, causeIf, hold, e, lostStands,
      lost, alternate]
  case supervision =>
    have htags : (e.takeIdentity d p i).2 = none := takeIdentity_tags hsame
    show (s.takeIdentity a l i).supervision a = _
    rw [takeIdentity_eq hd, updateStation_supervision, if_pos rfl]
    exact congrArg (s.supervision a).withTags htags
  case others =>
    show (s.takeIdentity a l i).entry b = _ ∧ (s.takeIdentity a l i).supervision b = _
    rw [takeIdentity_eq hd, updateStation_entry, updateStation_supervision, if_neg (Ne.symm hb), if_neg (Ne.symm hb)]
    exact ⟨rfl, rfl⟩
  case frame =>
    show s.takeIdentity a l i = _
    simp only [t, takeIdentity_eq hd]
    exact updateStation_frame _ _ _ _

end Sys2Proof.Proofs
end

section
/-! PROOFS. A visit's MISS (R26 to R31, R33). -/

namespace Sys2Proof.Proofs

open Sys2Proof.Machine Sys2Proof.Safety Sys2Proof.Laws

/-! ## The entry to LOST (R33, R146) -/

/-- The state as a station enters LOST, before its transaction ends and its causes are handed (R33). -/
def lostBase (s : State) (a : Addr) (d : Descriptor) : State :=
  ((s.setEntry a ((s.entry a).lose (s.profile d.profile))).setSupervision a
    { s.supervision a with stationFaults := [], circuitFaults := [] }).setSlice a (lostSlice d (s.slice a))

section
variable {s : State} {a : Addr} {d : Descriptor}

theorem enterLost_stations (s : State) (a : Addr) (d : Descriptor) :
    (s.enterLost a d).supervised = (lostBase s a d).supervised ∧ (s.enterLost a d).scan = (lostBase s a d).scan ∧
      (s.enterLost a d).trans = ((lostBase s a d).completeStation a .stationLost).trans := by
  have hhanded : CondOnly ((lostBase s a d).completeStation a .stationLost) (s.enterLost a d) := condOnly_handChanges _ _ _
  have hcompleted := transOnly_completeWhere (lostBase s a d) (fun t => decide (t.station = a)) .stationLost
  unfold TransOnly at hcompleted
  obtain ⟨-, hsupervised, hscan, htrans⟩ := hhanded.stations
  exact ⟨hsupervised.trans (by rw [State.completeStation, hcompleted]),
    hscan.trans (by rw [State.completeStation, hcompleted]), htrans⟩

theorem enterLost_slot (i : Fin 4) :
    (s.enterLost a d).slot i = (s.slot i).filter (fun u => decide (u.station ≠ a)) := by
  obtain ⟨-, -, htrans⟩ := enterLost_stations s a d
  have hslot := slot_completeWhere (lostBase s a d) (fun t => decide (t.station = a)) .stationLost i
  have hsame : (s.enterLost a d).slot i = ((lostBase s a d).completeStation a .stationLost).slot i := by
    simp only [State.slot, htrans]
  rw [hsame]
  refine hslot.trans (congrArg (Option.filter · (s.slot i)) (funext fun u => ?_))
  rw [decide_not]

theorem enterLost_others {b : Addr} (hb : b ≠ a) : (s.enterLost a d).entry b = s.entry b ∧
    (s.enterLost a d).slice b = s.slice b ∧ (s.enterLost a d).supervision b = s.supervision b := by
  obtain ⟨hsupervised, hscan, -⟩ := enterLost_stations s a d
  obtain ⟨hentry, -⟩ := enterLost_leaves s a d
  refine ⟨(hentry b).trans (if_neg (Ne.symm hb)), ?_, ?_⟩
  · have hsame : (s.enterLost a d).slice b = (lostBase s a d).slice b := by simp only [State.slice, hscan]
    exact hsame.trans ((Laws.slice_setSlice _ a b _).trans (if_neg (Ne.symm hb)))
  · have hsame : (s.enterLost a d).supervision b = (lostBase s a d).supervision b := by
      simp only [State.supervision, hsupervised]
    exact hsame.trans ((supervision_setSupervision _ a b _).trans (if_neg (Ne.symm hb)))

theorem hands_enterLost (hd : (s.entry a).descriptor = some d) : Hands s (s.enterLost a d)
    (stateEnds s a d ((s.entry a).lose (s.profile d.profile)) ++
      (s.supervision a).stationFaults.map (stationFaultKey a) ++ (s.supervision a).circuitFaults.map (circuitFaultKey a))
    (stateBegins s a d ((s.entry a).lose (s.profile d.profile)) (s.supervision a).conflictTags)
    (stateRefreshes s a ((s.entry a).lose (s.profile d.profile))) := by
  have hagree : Agree s ((lostBase s a d).completeStation a .stationLost) := by
    have hcompleted := transOnly_completeWhere (lostBase s a d) (fun t => decide (t.station = a)) .stationLost
    unfold TransOnly at hcompleted
    rw [State.completeStation, hcompleted]
    exact ⟨rfl, rfl, rfl⟩
  have hhands : Hands s (s.enterLost a d) _ _ _ :=
    hands_difference (v := { s.supervision a with stationFaults := [], circuitFaults := [] }) hagree hd
      (show ((s.entry a).lose (s.profile d.profile)).descriptor = some d from hd)
  simpa using hhands

end

/-! ## What a MISS makes of an entry -/

/-- A station that no visit touches is left as it was. -/
def Elsewhere (s t : State) (a : Addr) : Prop :=
  ∀ b, b ≠ a → t.entry b = s.entry b ∧ t.slice b = s.slice b ∧ t.supervision b = s.supervision b

theorem elsewhere_refl (s : State) (a : Addr) : Elsewhere s s a := fun _ _ => ⟨rfl, rfl, rfl⟩

theorem elsewhere_updateStation (s : State) (a : Addr) (x : Entry) (v : Supervision) :
    Elsewhere s (s.updateStation a x v) a := fun b hb => by
  rw [updateStation_entry, updateStation_slice, updateStation_supervision, if_neg (Ne.symm hb), if_neg (Ne.symm hb)]
  exact ⟨rfl, rfl, rfl⟩

theorem elsewhere_lossRule (s : State) (a : Addr) (d : Descriptor) (n : Nat) (q : Presence) :
    Elsewhere s (s.lossRule a d n q) a := by
  unfold State.lossRule
  split
  · exact fun b hb => enterLost_others hb
  · exact elsewhere_updateStation _ _ _ _

theorem elsewhere_takeMiss (s : State) (a : Addr) : Elsewhere s (s.takeMiss a) a := by
  unfold State.takeMiss
  dsimp only
  split
  · exact elsewhere_refl s a
  · split
    · exact elsewhere_lossRule _ _ _ _ _
    · exact elsewhere_updateStation _ _ _ _
    · exact elsewhere_lossRule _ _ _ _ _
    · exact elsewhere_lossRule _ _ _ _ _
    · exact elsewhere_lossRule _ _ _ _ _
    · exact elsewhere_lossRule _ _ _ _ _
    · exact elsewhere_updateStation _ _ _ _
    · exact elsewhere_refl s a

section
variable {s : State} {a : Addr} {d : Descriptor}

/-- An update that hands nothing leaves all but the roster and the supervision. -/
theorem updateStation_silent {x : Entry} (hd : (s.entry a).descriptor = some d) (hx : x.descriptor = some d)
    (hends : stateEnds s a d x = []) (hbegins : stateBegins s a d x (s.supervision a).conflictTags = [])
    (hrefreshes : stateRefreshes s a x = []) :
    (s.updateStation a x (s.supervision a)).entry a = x ∧
      (s.updateStation a x (s.supervision a)).supervision a = s.supervision a ∧
      Hands s (s.updateStation a x (s.supervision a)) [] [] [] ∧
      s.updateStation a x (s.supervision a) = { s with
        roster := (s.updateStation a x (s.supervision a)).roster
        supervised := (s.updateStation a x (s.supervision a)).supervised } := by
  have hhands := hands_sameFaults (v := s.supervision a) hd hx rfl rfl
  rw [hends, hbegins, hrefreshes] at hhands
  refine ⟨by rw [updateStation_entry, if_pos rfl], by rw [updateStation_supervision, if_pos rfl], hhands, ?_⟩
  obtain ⟨hcond, hmode⟩ := hhands
  have hframe := updateStation_frame s a x (s.supervision a)
  rw [hcond, hmode] at hframe
  exact hframe

theorem takeMiss_expected (hd : (s.entry a).descriptor = some d) (hp : (s.entry a).presence = .expected) :
    s.takeMiss a = s.lossRule a d ((s.entry a).missCount + 1) .expected := by
  simp only [State.takeMiss, hd, hp]

theorem takeMiss_present (hd : (s.entry a).descriptor = some d) (hp : (s.entry a).presence = .present) :
    s.takeMiss a = s.lossRule a d 1 .silent := by
  simp only [State.takeMiss, hd, hp]

theorem takeMiss_silent (hd : (s.entry a).descriptor = some d) (hp : (s.entry a).presence = .silent) :
    s.takeMiss a = s.lossRule a d ((s.entry a).missCount + 1) .silent := by
  simp only [State.takeMiss, hd, hp]

theorem takeMiss_mismatch (hd : (s.entry a).descriptor = some d) (hp : (s.entry a).presence = .mismatch) :
    s.takeMiss a = s.lossRule a d ((s.entry a).missCount + 1) .mismatch := by
  simp only [State.takeMiss, hd, hp]

theorem takeMiss_lost (hd : (s.entry a).descriptor = some d) (hp : (s.entry a).presence = .lost) : s.takeMiss a =
    s.updateStation a { s.entry a with countdown := (s.profile d.profile).lostProbeInterval } (s.supervision a) := by
  simp only [State.takeMiss, hd, hp]

theorem takeMiss_joiningLost (hd : (s.entry a).descriptor = some d) (hp : (s.entry a).presence = .joining)
    (ho : (s.entry a).joinOrigin = some .lost) : s.takeMiss a =
      s.updateStation a { s.entry a with
        presence := .lost, joinOrigin := none, joinCount := 0, missCount := 0
        countdown := (s.profile d.profile).lostProbeInterval } (s.supervision a) := by
  simp only [State.takeMiss, hd, hp, ho]

theorem takeMiss_joining (hd : (s.entry a).descriptor = some d) (hp : (s.entry a).presence = .joining)
    (ho : (s.entry a).joinOrigin ≠ some .lost) : s.takeMiss a = s.lossRule a d ((s.entry a).missCount + 1) .expected := by
  simp only [State.takeMiss, hd, hp]

end

/-- Settles O48: the presence chooses the rule, and the loss threshold between the entry to LOST and the count kept. -/
theorem visitMiss : Obligations.VisitMiss := by
  intro s a d hd e v p t lost kept missed
  have hlost : ∀ n q, t = s.lossRule a d n q → e.lostCause = false → e.presence ≠ .conflict → e.presence ≠ .extra →
      e.presence ≠ .lost → p.lossThreshold ≤ n → lost := by
    intro n q ht hstands hconflict hextra hnot hn
    have ht : t = s.enterLost a d := ht.trans (if_pos hn)
    obtain ⟨hentry, hsupervision, hslice, -⟩ := enterLost_leaves s a d
    refine ⟨?_, ?_, ?_, fun i => ?_, ?_, ?_⟩
    · rw [ht, hentry, if_pos rfl]
      rfl
    · rw [ht, hsupervision]
    · rw [ht, hslice]
      show lostSlice d (s.slice a) = _
      unfold lostSlice
      cases d.lossPolicy <;> rfl
    · rw [ht]
      exact enterLost_slot i
    · rw [ht]
      exact enterLost_frame s a d
    · have hends : stateEnds s a d (e.lose p) =
          (if e.presence = .mismatch then [plainKey (.station a) .stationMismatch] else []) ++
          (if (e.presence = .present ∨ e.presence = .silent) ∧ alternateOn s d e.activeLine = true then
            [plainKey (.station a) .alternateLine] else []) := by
        simp only [e] at hstands hconflict hextra hnot ⊢
        simp [stateEnds, hstands, hconflict, hextra, dataValid_eq_decide, Entry.lose]
      have hbegins : stateBegins s a d (e.lose p) (s.supervision a).conflictTags =
          [{ key := plainKey (.station a) .stationLost, extra := [] }] := by
        simp only [e] at hstands hconflict hextra hnot ⊢
        simp [stateBegins, hstands, lostCause_eq, dataValid_eq_decide, Entry.lose, causeIf]
      have hrefreshes : stateRefreshes s a (e.lose p) = [] := by
        simp [stateRefreshes, Entry.lose, causeIf]
      have hhands := hands_enterLost hd
      rw [hends, hbegins, hrefreshes] at hhands
      rw [ht]
      exact hhands
  have hkept : ∀ x : Entry, t = s.updateStation a x v → x.descriptor = some d → stateEnds s a d x = [] →
      stateBegins s a d x (s.supervision a).conflictTags = [] → stateRefreshes s a x = [] → kept x := by
    intro x ht hx hends hbegins hrefreshes
    show t.entry a = x ∧ _
    rw [ht]
    exact updateStation_silent hd hx hends hbegins hrefreshes
  have hbelow : ∀ n q, t = s.lossRule a d n q → n < p.lossThreshold → t = s.updateStation a
      { e with presence := q, missCount := n, joinCount := 0, joinOrigin := none
               recordedTag := tagKept q e.recordedTag } v := fun n q ht hn => ht.trans (if_neg (Nat.not_le.2 hn))
  refine ⟨fun hp => ?expected, fun hp ho => ?joining, fun hp ho => ?joiningLost, fun hp => ?present, fun hp => ?silent,
    fun hp => ?mismatch, fun hp => ?lost, elsewhere_takeMiss s a⟩
  case expected =>
    have hold : (s.entry a).presence = .expected := hp
    refine ⟨hlost _ _ (takeMiss_expected hd hp) ?_ ?_ ?_ ?_, fun hn => hkept _ (hbelow _ _ (takeMiss_expected hd hp) hn) hd
      ?_ ?_ ?_⟩
    all_goals simp [stateEnds, stateBegins, stateRefreshes, lostCause_eq, dataValid_eq_decide, causeIf, hold, e]
  case joining =>
    have hold : (s.entry a).presence = .joining := hp
    have horigin : (s.entry a).joinOrigin ≠ some .lost := ho
    refine ⟨hlost _ _ (takeMiss_joining hd hp ho) ?_ ?_ ?_ ?_, fun hn => hkept _ (hbelow _ _ (takeMiss_joining hd hp ho) hn) hd
      ?_ ?_ ?_⟩
    all_goals simp [stateEnds, stateBegins, stateRefreshes, lostCause_eq, dataValid_eq_decide, causeIf, hold, horigin, e]
  case joiningLost =>
    have hold : (s.entry a).presence = .joining := hp
    have horigin : (s.entry a).joinOrigin = some .lost := ho
    refine hkept _ (takeMiss_joiningLost hd hp ho) hd ?_ ?_ ?_
    all_goals simp [stateEnds, stateBegins, stateRefreshes, lostCause_eq, dataValid_eq_decide, causeIf, hold, horigin]
  case present =>
    have hold : (s.entry a).presence = .present := hp
    refine ⟨hlost _ _ (takeMiss_present hd hp) ?_ ?_ ?_ ?_, fun hn => hkept _ (hbelow _ _ (takeMiss_present hd hp) hn) hd
      ?_ ?_ ?_⟩
    all_goals simp [stateEnds, stateBegins, stateRefreshes, lostCause_eq, dataValid_eq_decide, causeIf, hold, e]
  case silent =>
    have hold : (s.entry a).presence = .silent := hp
    refine ⟨hlost _ _ (takeMiss_silent hd hp) ?_ ?_ ?_ ?_, fun hn => hkept _ (hbelow _ _ (takeMiss_silent hd hp) hn) hd
      ?_ ?_ ?_⟩
    all_goals simp [stateEnds, stateBegins, stateRefreshes, lostCause_eq, dataValid_eq_decide, causeIf, hold, e]
  case mismatch =>
    have hold : (s.entry a).presence = .mismatch := hp
    refine ⟨hlost _ _ (takeMiss_mismatch hd hp) ?_ ?_ ?_ ?_, fun hn => hkept _ (hbelow _ _ (takeMiss_mismatch hd hp) hn) hd
      ?_ ?_ ?_⟩
    all_goals simp [stateEnds, stateBegins, stateRefreshes, lostCause_eq, dataValid_eq_decide, causeIf, hold, e]
  case lost =>
    have hold : (s.entry a).presence = .lost := hp
    refine hkept _ (takeMiss_lost hd hp) hd ?_ ?_ ?_
    all_goals simp [stateEnds, stateBegins, stateRefreshes, lostCause_eq, dataValid_eq_decide, causeIf, hold, e]

end Sys2Proof.Proofs
end

section
/-! PROOFS. A GOOD frame that ends the window it answers: of a visit, of a discovery probe, of a parameter exchange (R25,
R39, R143). -/

namespace Sys2Proof.Proofs

open Sys2Proof.Machine Sys2Proof.Safety Sys2Proof.Laws

/-! ## The window that a frame ends (R130) -/

section
variable {s : State} {l : LineId} {f : Flight} {answer : Option Frame}

theorem windowEnds_attempt {v : Visit} (h : f.job = .attempt v) :
    s.windowEnds f answer = ((s.setFlight none).attemptEnded v f.line answer).scanOn := by
  simp only [State.windowEnds, h]

theorem windowEnds_exchange {i : Fin 4} {a : Addr} (h : f.job = .exchange i a) :
    s.windowEnds f answer = ((s.setFlight none).exchangeEnded i answer).scanOn := by
  simp only [State.windowEnds, h]

theorem windowEnds_servicePoll (h : f.job = .servicePoll) :
    s.windowEnds f answer = ((s.setFlight none).pollEnded answer).scanOn := by
  simp only [State.windowEnds, h]

theorem windowEnds_probe {d : Discovery} (h : f.job = .probe d) :
    s.windowEnds f answer = ((s.setFlight none).probeEnded d f.line answer).scanOn := by
  simp only [State.windowEnds, h]

theorem line_of_awaits (h : Awaits s l f) : f.line = l := by
  obtain ⟨-, -, hline, -⟩ := h
  exact hline

theorem heard_eq (s : State) (l : LineId) : heard s l = (s.received l).setFlight none := rfl

theorem entry_heard (s : State) (l : LineId) (a : Addr) : (heard s l).entry a = s.entry a := by cases l <;> rfl

theorem slot_heard (s : State) (l : LineId) (i : Fin 4) : (heard s l).slot i = s.slot i := by cases l <;> rfl

end

/-! ## Frames of a visit and of a discovery probe (R25, R39) -/

section
variable {s : State} {l : LineId} {f : Flight} {source : Byte} {v : Visit} {d : Descriptor} {pl : List Byte}

theorem contentsOk_reply (hj : f.job = .attempt v) (hd : (s.entry v.address).descriptor = some d)
    (hr : (replyOf d pl).isSome = true) : s.contentsOk f .reply pl = true := by
  simp only [State.contentsOk, hj, hd, hr]

theorem contentsOk_identity : s.contentsOk f .identity pl = true := by
  simp only [State.contentsOk]

theorem awaited_poll (hj : f.job = .attempt v) (hk : f.frame.kind = 1) : f.awaited = [.reply] := by
  simp only [Flight.awaited, hj]
  exact if_pos hk

theorem awaited_identify (hj : f.job = .attempt v) (hk : f.frame.kind ≠ 1) : f.awaited = [.identity] := by
  simp only [Flight.awaited, hj]
  exact if_neg hk

theorem awaited_probe {x : Discovery} (hj : f.job = .probe x) : f.awaited = [.identity, .openRequest] := by
  simp only [Flight.awaited, hj]

theorem attemptEnded_reply {t : State} {x : Frame} {c : ReplyContents} (hd : (t.entry v.address).descriptor = some d)
    (hk : x.kind = FrameKind.reply.code) (hc : replyOf d x.payload = some c) :
    t.attemptEnded v l (some x) = (t.takeReply v.address l c).afterVisit v.address := by
  simp only [State.attemptEnded, hd, State.takeGood, if_pos hk, hc]

theorem attemptEnded_identity {t : State} {x : Frame} {i : Identity} (hd : (t.entry v.address).descriptor = some d)
    (hk : x.kind ≠ FrameKind.reply.code) (hi : identityOf x.payload = some i) :
    t.attemptEnded v l (some x) = (t.takeIdentity v.address l i).afterVisit v.address := by
  simp only [State.attemptEnded, hd, State.takeGood, if_neg hk, hi]

theorem probeEnded_identity {t : State} {x : Frame} {y : Discovery} {i : Identity}
    (hk : x.kind ≠ FrameKind.openRequest.code) (hi : identityOf x.payload = some i) :
    t.probeEnded y l (some x) = t.probeNext { y with found := some i } := by
  simp only [State.probeEnded, if_neg hk, hi]

end

/-- Settles O49: the frame passes the tests of R131, and its window's job takes it. -/
theorem stationFrames : Obligations.StationFrames := by
  intro s l f source hawaits hsource
  refine ⟨fun v d tag inputs code more items hj hk hd hsize hfew hgood hnodup => ?reply, fun v i hj hk hd => ?identity,
    fun d i hj => ?probe⟩
  case reply =>
    have hcontents := replyOf_octets d tag inputs code more items hsize hfew hgood hnodup
    have hreceive := receive_good hawaits hsource (k := .reply) (tg := 0) rfl
      (by rw [awaited_poll hj hk]; decide) ?size FrameKind.noConfusion
      (contentsOk_reply hj hd (by rw [hcontents]; rfl))
    case size =>
      simp only [payloadOk, wordOctets, List.length_append, List.length_cons, decide_eq_true_eq]
      omega
    refine congrArg Host.Outcome.next (hreceive.trans ?_)
    rw [windowEnds_attempt hj, ← heard_eq, line_of_awaits hawaits,
      attemptEnded_reply ((congrArg _ (entry_heard s l _)).trans hd) rfl hcontents]
  case identity =>
    obtain ⟨d, hd⟩ := Option.isSome_iff_exists.1 hd
    have hidentity := identityOf_octets i
    have hreceive := receive_good hawaits hsource (k := .identity) (tg := 0) rfl
      (by rw [awaited_identify hj hk]; decide) (by rw [payloadOk, hidentity]; rfl) FrameKind.noConfusion contentsOk_identity
    refine congrArg Host.Outcome.next (hreceive.trans ?_)
    rw [windowEnds_attempt hj, ← heard_eq, line_of_awaits hawaits,
      attemptEnded_identity ((congrArg _ (entry_heard s l _)).trans hd)
        (show FrameKind.identity.code ≠ FrameKind.reply.code by decide) hidentity]
  case probe =>
    have hidentity := identityOf_octets i
    have hreceive := receive_good hawaits hsource (k := .identity) (tg := 0) rfl
      (by rw [awaited_probe hj]; decide) (by rw [payloadOk, hidentity]; rfl) FrameKind.noConfusion contentsOk_identity
    refine congrArg Host.Outcome.next (hreceive.trans ?_)
    rw [windowEnds_probe hj, ← heard_eq, line_of_awaits hawaits, 
      probeEnded_identity (show FrameKind.identity.code ≠ FrameKind.openRequest.code by decide) hidentity]

/-! ## Frames of a parameter exchange (R143, R150) -/

section
variable {s : State} {f : Flight} {i : Fin 4} {a : Addr} {t : Transaction} {x : Frame}

theorem awaited_exchange (hj : f.job = .exchange i a) : f.awaited = [.paramAnswer, .paramRefuse] := by
  simp only [Flight.awaited, hj]

theorem contentsOk_read {pl : List Byte} (hj : f.job = .exchange i a) (hi : s.slot i = some t) (ht : t.kind = .read)
    (hlength : pl.length = t.length) : s.contentsOk f .paramAnswer pl = true := by
  simp only [State.contentsOk, hj, hi, ht, hlength, decide_true]

theorem contentsOk_write (hj : f.job = .exchange i a) (hi : s.slot i = some t) (ht : t.kind = .write) :
    s.contentsOk f .paramAnswer [] = true := by
  simp only [State.contentsOk, hj, hi, ht, List.length_nil, decide_true]

theorem contentsOk_refuse {pl : List Byte} : s.contentsOk f .paramRefuse pl = true := by
  simp only [State.contentsOk]

theorem exchangeEnded_refuse (hi : s.slot i = some t) (hk : x.kind = FrameKind.paramRefuse.code) :
    s.exchangeEnded i (some x) = s.completeAnswered i t .stationRefused (x.payload.take 1) := by
  simp only [State.exchangeEnded, hi, if_pos hk]

theorem exchangeEnded_read (hi : s.slot i = some t) (hk : x.kind ≠ FrameKind.paramRefuse.code) (ht : t.kind = .read) :
    s.exchangeEnded i (some x) = s.completeAnswered i t .done x.payload := by
  simp only [State.exchangeEnded, hi, if_neg hk, ht]

theorem exchangeEnded_write (hi : s.slot i = some t) (hk : x.kind ≠ FrameKind.paramRefuse.code) (ht : t.kind = .write) :
    s.exchangeEnded i (some x) =
      if x.toggle = flagCode t.toggle then s.completeAnswered i t .done [] else s.failAttempt i t := by
  simp only [State.exchangeEnded, hi, if_neg hk, ht]

theorem failAttempt_waits (hc : t.cancel = none) (h : t.attempts < 3) :
    s.failAttempt i t = s.setSlot i (some { t with state := .waiting }) := by
  simp only [State.failAttempt, hc, if_neg (Nat.not_le.2 h)]

theorem failAttempt_timedOut (hc : t.cancel = none) (h : 3 ≤ t.attempts) :
    s.failAttempt i t = s.complete i t .timedOut [] := by
  simp only [State.failAttempt, hc, if_pos h]

theorem failAttempt_cancelled {c : Byte} (hc : t.cancel = some c) :
    s.failAttempt i t = (s.complete i t .cancelled []).answerCancel t .ok := by
  simp only [State.failAttempt, hc]

theorem flagCode_ne (b : Bool) : flagCode (!b) ≠ flagCode b := by cases b <;> decide

end

/-- Settles O50: the frame passes the tests of R131, and the exchange completes, fails or waits. -/
theorem parameterFrames : Obligations.ParameterFrames := by
  intro s l f source i a t hawaits hsource hj hi u kind posts
  have hslot : u.slot i = some t := (slot_heard s l i).trans hi
  have hkind : t.kind.request.code = kind := by
    simp only [kind]
    cases t.kind <;> rfl
  have hcomplete : ∀ st more, t.cancel = none → ∀ x, u.complete i t st more = posts st more x := by
    intro st more hc x
    rw [complete_eq, hkind]
    simp only [posts, hc, List.append_nil]
    rfl
  have hanswer : ∀ st more x c, t.cancel = some c → (u.complete i t st more).answerCancel t x = posts st more (some x) := by
    intro st more x c hc
    rw [complete_eq, hkind]
    simp only [posts, State.answerCancel, hc]
    rfl
  have hanswered : ∀ st more, u.completeAnswered i t st more = posts st more (some .tooLate) := by
    intro st more
    cases hc : t.cancel with
    | none =>
      rw [State.completeAnswered, State.answerCancel, hc]
      exact hcomplete st more hc _
    | some c => exact hanswer st more .tooLate c hc
  have hrefuse : ∀ reason : Byte, reason ≠ 0 → exec (.paramRefuse l source reason) s =
      .next (u.exchangeEnded i (some (s.frameFrom source .paramRefuse 0 [reason]))).scanOn := fun reason hreason => by
    refine congrArg Host.Outcome.next ((receive_good hawaits hsource rfl (by rw [awaited_exchange hj]; decide)
      (by simpa [payloadOk] using hreason) FrameKind.noConfusion contentsOk_refuse).trans ?_)
    rw [windowEnds_exchange hj]
    rfl
  have hparam : ∀ toggle data, toggle.toNat ≤ 1 → data.length ≤ 32 → s.contentsOk f .paramAnswer data = true →
      exec (.paramAnswer l source toggle data) s =
        .next (u.exchangeEnded i (some (s.frameFrom source .paramAnswer toggle data))).scanOn :=
    fun toggle data htoggle hlength hcontents => by
    refine congrArg Host.Outcome.next ((receive_good hawaits hsource rfl (by rw [awaited_exchange hj]; decide)
      (show payloadOk .paramAnswer data = true from decide_eq_true hlength) (fun _ => htoggle) hcontents).trans ?_)
    rw [windowEnds_exchange hj]
    rfl
  have hwrite : ∀ b, t.kind = .write → exec (.paramAnswer l source (flagCode b) []) s = .next
      (if flagCode b = flagCode t.toggle then u.completeAnswered i t .done [] else u.failAttempt i t).scanOn :=
    fun b ht => by
    rw [hparam (flagCode b) [] (by cases b <;> decide) (Nat.zero_le _) (contentsOk_write hj hi ht),
      exchangeEnded_write hslot (show FrameKind.paramAnswer.code ≠ FrameKind.paramRefuse.code by decide) ht]
    rfl
  refine ⟨fun reason hreason => ?refused, fun toggle data ht htoggle hlength hmax => ?answered, fun ht => ?done,
    fun ht hc hfew => ?waits, fun ht hc hmany => ?timedOut, fun ht hc => ?cancelled⟩
  case refused =>
    rw [hrefuse reason hreason, exchangeEnded_refuse hslot rfl, ← hanswered]
    rfl
  case answered =>
    rw [hparam toggle data htoggle (hlength.trans_le hmax) (contentsOk_read hj hi ht hlength),
      exchangeEnded_read hslot (show FrameKind.paramAnswer.code ≠ FrameKind.paramRefuse.code by decide) ht, ← hanswered]
    rfl
  case done => rw [hwrite _ ht, if_pos rfl, hanswered]
  case waits => rw [hwrite _ ht, if_neg (flagCode_ne _), failAttempt_waits hc hfew]; rfl
  case timedOut => rw [hwrite _ ht, if_neg (flagCode_ne _), failAttempt_timedOut hc hmany, hcomplete _ _ hc none]
  case cancelled =>
    obtain ⟨c, hc⟩ := Option.isSome_iff_exists.1 hc
    rw [hwrite _ ht, if_neg (flagCode_ne _), failAttempt_cancelled hc, hanswer _ _ _ c hc]

end Sys2Proof.Proofs
end

section
/-! PROOFS. The frames of a service tool: OPEN REQUEST (R172) and SERVICE ANSWER (R173 to R175). -/

namespace Sys2Proof.Proofs

open Sys2Proof.Machine Sys2Proof.Safety Sys2Proof.Laws

/-! ## What a state is once a frame has been heard on a line -/

section
variable (s : State) (l : LineId)

theorem session_heard : (heard s l).session = s.session := by cases l <;> rfl

theorem roster_heard : (heard s l).roster = s.roster := by cases l <;> rfl

theorem cond_heard : (heard s l).cond = s.cond := by cases l <;> rfl

theorem scan_heard : (heard s l).scan = { s.scan with flight := none } := by cases l <;> rfl

theorem ownAddress_heard : (heard s l).ownAddress = s.ownAddress := by cases l <;> rfl

end

/-! ## An OPEN REQUEST (R172) -/

section
variable {s t : State} {l : LineId} {f : Flight} {source : Byte} {d : Discovery} {tag : Word} {x : Frame}

/-- The frame of the part in flight that the answer to an OPEN REQUEST is. -/
def answerFlight (s : State) (l : LineId) (d : Discovery) (done : Bool) (k : FrameKind) (payload : List Byte) : Flight :=
  { job := .sessionFrame d done, line := l, frame := s.frameTo d.address k false payload, window := none, phase := .sending }

theorem probeEnded_openRequest (hk : x.kind = FrameKind.openRequest.code) (hp : x.payload = wordOctets tag) :
    s.probeEnded d l (some x) = s.openRequested d l tag := by
  have htag : wordOf (x.payload.getD 0 0) (x.payload.getD 1 0) = tag := by
    rw [hp]
    exact wordOf_octets tag
  simp only [State.probeEnded, if_pos hk, htag]

theorem scanOn_setFlight (s : State) (f : Flight) : (s.setFlight (some f)).scanOn = s.setFlight (some f) :=
  scanOn_in_flight rfl

theorem openRequested_opened (hpermit : s.session.permitSessions = true) (hnone : s.session.current = none) :
    s.openRequested d l tag =
      ((s.openSession d.address l tag).endGroup).setFlight (some (answerFlight s l d true .sessionAccept [])) := by
  simp only [State.openRequested, hpermit, hnone, Bool.not_true, Bool.false_eq_true, if_false, Option.isSome_none]
  rfl

theorem openRequested_locked (hpermit : s.session.permitSessions = false) :
    s.openRequested d l tag = s.refuseSession d l 2 := by
  simp only [State.openRequested, hpermit, Bool.not_false, if_true]

theorem openRequested_busy (hpermit : s.session.permitSessions = true) (hopen : s.session.current.isSome = true) :
    s.openRequested d l tag = s.refuseSession d l 1 := by
  simp only [State.openRequested, hpermit, hopen, Bool.not_true, Bool.false_eq_true, if_false, if_true]

theorem refuseSession_last (h : d.rest = []) (reason : Byte) : s.refuseSession d l reason =
    (s.judge { d with refused := true }).setFlight
      (some (answerFlight s l { d with refused := true } true .sessionRefuse [reason])) := by
  simp only [State.refuseSession, h]
  rfl

theorem refuseSession_more (h : d.rest ≠ []) (reason : Byte) : s.refuseSession d l reason =
    s.setFlight (some (answerFlight s l { d with refused := true } false .sessionRefuse [reason])) := by
  obtain ⟨m, ms, hrest⟩ := List.exists_cons_of_ne_nil h
  simp only [State.refuseSession, hrest]
  rfl

/-- An OPEN REQUEST that is GOOD is taken in the slot of the probe it answers (R172). -/
theorem exec_openRequest (hawaits : Awaits s l f) (hsource : FromTarget s f source) (hj : f.job = .probe d) :
    exec (.openRequest l source tag) s = .next ((heard s l).openRequested d l tag).scanOn := by
  have hreceive := receive_good hawaits hsource (k := .openRequest) (tg := 0) (pl := wordOctets tag) rfl
    (by rw [awaited_probe hj]; decide) rfl FrameKind.noConfusion (by simp only [State.contentsOk])
  refine congrArg Host.Outcome.next (hreceive.trans ?_)
  rw [windowEnds_probe hj, ← heard_eq, line_of_awaits hawaits, probeEnded_openRequest rfl rfl]

end

theorem session_openSession (s : State) (a : Addr) (l : LineId) (tag : Word) :
    (s.openSession a l tag).session = { s.session with current := some (opened s a l tag) } := by
  rw [State.openSession, updateStation_frame]
  rfl

theorem entry_openSession (s : State) (a : Addr) (l : LineId) (tag : Word) (b : Addr) : (s.openSession a l tag).entry b =
    if a = b then { s.entry a with presence := .service, identity := none } else s.entry b :=
  updateStation_entry s a b _ (s.supervision a)

theorem session_endGroup (t : State) : t.endGroup.session = t.session := by
  rw [endGroup_eq]

theorem entry_endGroup (t : State) (b : Addr) : t.endGroup.entry b = t.entry b := by
  rw [endGroup_eq]
  rfl

theorem opened_heard (s : State) (l m : LineId) (a : Addr) (tag : Word) : opened (heard s l) a m tag = opened s a m tag := by
  cases l <;> rfl

theorem answerFlight_heard (s : State) (l m : LineId) : answerFlight (heard s l) m = answerFlight s m := by
  cases l <;> rfl

/-- Settles O51: the permission and the session open decide between the acceptance and the two refusals. -/
theorem openRequestTaken : Obligations.OpenRequestTaken := by
  intro s l f source d tag hawaits hsource hj howed x own sends opens e refusedWith
  have hx : x = .next ((heard s l).openRequested d l tag).scanOn := exec_openRequest hawaits hsource hj
  have hpermits : ∀ {b}, s.session.permitSessions = b → (heard s l).session.permitSessions = b := fun h => by
    rwa [session_heard]
  have hsends : ∀ (y : Discovery) done (k : FrameKind) payload, y.address = d.address →
      answerFlight s l y done k payload = sends (.sessionFrame y done) k.code payload := by
    intro y done k payload hy
    unfold answerFlight
    rw [hy]
    rfl
  have hopens : s.session.permitSessions = true → s.session.current = none → x = .next
      ((((heard s l).openSession d.address l tag).endGroup).setFlight (some (sends (.sessionFrame d true) 10 []))) := by
    intro hpermit hnone
    rw [hx, openRequested_opened (hpermits hpermit) (by rwa [session_heard]), scanOn_setFlight, answerFlight_heard,
      hsends d _ _ _ rfl]
    rfl
  have hrefuses : ∀ reason, (heard s l).openRequested d l tag = (heard s l).refuseSession d l reason →
      refusedWith reason := by
    intro reason hreason
    rw [hreason] at hx
    refine ⟨fun hlast => ?_, fun hmore => ?_⟩
    · rw [hx, refuseSession_last hlast, scanOn_setFlight, answerFlight_heard]
      exact congrArg (fun g => Host.Outcome.next (((heard s l).judge { d with refused := true }).setFlight (some g)))
        (hsends { d with refused := true } _ .sessionRefuse _ rfl)
    · rw [hx, refuseSession_more hmore, scanOn_setFlight, answerFlight_heard]
      exact congrArg (fun g => Host.Outcome.next ((heard s l).setFlight (some g))) (hsends { d with refused := true } _ .sessionRefuse _ rfl)
  refine ⟨fun hpermit hnone hd hp => ?opened, fun hpermit hnone => ?leaves,
    fun hlocked => hrefuses 2 (openRequested_locked (hpermits hlocked)),
    fun hpermit hbusy => hrefuses 1 (openRequested_busy (hpermits hpermit) (by rwa [session_heard]))⟩
  case opened =>
    intro u
    have hentry : (heard s l).entry d.address = e := entry_heard s l _
    have hopen : (heard s l).openSession d.address l tag =
        if e.presence = .extra then u.finishCause (plainKey (.station d.address) .stationExtra) else u := by
      rw [openSession_eq (heard s l) d.address l tag (by rwa [hentry]) (by rwa [hentry]), hentry, session_heard,
        roster_heard, opened_heard]
      rfl
    rw [hopens hpermit hnone, hopen]
  case leaves =>
    have hsession : ((heard s l).openSession d.address l tag).endGroup.session =
        { s.session with current := some opens } := by
      rw [session_endGroup, session_openSession, session_heard, opened_heard]
      rfl
    have hentry : ∀ b, ((heard s l).openSession d.address l tag).endGroup.entry b =
        if d.address = b then { e with presence := .service, identity := none } else s.entry b := fun b => by
      rw [entry_endGroup, entry_openSession, entry_heard, entry_heard]
    have hx := hopens hpermit hnone
    generalize ((heard s l).openSession d.address l tag).endGroup = t at hx hsession hentry
    exact ⟨_, hx, hsession, (hentry _).trans (if_pos rfl), fun b hb => (hentry b).trans (if_neg (Ne.symm hb)), rfl⟩

end Sys2Proof.Proofs
end

section
/-! PROOFS. A GOOD SERVICE ANSWER (R173 to R175). -/

namespace Sys2Proof.Proofs

open Sys2Proof.Machine Sys2Proof.Safety Sys2Proof.Laws

/-! ## The contents of a SERVICE ANSWER (R174) -/

theorem takeContents_keepalive (s : State) : s.takeContents [0] = s := rfl

theorem takeContents_close (s : State) : s.takeContents [1] = s.endSession .closed := rfl

theorem takeContents_readEntry (s : State) (n a : Byte) :
    s.takeContents [2, n, a] = s.takeRequest n .readEntry (fun u => (u.readEntry a, u)) := rfl

theorem takeContents_readCondition (s : State) (n p : Byte) :
    s.takeContents [3, n, p] = s.takeRequest n .readCondition (fun u => (u.readCondition p, u)) := rfl

theorem takeContents_setOverride (s : State) (n st d c : Byte) (v : Word) :
    s.takeContents ([4, n, st, d, c] ++ wordOctets v) =
      s.takeRequest n .setOverride (fun u => u.setOverride .session st d c v) := by
  show s.takeContents [4, n, st, d, c, lowOctet v, highOctet v] = _
  exact congrArg (fun w => s.takeRequest n .setOverride (fun u => u.setOverride .session st d c w)) (wordOf_octets v)

theorem takeContents_removeOverride (s : State) (n st d c : Byte) : s.takeContents [5, n, st, d, c] =
    s.takeRequest n .removeOverride (fun u => u.removeOverride .session st d c) := rfl

section
variable {s : State} {o : OpenSession} {n : Byte} {k : RequestKind} {run : State → Answer × State}

theorem takeRequest_new (h : s.session.current = some o) (hn : o.lastNumber ≠ some n) :
    s.takeRequest n k run = (run s).2.storeResult n k (run s).1 := by
  simp only [State.takeRequest, h, if_neg hn]

theorem takeRequest_again (h : s.session.current = some o) (hn : o.lastNumber = some n) :
    s.takeRequest n k run = s.repeatResult := by
  simp only [State.takeRequest, h, if_pos hn]

theorem storeResult_eq (h : s.session.current = some o) (x : Answer) : s.storeResult n k x = { s with session :=
    { s.session with current := some { o with
      lastNumber := some n
      result := some { delivered := false, number := n, kind := k, status := x.status, fields := x.result } } } } := by
  simp only [State.storeResult, h, Option.map_some, State.setSession]

theorem repeatResult_eq (h : s.session.current = some o) : s.repeatResult = { s with session :=
    { s.session with current := some { o with result := o.result.map (fun r => { r with delivered := false }) } } } := by
  simp only [State.repeatResult, h, Option.map_some, State.setSession]

theorem deliver_eq (h : s.session.current = some o) : s.deliver = { s with session :=
    { s.session with current := some { o with
      timer := s.session.sessionTime, result := o.result.map (fun r => { r with delivered := true }) } } } := by
  simp only [State.deliver, h, Option.map_some, State.setSession]

theorem pollEnded_good (h : s.session.current = some o) (x : Frame) :
    s.pollEnded (some x) = (s.deliver.takeContents x.payload).endGroup := by
  simp only [State.pollEnded, State.takeServiceAnswer, h]

end

theorem session_setOverride (s : State) (w : Owner) (st d c : Byte) (v : Word) :
    (s.setOverride w st d c v).2.session = s.session := by
  rw [(overrideOnly_setOverride s w st d c v).1]

theorem session_removeOverride (s : State) (w : Owner) (st d c : Byte) :
    (s.removeOverride w st d c).2.session = s.session := by
  rw [(overrideOnly_removeOverride s w st d c).1]

/-- A GOOD SERVICE ANSWER is taken by the session whose poll it answers (R173). -/
theorem receive_serviceAnswer {s : State} {l : LineId} {f : Flight} {source : Byte} {o : OpenSession} {payload : List Byte}
    (hawaits : Awaits s l f) (hsource : FromTarget s f source) (hj : f.job = .servicePoll)
    (ho : s.session.current = some o) (hpayload : serviceAnswerOk payload = true) :
    s.receive l (.ok (s.frameFrom source .serviceAnswer 0 payload)) =
      ((heard s l).deliver.takeContents payload).endGroup.scanOn := by
  have hawaited : f.awaited = [.serviceAnswer] := by simp only [Flight.awaited, hj]
  have hreceive := receive_good hawaits hsource (k := .serviceAnswer) (tg := 0) (pl := payload) rfl
    (by rw [hawaited]; decide) rfl FrameKind.noConfusion (by simpa only [State.contentsOk] using hpayload)
  rw [hreceive, windowEnds_servicePoll hj, ← heard_eq, pollEnded_good (o := o) (by rwa [session_heard])]
  rfl

/-- The session once its poll is answered, with a result in place of the one it holds (R173, R174). -/
def polledWith (s : State) (l : LineId) (o : OpenSession) (q : Option ServiceResult) : State :=
  { heard s l with
    session := { s.session with current := some { o with timer := s.session.sessionTime, result := q } } }

/-- Settles O52: the poll's answer restarts the timer, and its contents are taken by the session. -/
theorem serviceAnswers : Obligations.ServiceAnswers := by
  intro s l f source o hawaits hsource hj ho howed kept u stores repeated again
  have hdeliver : (heard s l).deliver = u := by
    rw [deliver_eq (o := o) (by rwa [session_heard]), session_heard]
  have hu : u.session.current = some kept := rfl
  have howedHeard : (heard s l).cond.sweepOwed = false := by
    rw [cond_heard]
    exact howed
  have hreceive : ∀ payload, serviceAnswerOk payload = true →
      s.receive l (.ok (s.frameFrom source .serviceAnswer 0 payload)) = (u.takeContents payload).endGroup.scanOn :=
    fun payload hpayload => by
      rw [receive_serviceAnswer hawaits hsource hj ho hpayload, hdeliver]
  have hnew : ∀ {n k} (run : State → Answer × State), (run u).2.session = u.session → o.lastNumber ≠ some n →
      u.takeRequest n k run = stores (run u).2 n k (run u).1 := fun run hsession hn => by
    rw [takeRequest_new hu hn, storeResult_eq (o := kept) (by rw [hsession, hu])]
  have hagain : ∀ {n k} (run : State → Answer × State), o.lastNumber = some n → u.takeRequest n k run = again :=
    fun run hn => by
      rw [takeRequest_again hu hn, repeatResult_eq hu]
      have hpending : (o.result.map (fun q => { q with delivered := true })).map (fun q => { q with delivered := false }) =
          o.result.map (fun q => { q with delivered := false }) := by
        cases o.result <;> rfl
      exact congrArg (polledWith s l o) hpending
  have hquiet : ∀ v : SessionUnit, ({ heard s l with session := v } : State).endGroup = { heard s l with session := v } :=
    fun v => endGroup_of_not_owed howedHeard
  refine ⟨congrArg Host.Outcome.next ?keepalive, congrArg Host.Outcome.next (hreceive [1] rfl),
    fun n address hn => congrArg Host.Outcome.next ?readEntry,
    fun n position hn => congrArg Host.Outcome.next ?readCondition,
    fun n st d c v hn => congrArg Host.Outcome.next ?setOverride,
    fun n st d c hn => congrArg Host.Outcome.next ?removeOverride, fun n x st d c v hn =>
    ⟨congrArg Host.Outcome.next ?_, congrArg Host.Outcome.next ?_, congrArg Host.Outcome.next ?_,
      congrArg Host.Outcome.next ?_⟩⟩
  case keepalive => rw [hreceive [0] rfl, takeContents_keepalive, hquiet]
  case readEntry =>
    rw [hreceive [2, n, address] rfl, takeContents_readEntry, hnew _ rfl hn]
    exact congrArg State.scanOn (hquiet _)
  case readCondition =>
    rw [hreceive [3, n, position] rfl, takeContents_readCondition, hnew _ rfl hn]
    exact congrArg State.scanOn (hquiet _)
  case setOverride =>
    rw [hreceive ([4, n, st, d, c] ++ wordOctets v) rfl, takeContents_setOverride,
      hnew _ (session_setOverride u .session st d c v) hn]
  case removeOverride =>
    rw [hreceive [5, n, st, d, c] rfl, takeContents_removeOverride, hnew _ (session_removeOverride u .session st d c) hn]
  · rw [hreceive [2, n, x] rfl, takeContents_readEntry, hagain _ hn]
    exact congrArg State.scanOn (hquiet _)
  · rw [hreceive [3, n, x] rfl, takeContents_readCondition, hagain _ hn]
    exact congrArg State.scanOn (hquiet _)
  · rw [hreceive ([4, n, st, d, c] ++ wordOctets v) rfl, takeContents_setOverride, hagain _ hn]
    exact congrArg State.scanOn (hquiet _)
  · rw [hreceive [5, n, st, d, c] rfl, takeContents_removeOverride, hagain _ hn]
    exact congrArg State.scanOn (hquiet _)

end Sys2Proof.Proofs
end

section
/-! PROOFS. The expiries of the timers (R83, R133, R135, R164, R176). -/

namespace Sys2Proof.Proofs

open Sys2Proof.Machine Sys2Proof.Safety Sys2Proof.Laws

/-- A line that returns leaves WITHDRAWN, so that LINE WITHDRAWN ends (R135). -/
theorem returnLine_withdrawn {s : State} {l : LineId} (h : (s.line l).state = .withdrawn) :
    s.returnLine l = ((s.setLine l { s.line l with
      state := if s.mode = .scanning ∨ s.mode = .held then .active else .quiet
      errorCount := 0, withdrawal := none, figures := none
      errorWindow := if s.mode = .scanning ∨ s.mode = .held then some (1000 * s.config.setup.errorWindow)
        else none }).finishCause (plainKey (.line l) .lineWithdrawn)).endGroup := by
  obtain ⟨extra, hcauses⟩ : ∃ extra, s.causesOfLine l = [{ key := plainKey (.line l) .lineWithdrawn, extra := extra }] :=
    ⟨_, if_pos (decide_eq_true h)⟩
  unfold State.returnLine
  rw [hcauses]
  by_cases hscans : s.mode = .scanning ∨ s.mode = .held
  · simp only [if_pos hscans, (scans_iff s.mode).2 hscans, State.causesOfLine, line_setLine]
    simp [causeIf, State.handChanges, hasKey, refreshesOf, LineEngine.activate, State.errorWindowMs]
  · have hnot : s.mode.scans = false := Bool.eq_false_iff.2 fun hs => hscans ((scans_iff s.mode).1 hs)
    simp only [if_neg hscans, hnot, State.causesOfLine, line_setLine]
    simp [causeIf, State.handChanges, hasKey, refreshesOf, LineEngine.quieten]

theorem isOpen_iff (x : Staging) : x.isOpen = true ↔ ∃ c, x = .opened c := by
  cases x <;> simp [Staging.isOpen]

/-- Settles O60: each expiry is guarded by its timer. -/
theorem timerExpiries : Obligations.TimerExpiries := by
  intro s howed
  refine ⟨fun h => ?refreshStopped, fun h => ?refresh, fun l h => ?windowStopped, fun l h => ?window, fun l h => ?notWithdrawn,
    fun l h => ?returns, fun h => ?gapStopped, fun c hc h => ?gap, fun h => ?closed, fun o ho hkept hservice => ?session,
    fun o ho hkept => ?left⟩
  case refreshStopped => simp [exec, execOutputRefreshTimerExpiry, h]
  case refresh =>
    exact congrArg Host.Outcome.next (if_pos h)
  case windowStopped => simp [exec, execErrorWindowExpiry, h]
  case window => exact congrArg Host.Outcome.next (if_pos h)
  case notWithdrawn => exact congrArg Host.Outcome.next (if_neg h)
  case returns => exact congrArg Host.Outcome.next ((if_pos h).trans (returnLine_withdrawn h))
  case gapStopped =>
    refine congrArg Host.Outcome.next (if_neg fun hboth => ?_)
    obtain ⟨hopen, htimer⟩ := Bool.and_eq_true_iff.1 hboth
    rcases h with h | h
    · rw [h] at htimer; cases htimer
    · obtain ⟨c, hc⟩ := (isOpen_iff _).1 hopen
      exact h c hc
  case gap =>
    exact congrArg Host.Outcome.next (if_pos (by rw [(isOpen_iff _).2 ⟨c, hc⟩, h]; rfl))
  case closed =>
    exact congrArg Host.Outcome.next ((congrArg State.endGroup (endSession_none h)).trans (endGroup_of_not_owed howed))
  case session =>
    exact congrArg (fun t : State => Host.Outcome.next t.endGroup)
      (endSession_eq .timedOut (overrideKeys_of_tablesKept hkept) ho hservice)
  case left =>
    have hleft := sessionLeft_endSession .timedOut (overrideKeys_of_tablesKept hkept) ho
    refine ⟨_, rfl, ?_⟩
    generalize s.endSession .timedOut = t at hleft
    rw [endGroup_eq]
    exact ⟨hleft.session, hleft.overrides, congrArg Entry.presence hleft.entry_tool,
      congrArg Entry.identity hleft.entry_tool, hleft.port⟩

end Sys2Proof.Proofs
end

section
/-! PROOFS. The part's own traffic: the end of a frame sent and the silence of a reply window (R24, R39, R129, R130,
R144). -/

namespace Sys2Proof.Proofs

open Sys2Proof.Machine Sys2Proof.Safety Sys2Proof.Laws

section
variable {s : State} {f : Flight} {p : Phase}

theorem inPhase_none (h : ∀ f, s.scan.flight = some f → f.phase ≠ p) : s.inPhase p = none :=
  Option.filter_eq_none_iff.2 fun f hf he => h f hf (of_decide_eq_true he)

theorem inPhase_some (h : s.scan.flight = some f) (hp : f.phase = p) : s.inPhase p = some f :=
  Option.filter_eq_some_iff.2 ⟨h, decide_eq_true hp⟩

theorem frameSent_sends (h : s.scan.flight = some f) (hp : f.phase = .sending) : exec .frameSent s = .next (s.sent f) := by
  simp only [exec, execFrameSent, inPhase_some h hp]

theorem replyWindowExpiry_ends (h : s.scan.flight = some f) (hp : f.phase = .waiting) :
    exec .replyWindowExpiry s = .next (s.windowEnds f none) := by
  simp only [exec, execReplyWindowExpiry, inPhase_some h hp]

theorem sent_opens (h : f.window.isSome = true) : s.sent f = s.setFlight (some { f with phase := .waiting }) := by
  obtain ⟨w, hw⟩ := Option.isSome_iff_exists.1 h
  simp only [State.sent, hw]

theorem sent_sessionLast {d : Discovery} (h : f.window = none) (hj : f.job = .sessionFrame d true) :
    s.sent f = (s.setFlight none).scanOn := by
  simp only [State.sent, h, hj]

theorem sent_sessionMore {d : Discovery} (h : f.window = none) (hj : f.job = .sessionFrame d false) :
    s.sent f = ((s.setFlight none).probeNext d).scanOn := by
  simp only [State.sent, h, hj]

/-- A visit without an attempt left, or without a line for one, is missed (R24, R41). -/
theorem nextAttempt_missed {a : Addr} {d : Descriptor} {last : Option LineId} {left : Nat}
    (h : left = 0 ∨ s.attemptLine (s.entry a) d last = none) : s.nextAttempt a d last left = s.visitMissed a := by
  have hnone : s.makeAttempt a d last left = none := by
    rcases h with rfl | h
    · rfl
    · exact makeAttempt_none h left
  simp only [State.nextAttempt, hnone]

theorem nextAttempt_sent {a : Addr} {d : Descriptor} {last : Option LineId} {left : Nat} {l : LineId} (hleft : 0 < left)
    (h : s.attemptLine (s.entry a) d last = some l) : s.nextAttempt a d last left =
      s.send (.attempt ⟨a, left - 1, some l⟩) l (s.visitFrame a d) (some (s.profile d.profile).replyWindow) := by
  obtain ⟨n, rfl⟩ := Nat.exists_eq_succ_of_ne_zero (Nat.pos_iff_ne_zero.1 hleft)
  simp only [State.nextAttempt, makeAttempt_some n h]
  rfl

theorem attemptEnded_silent {v : Visit} {l : LineId} {d : Descriptor} (hd : (s.entry v.address).descriptor = some d) :
    s.attemptEnded v l none = s.nextAttempt v.address d v.last v.left := by
  simp only [State.attemptEnded, hd]

theorem exchangeEnded_silent {i : Fin 4} {t : Transaction} (hi : s.slot i = some t) :
    s.exchangeEnded i none = s.failAttempt i t := by
  simp only [State.exchangeEnded, hi]

end

/-- Settles O54: the job in flight says what its frame's end or its window's silence leads to. -/
theorem ownTraffic : Obligations.OwnTraffic := by
  intro s
  refine ⟨fun h => ?notSending, fun h => ?notWaiting, fun f hf => ?inFlight⟩
  case notSending => simp only [exec, execFrameSent, inPhase_none h]
  case notWaiting => simp only [exec, execReplyWindowExpiry, inPhase_none h]
  intro u posts
  refine ⟨fun hp hw => ?opens, fun d hp hw hj => ?last, fun d hp hw hj => ?more, fun v d hp hj hd hleft m hm => ?again,
    fun v d hp hj hd hend => ?missed, fun i a t hp hj hi => ⟨fun hc hfew => ?waits, fun hc hmany => ?timedOut,
      fun tag hc => ?cancelled⟩, fun hp hj => ?servicePoll, fun d hp hj => ?probe⟩
  case opens => rw [frameSent_sends hf hp, sent_opens hw]
  case last => rw [frameSent_sends hf hp, sent_sessionLast hw hj]
  case more => rw [frameSent_sends hf hp, sent_sessionMore hw hj]
  case again =>
    rw [replyWindowExpiry_ends hf hp, windowEnds_attempt hj, attemptEnded_silent (s := u) hd,
      nextAttempt_sent (s := u) hleft hm, State.send, scanOn_setFlight]
    rfl
  case missed =>
    rw [replyWindowExpiry_ends hf hp, windowEnds_attempt hj, attemptEnded_silent (s := u) hd,
      nextAttempt_missed (s := u) hend]
    rfl
  case servicePoll =>
    rw [replyWindowExpiry_ends hf hp, windowEnds_servicePoll hj]
    rfl
  case probe =>
    rw [replyWindowExpiry_ends hf hp, windowEnds_probe hj]
    rfl
  all_goals rw [replyWindowExpiry_ends hf hp, windowEnds_exchange hj, exchangeEnded_silent (s := u) hi]
  case waits =>
    rw [failAttempt_waits hc hfew]
    rfl
  case timedOut =>
    rw [failAttempt_timedOut hc hmany, complete_eq]
    simp only [posts, List.append_nil]
    cases t.kind <;> rfl
  case cancelled =>
    rw [failAttempt_cancelled hc, complete_eq, State.answerCancel, hc]
    simp only [posts, List.append_nil]
    cases t.kind <;> rfl

end Sys2Proof.Proofs
end

section
/-! PROOFS. The discovery slot: its next probe and its judgement (R38, R39). -/

namespace Sys2Proof.Proofs

open Sys2Proof.Machine Sys2Proof.Safety Sys2Proof.Laws

theorem lineActive_of {s : State} {l : LineId} (h : (s.line l).state = .active) : s.lineActive l = true :=
  decide_eq_true h

theorem lineActive_of_not {s : State} {l : LineId} (h : (s.line l).state ≠ .active) : s.lineActive l = false :=
  decide_eq_false h

/-! ## The entries that discovery may choose (R38) -/

/-- Whether discovery may choose an entry, in the words of the statements (R38). -/
def Probeable (e : Entry) : Prop := e.descriptor = none ∧ (e.presence = .absent ∨ e.presence = .extra)

theorem probeable_iff (e : Entry) : e.probeable = true ↔ Probeable e := by
  unfold Entry.probeable Probeable Entry.configured
  cases e.presence <;> simp

theorem probeable_of_not {e : Entry} (h : ¬ Probeable e) : e.probeable = false :=
  Bool.eq_false_iff.2 fun hp => h ((probeable_iff e).1 hp)

section
variable {s : State} {d : Discovery}

/-! ## The next probe (R39, R109) -/

theorem probe_eq (l : LineId) : s.probe d l = s.setFlight (some
    { job := .probe d, line := l
      frame := { dest := octet d.address.val, source := octet s.ownAddress.val, kind := 3, toggle := 0, payload := [] }
      window := some s.config.setup.rate.defaultWindow, phase := .sending }) := rfl

theorem probeNext_active {l : LineId} {ls : List LineId} (h : d.rest = l :: ls) (hl : (s.line l).state = .active) :
    s.probeNext d = s.probe { d with rest := ls } l := by
  simp only [State.probeNext, h, lineActive_of hl, if_true]

theorem probeNext_skips {l m : LineId} {ls : List LineId} (h : d.rest = m :: l :: ls) (hm : (s.line m).state ≠ .active)
    (hl : (s.line l).state = .active) : s.probeNext d = s.probe { d with rest := ls } l := by
  simp only [State.probeNext, h, lineActive_of hl, lineActive_of_not hm, Bool.false_eq_true, if_false, if_true]

theorem probeNext_judges (hlength : d.rest.length ≤ 2) (h : ∀ m ∈ d.rest, (s.line m).state ≠ .active) :
    s.probeNext d = s.judge d := by
  unfold State.probeNext
  split
  next => rfl
  next l ls hrest =>
    rw [hrest] at h hlength
    rw [lineActive_of_not (h l List.mem_cons_self), if_neg Bool.false_ne_true]
    split
    next => rfl
    next m ms =>
      have hm := h m (List.mem_cons_of_mem _ List.mem_cons_self)
      rw [lineActive_of_not hm, if_neg Bool.false_ne_true]
      rfl

/-! ## The judgement (R39) -/

theorem judge_elsewhere (h : ¬ Probeable (s.entry d.address)) : s.judge d = s := by
  simp only [State.judge, probeable_of_not h, Bool.not_false, if_true]

theorem judge_refused (hfound : d.found = none) (hrefused : d.refused = true) : s.judge d = s := by
  simp only [State.judge, hfound, hrefused, if_true, ite_self]

theorem judge_found {i : Identity} (h : Probeable (s.entry d.address)) (hfound : d.found = some i) :
    s.judge d = (s.updateStation d.address { s.entry d.address with presence := .extra, identity := some i }
      (s.supervision d.address)).endGroup := by
  simp only [State.judge, (probeable_iff _).2 h, Bool.not_true, Bool.false_eq_true, if_false, hfound]

theorem judge_notFound (h : Probeable (s.entry d.address)) (hfound : d.found = none) (hrefused : d.refused = false) :
    s.judge d = (s.updateStation d.address { s.entry d.address with presence := .absent, identity := none }
      (s.supervision d.address)).endGroup := by
  simp only [State.judge, (probeable_iff _).2 h, Bool.not_true, Bool.false_eq_true, if_false, hfound, hrefused]

/-- An update that leaves the supervision leaves all but the roster to the condition unit (R25). -/
theorem updateStation_roster_frame (s : State) (a : Addr) (x : Entry) : s.updateStation a x (s.supervision a) = { s with
    roster := s.roster.set a.val x
    cond := (s.updateStation a x (s.supervision a)).cond
    mode := (s.updateStation a x (s.supervision a)).mode } := by
  have hsupervised : s.supervised.set a.val (s.supervision a) = s.supervised := by simp [State.supervision]
  conv_lhs => rw [updateStation_frame, updateStation_roster, updateStation_supervised, hsupervised]

/-- Between ABSENT and EXTRA of an entry that is not configured, STATION EXTRA alone is handed (R38, R40). -/
theorem hands_probeable {a : Addr} {x : Entry} (h : Probeable (s.entry a)) (hx : Probeable x) :
    Hands s (s.updateStation a x (s.supervision a))
      (if (s.entry a).presence = .extra ∧ x.presence ≠ .extra then [plainKey (.station a) .stationExtra] else [])
      (causeIf (decide ((s.entry a).presence ≠ .extra ∧ x.presence = .extra)) (.station a) .stationExtra
        (reportedExtra x.identity))
      (causeIf (decide ((s.entry a).presence = .extra ∧ x.presence = .extra ∧
        reportedExtra (s.entry a).identity ≠ reportedExtra x.identity)) (.station a) .stationExtra
        (reportedExtra x.identity)) := by
  obtain ⟨hd, hp⟩ := h
  obtain ⟨hdx, hpx⟩ := hx
  refine hands_handChanges (s := s) (u := (s.setEntry a x).setSupervision a (s.supervision a)) ⟨rfl, rfl, rfl⟩ ?_ ?_ ?_
  all_goals
    rw [State.causesOfStation, stationCauses_eq, stationCauses_eq, alternateLine_none hd, alternateLine_none hdx]
  · rw [causeList_missing_same_faults]
    rcases hp with hp | hp <;> rcases hpx with hpx | hpx <;> simp [hp, hpx, Entry.lostCause, causeIf]
  · rw [causeList_missing_same_faults]
    rcases hp with hp | hp <;> rcases hpx with hpx | hpx <;> simp [hp, hpx, Entry.lostCause, causeIf]
  · rw [causeList_refreshes_same_faults]
    rcases hp with hp | hp <;> rcases hpx with hpx | hpx <;> simp [hp, hpx, causeIf]

end

/-- Settles O57: the slot's lines are looked at in turn, and the judgement is one update of the entry. -/
theorem discoveryJudged : Obligations.DiscoveryJudged := by
  intro s d e key probeable
  refine ⟨fun skipped l rest hrest hfew hskipped hl => ?probed, fun hnone hlength => probeNext_judges hlength hnone,
    fun hnot => judge_elsewhere hnot, fun _ hfound hrefused => judge_refused hfound hrefused,
    fun i hprobe hfound => ?extra, fun hprobe hfound hrefused => ?absent⟩
  case probed =>
    have hprobe : s.probeNext d = s.probe { d with rest := rest } l := by
      match skipped, hfew with
      | [], _ => exact probeNext_active hrest hl
      | [m], _ => exact probeNext_skips hrest (hskipped m List.mem_cons_self) hl
    rw [hprobe, probe_eq]
    cases s.config.setup.rate <;> rfl
  case extra =>
    refine ⟨_, judge_found hprobe hfound, updateStation_roster_frame _ _ _, ?_⟩
    have hands := hands_probeable (x := { e with presence := .extra, identity := some i }) hprobe ⟨hprobe.1, Or.inr rfl⟩
    obtain ⟨-, hp⟩ := hprobe
    have hextra : reportedExtra (some i) = reported i := rfl
    simp only [reportedExtra_ne_iff] at hands
    rcases hp with hp | hp <;> simpa only [e, key, hp, hextra, causeIf, decide_eq_true_eq, ne_eq, not_true, not_false_iff,
      and_true, true_and, and_false, reduceCtorEq, if_true, if_false] using hands
  case absent =>
    refine ⟨_, judge_notFound hprobe hfound hrefused, updateStation_roster_frame _ _ _, ?_⟩
    have hands := hands_probeable (x := { e with presence := .absent, identity := none }) hprobe ⟨hprobe.1, Or.inl rfl⟩
    simpa [causeIf] using hands

end Sys2Proof.Proofs
end

section
/-! PROOFS. The payload of a POLL (R84, R85). -/

namespace Sys2Proof.Proofs

open Sys2Proof.Machine Sys2Proof.Safety Sys2Proof.Laws

/-! ## Packed circuits (R18, R192) -/

theorem getElem?_flatMap_pairs {α : Type} (f g : α → Byte) (xs : List α) (j : Nat) :
    (xs.flatMap (fun x => [f x, g x]))[2 * j]? = xs[j]?.map f ∧
      (xs.flatMap (fun x => [f x, g x]))[2 * j + 1]? = xs[j]?.map g := by
  induction xs generalizing j with
  | nil => simp
  | cons x xs ih =>
    cases j with
    | zero => simp
    | succ j => simpa [Nat.mul_succ] using ih j

theorem length_packCircuits (w : Width) (n : Nat) (f : Nat → Word) : (packCircuits w n f).length = sliceSize w n := by
  cases w with
  | bit => simp [packCircuits, sliceSize]
  | word => simp [packCircuits, sliceSize, List.length_flatMap, Nat.mul_comm]

theorem packCircuits_word {n i : Nat} (h : i < n) (f : Nat → Word) :
    (packCircuits .word n f).getD (2 * i) 0 = lowOctet (f i) ∧
      (packCircuits .word n f).getD (2 * i + 1) 0 = highOctet (f i) := by
  obtain ⟨hlow, hhigh⟩ := getElem?_flatMap_pairs (fun i => lowOctet (f i)) (fun i => highOctet (f i)) (List.range n) i
  rw [List.getD_eq_getElem?_getD, List.getD_eq_getElem?_getD, packCircuits, hlow, hhigh, List.getElem?_range h]
  exact ⟨rfl, rfl⟩

theorem packCircuits_bit {n i : Nat} (h : i < n) (f : Nat → Word) :
    ((packCircuits .bit n f).getD (i / 8) 0).getLsbD (i % 8) = (f i).getLsbD 0 := by
  rw [List.getD_eq_getElem?_getD, packCircuits, List.getElem?_map, List.getElem?_range (by omega)]
  rw [Option.map_some, Option.getD_some, octetOfBits_bit _ _ (Nat.mod_lt _ (by decide)), Nat.div_add_mod, decide_eq_true h,
    Bool.true_and]

/-! ## The POLL (R84, R85) -/

section
variable {s : State} {a : Addr} {d : Descriptor}

theorem pollPayload_safe (h : s.mode = .held ∨ s.safety.standing = true) : s.pollPayload a d = [0] := by
  rw [State.pollPayload, if_pos (by simpa [State.safeNow] using h)]

theorem pollPayload_live {p : Placement} (hmode : s.mode ≠ .held) (hsafe : s.safety.standing = false)
    (hp : (s.entry a).placement = some p) : s.pollPayload a d =
      1 :: packCircuits d.outputWidth d.outputCount.val (s.outputValue a d p.outputOffset) := by
  rw [State.pollPayload, if_neg (by simp [State.safeNow, hmode, hsafe]), hp]
  rfl

theorem outputValue_eq (a : Addr) (d : Descriptor) (offset : Nat) (n : Fin 32) : s.outputValue a d offset n.val =
    ((s.findOverride a .output n).map OverrideRecord.value).getD (s.scan.live.readCircuit offset d.outputWidth n.val) := by
  simp only [State.outputValue, below_octet (show 32 ≤ 256 by decide) n.isLt]
  cases s.findOverride a .output n <;> rfl

end

/-- Settles O58: the payload is its LIVE octet and the packed values of the output circuits. -/
theorem pollsBuilt : Obligations.PollsBuilt := by
  intro s a d
  refine ⟨pollPayload_safe, fun hmode hsafe p hp => ?_⟩
  rw [pollPayload_live hmode hsafe hp]
  refine ⟨?length, rfl, fun n hn => ?circuit⟩
  case length => rw [List.length_cons, length_packCircuits, Nat.add_comm, Descriptor.outputSize]
  intro v
  have hv : s.outputValue a d p.outputOffset n.val = v := by
    rw [outputValue_eq]
    simp only [v]
    cases s.findOverride a .output n <;> rfl
  refine ⟨fun hword => ?word, fun hbit => ?bit⟩
  case word =>
    obtain ⟨hlow, hhigh⟩ := packCircuits_word hn (s.outputValue a d p.outputOffset)
    rw [hword, ← hv, Nat.add_comm 1, show 2 + 2 * n.val = 2 * n.val + 1 + 1 by omega, List.getD_cons_succ,
      List.getD_cons_succ]
    exact ⟨hlow, hhigh⟩
  case bit =>
    rw [hbit, ← hv, Nat.add_comm 1, List.getD_cons_succ]
    exact packCircuits_bit hn _

end Sys2Proof.Proofs
end

section
/-! PROOFS. What a visit sends and what follows it (R24, R41, R43, R107, R142). -/

namespace Sys2Proof.Proofs

open Sys2Proof.Machine Sys2Proof.Safety Sys2Proof.Laws

/-! ## The line of an attempt (R41) -/

section
variable {s : State} {e : Entry} {d : Descriptor} {last : Option LineId}

theorem attemptLine_single {l : LineId} (h : d.attachment.single = some l) :
    s.attemptLine e d last = if (s.line l).state = .active then some l else none := by
  simp only [State.attemptLine, h, State.lineActive, decide_eq_true_eq]

theorem attemptLine_dual (h : d.attachment = .dual) : s.attemptLine e d last =
    (let first := (last.map otherLine).getD (e.activeLine.getD d.preferred)
     if (s.line first).state = .active then some first
     else if (s.line (otherLine first)).state = .active then some (otherLine first)
     else none) := by
  simp only [State.attemptLine, h, Attachment.single, State.lineActive, decide_eq_true_eq]
  cases last <;> rfl

end

/-! ## The beginning of a visit (R24, R43) -/

/-- Whether a visit begins with a return probe, in the words of the statements (R43). -/
def ReturnDue (s : State) (a : Addr) (d : Descriptor) : Prop :=
  d.attachment = .dual ∧ (s.entry a).activeLine ≠ some d.preferred ∧
    s.scan.number.toNat % s.config.setup.returnInterval = 0 ∧ (s.line d.preferred).state = .active

section
variable {s : State} {a : Addr} {d : Descriptor}

theorem returnProbeDue_iff : s.returnProbeDue (s.entry a) d = true ↔ ReturnDue s a d := by
  simp only [State.returnProbeDue, State.lineActive, Bool.and_eq_true, decide_eq_true_eq, ReturnDue, and_assoc]

theorem startVisit_returns (hd : (s.entry a).descriptor = some d) (h : ReturnDue s a d) : s.startVisit a =
    s.send (.attempt ⟨a, 1 + (s.profile d.profile).retries, none⟩) d.preferred (s.visitFrame a d)
      (some (s.profile d.profile).replyWindow) := by
  simp only [State.startVisit, hd, returnProbeDue_iff.2 h, if_true]

theorem startVisit_attempts (hd : (s.entry a).descriptor = some d) (h : ¬ ReturnDue s a d) :
    s.startVisit a = s.nextAttempt a d none (1 + (s.profile d.profile).retries) := by
  simp only [State.startVisit, hd, if_neg (returnProbeDue_iff.not.2 h)]

/-! ## After a visit (R107, R142) -/

theorem afterVisit_endGroup (s : State) (a : Addr) : s.endGroup.afterVisit a = s.afterVisit a := by
  unfold State.afterVisit
  rw [endGroup_of_not_owed (sweepOwed_endGroup s)]

variable {i : Fin 4} {t : Transaction}

theorem afterVisit_none (howed : SweepNotOwed s) (h : ∀ i t, s.slot i = some t → t.station ≠ a) : s.afterVisit a = s := by
  unfold State.afterVisit
  rw [endGroup_of_not_owed howed]
  dsimp only
  rw [transactionOf_none h]
  cases (s.entry a).descriptor <;> rfl

/-- The first transaction of a station, which alone may follow its visit. -/
def FirstOf (s : State) (a : Addr) (i : Fin 4) (t : Transaction) : Prop :=
  s.slot i = some t ∧ t.station = a ∧ ∀ j u, s.slot j = some u → u.station = a → i ≤ j

theorem afterVisit_first (howed : SweepNotOwed s) (hd : (s.entry a).descriptor = some d) (h : FirstOf s a i t) :
    s.afterVisit a = if ((s.entry a).presence = .present ∨ (s.entry a).presence = .silent) ∧ t.state = .waiting then
      s.issue i t (s.entry a) d else s := by
  obtain ⟨hi, hstation, hleast⟩ := h
  unfold State.afterVisit
  rw [endGroup_of_not_owed howed]
  simp only [hd, transactionOf_some hi hstation hleast, hi, dataValid_eq, Bool.and_eq_true, decide_eq_true_eq]

theorem afterVisit_unconfigured (howed : SweepNotOwed s) (hd : (s.entry a).descriptor = none) : s.afterVisit a = s := by
  unfold State.afterVisit
  rw [endGroup_of_not_owed howed]
  simp only [hd]

theorem issue_unsent (h : s.attemptLine (s.entry a) d none = none) :
    s.issue i t (s.entry a) d = s.failAttempt i { t with attempts := t.attempts + 1, state := .sent } := by
  simp only [State.issue, h]

theorem issue_sent {l : LineId} (h : s.attemptLine (s.entry a) d none = some l) : s.issue i t (s.entry a) d =
    (s.setSlot i (some { t with attempts := t.attempts + 1, state := .sent })).send (.exchange i t.station) l
      (s.parameterFrame { t with attempts := t.attempts + 1, state := .sent }) (some (s.profile d.profile).replyWindow) := by
  simp only [State.issue, h]

end

/-- Settles O56: the line of an attempt, the visit's first attempt or its MISS, and the transaction issued after it. -/
theorem visitsSent : Obligations.VisitsSent := by
  refine ⟨fun s e d last => ?line, fun s a d hd => ?visit, fun s a => ⟨sweepOwed_endGroup s, (afterVisit_endGroup s a).symm⟩,
    fun s a howed => ⟨afterVisit_none howed, fun i t hi hstation hleast => ?issued⟩⟩
  case line =>
    cases h : d.attachment with
    | lineA => exact attemptLine_single (by rw [h]; rfl)
    | lineB => exact attemptLine_single (by rw [h]; rfl)
    | dual => exact attemptLine_dual h
  case visit =>
    intro e p polled sends returns
    have hsends : ∀ left last l,
        s.send (.attempt ⟨a, left, last⟩) l (s.visitFrame a d) (some p.replyWindow) = sends left last l := fun left last l => by
      rw [visitFrame_eq]
      rfl
    refine ⟨fun hreturns => ?_, fun hnot l hl => ?_, fun hnot hnone => ?_⟩
    · rw [startVisit_returns hd hreturns, hsends]
    · rw [startVisit_attempts hd hnot, nextAttempt_sent (by omega) hl, hsends, Nat.add_sub_cancel_left]
    · rw [startVisit_attempts hd hnot, nextAttempt_missed (Or.inr hnone)]
      rfl
  case issued =>
    have hfirst : FirstOf s a i t := ⟨hi, hstation, hleast⟩
    refine ⟨fun hnot => ?_, fun d hd hwaiting hvalid => ?_⟩
    · cases hd : (s.entry a).descriptor with
      | none => exact afterVisit_unconfigured howed hd
      | some d =>
        rw [afterVisit_first howed hd hfirst, if_neg]
        rintro ⟨hvalid, hwaiting⟩
        rcases hnot with hnot | ⟨hpresent, hsilent⟩
        · exact hnot hwaiting
        · exact hvalid.elim hpresent hsilent
    intro u
    have hissue : s.afterVisit a = s.issue i t (s.entry a) d := by
      rw [afterVisit_first howed hd hfirst, if_pos ⟨hvalid, hwaiting⟩]
    refine ⟨fun l hl => ?_, fun hnone hcancel => ⟨fun hfew => ?_, fun hmany => ?_⟩⟩
    · rw [hissue, issue_sent hl, State.parameterFrame]
      simp only [u, hstation]
      cases t.kind <;> rfl
    · rw [hissue, issue_unsent hnone, failAttempt_waits (t := u) hcancel hfew]
      rfl
    · rw [hissue, issue_unsent hnone, failAttempt_timedOut (t := u) hcancel hmany, complete_eq]
      cases t.kind <;> rfl

end Sys2Proof.Proofs
end

section
/-! PROOFS. The course of a cycle (R23, R38, R106 to R109, R173). -/

namespace Sys2Proof.Proofs

open Sys2Proof.Machine Sys2Proof.Safety Sys2Proof.Laws

/-! ## One part of a cycle -/

section
variable {s : State} {c : CycleState} {g : State → State}

theorem inPart_other (h : s.scan.cycle ≠ c) : s.inPart c g = s := by
  simp only [State.inPart, decide_eq_false h, Bool.and_false, Bool.false_eq_true, if_false]

theorem inPart_run (hf : s.scan.flight = none) (hc : s.scan.cycle = c) : s.inPart c g = g s := by
  simp only [State.inPart, hf, hc, Option.isNone_none, decide_true, Bool.and_self, if_true]

theorem scanOn_elsewhere (h : s.scan.cycle = .stopped ∨ s.scan.cycle = .closing ∨ s.scan.cycle = .waiting) :
    s.scanOn = s := by
  have hother : ∀ g c, c ∉ [CycleState.stopped, .closing, .waiting] → s.inPart c g = s := fun g c hc =>
    inPart_other fun he => hc (by rw [← he]; simpa using h)
  rw [State.scanOn, hother _ .visiting (by decide), hother _ .visiting (by decide), hother _ .sessionSlot (by decide),
    hother _ .discoverySlot (by decide)]

theorem scanOn_fromDiscovery (h : s.scan.cycle = .discoverySlot) :
    s.scanOn = s.inPart .discoverySlot (fun t => t.setCycle .closing) := by
  have hother : ∀ g c, c ≠ .discoverySlot → s.inPart c g = s := fun g c hc => inPart_other fun he => hc (he.symm.trans h)
  rw [State.scanOn, hother _ .visiting (by decide), hother _ .visiting (by decide), hother _ .sessionSlot (by decide)]

theorem scanOn_fromSession (h : s.scan.cycle = .sessionSlot) :
    s.scanOn = (s.inPart .sessionSlot State.enterDiscovery).inPart .discoverySlot (fun t => t.setCycle .closing) := by
  have hother : ∀ g c, c ≠ .sessionSlot → s.inPart c g = s := fun g c hc => inPart_other fun he => hc (he.symm.trans h)
  rw [State.scanOn, hother _ .visiting (by decide), hother _ .visiting (by decide)]

theorem scanOn_closes (hf : s.scan.flight = none) (h : s.scan.cycle = .discoverySlot) :
    s.scanOn = s.setCycle .closing := by
  rw [scanOn_fromDiscovery h, inPart_run hf h]

/-- The session slot over, the cycle goes on from what the discovery slot's beginning leaves (R109). -/
theorem scanOn_discovers {t : State} (hf : s.scan.flight = none) (h : s.scan.cycle = .sessionSlot)
    (ht : s.enterDiscovery = t) (hc : t.scan.cycle = .discoverySlot) : s.scanOn = t.scanOn := by
  rw [scanOn_fromSession h, inPart_run hf h, ht, scanOn_fromDiscovery hc]

/-- The visits over, the cycle goes on from what the session slot's beginning leaves (R108). -/
theorem scanOn_polls {t : State} (hf : s.scan.flight = none) (h : s.scan.cycle = .visiting)
    (hover : 32 ≤ s.scan.nextAddress) (ht : s.enterSessionSlot = t) (hc : t.scan.cycle = .sessionSlot) :
    s.scanOn = t.scanOn := by
  have hrest : s.visitRest = s := by
    rw [State.visitRest, List.drop_of_length_le (by simpa [allAddrs] using hover)]
    rfl
  rw [State.scanOn, inPart_run hf h, hrest, inPart_run hf h, ht, scanOn_fromSession hc]

end

/-! ## The visits (R23, R107) -/

/-- Whether an address is visited, in the words of the statements (R23). -/
def Due (e : Entry) : Prop :=
  e.presence ∈ [Presence.expected, .joining, .present, .silent, .mismatch] ∨ (e.presence = .lost ∧ e.countdown = 0)

theorem due_iff (e : Entry) : e.due = true ↔ Due e := by
  unfold Entry.due Due
  cases e.presence <;> simp

section
variable {s : State} {a : Addr}

/-- The state with the scan engine past an address. -/
def passed (s : State) (a : Addr) : State := { s with scan := { s.scan with nextAddress := a.val + 1 } }

theorem scanOn_visits (hf : s.scan.flight = none) (hc : s.scan.cycle = .visiting) (hn : s.scan.nextAddress = a.val)
    (h : Due (s.entry a)) : s.scanOn = ((passed s a).startVisit a).scanOn := by
  obtain ⟨hcycle, hnext⟩ := samePlace_startVisit (passed s a) a
  refine scanOn_visitAt hf hc hn ?_ (hcycle.trans hc) hnext
  rw [State.visitAt, hf]
  exact if_pos ((due_iff (s.entry a)).2 h)

theorem scanOn_passes (hf : s.scan.flight = none) (hc : s.scan.cycle = .visiting) (hn : s.scan.nextAddress = a.val)
    (h : ¬ Due (s.entry a)) : s.scanOn = (passed s a).scanOn := by
  refine scanOn_visitAt hf hc hn ?_ hc rfl
  rw [State.visitAt, hf]
  exact if_neg fun hdue => h ((due_iff (s.entry a)).1 hdue)

end

/-! ## The session slot (R108, R173) -/

section
variable {s : State}

theorem enterSessionSlot_closed (h : s.session.current = none) : s.enterSessionSlot = s.setCycle .sessionSlot := by
  simp only [State.enterSessionSlot, State.setCycle, h]

theorem enterSessionSlot_withdrawn {o : OpenSession} (h : s.session.current = some o)
    (hl : (s.line o.line).state ≠ .active) : s.enterSessionSlot = s.setCycle .sessionSlot := by
  simp only [State.enterSessionSlot, State.setCycle, h, lineActive_of_not hl, Bool.false_eq_true, if_false]

theorem enterSessionSlot_polls {o : OpenSession} (h : s.session.current = some o) (hl : (s.line o.line).state = .active) :
    s.enterSessionSlot = (s.setCycle .sessionSlot).setFlight (some
      { job := .servicePoll, line := o.line, frame := s.frameTo o.tool .servicePoll false (servicePollPayload o)
        window := some s.defaultWindow, phase := .sending }) := by
  simp only [State.enterSessionSlot, State.setCycle, h, lineActive_of hl, if_true]
  rfl

end

/-! ## The discovery slot (R38, R109) -/

/-- How far behind the pointer discovery looks at an address (R38). -/
def distanceFrom (pointer : Option Addr) (a : Addr) : Nat := (a.val + 63 - (pointer.map Fin.val).getD 31) % 32

theorem mem_drop_allAddrs {n : Nat} {a : Addr} (h : a ∈ allAddrs.drop n) : n ≤ a.val := by
  obtain ⟨i, hi, rfl⟩ := List.mem_drop_iff_getElem.1 h
  simp [allAddrs]

theorem mem_take_allAddrs {n : Nat} {a : Addr} (h : a ∈ allAddrs.take n) : a.val < n := by
  obtain ⟨i, hi, rfl⟩ := List.mem_take_iff_getElem.1 h
  simp [allAddrs]
  omega

theorem pairwise_allAddrs : allAddrs.Pairwise (fun a b => a.val < b.val) := List.pairwise_lt_finRange 32

theorem pairwise_rotation (pointer : Option Addr) :
    (Machine.rotation pointer).Pairwise (fun a b => distanceFrom pointer a < distanceFrom pointer b) := by
  cases pointer with
  | none =>
    refine pairwise_allAddrs.imp fun {a b} h => ?_
    simp only [distanceFrom, Option.map_none, Option.getD_none]
    omega
  | some p =>
    simp only [Machine.rotation, distanceFrom, Option.map_some, Option.getD_some]
    refine List.pairwise_append.2 ⟨?_, ?_, fun a ha b hb => ?_⟩
    · refine (pairwise_allAddrs.drop (i := p.val + 1)).imp_of_mem fun {a b} ha hb h => ?_
      have := mem_drop_allAddrs ha
      omega
    · refine (pairwise_allAddrs.take (i := p.val + 1)).imp_of_mem fun {a b} ha hb h => ?_
      have := mem_take_allAddrs hb
      omega
    · have := mem_drop_allAddrs ha
      have := mem_take_allAddrs hb
      omega

theorem mem_rotation (pointer : Option Addr) (a : Addr) : a ∈ Machine.rotation pointer := by
  cases pointer with
  | none => exact List.mem_finRange a
  | some p =>
    rw [Machine.rotation, List.mem_append, or_comm, ← List.mem_append, List.take_append_drop]
    exact List.mem_finRange a

theorem find?_of_least {α : Type} {key : α → Nat} {p : α → Bool} {xs : List α} {x : α}
    (hsorted : xs.Pairwise (fun y z => key y < key z)) (hx : x ∈ xs) (hp : p x = true)
    (hleast : ∀ y, p y = true → key x ≤ key y) : xs.find? p = some x := by
  obtain ⟨before, after, rfl⟩ := List.append_of_mem hx
  refine List.find?_eq_some_iff_append.2 ⟨hp, before, after, rfl, fun y hy => ?_⟩
  have hkey := (List.pairwise_append.1 hsorted).2.2 y hy x List.mem_cons_self
  rw [Bool.not_eq_true', Bool.eq_false_iff]
  exact fun hpy => absurd (hleast y hpy) (Nat.not_le.2 hkey)

section
variable {s : State} {a : Addr}

theorem discoveryAddress_of_least (h : Probeable (s.entry a))
    (hleast : ∀ b, Probeable (s.entry b) → distanceFrom s.scan.pointer a ≤ distanceFrom s.scan.pointer b) :
    s.discoveryAddress = some a :=
  find?_of_least (pairwise_rotation _) (mem_rotation _ a) ((probeable_iff _).2 h)
    fun b hb => hleast b ((probeable_iff _).1 hb)

theorem discoveryAddress_none (h : ∀ a, ¬ Probeable (s.entry a)) : s.discoveryAddress = none :=
  List.find?_eq_none.2 fun a _ hp => h a ((probeable_iff _).1 hp)

theorem activeLines_nil (h : ∀ l, (s.line l).state ≠ .active) : [LineId.a, .b].filter s.lineActive = [] :=
  List.filter_eq_nil_iff.2 fun l _ hl => h l (of_decide_eq_true hl)

/-- The lines that a discovery slot probes on, from the first of them (R38). -/
theorem activeLines_cons {l : LineId} (hl : (s.line l).state = .active) (hfirst : l = .b → s.lineA.state ≠ .active) :
    [LineId.a, .b].filter s.lineActive = l :: (if l = .a ∧ s.lineB.state = .active then [.b] else []) := by
  cases l with
  | a =>
    by_cases hb : s.lineB.state = .active
    · simp [lineActive_of hl, lineActive_of (l := .b) hb, hb]
    · simp [lineActive_of hl, lineActive_of_not (l := .b) hb, hb]
  | b => simp [lineActive_of hl, lineActive_of_not (l := .a) (hfirst rfl)]

theorem enterDiscovery_idle
    (h : s.config.setup.discovery = false ∨ (∀ l, (s.line l).state ≠ .active) ∨ ∀ a, ¬ Probeable (s.entry a)) :
    s.enterDiscovery = s.setCycle .discoverySlot := by
  unfold State.enterDiscovery
  rcases h with h | h | h
  · dsimp only
    split
    · rw [h, if_neg Bool.false_ne_true]
    · rfl
  · rw [activeLines_nil h]
    cases s.discoveryAddress <;> rfl
  · rw [discoveryAddress_none h]

theorem enterDiscovery_probes {l : LineId} {ls : List LineId} (hon : s.config.setup.discovery = true)
    (ha : s.discoveryAddress = some a) (hlines : [LineId.a, .b].filter s.lineActive = l :: ls)
    (hl : (s.line l).state = .active) : s.enterDiscovery =
      State.probe { s.setCycle .discoverySlot with scan := { (s.setCycle .discoverySlot).scan with pointer := some a } }
        { address := a, rest := ls, found := none, refused := false } l := by
  unfold State.enterDiscovery
  rw [ha, hlines]
  dsimp only
  rw [if_pos hon]
  exact probeNext_active rfl hl

end

/-- Settles O55: `State.scanOn` at each place of a cycle. -/
theorem cycleGoesOn : Obligations.CycleGoesOn := by
  intro s own window probeable distance
  have hwindow : some s.defaultWindow = window := by
    simp only [window, State.defaultWindow]
    cases s.config.setup.rate <;> rfl
  refine ⟨scanOn_in_flight, scanOn_elsewhere, fun hf => ⟨fun a hc hn => ?visit, fun hc hover => ?session, fun hc => ?discovery,
    fun hc => ?closes⟩⟩
  case visit => exact ⟨scanOn_visits hf hc hn, scanOn_passes hf hc hn⟩
  case closes => exact scanOn_closes hf hc
  case session =>
    refine ⟨fun hnone => scanOn_polls hf hc hover (enterSessionSlot_closed hnone) rfl, fun o ho =>
      ⟨fun hl => scanOn_polls hf hc hover (enterSessionSlot_withdrawn ho hl) rfl, fun hl => ?_⟩⟩
    rw [scanOn_polls hf hc hover (enterSessionSlot_polls ho hl) rfl, scanOn_setFlight, ← hwindow]
    unfold servicePollPayload
    cases o.result <;> rfl
  case discovery =>
    refine ⟨fun hidle => scanOn_discovers hf hc (enterDiscovery_idle hidle) rfl, fun a l hon ha hleast hl hfirst => ?_⟩
    rw [scanOn_discovers hf hc
      (enterDiscovery_probes hon (discoveryAddress_of_least ha hleast) (activeLines_cons hl hfirst) hl) rfl, probe_eq,
      scanOn_setFlight, ← hwindow]
    rfl

end Sys2Proof.Proofs
end

section
/-! PROOFS. What a publication holds (R100, R114). -/

namespace Sys2Proof.Proofs

open Sys2Proof.Machine Sys2Proof.Safety Sys2Proof.Laws

section
variable {s : State} {a : Addr} {d : Descriptor} {p : Placement}

theorem circuitBit_word (off n : Nat) (v : Word) (i : Nat) :
    circuitBit .word off n v (off + 2 * n) i = some ((lowOctet v).getLsbD i) ∧
      circuitBit .word off n v (off + 2 * n + 1) i = some ((highOctet v).getLsbD i) := by
  constructor
  · exact if_pos rfl
  · exact (if_neg (by omega)).trans (if_pos rfl)

theorem circuitBit_word_other {off n m x : Nat} (hx : x = off + 2 * n ∨ x = off + 2 * n + 1) (hm : m ≠ n) (v : Word)
    (i : Nat) : circuitBit .word off m v x i = none :=
  (if_neg (by omega)).trans (if_neg (by omega))

theorem circuitBit_bit (off n : Nat) (v : Word) : circuitBit .bit off n v (off + n / 8) (n % 8) = some (v.getLsbD 0) :=
  if_pos ⟨rfl, rfl⟩

theorem circuitBit_bit_other {off n m : Nat} (hm : m ≠ n) (v : Word) :
    circuitBit .bit off m v (off + n / 8) (n % 8) = none :=
  if_neg (by omega)

theorem publication_word (ht : TablesKept s) (hr : RosterKept s) (hd : (s.entry a).descriptor = some d)
    (hp : (s.entry a).placement = some p) (hword : d.inputWidth = .word) {n : Fin 32} (hn : n.val < d.inputCount.val) :
    s.publication.read (p.inputOffset + 2 * n.val) =
        ((s.findOverride a .input n).map (fun q => lowOctet q.value)).getD ((s.slice a).getD (2 * n.val) 0) ∧
      s.publication.read (p.inputOffset + 2 * n.val + 1) =
        ((s.findOverride a .input n).map (fun q => highOctet q.value)).getD ((s.slice a).getD (2 * n.val + 1) 0) := by
  have hsize : p.inputSize = 2 * d.inputCount.val := by
    rw [placement_sizes hr hp hd, hword]
    rfl
  constructor <;> refine BitVec.eq_of_getLsbD_eq fun i hi => ?_
  · obtain ⟨hbit, -⟩ := publication_bit ht hr hd hp (p.inputOffset + 2 * n.val) i hi (by omega) (by omega)
    have h := hbit n (fun v => by rw [hword, (circuitBit_word _ _ v i).1]; exact Option.some_ne_none _)
      (fun m v hm => by rw [hword]; exact circuitBit_word_other (Or.inl rfl) hm v i)
    rw [hword, Nat.add_sub_cancel_left] at h
    cases hf : s.findOverride a .input n with
    | none => rw [hf] at h; exact Option.some.inj h
    | some q => rw [hf] at h; exact Option.some.inj (h.trans (circuitBit_word _ _ _ i).1)
  · obtain ⟨hbit, -⟩ := publication_bit ht hr hd hp (p.inputOffset + 2 * n.val + 1) i hi (by omega) (by omega)
    have h := hbit n (fun v => by rw [hword, (circuitBit_word _ _ v i).2]; exact Option.some_ne_none _)
      (fun m v hm => by rw [hword]; exact circuitBit_word_other (Or.inr rfl) hm v i)
    rw [hword, Nat.add_assoc, Nat.add_sub_cancel_left] at h
    rw [Nat.add_assoc]
    cases hf : s.findOverride a .input n with
    | none => rw [hf] at h; exact Option.some.inj h
    | some q => rw [hf] at h; exact Option.some.inj (h.trans (circuitBit_word _ _ _ i).2)

theorem inputSize_bit (hr : RosterKept s) (hd : (s.entry a).descriptor = some d) (hp : (s.entry a).placement = some p)
    (hbit : d.inputWidth = .bit) : p.inputSize = (d.inputCount.val + 7) / 8 := by
  rw [placement_sizes hr hp hd, hbit]
  rfl

theorem publication_circuit (ht : TablesKept s) (hr : RosterKept s) (hd : (s.entry a).descriptor = some d)
    (hp : (s.entry a).placement = some p) (hbit : d.inputWidth = .bit) {n : Fin 32} (hn : n.val < d.inputCount.val) :
    (s.publication.read (p.inputOffset + n.val / 8)).getLsbD (n.val % 8) =
      ((s.findOverride a .input n).map (fun q => q.value.getLsbD 0)).getD
        (((s.slice a).getD (n.val / 8) 0).getLsbD (n.val % 8)) := by
  have hsize := inputSize_bit hr hd hp hbit
  obtain ⟨hcovered, -⟩ := publication_bit ht hr hd hp (p.inputOffset + n.val / 8) (n.val % 8) (Nat.mod_lt _ (by decide))
    (by omega) (by omega)
  have h := hcovered n (fun v => by rw [hbit, circuitBit_bit]; exact Option.some_ne_none _)
    (fun m v hm => by rw [hbit]; exact circuitBit_bit_other hm v)
  rw [hbit, Nat.add_sub_cancel_left] at h
  cases hf : s.findOverride a .input n with
  | none => rw [hf] at h; exact Option.some.inj h
  | some q => rw [hf] at h; exact Option.some.inj (h.trans (circuitBit_bit _ _ _))

/-- A slice's bits beyond its circuits are published as they came (notes/assumptions/16.md). -/
theorem publication_beyond (ht : TablesKept s) (hr : RosterKept s) (hd : (s.entry a).descriptor = some d)
    (hp : (s.entry a).placement = some p) (hbit : d.inputWidth = .bit) {n : Nat} (hn : d.inputCount.val ≤ n)
    (hsize : n < 8 * p.inputSize) : (s.publication.read (p.inputOffset + n / 8)).getLsbD (n % 8) =
      ((s.slice a).getD (n / 8) 0).getLsbD (n % 8) := by
  obtain ⟨-, huncovered⟩ := publication_bit ht hr hd hp (p.inputOffset + n / 8) (n % 8) (Nat.mod_lt _ (by decide))
    (by omega) (by omega)
  rw [Nat.add_sub_cancel_left] at huncovered
  exact huncovered fun m v hm => by rw [hbit]; exact circuitBit_bit_other (by omega) v

/-- An octet in no station's slice is 0 (R114). -/
theorem publication_outside (hr : RosterKept s) {x : Nat}
    (hx : ∀ a p, (s.entry a).placement = some p → x < p.inputOffset ∨ p.inputOffset + p.inputSize ≤ x) :
    s.publication.read x = 0 := by
  obtain ⟨-, -, -, hcircuits, -⟩ := id hr
  have hslices : (allAddrs.foldl s.publishSlice []).read x = 0 :=
    (publishSlices_read hr x allAddrs [] wf_nil (List.nodup_finRange 32)).2 fun a _ => hx a
  have hwf : Memory.wf (allAddrs.foldl s.publishSlice []) := foldl_wf _ (publishSlice_wf s) _ wf_nil
  refine BitVec.eq_of_getLsbD_eq fun i hi => ?_
  rw [State.publication, publishOverrides_bit s x i hi s.overrides _ hwf, hslices]
  intro q hq
  by_contra hcovers
  obtain ⟨d, p, hdir, hd, hp, hbit⟩ := overrideBit_some hcovers
  obtain ⟨e, he, hcount⟩ := hcircuits q hq
  obtain rfl := Option.some.inj (hd.symm.trans he)
  rw [hdir] at hcount
  obtain ⟨hlow, hhigh⟩ := circuitBit_in (count := d.inputCount.val) hcount (hbit ▸ hcovers)
  rw [← placement_sizes hr hp hd] at hhigh
  have := hx _ _ hp
  omega

end

end Sys2Proof.Proofs
end

section
/-! PROOFS. The cycle end (R110, R111, R116, R117). -/

namespace Sys2Proof.Proofs

open Sys2Proof.Machine Sys2Proof.Safety Sys2Proof.Laws

/-! ## The countdowns and the own-address check (R35, R88) -/

section
variable {s v : State}

theorem entry_countDown (s : State) (a : Addr) : s.countDown.entry a = { s.entry a with
    countdown := if (s.entry a).presence = .lost then (s.entry a).countdown - 1 else (s.entry a).countdown } := by
  have hentry : s.countDown.entry a = if (s.entry a).presence = .lost then
      { s.entry a with countdown := (s.entry a).countdown - 1 } else s.entry a := by
    simp only [State.countDown, State.entry, Vector.getElem_mk, List.getElem_toArray, List.getElem_map,
      Vector.getElem_toList] <;> rfl
  rw [hentry]
  by_cases h : (s.entry a).presence = .lost
  · rw [if_pos h, if_pos h]
  · rw [if_neg h, if_neg h]

theorem ownCheck_seen (h : s.own.seen = true) : s.ownCheck = { s with own := { s.own with seen := false } } := by
  simp only [State.ownCheck, h, if_true]

theorem ownCheck_unseen (h : s.own.seen = false) :
    s.ownCheck = { s.finishOwnAddress with own := { seen := false, standing := none } } := by
  simp only [State.ownCheck, h, Bool.false_eq_true, if_false, finishOwnAddress_own]

theorem ownCheck_frame (s : State) : s.ownCheck = { s with
    own := { seen := false, standing := if s.own.seen then s.own.standing else none }
    cond := s.ownCheck.cond
    mode := s.ownCheck.mode } := by
  cases h : s.own.seen with
  | true => rw [ownCheck_seen h]; rfl
  | false =>
    rw [ownCheck_unseen h]
    have hframe := (condOnly_finishOwnAddress s).1
    generalize s.finishOwnAddress = t at hframe
    rw [hframe]
    rfl

theorem hands_ownCheck (s : State) : Hands s s.ownCheck
    (if s.own.seen = false ∧ s.own.standing.isSome = true then [plainKey .part .ownAddressConflict] else []) [] [] := by
  cases h : s.own.seen with
  | true =>
    rw [ownCheck_seen h, if_neg (fun hboth => Bool.noConfusion hboth.1)]
    exact ⟨rfl, rfl⟩
  | false =>
    rw [ownCheck_unseen h, finishOwnAddress_eq]
    dsimp only
    cases hstanding : s.own.standing.isSome with
    | false => simp only [Bool.false_eq_true, and_false, if_false]; exact ⟨rfl, rfl⟩
    | true =>
      simp only [and_self, if_true]
      have hagree := agree_finishCause (s := s) (u := { s with own := { s.own with standing := none } }) ⟨rfl, rfl, rfl⟩
        (plainKey .part .ownAddressConflict)
      exact ⟨hagree.1, hagree.2.1⟩

theorem roster_ownCheck (s : State) : s.ownCheck.roster = s.roster := by
  rw [ownCheck_frame]

/-- The countdowns and the own-address check leave all else alone (R110). -/
theorem checked_frame (v : State) : v.countDown.ownCheck = { v with
    roster := v.countDown.ownCheck.roster
    own := { seen := false, standing := if v.own.seen then v.own.standing else none }
    cond := v.countDown.ownCheck.cond
    mode := v.countDown.ownCheck.mode } := by
  rw [roster_ownCheck]
  exact ownCheck_frame v.countDown

theorem hands_checked (v : State) : Hands v v.countDown.ownCheck
    (if v.own.seen = false ∧ v.own.standing.isSome = true then [plainKey .part .ownAddressConflict] else []) [] [] := by
  have hagree : ∀ ends, Agree (handed v ends [] []) (handed v.countDown ends [] []) :=
    fun ends => agree_handed (s := v) (u := v.countDown) ⟨rfl, rfl, rfl⟩ ends [] []
  obtain ⟨hcond, hmode⟩ := hands_ownCheck v.countDown
  exact ⟨hcond.trans (hagree _).1, hmode.trans (hagree _).2.1⟩

theorem entry_checked (v : State) (a : Addr) : v.countDown.ownCheck.entry a = { v.entry a with
    countdown := if (v.entry a).presence = .lost then (v.entry a).countdown - 1 else (v.entry a).countdown } := by
  rw [← entry_countDown, State.entry, roster_ownCheck, State.entry]

/-! ## The pending STOP and the pending COMMIT (R116, R117) -/

/-- What the STOP and the COMMIT of a cycle end leave alone: the scan number, the beginning of the cycle and line setup. -/
def SameCycle (s t : State) : Prop :=
  t.scan.number = s.scan.number ∧ t.scan.began = s.scan.began ∧ t.config.setup = s.config.setup

theorem sameCycle_commitTaken {c : StagingCopy} (h : CommitTaken s v c) : SameCycle s v := by
  obtain ⟨hframe, -⟩ := h
  unfold SameCycle
  rw [hframe]
  exact ⟨rfl, rfl, rfl⟩

theorem sameCycle_stopEnds (h : StopEnds s v) : SameCycle s v := by
  obtain ⟨hframe, -⟩ := h
  unfold SameCycle
  rw [hframe]
  exact ⟨rfl, rfl, rfl⟩

theorem commitPart_none (h : ∀ tag c, s.config.staging ≠ .commitPending tag c) : s.commitPart = s := by
  have hnone : s.pendingCommit = none := by
    unfold State.pendingCommit
    split
    · next tag c hc => exact absurd hc (h tag c)
    · rfl
  simp only [State.commitPart, hnone]

theorem postDeferred_eq (t : State) (tag kind : Byte) (st : Status) (r : List Byte) :
    t.postDeferred tag kind st r = postedLater t tag kind st r := rfl

theorem sameCycle_postedLater {tag kind : Byte} {st : Status} {r : List Byte} (h : SameCycle s v) :
    SameCycle s (postedLater v tag kind st r) := h

theorem commitPart_pending {tag : Byte} {c : StagingCopy} (h : s.config.staging = .commitPending tag c) :
    s.commitPart = postedLater (s.applyCommit c) tag 13 .ok (commitFields s (s.applyCommit c) c) := by
  have hpending : s.pendingCommit = some (tag, c) := by
    simp only [State.pendingCommit, h]
  simp only [State.commitPart, hpending, commitResult_eq, postDeferred_eq]
  rfl

theorem deferredWork_none (h : s.stopPending = none) : s.deferredWork = s.commitPart := by
  simp only [State.deferredWork, h]

theorem deferredWork_stop {tag : Byte} (h : s.stopPending = some tag) :
    s.deferredWork = postedLater (halted s).commitPart.stopEnds tag 2 .ok [] := by
  simp only [State.deferredWork, h, stopHalt_eq_halted, postDeferred_eq]
  rfl

/-- What a state must have for the effects of a STOP and of a COMMIT to be those of the statements. -/
structure Settled (s : State) : Prop where
  distinct : Distinct s
  keys : (s.overrides.map overrideKey).Nodup
  evicts : EvictsAdded s

theorem settled_of_tablesKept (h : TablesKept s)
    (hevicts : ∀ o, s.session.current = some o → (s.entry o.tool).descriptor = none) : Settled s := by
  obtain ⟨hdistinct, -, hkeys, -⟩ := (tablesKept_iff s).1 h
  exact ⟨hdistinct, hkeys, hevicts⟩

theorem commitTaken_of_settled (h : Settled s) (c : StagingCopy) : CommitTaken s (s.applyCommit c) c :=
  commitTaken_applyCommit h.distinct h.keys h.evicts c

theorem sameCycle_commitPart (h : Settled s) : SameCycle s s.commitPart := by
  cases hstaging : s.config.staging with
  | commitPending tag c =>
    rw [commitPart_pending hstaging]
    exact sameCycle_postedLater (sameCycle_commitTaken (commitTaken_of_settled h c))
  | _ =>
    rw [commitPart_none fun tag c => by rw [hstaging]; exact Staging.noConfusion]
    exact ⟨rfl, rfl, rfl⟩

theorem keys_commitPart (h : Settled s) : (s.commitPart.overrides.map overrideKey).Nodup := by
  cases hstaging : s.config.staging with
  | commitPending tag c =>
    rw [commitPart_pending hstaging]
    obtain ⟨hframe, -⟩ := commitTaken_of_settled h c
    show ((s.applyCommit c).overrides.map overrideKey).Nodup
    rw [hframe]
    exact (List.filter_sublist.map _).nodup h.keys
  | _ =>
    rw [commitPart_none fun tag c => by rw [hstaging]; exact Staging.noConfusion]
    exact h.keys

/-- A commit applied under a STOP leaves STANDBY or OFFLINE (R167). -/
theorem mode_commitPart (h : Settled s) (hmode : s.mode = .standby) : s.commitPart.mode ≠ .scanning := by
  cases hstaging : s.config.staging with
  | commitPending tag c =>
    rw [commitPart_pending hstaging]
    obtain ⟨hframe, -⟩ := commitTaken_of_settled h c
    show (s.applyCommit c).mode ≠ .scanning
    rw [hframe]
    rw [hmode]
    dsimp only
    split
    · decide
    · split <;> decide
  | _ =>
    rw [commitPart_none fun tag c => by rw [hstaging]; exact Staging.noConfusion, hmode]
    decide

theorem stopEnds_commitPart (h : Settled s) (hmode : s.mode = .standby) :
    StopEnds s.commitPart s.commitPart.stopEnds :=
  stopEnds_stopEnds (mode_commitPart h hmode) (distinct_kept.commitPart h.distinct) (keys_commitPart h)

theorem settled_halted (h : Settled s) : Settled (halted s) :=
  ⟨stopHalt_eq_halted s ▸ distinct_kept.stopHalt h.distinct, h.keys, h.evicts⟩

theorem SameCycle.trans {t : State} (h : SameCycle s v) (k : SameCycle v t) : SameCycle s t :=
  ⟨k.1.trans h.1, k.2.1.trans h.2.1, k.2.2.trans h.2.2⟩

theorem sameCycle_condOnly (h : CondOnly s v) : SameCycle s v := by
  unfold SameCycle
  rw [h.1]
  exact ⟨rfl, rfl, rfl⟩

theorem sameCycle_deferredWork (h : Settled s) : SameCycle s s.deferredWork := by
  cases hstop : s.stopPending with
  | none =>
    rw [deferredWork_none hstop]
    exact sameCycle_commitPart h
  | some tag =>
    rw [deferredWork_stop hstop]
    have hcommit : SameCycle s (halted s).commitPart := sameCycle_commitPart (settled_halted h)
    exact sameCycle_postedLater (hcommit.trans (sameCycle_stopEnds (stopEnds_commitPart (settled_halted h) rfl)))

theorem sameCycle_ownCheck (s : State) : SameCycle s s.ownCheck := by
  unfold SameCycle
  rw [ownCheck_frame]
  exact ⟨rfl, rfl, rfl⟩

theorem sameCycle_checked (h : SameCycle s v) : SameCycle s v.countDown.ownCheck.sweep :=
  (h.trans (sameCycle_ownCheck v.countDown)).trans (sameCycle_condOnly (condOnly_sweep _))

end

/-! ## The cycle end and the cycle period (R110, R111) -/

/-- Settles O59: the stages of `State.closeCycle`, and what follows it. -/
theorem cyclesTaken : Obligations.CyclesTaken := by
  refine ⟨fun s ht hr => ?published, fun s => ?cycles⟩
  case published =>
    intro m
    refine ⟨fun a d p hd hp => ⟨fun n hn => ?_, fun n hbit hn hsize => publication_beyond ht hr hd hp hbit hn hsize⟩,
      fun x hx => publication_outside hr hx⟩
    intro slice
    refine ⟨fun hword => ?_, fun hbit => ?_⟩
    · have h := publication_word ht hr hd hp hword hn
      cases hf : s.findOverride a .input n <;> rw [hf] at h <;> exact h
    · have h := publication_circuit ht hr hd hp hbit hn
      cases hf : s.findOverride a .input n <;> rw [hf] at h <;> exact h
  case cycles =>
    intro begun
    refine ⟨fun hclosing hflight htables hevicts => ?closes, fun hnot => ?stays, fun hwaiting => ?period, fun hnot => ?_⟩
    case stays => exact congrArg Host.Outcome.next (if_neg fun h => hnot ⟨h.1, Option.isNone_iff_eq_none.1 h.2⟩)
    case period => exact congrArg Host.Outcome.next (if_pos hwaiting)
    case closes =>
      intro p h
      have hsettled : Settled p := settled_of_tablesKept htables hevicts
      have hhalted : Settled h := by
        simp only [h]
        split
        · exact settled_halted hsettled
        · exact hsettled
      have hconfig : h.config = s.config := by
        simp only [h]
        split <;> rfl
      refine ⟨h.commitPart, p.deferredWork, p.deferredWork.countDown.ownCheck, fun hnone => ?_, fun tag c hc => ?_,
        fun hnone => ?_, fun tag hstop => ?_, entry_checked _, checked_frame _, hands_checked _, ?_⟩
      · exact commitPart_none fun tag c => by rw [hconfig]; exact hnone tag c
      · exact ⟨_, commitTaken_of_settled hhalted c, commitPart_pending (by rw [hconfig]; exact hc)⟩
      · have hh : h = p := by
          simp only [h, hnone]
          rfl
        rw [hh]
        exact deferredWork_none hnone
      · have hh : h = halted p := by
          simp only [h, hstop]
          rfl
        refine ⟨h.commitPart.stopEnds, stopEnds_commitPart hhalted (by rw [hh]; rfl), ?_⟩
        rw [hh]
        exact deferredWork_stop hstop
      · intro z y
        have hsame : SameCycle s p.deferredWork.countDown.ownCheck.sweep := sameCycle_checked (sameCycle_deferredWork hsettled)
        obtain ⟨hnumber, hbegan, hsetup⟩ := hsame
        have hz : s.closeCycle = z := by
          simp only [z, ← hnumber]
          rfl
        have hends : exec .cycleEnd s = .next s.cycleEnds :=
          congrArg Host.Outcome.next (if_pos ⟨hclosing, Option.isNone_iff_eq_none.2 hflight⟩)
        rw [hends, State.cycleEnds, hz]
        have hsetup : z.config.setup = s.config.setup := hsetup
        have hbegan : z.scan.began = s.scan.began := hbegan
        clear_value z
        have hafter : z.afterClose = if s.config.setup.cyclePeriod = 0 then z.beginCycle.scanOn
            else if 1000 * s.config.setup.cyclePeriod ≤ z.now - s.scan.began then z.drawn.beginCycle.scanOn
            else z.drawn.setCycle .waiting := by
          rw [State.afterClose, hsetup, hbegan]
        exact congrArg (fun u => Host.Outcome.next (if s.stopPending.isSome then z.setCycle .stopped else u)) hafter
    · exact congrArg Host.Outcome.next (if_neg hnot)

end Sys2Proof.Proofs
end

section
/-! PROOFS. The class of a received frame: tests 5 to 7 of R131 in the words of the statements. -/

namespace Sys2Proof.Proofs

open Sys2Proof.Machine Sys2Proof.Safety Sys2Proof.Laws

/-! ## Test 5: the fields (R131) -/

theorem receivedKindOf_iff {b : Byte} {k : FrameKind} :
    receivedKindOf b = some k ↔ b = k.code ∧ k ∈ receivedKinds := by
  constructor
  · exact fun h => ⟨(of_decide_eq_true (List.find?_some (p := fun k : FrameKind => decide (k.code = b)) h)).symm,
      List.mem_of_find?_eq_some h⟩
  · rintro ⟨rfl, hk⟩
    revert hk
    cases k <;> decide

theorem wordOctets_wordOf (lo hi : Byte) : wordOctets (wordOf lo hi) = [lo, hi] := by
  have hbit : ∀ i, (wordOf lo hi).getLsbD i = if i < 8 then lo.getLsbD i else hi.getLsbD (i - 8) :=
    fun i => BitVec.getLsbD_append (x := hi) (y := lo)
  have hlow : lowOctet (wordOf lo hi) = lo := BitVec.eq_of_getLsbD_eq fun i h => by
    rw [lowOctet, BitVec.getLsbD_setWidth, hbit, if_pos h, decide_eq_true h, Bool.true_and]
  have hhigh : highOctet (wordOf lo hi) = hi := BitVec.eq_of_getLsbD_eq fun i h => by
    rw [highOctet, BitVec.getLsbD_setWidth, BitVec.getLsbD_ushiftRight, hbit, if_neg (by omega), Nat.add_sub_cancel_left,
      decide_eq_true h, Bool.true_and]
  rw [wordOctets, hlow, hhigh]

theorem isSome_identityOf (payload : List Byte) : (identityOf payload).isSome = true ↔
    ∃ i : Identity, payload = reported i ++ [i.revision] ++ wordOctets i.tag := by
  constructor
  · intro h
    obtain ⟨i, hi⟩ := Option.isSome_iff_exists.1 h
    refine ⟨i, ?_⟩
    unfold identityOf at hi
    split at hi
    next ic iw oc ow rev lo hi' =>
      simp only [Option.bind_eq_bind, Option.bind_eq_some_iff, Option.pure_def, Option.some.injEq] at hi
      obtain ⟨x, hx, w, hw, y, hy, v, hv, rfl⟩ := hi
      simp only [reported, octet_of_below hx, octet_of_below hy, code_of_widthOf hw, code_of_widthOf hv, wordOctets_wordOf]
      rfl
    · cases hi
  · rintro ⟨i, rfl⟩
    rw [show reported i ++ [i.revision] ++ wordOctets i.tag = [octet i.inputCount.val, i.inputWidth.code,
      octet i.outputCount.val, i.outputWidth.code, i.revision] ++ wordOctets i.tag from rfl, identityOf_octets]
    rfl

theorem fieldsOf_eq_some {own : Addr} {f : Frame} {k : FrameKind} : fieldsOf own f = some k ↔
    receivedKindOf f.kind = some k ∧ f.dest = octet own.val ∧ f.source.toNat < 32 ∧ payloadOk k f.payload = true ∧
      (k = .paramAnswer → f.toggle.toNat ≤ 1) := by
  unfold fieldsOf
  cases hk : receivedKindOf f.kind with
  | none => simp
  | some k' =>
    dsimp only
    split
    next h =>
      constructor
      · intro he
        obtain rfl := Option.some.inj he
        exact ⟨rfl, h⟩
      · exact fun he => he.1
    next h =>
      constructor
      · intro he; cases he
      · rintro ⟨he, hrest⟩
        obtain rfl := Option.some.inj he
        exact absurd hrest h

theorem length_one_not_zero (p : List Byte) : (p.length = 1 ∧ p ≠ [0]) ↔ ∃ reason : Byte, reason ≠ 0 ∧ p = [reason] := by
  rw [List.length_eq_one_iff]
  constructor
  · rintro ⟨⟨b, rfl⟩, hb⟩
    exact ⟨b, fun h => hb (h ▸ rfl), rfl⟩
  · rintro ⟨b, hb, rfl⟩
    exact ⟨⟨b, rfl⟩, fun h => hb (List.cons.inj h).1⟩

theorem fieldsOf_iff {s : State} {f : Frame} {k : FrameKind} : fieldsOf s.ownAddress f = some k ↔ FieldsGood s f k := by
  rw [fieldsOf_eq_some, receivedKindOf_iff]
  cases k <;> simp only [FieldsGood, payloadOk, receivedKinds, isSome_identityOf, ← length_one_not_zero, List.mem_cons,
    List.not_mem_nil, reduceCtorEq, or_false, or_true, and_true, and_false, false_and, false_implies, true_implies,
    Bool.and_eq_true, decide_eq_true_eq]

/-! ## Test 6: the answer awaited (Table 7-4) -/

theorem mem_awaited_iff (w : Flight) (k : FrameKind) : k ∈ w.awaited ↔ Answers w k := by
  unfold Flight.awaited Answers
  cases w.job <;> dsimp only
  · split <;> simp
  all_goals simp

/-! ## Test 7: the contents (R131) -/

theorem serviceAnswerOk_iff (payload : List Byte) : serviceAnswerOk payload = true ↔ ServiceGood payload := by
  cases payload with
  | nil => simp [serviceAnswerOk, ServiceGood]
  | cons c rest => simp [serviceAnswerOk, ServiceGood, or_assoc]

theorem faultItemsOf_eq (l : List Byte) : faultItemsOf l = (List.range (l.length / 3)).map (fun j =>
    faultItemOf (l.getD (3 * j) 0) (l.getD (3 * j + 1) 0) (l.getD (3 * j + 2) 0)) := by
  induction l using faultItemsOf.induct with
  | case1 c code detail rest ih =>
    have hlength : (c :: code :: detail :: rest).length / 3 = rest.length / 3 + 1 := by
      simp only [List.length_cons]
      omega
    rw [faultItemsOf, ih, hlength, List.range_succ_eq_map, List.map_cons, List.map_map]
    refine congrArg₂ List.cons rfl (List.map_congr_left fun j _ => ?_)
    simp only [Function.comp, Nat.mul_succ, List.getD_cons_succ]
  | case2 l h =>
    have hshort : l.length / 3 = 0 := by
      rcases l with - | ⟨a, - | ⟨b, - | ⟨c, l⟩⟩⟩
      · rfl
      · exact Nat.div_eq_of_lt (show 1 < 3 by decide)
      · exact Nat.div_eq_of_lt (show 2 < 3 by decide)
      · exact absurd rfl (h a b c l)
    rw [hshort]
    unfold faultItemsOf
    split
    next a b c l => exact absurd rfl (h a b c l)
    · rfl

theorem nodup_map_range {α : Type} (m : Nat) (f : Nat → α) :
    ((List.range m).map f).Nodup ↔ ∀ i < m, ∀ j < i, f i ≠ f j := by
  rw [List.Nodup, List.pairwise_iff_getElem]
  constructor
  · intro h i hi j hj
    have := h j i (by simp; omega) (by simpa using hi) hj
    simpa using Ne.symm this
  · intro h i j hi hj hij
    simp only [List.getElem_map, List.getElem_range]
    exact Ne.symm (h j (by simpa using hj) i hij)

theorem faultRank_faultItemOf (c code detail c' code' detail' : Byte) :
    faultRank (faultItemOf c code detail) = faultRank (faultItemOf c' code' detail') ↔
      (c.getLsbD 7, c.toNat % 32, code) = (c'.getLsbD 7, c'.toNat % 32, code') := by
  rw [faultRank_iff_key 0]
  simp only [circuitFaultKey, faultItemOf, Key.mk.injEq, true_and, Option.some.injEq, Prod.mk.injEq, Fin.mk.injEq, and_assoc]
  refine and_congr_left fun _ => ?_
  cases c.getLsbD 7 <;> cases c'.getLsbD 7 <;> decide

/-- The `j`-th fault item of a REPLY for a station with slices of `n` input octets. -/
def itemAt (payload : List Byte) (n j : Nat) : FaultItem :=
  faultItemOf (payload.getD (4 + n + 3 * j) 0) (payload.getD (5 + n + 3 * j) 0) (payload.getD (6 + n + 3 * j) 0)

theorem faultRank_itemAt (payload : List Byte) (n i j : Nat) :
    faultRank (itemAt payload n i) = faultRank (itemAt payload n j) ↔ itemKey payload n i = itemKey payload n j :=
  faultRank_faultItemOf _ _ _ _ _ _

theorem faultItemsOf_drop {payload : List Byte} {n count : Nat} (h : payload.length = 4 + n + 3 * count) :
    faultItemsOf (payload.drop (4 + n)) = (List.range count).map (itemAt payload n) := by
  have hcount : (payload.drop (4 + n)).length / 3 = count := by
    rw [List.length_drop, h]
    omega
  rw [faultItemsOf_eq, hcount]
  refine List.map_congr_left fun j _ => ?_
  simp only [List.getD_eq_getElem?_getD, List.getElem?_drop, itemAt]
  rw [show 4 + n + (3 * j + 1) = 5 + n + 3 * j by omega, show 4 + n + (3 * j + 2) = 6 + n + 3 * j by omega]

theorem isSome_replyOf_iff (d : Descriptor) (payload : List Byte) : (replyOf d payload).isSome = true ↔
    payload.length = 4 + d.inputSize + 3 * ((payload.getD (3 + d.inputSize) 0).toNat % 128) ∧
      faultListOk d (faultItemsOf (payload.drop (4 + d.inputSize))) = true := by
  unfold replyOf
  dsimp only
  split
  next h => exact iff_of_true rfl h
  next h => exact iff_of_false (fun he => by cases he) h

theorem isSome_replyOf (d : Descriptor) (payload : List Byte) : (replyOf d payload).isSome = true ↔ ReplyGood d payload := by
  rw [isSome_replyOf_iff, ReplyGood]
  refine and_congr_right fun hlength => ?_
  rw [faultItemsOf_drop hlength, faultListOk]
  simp only [Bool.and_eq_true, decide_eq_true_eq, List.length_map, List.length_range, List.all_map, List.all_eq_true,
    List.mem_range, Function.comp, List.map_map, and_assoc]
  refine and_congr_right fun _ => and_congr Iff.rfl ?_
  rw [nodup_map_range]
  exact forall₄_congr fun i _ j _ => not_congr (faultRank_itemAt payload d.inputSize i j)

theorem contentsOk_iff (s : State) (w : Flight) (k : FrameKind) (payload : List Byte) :
    s.contentsOk w k payload = true ↔ ContentsGood s w k payload := by
  cases k with
  | reply =>
    cases hj : w.job with
    | attempt v =>
      simp only [State.contentsOk, ContentsGood, hj]
      cases hd : (s.entry v.address).descriptor with
      | none => simp
      | some d => simp [isSome_replyOf]
    | _ => simp only [State.contentsOk, ContentsGood, hj]
  | paramAnswer =>
    cases hj : w.job with
    | exchange i a =>
      simp only [State.contentsOk, ContentsGood, hj]
      cases hi : s.slot i with
      | none => simp
      | some t => cases hkind : t.kind <;> simp [hkind]
    | _ => simp only [State.contentsOk, ContentsGood, hj]
  | serviceAnswer => exact serviceAnswerOk_iff payload
  | _ => exact iff_of_true rfl trivial

/-! ## The class of an error (R131) -/

theorem fieldsOf_none {s : State} {f : Frame} (h : ∀ k, ¬ FieldsGood s f k) : fieldsOf s.ownAddress f = none :=
  Option.eq_none_iff_forall_ne_some.2 fun k hk => h k (fieldsOf_iff.1 hk)

theorem classify_of_errorOn {s : State} {l : LineId} {abandoned : Bool} {octets : List Byte} {c : ErrorClass}
    (h : ErrorOn s l abandoned octets c) : s.classify l (receiveOctets abandoned octets) = .error c := by
  obtain hearly | ⟨f, hf, hsource, hlate⟩ := h
  · rw [hearly]
    rfl
  rw [hf, State.classify, if_neg hsource, State.classifyFields]
  obtain ⟨rfl, hfields⟩ | ⟨rfl, k, hfields, hother⟩ | ⟨rfl, k, w, hfields, hwindow, hdest, hanswers, hcontents⟩ := hlate
  · rw [fieldsOf_none hfields]
  · rw [fieldsOf_iff.2 hfields]
    dsimp only
    cases hwindow : s.openWindow l with
    | none => rfl
    | some w =>
      refine if_neg fun hboth => ?_
      exact (hother w hwindow).elim (fun hdest => hdest hboth.1) fun hnot => hnot ((mem_awaited_iff w k).1 hboth.2)
  · rw [fieldsOf_iff.2 hfields]
    dsimp only
    rw [hwindow]
    dsimp only
    rw [if_pos ⟨hdest, (mem_awaited_iff w k).2 hanswers⟩, if_neg fun hok => hcontents ((contentsOk_iff s w k _).1 hok)]

end Sys2Proof.Proofs
end

section
/-! PROOFS. Frames received, errors, the own address and the first octet of a frame (R87, R130 to R134). -/

namespace Sys2Proof.Proofs

open Sys2Proof.Machine Sys2Proof.Safety Sys2Proof.Laws

/-! ## The octets of a frame (R131 tests 1 to 3) -/

theorem receiveOctets_octets {f : Frame} (h : f.payload.length ≤ 80) : receiveOctets false f.octets = .ok f :=
  receiveOctets_checked f.dest f.source f.kind f.toggle f.payload h

theorem receiveOctets_malformed {octets : List Byte}
    (h : octets.length < 5 ∨ 80 < (octets.getD 4 0).toNat ∨ octets.length ≠ frameLength octets) :
    receiveOctets false octets = .error .malformed := by
  unfold receiveOctets
  rw [if_neg Bool.false_ne_true, if_pos]
  refine h.imp_right (Or.imp_right fun hlength => ?_)
  rwa [frameLength, show 7 + (octets.getD 4 0).toNat = 5 + (octets.getD 4 0).toNat + 2 by omega] at hlength

theorem receiveOctets_badCheck {octets : List Byte} (hshort : (octets.getD 4 0).toNat ≤ 80)
    (hlength : octets.length = frameLength octets) (hcheck : octets.drop (frameLength octets - 2) ≠
      wordOctets (frameCheck (octets.take (frameLength octets - 2)))) : receiveOctets false octets = .error .badCheck := by
  have hbody : frameLength octets - 2 = 5 + (octets.getD 4 0).toNat := by
    rw [frameLength]
    omega
  rw [hbody] at hcheck
  rw [frameLength] at hlength
  unfold receiveOctets
  dsimp only
  rw [if_neg Bool.false_ne_true, if_neg (by omega), if_pos hcheck]

/-! ## A frame received in each state of its line (R132) -/

section
variable {s : State} {l : LineId} {r : Except ErrorClass Frame} {c : ErrorClass} {f : Frame} {w : Flight}

theorem receive_disabled (h : (s.line l).state = .disabled) : s.receive l r = s := by
  simp only [State.receive, h]

theorem receive_quiet (h : (s.line l).state = .quiet) : s.receive l r = s.received l := by
  simp only [State.receive, h]

theorem receive_withdrawn (h : (s.line l).state = .withdrawn) (hr : s.classify l r ≠ .ownAddress) :
    s.receive l r = s.received l := by
  cases hc : s.classify l r with
  | ownAddress => exact absurd hc hr
  | _ => simp only [State.receive, h, hc, ite_self]

theorem receive_withdrawn_own (h : (s.line l).state = .withdrawn) (hmode : s.mode = .scanning ∨ s.mode = .held)
    (hr : s.classify l r = .ownAddress) : s.receive l r = (s.received l).seeOwnAddress l := by
  simp only [State.receive, h, (scans_iff s.mode).2 hmode, if_true, hr]

theorem receive_withdrawn_idle (h : (s.line l).state = .withdrawn) (hmode : s.mode = .offline ∨ s.mode = .standby) :
    s.receive l r = s.received l := by
  have hscans : s.mode.scans = false := by
    rcases hmode with hmode | hmode <;> rw [hmode] <;> rfl
  simp only [State.receive, h, hscans, Bool.false_eq_true, if_false]

theorem classify_own (hf : r = .ok f) (h : f.source = octet s.ownAddress.val) : s.classify l r = .ownAddress := by
  rw [hf]
  exact if_pos h

theorem classify_not_own (hf : r = .ok f) (h : f.source ≠ octet s.ownAddress.val) : s.classify l r ≠ .ownAddress := by
  rw [hf, State.classify, if_neg h]
  unfold State.classifyFields
  repeat' split
  all_goals exact Received.noConfusion

/-! ## An error (R130, R133, R134) -/

theorem takeClass_error_open (h : (s.lineError l c).scan.flight = some w) (f : Flight) :
    s.takeClass l (some f) (.error c) = (s.lineError l c).windowEnds w none := by
  simp only [State.takeClass, h]

theorem line_received (s : State) (l : LineId) : (s.received l).line l = { s.line l with receiving := false } :=
  line_setLine s l _

theorem lineError_received_below (c : ErrorClass) (h : (s.line l).errorCount + 1 < s.config.setup.errorLimit) :
    (s.received l).lineError l c = s.setLine l { s.line l with
      receiving := false, errorCount := (s.line l).errorCount + 1, lastError := some c
      totals := (s.line l).totals.count c } := by
  rw [lineError_below (s := s.received l) c (by rw [line_received, State.received, config_setLine]; exact h), line_received,
    State.received, setLine_setLine]
  rfl

theorem lineError_received_at_limit (c : ErrorClass) (hstate : (s.line l).state = .active)
    (h : s.config.setup.errorLimit ≤ (s.line l).errorCount + 1) :
    (s.received l).lineError l c = (((s.setLine l { s.line l with
        state := .withdrawn, receiving := false, errorCount := (s.line l).errorCount + 1, lastError := some c
        errorWindow := none, withdrawal := some s.config.setup.withdrawalTime
        figures := some ((s.line l).errorCount + 1, c)
        totals := { (s.line l).totals.count c with withdrawals := min 65535 ((s.line l).totals.withdrawals + 1) } }).setFlight
          (s.scan.flight.map (fun f => f.forget l))).beginCause
        { key := plainKey (.line l) .lineWithdrawn, extra := [octet ((s.line l).errorCount + 1), c.code] }).endGroup := by
  rw [lineError_at_limit (s := s.received l) c (by rw [line_received]; exact hstate)
    (by rw [line_received, State.received, config_setLine]; exact h), line_received, State.received, setLine_setLine,
    scan_setLine, config_setLine]

theorem takeClass_error_closed : s.takeClass l none (.error c) = s.lineError l c := rfl

/-- The silence of a window ends it alike, whatever the flight held and in whatever phase it stood (R130). -/
theorem windowEnds_silent (t : State) (w : Flight) : exec .replyWindowExpiry
    (t.setFlight (some { w with phase := .waiting })) = .next (t.windowEnds w none) :=
  (replyWindowExpiry_ends (f := { w with phase := .waiting }) rfl rfl).trans rfl

theorem scan_beginCause_endGroup (t : State) (k : Cause) : ((t.beginCause k).endGroup).scan = t.scan := by
  rw [((condOnly_beginCause t k).trans (condOnly_endGroup _)).1]

/-! ## The own address (R87) -/

theorem seeOwnAddress_stands {m : LineId} (h : s.own.standing = some m) :
    s.seeOwnAddress l = { s with own := { s.own with seen := true } } := by
  simp only [State.seeOwnAddress, h]

theorem seeOwnAddress_begins (h : s.own.standing = none) : s.seeOwnAddress l =
    (State.beginCause { s with own := { seen := true, standing := some l } }
      { key := plainKey .part .ownAddressConflict, extra := [lineCode (some l)] }).endGroup := by
  simp only [State.seeOwnAddress, h]

theorem with_scan {t u : State} (h : t.scan = u.scan) : t = { t with scan := u.scan } := by
  rw [← h]

theorem setFlight_with_scan {t u : State} (h : t.scan = u.scan) (x : Option Flight) :
    t.setFlight x = { t with scan := (u.setFlight x).scan } := by
  rw [State.setFlight, State.setFlight, h]

/-! ## The first octet (R130) -/

theorem firstOctet_disabled (h : (s.line l).state = .disabled) : s.firstOctet l = s := if_pos h

theorem firstOctet_plain (h : (s.line l).state ≠ .disabled) (hw : s.openWindow l = none ∨ (s.line l).state ≠ .active) :
    s.firstOctet l = s.setLine l { s.line l with receiving := true } := by
  unfold State.firstOctet
  rw [if_neg h]
  dsimp only
  cases hopen : s.openWindow l with
  | none => rfl
  | some f =>
    have hnot : (s.line l).state ≠ .active := hw.resolve_left fun hnone => by rw [hopen] at hnone; cases hnone
    dsimp only
    rw [lineActive_of_not hnot, if_neg Bool.false_ne_true]

theorem firstOctet_holds (h : (s.line l).state = .active) (hw : s.openWindow l = some w) :
    s.firstOctet l =
      (s.setLine l { s.line l with receiving := true }).setFlight (some { w with phase := .heldOpen }) := by
  unfold State.firstOctet
  rw [if_neg (by rw [h]; decide), hw]
  dsimp only
  rw [lineActive_of h, if_pos rfl]

end

/-- Settles O53: the tests of R131 give a frame its class, and the state of its line says what comes of it. -/
theorem framesAndErrors : Obligations.FramesAndErrors := by
  refine ⟨fun s c l f toggle hrow hlength hkind => ?row,
    fun s l source tag inputs code more items pads hpads hlength hsize => ?reply, fun f hlength => receiveOctets_octets hlength,
    fun octets => rfl, fun octets h => receiveOctets_malformed h, fun octets hshort hlength => receiveOctets_badCheck hshort hlength,
    fun s l abandoned octets => ?frame⟩
  case row =>
    rw [exec_rowFrame hrow hlength, ← receive_toggle s l f toggle hkind]
    show _ = Host.Outcome.next (s.receive l (receiveOctets false (checked f.dest f.source f.kind toggle f.payload)))
    rw [receiveOctets_checked _ _ _ _ _ hlength]
  case reply =>
    have hreplicate : (List.replicate items.length (0 : Byte)).length = items.length := List.length_replicate
    rw [exec_rowFrame (c := .reply l source tag inputs code more items) (l := l) rfl
      (by rw [length_replyPayload _ _ _ _ _ _ hreplicate]; exact hlength)]
    show _ = Host.Outcome.next (s.receive l (receiveOctets false (checked _ source 2 0 _)))
    rw [receiveOctets_checked _ _ _ _ _ (by rw [length_replyPayload _ _ _ _ _ _ hpads]; exact hlength),
      receive_pads s l _ source 0 tag inputs code more items pads _ hpads hreplicate hsize]
  case frame =>
    intro e rest x
    refine ⟨fun hstate => ?_, fun hstate => ?_, fun c herror => ?_, fun f hf hown => ?_, fun f hf hother hstate => ?_,
      fun hstate => ?_, fun hstate hclosed => ?_, fun f hstate hopen => ?_⟩
    · exact congrArg Host.Outcome.next (receive_disabled hstate)
    · exact congrArg Host.Outcome.next (receive_quiet hstate)
    · intro counted out without forgets withdrawn silent
      have hclass := classify_of_errorOn herror
      have hbelow : e.errorCount + 1 < s.config.setup.errorLimit → (s.received l).lineError l c = counted :=
        lineError_received_below c
      have hforget : (fun f => f.forget l) = forgets := funext fun f => (forget_eq f l).trans (by
        simp only [forgets, without] <;> rfl)
      have hlimit : e.state = .active → s.config.setup.errorLimit ≤ e.errorCount + 1 →
          (s.received l).lineError l c = withdrawn := fun hstate hmany => by
        rw [lineError_received_at_limit c hstate hmany, hforget]
      have hactive : e.state = .active →
          x = .next ((s.received l).takeClass l (s.openWindow l) (.error c)) := fun hstate =>
        congrArg Host.Outcome.next ((receive_active _ hstate).trans (by rw [hclass]))
      refine ⟨fun hstate => ?_, fun hstate hnone hfew => ?_, fun hstate hnone hmany _ => ?_, fun f hstate hopen hfew => ?_,
        fun f hstate hopen hmany _ => ?_⟩
      · exact congrArg Host.Outcome.next (receive_withdrawn hstate (by rw [hclass]; exact Received.noConfusion))
      · rw [hactive hstate, hnone, takeClass_error_closed, hbelow hfew]
      · rw [hactive hstate, hnone, takeClass_error_closed, hlimit hstate hmany]
      · have hflight : ((s.received l).lineError l c).scan.flight = some f := by
          rw [hbelow hfew, scan_setLine]
          exact flight_of_openWindow hopen
        rw [hactive hstate, hopen, takeClass_error_open hflight, hbelow hfew]
        exact (windowEnds_silent counted f).symm
      · have hflight : ((s.received l).lineError l c).scan.flight = some (forgets f) := by
          rw [hlimit hstate hmany]
          simp only [withdrawn]
          rw [scan_beginCause_endGroup]
          exact congrArg (Option.map forgets) (flight_of_openWindow hopen)
        rw [hactive hstate, hopen, takeClass_error_open hflight, hlimit hstate hmany]
        exact (windowEnds_silent withdrawn (forgets f)).symm
    · intro seen
      have hclass := classify_own (l := l) hf hown
      have hsame : (s.received l).own = s.own := own_setLine s l rest
      have hstands : ∀ m, s.own.standing = some m →
          (s.received l).seeOwnAddress l = { s.received l with own := { s.own with seen := true } } := fun m hm => by
        rw [seeOwnAddress_stands (m := m) (by rw [hsame]; exact hm), hsame]
      have hbegins := fun hnone : s.own.standing = none =>
        seeOwnAddress_begins (s := s.received l) (l := l) (by rw [hsame]; exact hnone)
      have hseen : seen (s.received l) (.next ((s.received l).seeOwnAddress l)) := by
        refine ⟨fun m hm => congrArg Host.Outcome.next (hstands m hm), fun hnone => ⟨_, rfl, ?_⟩⟩
        rw [hbegins hnone]
        exact congrArg Host.Outcome.next (with_scan (scan_beginCause_endGroup _ _))
      refine ⟨fun hstate hnone _ => ?_, fun w hstate hopen _ => ?_, fun hstate hmode _ => ?_, fun hstate hmode => ?_⟩
      · have hx : x = .next ((s.received l).seeOwnAddress l) :=
          congrArg Host.Outcome.next ((receive_active _ hstate).trans (by rw [hclass, hnone]; rfl))
        rw [hx]
        exact hseen
      · have hx : x = .next (((s.received l).seeOwnAddress l).setFlight (some { w with phase := .waiting })) :=
          congrArg Host.Outcome.next ((receive_active _ hstate).trans (by rw [hclass, hopen]; rfl))
        rw [hx]
        refine ⟨fun m hm => by rw [hstands m hm]; rfl, fun hnone => ⟨_, rfl, ?_⟩⟩
        rw [hbegins hnone]
        exact congrArg Host.Outcome.next (setFlight_with_scan (scan_beginCause_endGroup _ _) _)
      · have hx : x = .next ((s.received l).seeOwnAddress l) :=
          congrArg Host.Outcome.next (receive_withdrawn_own hstate hmode hclass)
        rw [hx]
        exact hseen
      · exact congrArg Host.Outcome.next (receive_withdrawn_idle hstate hmode)
    · exact congrArg Host.Outcome.next (receive_withdrawn hstate (classify_not_own hf hother))
    · exact congrArg Host.Outcome.next (firstOctet_disabled hstate)
    · exact congrArg Host.Outcome.next (firstOctet_plain hstate hclosed)
    · exact congrArg Host.Outcome.next (firstOctet_holds hstate hopen)

end Sys2Proof.Proofs
end
